-- ==== Sys2Proof/Word.lean ====
section
/-! DEFINITION. The words and line values of the ddcproxy I2C bus controller (spec/00_scope.md R9, R10):
bytes, 32-bit host words, 12-bit window offsets, what an agent drives on a line and what a line reads as. -/

namespace Sys2Proof

/-- A byte, unsigned 0..255 (R9). -/
abbrev Byte := BitVec 8

/-- A 32-bit word of the host window (spec/20_memory.md R60). -/
abbrev Word := BitVec 32

/-- An offset in the 4096-byte host window (R60). -/
abbrev Offset := BitVec 12

/-- What one agent does with an open-drain line: sink it, or leave it to the pull-up (R10). -/
inductive Drive where
  | low
  | released
deriving DecidableEq, Repr, Inhabited

/-- The level a line has when it is sampled (R10). -/
inductive Level where
  | low
  | high
deriving DecidableEq, Repr, Inhabited

/-- One agent's drive on both lines: the block's outputs (spec/10_state.md R21) or the peer's draw (R22). -/
structure Drives where
  sda : Drive
  scl : Drive
deriving DecidableEq, Repr, Inhabited

/-- Both lines left to their pull-ups. -/
def Drives.released : Drives := ⟨.released, .released⟩

/-- Both line levels of one atomic sample (R22). -/
structure Levels where
  sda : Level
  scl : Level
deriving DecidableEq, Repr, Inhabited

/-- In arithmetic Low is 0 and High is 1 (R10). -/
def Level.toBool : Level → Bool
  | .low => false
  | .high => true

end Sys2Proof
end

