-- ==== Sys2Proof/Syntax.lean ====
section
/-! DEFINITION. The 16 commands of spec/30_encoding.md R92, one constructor per row of spec/opcode_table.json. -/

namespace Sys2Proof

/-- A command of the block. The only operand is the unsigned byte `imm8` (R91). -/
inductive Instr where
  /-- M_START (spec/40_engine_master.md R114). -/
  | mStart
  /-- M_STOP (R115). -/
  | mStop
  /-- M_SEND_BYTE b (R116). -/
  | mSendByte (b : Byte)
  /-- M_RECV_BYTE (R117). -/
  | mRecvByte
  /-- M_ACK (R118). -/
  | mAck
  /-- M_NACK (R119). -/
  | mNack
  /-- S_GET_BYTE (spec/41_engine_slave.md R140). -/
  | sGetByte
  /-- S_SEND_TO_MASTER b (R143). -/
  | sSendToMaster (b : Byte)
  /-- DDC_BUILD n (spec/42_codec_ddcci.md R155). -/
  | ddcBuild (n : Byte)
  /-- DDC_RXCHECK (R157). -/
  | ddcRxcheck
  /-- LEN_CHECK L (R152). -/
  | lenCheck (l : Byte)
  /-- EDID_FILLSUM (spec/43_codec_edid.md R177). -/
  | edidFillsum
  /-- EDID_VALIDATE (R178). -/
  | edidValidate
  /-- DDC_WRITE n (R160). -/
  | ddcWrite (n : Byte)
  /-- DDC_READ (R161). -/
  | ddcRead
  /-- EDID_READ (R180). -/
  | edidRead
deriving DecidableEq, Repr

/-- The opcode of a command (R92, column `op`). -/
def Instr.opcode : Instr → Byte
  | .mStart => 0x10
  | .mStop => 0x11
  | .mSendByte _ => 0x12
  | .mRecvByte => 0x13
  | .mAck => 0x14
  | .mNack => 0x15
  | .sGetByte => 0x20
  | .sSendToMaster _ => 0x21
  | .ddcBuild _ => 0x30
  | .ddcRxcheck => 0x31
  | .lenCheck _ => 0x32
  | .edidFillsum => 0x33
  | .edidValidate => 0x34
  | .ddcWrite _ => 0x40
  | .ddcRead => 0x41
  | .edidRead => 0x42

/-- The operand of a command, where it has one (R91, R92). -/
def Instr.operand : Instr → Option Byte
  | .mStart => none
  | .mStop => none
  | .mSendByte b => some b
  | .mRecvByte => none
  | .mAck => none
  | .mNack => none
  | .sGetByte => none
  | .sSendToMaster b => some b
  | .ddcBuild n => some n
  | .ddcRxcheck => none
  | .lenCheck l => some l
  | .edidFillsum => none
  | .edidValidate => none
  | .ddcWrite n => some n
  | .ddcRead => none
  | .edidRead => none

end Sys2Proof
end

