-- ==== Sys2Proof/WellFormed.lean ====
section
/-! DEFINITION. When a command word is legal (spec/30_encoding.md R90, R92, R93, R94): its opcode is in the opcode map,
its reserved bits are 0, and its `imm8` is 0 where the command has no operand. -/

namespace Sys2Proof

/-- `op`, bits [7:0] of a command word (R90). -/
def opField (w : Word) : Byte := w.extractLsb' 0 8

/-- `imm8`, bits [15:8] of a command word (R90). -/
def immField (w : Word) : Byte := w.extractLsb' 8 8

/-- `rsv`, bits [31:16] of a command word (R90). -/
def rsvField (w : Word) : BitVec 16 := w.extractLsb' 16 16

/-- The opcodes of commands with an operand (R92). -/
def operandOpcodes : List Byte := [0x12, 0x21, 0x30, 0x32, 0x40]

/-- The opcodes of commands without one (R92). -/
def plainOpcodes : List Byte := [0x10, 0x11, 0x13, 0x14, 0x15, 0x20, 0x31, 0x33, 0x34, 0x41, 0x42]

/-- The opcode is a row of R92 (R94, first case; R95). -/
def opcodeListed (w : Word) : Bool := (operandOpcodes ++ plainOpcodes).contains (opField w)

/-- `w[31:16] = 0` (R94, second case). -/
def reservedClear (w : Word) : Bool := rsvField w == 0

/-- `imm8 = 0` unless the command has an operand (R94, third case). -/
def operandExpected (w : Word) : Bool := immField w == 0 || operandOpcodes.contains (opField w)

/-- A word that R94 does not call illegal. -/
def legalWord (w : Word) : Bool := opcodeListed w && reservedClear w && operandExpected w

/-- A command as a term: it carries an operand exactly when its opcode takes one. Its operand is a byte by its type (R91),
so every term of `Instr` is well formed (`Laws/Encoding.lean`); the checks that can fail are those of `legalWord`. -/
def Instr.wellFormed (i : Instr) : Bool :=
  match i.operand with
  | some _ => operandOpcodes.contains i.opcode
  | none => plainOpcodes.contains i.opcode

end Sys2Proof
end

