-- ==== Sys2Proof/Decode.lean ====
section
/-! DEFINITION. The decoder of command words and the encoder (spec/30_encoding.md R90-R98). One 32-bit word is one command
(R97). The word is taken whole from a CMD write, so there is no byte order (spec/20_memory.md R68). -/

namespace Sys2Proof

/-- Why a word is an illegal command (R94). Every one of them finishes with ILLEGAL_COMMAND. -/
inductive Illegal where
  /-- An opcode not in the table (R95). -/
  | reservedOpcode (op : Byte)
  /-- `w[31:16] ≠ 0`. -/
  | reservedBits
  /-- `imm8 ≠ 0` for a command without an operand. -/
  | strayOperand
deriving DecidableEq, Repr

/-- A row without an operand: its `imm8` must be 0 (R93, mask 0xFFFFFFFF). -/
def plainRow (i : Instr) (imm : Byte) : Except Illegal Instr :=
  if imm = 0 then .ok i else .error .strayOperand

/-- The opcode map (R92): the row that an opcode selects, with its operand. -/
def opcodeRow (op imm : Byte) : Except Illegal Instr :=
  match op with
  | 0x10#8 => plainRow .mStart imm
  | 0x11#8 => plainRow .mStop imm
  | 0x12#8 => .ok (.mSendByte imm)
  | 0x13#8 => plainRow .mRecvByte imm
  | 0x14#8 => plainRow .mAck imm
  | 0x15#8 => plainRow .mNack imm
  | 0x20#8 => plainRow .sGetByte imm
  | 0x21#8 => .ok (.sSendToMaster imm)
  | 0x30#8 => .ok (.ddcBuild imm)
  | 0x31#8 => plainRow .ddcRxcheck imm
  | 0x32#8 => .ok (.lenCheck imm)
  | 0x33#8 => plainRow .edidFillsum imm
  | 0x34#8 => plainRow .edidValidate imm
  | 0x40#8 => .ok (.ddcWrite imm)
  | 0x41#8 => plainRow .ddcRead imm
  | 0x42#8 => plainRow .edidRead imm
  | _ => .error (.reservedOpcode op)

/-- The command a word stands for, or why it is illegal (R93, R94). CTRL.MODE has no part in it (R97). -/
def decode (w : Word) : Except Illegal Instr :=
  if rsvField w = 0 then opcodeRow (opField w) (immField w) else .error .reservedBits

/-- The decoder over the opcode table's numbering: bit 0 is the word's least significant bit. -/
def decodeTableWord (nbits w : Nat) : Option Instr :=
  (decode (BitVec.ofNat 32 (w % 2 ^ nbits))).toOption

/-- The word a command is written as: `(imm << 8) | op` (R98), with imm 0 where there is no operand. -/
def encode (i : Instr) : Word :=
  (i.operand.getD 0).setWidth 32 <<< 8 ||| i.opcode.setWidth 32

/-- One row of the opcode map as R93 gives it: the bits that are fixed and their values. -/
structure OpcodePattern where
  mnemonic : String
  pattern : Word
  mask : Word
deriving DecidableEq, Repr

/-- R93: without an operand every bit is fixed. -/
def plainPattern (name : String) (op : Word) : OpcodePattern := ⟨name, op, 0xFFFFFFFF⟩

/-- R93: with an operand bits [15:8] are free. -/
def operandPattern (name : String) (op : Word) : OpcodePattern := ⟨name, op, 0xFFFF00FF⟩

/-- The rows of R92 under R93, in the table's order. -/
def opcodePatterns : List OpcodePattern :=
  [plainPattern "M_START" 0x10, plainPattern "M_STOP" 0x11, operandPattern "M_SEND_BYTE" 0x12,
   plainPattern "M_RECV_BYTE" 0x13, plainPattern "M_ACK" 0x14, plainPattern "M_NACK" 0x15,
   plainPattern "S_GET_BYTE" 0x20, operandPattern "S_SEND_TO_MASTER" 0x21, operandPattern "DDC_BUILD" 0x30,
   plainPattern "DDC_RXCHECK" 0x31, operandPattern "LEN_CHECK" 0x32, plainPattern "EDID_FILLSUM" 0x33,
   plainPattern "EDID_VALIDATE" 0x34, operandPattern "DDC_WRITE" 0x40, plainPattern "DDC_READ" 0x41,
   plainPattern "EDID_READ" 0x42]

/-- A word selects a row when `(w & mask) = match` (R93). -/
def OpcodePattern.selects (r : OpcodePattern) (w : Word) : Bool := w &&& r.mask == r.pattern

/-- A command's mnemonic (R92). -/
def mnemonic : Instr → String
  | .mStart => "M_START"
  | .mStop => "M_STOP"
  | .mSendByte _ => "M_SEND_BYTE"
  | .mRecvByte => "M_RECV_BYTE"
  | .mAck => "M_ACK"
  | .mNack => "M_NACK"
  | .sGetByte => "S_GET_BYTE"
  | .sSendToMaster _ => "S_SEND_TO_MASTER"
  | .ddcBuild _ => "DDC_BUILD"
  | .ddcRxcheck => "DDC_RXCHECK"
  | .lenCheck _ => "LEN_CHECK"
  | .edidFillsum => "EDID_FILLSUM"
  | .edidValidate => "EDID_VALIDATE"
  | .ddcWrite _ => "DDC_WRITE"
  | .ddcRead => "DDC_READ"
  | .edidRead => "EDID_READ"

end Sys2Proof
end

