-- ==== Sys2Proof/Config.lean ====
section
/-! DEFINITION. What the spec leaves free: the bus peer's drive, where no script of it is listed
(spec/10_state.md R22, spec/93_implementation_defined.md U3), and where the host window sits (U9). The block's other
parameters are registers (spec/00_scope.md R7); the constants of the codec stand with the codec
(Machine/Operands.lean, Machine/Codec.lean). -/

namespace Sys2Proof.Config

/-- The peer's drive on both lines of copy u of the block at its n-th free draw, as `peerDrive u n`: each copy owns its own
two lines (spec/60_exceptions.md R212). R22: "No law constrains the draw", so it has no body. Assumption log 1. -/
opaque peerDrive : Nat → Nat → Drives

/-- `WINDOW_BASE` of each copy of the block, the place of its window in the host's own address space
(spec/20_memory.md R79): it tells the copies apart (R212), and is left to the platform, so it has no body. The count of the
copies, `N_INSTANCES`, is an argument (Machine/System.lean). Assumption log 13. -/
opaque windowBase : Nat → Nat

end Sys2Proof.Config
end

