-- ==== Sys2Proof/Machine/State.lean ====
section
/-! DEFINITION. The state of one instance of the block (spec/10_state.md R20-R48), the position of its command sequencer
(R40), the two other agents as inputs (spec/00_scope.md R8), the ways a step can stop, and the state right after reset
(spec/70_reset_and_hazards.md R230). Plain data throughout. -/

namespace Sys2Proof.Machine

/-- CTRL.MODE (R26): 0 Master, 1 Slave. -/
inductive Mode where
  | master
  | slave
deriving DecidableEq, Repr

/-- The fields of CTRL (R26). -/
structure Ctrl where
  mode : Mode
  b2b : Bool
  stretch : Bool
deriving DecidableEq, Repr

/-- STATUS.RESULT (spec/60_exceptions.md R201). The reserved codes 0xB..0xF are never produced, so they are no value
of this type. -/
inductive Result where
  | ok
  | noack
  | unexpectedStart
  | unexpectedStop
  | invalidChecksum
  | invalidLength
  | headerNotFound
  | busTimeout
  | nullMessage
  | illegalCommand
  | modeError
deriving DecidableEq, Repr

/-- The fields of STATUS (R31). -/
structure Status where
  busy : Bool
  dropped : Bool
  result : Result
deriving DecidableEq, Repr

/-- The fields of RXDATA (R32). -/
structure RxData where
  byte : Byte
  first : Bool
deriving DecidableEq, Repr

/-- `st`, the SlaveAutomatonState (R39). The codes 6 and 7 of AUTOMATON.st never occur (R35). -/
inductive SlaveState where
  | waitStart
  | start
  | clockAvailable
  | data
  | ack
  | ackDone
deriving DecidableEq, Repr

/-- The slave automaton variables (R39). -/
structure Automaton where
  st : SlaveState
  count : Nat
  shreg : Byte
  first : Bool
  prev : Levels
deriving DecidableEq, Repr

/-- The EDID-read working variables (R46); `pass` is true on the second pass. -/
structure EdidVars where
  cursor : Option Nat
  validated : Bool
  resynced : Bool
  pass : Bool
deriving DecidableEq, Repr

/-- The three byte buffers (R42, R43, R44). -/
inductive Buffer where
  | tx
  | rx
  | edid
deriving DecidableEq, Repr

/-- The event of one line between two samples (spec/00_scope.md R13). -/
inductive Event where
  | low
  | high
  | rising
  | falling
deriving DecidableEq, Repr

/-- One step of the command sequencer: a primitive of R11, or a test of a command's pseudocode. The running command's
position (R40) is the list of those that are left. A test takes a position of its own and changes nothing but the
position (assumption log 5); what each does is `runMicro` in Machine/Sequencer.lean. -/
inductive Micro where
  /-- `SetSDA(v)` (R11, R21). -/
  | setSda (v : Drive)
  /-- `SetSCL(v)` (R11, R21). -/
  | setScl (v : Drive)
  /-- `Delay()` (R11, R24). -/
  | delay
  /-- The test of `ClockLowGuard()` (R110). -/
  | clockLowGuard
  /-- One poll of `ReleaseSCLAndWait()` with its counter (R111), and `BusTimeoutAbort()` at the bound (R112). -/
  | pollScl (k : Nat)
  /-- `(sda, _) <- Sample()` for the ACK bit (R116). -/
  | sampleAck
  /-- `r <- 0` (R117). -/
  | clearAcc
  /-- `(sda, _) <- Sample(); r[i] <- sda` (R117). -/
  | sampleBit (i : Nat)
  /-- `RXDATA[7:0] <- r` (R117). -/
  | rxByteFromAcc
  /-- `RXDATA[8] <- b` (R117). -/
  | rxFirst (b : Bool)
  /-- `if scl_out = Low then SetSCL(Released)` (R138, R140). -/
  | releaseStretch
  /-- `if scl_out = Low then Delay(); SetSCL(Released)` (R138, R143). -/
  | releaseStretchDelayed
  /-- `cur <- Sample()` of `SlaveStep()` in S_GET_BYTE, and the events in local names that choose its row (R130-R134,
  R140). -/
  | getSample
  /-- `cur <- Sample()` of `SlaveStep()` in `WaitClock(e)`, and the events in local names that its tests use (R130,
  R142). -/
  | waitSample (e : Event)
  /-- `prev <- cur` (R130), `cur` being the sample just taken. -/
  | setPrev (cur : Levels)
  /-- `c <- ` the sample that `WaitClock` returned, of which only `c.sda = Low` is used (R143). -/
  | latchAck
  /-- `st <- x`. -/
  | setSt (x : SlaveState)
  /-- `count <- n`. -/
  | setCount (n : Nat)
  /-- `shreg <- b`. -/
  | setShreg (b : Byte)
  /-- `first <- b`. -/
  | setFirst (b : Bool)
  /-- `shreg[count-1] <- cur.sda` (R134). -/
  | shiftIn (l : Level)
  /-- `count <- count - 1` (R134). -/
  | decCount
  /-- `RXDATA[7:0] <- shreg` (R135). -/
  | rxByteFromShreg
  /-- `RXDATA[8] <- first` (R135). -/
  | rxFirstFromFirst
  /-- `if CTRL.B2B = 1 then st <- ClockAvailable else st <- WaitStart` (R135). -/
  | setStAfterByte
  /-- `ApplyStretch()` (R137). -/
  | applyStretch
  /-- The final test of S_SEND_TO_MASTER (R143). -/
  | sendToMasterEnd
  /-- `b[i] <- v` with a constant (R155). -/
  | store (b : Buffer) (i : Nat) (v : Byte)
  /-- `b[i..] <- bs` with constants, all in one step: `EDIDBUF[0..7] <- HEADER` (R181). -/
  | storeAll (b : Buffer) (i : Nat) (bs : List Byte)
  /-- `b[i] <- ` the byte at hand (R155, R161, R177). -/
  | storeAcc (b : Buffer) (i : Nat)
  /-- `s <- txsum(n)` (R153, R155). -/
  | txsum (n : Nat)
  /-- `s <- rxsum(n)` (R154, R157). -/
  | rxsum (n : Nat)
  /-- `CHKSUM <- ` the byte at hand. -/
  | chksumFromAcc
  /-- `FRAMELEN <- n`. -/
  | setFrameLen (n : Nat)
  /-- The call `MSend(TXBUF[j])` (R160). -/
  | sendTx (j : Nat)
  /-- `case classify(RXBUF[1]) of` in DDC_RXCHECK (R157). -/
  | rxcheckLength
  /-- `case classify(L) of` in DDC_READ (R161). -/
  | readLength
  /-- `if s = RXBUF[2+n] then finish(OK) else finish(INVALID_CHECKSUM)` (R157, R161). -/
  | rxVerdict (n : Nat)
  /-- `c <- edidsum(EDIDBUF)` (R176, R177). -/
  | edidsum
  /-- `T <- (EDIDBUF[0] + … + EDIDBUF[127]) mod 256` (R178). -/
  | edidTotal
  /-- The tests of EDID_VALIDATE (R178). -/
  | edidVerdict
  /-- `pass <- b` (R180). -/
  | setPass (b : Bool)
  /-- `cursor <- c` (R180, R181). -/
  | setCursor (c : Option Nat)
  /-- `validated <- b` (R180). -/
  | setValidated (b : Bool)
  /-- `resynced <- b` (R180). -/
  | setResynced (b : Bool)
  /-- `while cursor ≠ 127` (R180). -/
  | edidWhile
  /-- `EDIDBUF[c] <- ` the received byte, c the next index (R180). -/
  | edidStore
  /-- `cursor <- c` (R180). -/
  | edidAdvance
  /-- `if validated = 0 and hdr_at(c)` (R179, R180). -/
  | edidMatch
  /-- `if cursor = 127 then MAckBit(Released) else MAckBit(Low)` (R180). -/
  | edidAckByte
  /-- The tests after a pass (R180, R182). -/
  | edidPassEnd
  /-- `if not MSend(…) then MStop(); finish(NOACK)` (R160, R161, R180). -/
  | stopIfNack
  /-- `finish(code)` (R11). -/
  | finish (r : Result)
  /-- `if MSend(…) then finish(OK) else finish(NOACK)` (R116). -/
  | finishAck
deriving DecidableEq, Repr

/-- The command sequencer (R40): what is left of the running command, and its two local variables: the byte at hand
(`r`, `L`, `s`, `c` or `T` of the pseudocode) and whether the last ACK sample read Low. -/
structure Sequencer where
  todo : List Micro
  acc : Byte
  ack : Bool
deriving DecidableEq, Repr

/-- No running command (R48: "none (BUSY = 0)"). -/
def Sequencer.none : Sequencer := ⟨[], 0, false⟩

/-- One act of the host (spec/20_memory.md R60, R61), a WAIT (spec/30_encoding.md R103), or the platform's reset input
(spec/70_reset_and_hazards.md R230). `size` is in bytes. -/
inductive HostAct where
  | read (off : Offset) (size : Nat)
  | write (off : Offset) (size : Nat) (v : Word)
  | wait
  | reset
deriving DecidableEq, Repr

/-- A host act, and how many steps of the controller come after it before the host's next act. -/
structure HostTurn where
  act : HostAct
  quiet : Nat
deriving DecidableEq, Repr

/-- The two other agents (R8) as inputs: which copy of the block this is, and so which lines and window are its own
(spec/60_exceptions.md R212); the peer's script (its drive at the coming samples, in order), how many free
draws were made once the script was used up, the host's coming acts, how many controller steps come before the next of
them, and the value of the host's last read. The MODEL's own fields (assumption log 1, 4,
8, 13). -/
structure Env where
  unit : Nat
  peer : List Drives
  draws : Nat
  host : List HostTurn
  quiet : Nat
  rdata : Word
deriving DecidableEq, Repr

/-- The state of one instance (R20) and its inputs. `mem` holds the buffers: a byte of TXBUF, RXBUF or EDIDBUF stands at
its window offset (spec/20_memory.md R62), and a byte that is not listed carries no written mark (R45). -/
structure State where
  /-- `sda_out`, `scl_out` (R21). -/
  out : Drives
  /-- CTRL (R26). -/
  ctrl : Ctrl
  /-- BITDELAY.BIT_DELAY (R28). -/
  bitDelay : BitVec 16
  /-- TIMEOUT.STRETCH_LIMIT (R29). -/
  timeout : BitVec 16
  /-- CMD (R30). -/
  cmd : Word
  /-- STATUS (R31). -/
  status : Status
  /-- RXDATA (R32). -/
  rxData : RxData
  /-- CHKSUM (R33). -/
  chksum : Byte
  /-- FRAMELEN (R34). -/
  frameLen : BitVec 6
  /-- The slave automaton (R39), which AUTOMATON shows (R35). -/
  auto : Automaton
  /-- The EDID-read variables (R46), which EDIDINFO shows (R37). -/
  edid : EdidVars
  /-- TXBUF, RXBUF and EDIDBUF with their written marks (R42-R45). -/
  mem : List Host.Cell
  /-- The sequencer position (R40). -/
  seq : Sequencer
  /-- The host and the bus peer as inputs (R8). -/
  env : Env
deriving DecidableEq, Repr

/-- Why the machine stops with a fault. Both are the model fault of R45 (spec/93_implementation_defined.md U1); both
are safe: no property can rest on the contents of a byte that nothing has written. -/
inductive Fault where
  /-- A host read of a buffer byte with no written mark, raised by `hostRead` (R45, R63). Safe. -/
  | hostReadUnmarked (off : Nat)
  /-- A command that reads a buffer byte with no written mark, raised by `readByte` (R45, R69). Safe. -/
  | commandReadUnmarked (off : Nat)
deriving DecidableEq, Repr

/-- Why a step is refused. -/
inductive Refusal where
  /-- An instruction with no meaning in this model. No arm of `exec` answers with it. Safe. -/
  | notModelled (mnemonic : String)
  /-- A host access that is not an aligned 32-bit one, raised by `hostTurn`: "any other access is refused" (R61, R240;
  spec/93_implementation_defined.md U2). Safe. -/
  | accessNotAdmitted (off : Nat) (size : Nat)
deriving DecidableEq, Repr

/-- What a step answers. -/
abbrev Outcome := Host.Outcome State Fault Refusal

/-- The level of an open-drain line that two agents drive: wired-AND (R22). -/
def lineLevel (block peer : Drive) : Level :=
  match block, peer with
  | .released, .released => .high
  | _, _ => .low

/-- Both levels of a sample, from the block's outputs and the peer's draw (R22). -/
def levelsOf (block peer : Drives) : Levels :=
  ⟨lineLevel block.sda peer.sda, lineLevel block.scl peer.scl⟩

/-- The automaton at the start of a session, with its first sample (R27, R39, R48). -/
def Automaton.fresh (prev : Levels) : Automaton := ⟨.waitStart, 8, 0, false, prev⟩

/-- Copy u of the block right after reset (R48, spec/70_reset_and_hazards.md R230), with nothing listed of the host and the
peer. `prev` is the one `Sample()` of R230 (5): the peer's script is empty, so it is the free draw number 0
(assumption log 1, 2). -/
def State.resetOn (u : Nat) : State where
  out := Drives.released
  ctrl := ⟨.master, false, false⟩
  bitDelay := 5
  timeout := 10000
  cmd := 0
  status := ⟨false, false, .ok⟩
  rxData := ⟨0, false⟩
  chksum := 0
  frameLen := 0
  auto := Automaton.fresh (levelsOf Drives.released (Config.peerDrive u 0))
  edid := ⟨none, false, false, false⟩
  mem := []
  seq := Sequencer.none
  env := ⟨u, [], 1, [], 0, 0⟩

/-- The machine right after reset: one copy of the block, number 0 (R212; assumption log 13). -/
def State.reset : State := State.resetOn 0

end Sys2Proof.Machine
end

