-- ==== Sys2Proof/Machine/Flags.lean ====
section
/-! DEFINITION. Events and conditions on the lines (spec/00_scope.md R13, spec/41_engine_slave.md R131) and the words in
which the block's status flags are seen (spec/10_state.md R31, R35, R36, R37, R47; spec/60_exceptions.md R201). -/

namespace Sys2Proof.Machine

/-- The event of one line between two successive samples: the canonical edge detector (R13). -/
def lineEvent (previous current : Level) : Event :=
  match previous, current with
  | .low, .low => .low
  | .high, .high => .high
  | .low, .high => .rising
  | .high, .low => .falling

/-- A sample pair is a START condition: SDA falls, SCL High in both samples (R131). -/
def isStart (previous current : Levels) : Bool :=
  lineEvent previous.sda current.sda == .falling && lineEvent previous.scl current.scl == .high

/-- A sample pair is a STOP condition: SDA rises, SCL High in both samples (R131). -/
def isStop (previous current : Levels) : Bool :=
  lineEvent previous.sda current.sda == .rising && lineEvent previous.scl current.scl == .high

/-- The code of a result (R201). -/
def Result.code : Result → BitVec 4
  | .ok => 0x0
  | .noack => 0x1
  | .unexpectedStart => 0x2
  | .unexpectedStop => 0x3
  | .invalidChecksum => 0x4
  | .invalidLength => 0x5
  | .headerNotFound => 0x6
  | .busTimeout => 0x7
  | .nullMessage => 0x8
  | .illegalCommand => 0x9
  | .modeError => 0xA

/-- The code of an automaton state (R35). -/
def SlaveState.code : SlaveState → BitVec 3
  | .waitStart => 0
  | .start => 1
  | .clockAvailable => 2
  | .data => 3
  | .ack => 4
  | .ackDone => 5

/-- A one-bit field of a register, at its bit position. -/
def flagAt (b : Bool) (i : Nat) : Word := (BitVec.ofBool b).setWidth 32 <<< i

/-- A wider field of a register, at its lowest bit position. -/
def fieldAt {w : Nat} (v : BitVec w) (i : Nat) : Word := v.setWidth 32 <<< i

/-- CTRL as the host reads it (R26). -/
def ctrlWord (c : Ctrl) : Word :=
  flagAt (c.mode == .slave) 0 ||| flagAt c.b2b 1 ||| flagAt c.stretch 2

/-- The fields that a word written to CTRL holds (R26); bits [31:3] are ignored. -/
def ctrlOfWord (v : Word) : Ctrl :=
  ⟨if v.getLsbD 0 then .slave else .master, v.getLsbD 1, v.getLsbD 2⟩

/-- STATUS as the host reads it (R31). -/
def statusWord (x : Status) : Word :=
  flagAt x.busy 0 ||| flagAt x.dropped 1 ||| fieldAt x.result.code 4

/-- RXDATA as the host reads it (R32). -/
def rxDataWord (x : RxData) : Word := fieldAt x.byte 0 ||| flagAt x.first 8

/-- AUTOMATON as the host reads it (R35). -/
def automatonWord (a : Automaton) : Word :=
  fieldAt a.st.code 0 ||| fieldAt (BitVec.ofNat 4 a.count) 4 ||| fieldAt a.shreg 8
    ||| flagAt a.prev.sda.toBool 16 ||| flagAt a.prev.scl.toBool 17 ||| flagAt a.first 18

/-- LINES as a read returns it, from the levels it sampled and the block's outputs (R36). -/
def linesWord (l : Levels) (out : Drives) : Word :=
  flagAt l.sda.toBool 0 ||| flagAt l.scl.toBool 1
    ||| flagAt (out.sda == .released) 2 ||| flagAt (out.scl == .released) 3

/-- The CURSOR field of EDIDINFO: 0xFF means none (R37). -/
def cursorField (c : Option Nat) : Byte :=
  match c with
  | none => 0xFF
  | some i => BitVec.ofNat 8 i

/-- EDIDINFO as the host reads it (R37). -/
def edidInfoWord (e : EdidVars) : Word :=
  fieldAt (cursorField e.cursor) 0 ||| flagAt e.validated 8 ||| flagAt e.resynced 9 ||| flagAt e.pass 10

end Sys2Proof.Machine
end

