-- ==== Sys2Proof/Machine/Ops.lean ====
section
/-! DEFINITION. The named operations over the state: the lines and their samples (spec/10_state.md R21-R23), the buffers with
their written marks (R42-R45, spec/20_memory.md R63, R69), the sequencer's position (R40), and the two ways out of a
command: `finish` (spec/00_scope.md R11), "this spec's form of raise", and `BusTimeoutAbort` (spec/40_engine_master.md R112). -/

namespace Sys2Proof.Machine

/-! ### Lines -/

/-- `SetSDA(v)` (R21). -/
def State.setSda (s : State) (v : Drive) : State := { s with out := { s.out with sda := v } }

/-- `SetSCL(v)` (R21). -/
def State.setScl (s : State) (v : Drive) : State := { s with out := { s.out with scl := v } }

/-- The peer's drive at the next sample: the next of its script, or a free draw once the script is used up (R22;
assumption log 1). -/
def State.peerDrive (s : State) : Drives :=
  match s.env.peer with
  | d :: _ => d
  | [] => Config.peerDrive s.env.unit s.env.draws

/-- The peer's drive has been drawn: the script moves on, or the free draws do. -/
def State.drawn (s : State) : State :=
  match s.env.peer with
  | _ :: ds => { s with env := { s.env with peer := ds } }
  | [] => { s with env := { s.env with draws := s.env.draws + 1 } }

/-- The levels that `Sample()` returns now (R22). -/
def State.levels (s : State) : Levels := levelsOf s.out s.peerDrive

/-- `Sample()` (R22): both levels, in one atomic step. It changes nothing of the block. -/
def State.sample (s : State) : Levels × State := (s.levels, s.drawn)

/-! ### Buffers -/

/-- Where a buffer begins in the window (spec/20_memory.md R62). -/
def Buffer.base : Buffer → Nat
  | .tx => 0x100
  | .rx => 0x200
  | .edid => 0x400

/-- How many bytes a buffer holds (R42, R43, R44). -/
def Buffer.size : Buffer → Nat
  | .tx => 40
  | .rx => 40
  | .edid => 128

/-- The window offset of byte i of a buffer: one byte per 32-bit word (R62, R63). -/
def Buffer.addr (b : Buffer) (i : Nat) : Nat := b.base + 4 * i

/-- The byte at a window offset, or none where it carries no written mark (R45). This is what an unlisted address reads
as: no value (assumption log 3). -/
def Memory.read (m : List Host.Cell) (a : Nat) : Option Byte :=
  match m with
  | [] => none
  | (b, v) :: rest => if a = b then some v else Memory.read rest a

/-- Store a byte and set its mark (R45, R63), keeping the offsets strictly rising. -/
def Memory.write (m : List Host.Cell) (a : Nat) (v : Byte) : List Host.Cell :=
  match m with
  | [] => [(a, v)]
  | (b, w) :: rest =>
    if a < b then (a, v) :: (b, w) :: rest
    else if a = b then (a, v) :: rest
    else (b, w) :: Memory.write rest a v

/-- The one form of a memory: offsets strictly rising. No listed byte reads as an unlisted one does, since an unlisted
byte has no value. -/
def Memory.wf (m : List Host.Cell) : Bool :=
  match m with
  | [] => true
  | [_] => true
  | (a, _) :: (b, v) :: rest => decide (a < b) && Memory.wf ((b, v) :: rest)

/-- The offsets at which a buffer byte stands (R62). -/
def bufferOffset (a : Nat) : Bool :=
  decide (a % 4 = 0 ∧ (0x100 ≤ a ∧ a ≤ 0x19C ∨ 0x200 ≤ a ∧ a ≤ 0x29C ∨ 0x400 ≤ a ∧ a ≤ 0x5FC))

/-- `b[i]` as a command reads it: the model fault where it carries no written mark (R45, R69). -/
def State.readByte (s : State) (b : Buffer) (i : Nat) : Except Fault Byte :=
  match Memory.read s.mem (b.addr i) with
  | some v => .ok v
  | none => .error (.commandReadUnmarked (b.addr i))

/-- `b[i], …, b[i+n-1]` as a command reads them. -/
def State.readBytes (s : State) (b : Buffer) (i n : Nat) : Except Fault (List Byte) :=
  match n with
  | 0 => .ok []
  | k + 1 =>
    match s.readByte b i with
    | .error f => .error f
    | .ok v =>
      match s.readBytes b (i + 1) k with
      | .error f => .error f
      | .ok vs => .ok (v :: vs)

/-- `b[i] <- v` (R45: the mark is set). -/
def State.storeByte (s : State) (b : Buffer) (i : Nat) (v : Byte) : State :=
  { s with mem := Memory.write s.mem (b.addr i) v }

/-- Store bytes one after another from byte i of a buffer on. -/
def Memory.writeAll (m : List Host.Cell) (b : Buffer) (i : Nat) (bs : List Byte) : List Host.Cell :=
  match bs with
  | [] => m
  | v :: vs => Memory.writeAll (Memory.write m (b.addr i) v) b (i + 1) vs

/-- `b[i..] <- bs` (spec/00_scope.md R11: one `x <- v`, and so one step). -/
def State.storeAll (s : State) (b : Buffer) (i : Nat) (bs : List Byte) : State :=
  { s with mem := Memory.writeAll s.mem b i bs }

/-! ### The sequencer -/

/-- Go on with `ms` before what is left of the command. -/
def State.push (s : State) (ms : List Micro) : State := { s with seq := { s.seq with todo := ms ++ s.seq.todo } }

/-- Go on with `ms` in place of what is left of the command. -/
def State.jump (s : State) (ms : List Micro) : State := { s with seq := { s.seq with todo := ms } }

/-- The byte at hand becomes `v`. -/
def State.setAcc (s : State) (v : Byte) : State := { s with seq := { s.seq with acc := v } }

/-- The ACK at hand becomes `b`. -/
def State.setAck (s : State) (b : Bool) : State := { s with seq := { s.seq with ack := b } }

/-- The controller steps before the host's next act become `n`. -/
def State.setQuiet (s : State) (n : Nat) : State := { s with env := { s.env with quiet := n } }

/-- The sequencer starts a command at its first position. BUSY is 1 from the command's acceptance on (R30). -/
def State.start (s : State) (program : List Micro) : State :=
  { s with status := { s.status with busy := true }, seq := { Sequencer.none with todo := program } }

/-- `finish(code)` (R11): in one step RESULT takes the code and BUSY becomes 0. No primitive runs after it. This is the
block's only way to report: nothing is saved and control goes nowhere (spec/60_exceptions.md R200, R205). -/
def State.finish (s : State) (code : Result) : State :=
  { s with
    status := { s.status with busy := false, result := code }
    seq := Sequencer.none
    env := { s.env with quiet := 0 } }

/-- `BusTimeoutAbort()` (R112): whatever is left of the command, SDA is released and BUS_TIMEOUT is its result. -/
def State.busTimeoutAbort (s : State) : State := s.jump [.setSda .released, .finish .busTimeout]

/-! ### The slave automaton -/

/-- `prev <- cur` (spec/41_engine_slave.md R130). -/
def State.setPrev (s : State) (l : Levels) : State := { s with auto := { s.auto with prev := l } }

/-- `cur <- Sample()` of `SlaveStep()` (R130): the peer's drive is drawn, and the next step is `prev <- cur`; then comes
`next`, which the events between the old `prev` and `cur` choose. The automaton is as it was. -/
def State.slaveSample (s : State) (next : List Micro) : State := s.drawn.jump (.setPrev s.levels :: next)

/-! ### Reset -/

/-- The reset input (spec/70_reset_and_hazards.md R230): every element at its reset value, the running command abandoned
with no result, every mark cleared, and as the last action `prev <- Sample()` with both outputs released. The host's and
the peer's coming actions are no state of the block, and stay. -/
def State.platformReset (s : State) : State :=
  let r : State := { State.reset with env := s.env }
  { r.drawn.setQuiet 0 with auto := Automaton.fresh r.levels }

end Sys2Proof.Machine
end

