-- ==== Sys2Proof/Machine/Codec.lean ====
section
/-! DEFINITION. The constants and byte functions of the codec: the DDC/CI checksums (spec/42_codec_ddcci.md R150, R151,
R153, R154) and the EDID checksum and header (spec/43_codec_edid.md R175, R176, R179). -/

namespace Sys2Proof.Machine

/-- `DDC_DEST_W`, the address byte of a DDC/CI write (R150). -/
def ddcDestW : Byte := 0x6E
/-- `DDC_DEST_R`, the address byte of a DDC/CI read (R150). -/
def ddcDestR : Byte := 0x6F
/-- `DDC_SRC`, the source byte of a request (R150). -/
def ddcSrc : Byte := 0x51
/-- `REPLY_SRC`, the fixed reply source of the receive seed (R150; spec/90_conflicts.md C5). -/
def replySrc : Byte := 0x6F
/-- `RX_SEED` (R150). -/
def rxSeed : Byte := replySrc ^^^ ddcSrc
/-- `CMD_CAPS`, the command code of a capability request (R150). The codec does not interpret a payload (R162). -/
def cmdCaps : Byte := 0xF3
/-- `CMD_VCP`, the command code of a VCP request (R150, R162). -/
def cmdVcp : Byte := 0x01
/-- `EDID_W`, the address byte of an EDID write (R175): no command sends it (spec/92_eei_decisions.md D27). -/
def edidW : Byte := 0xA0
/-- `EDID_R`, the address byte of an EDID read (R175). -/
def edidR : Byte := 0xA1
/-- `EDID_LEN` (R175). -/
def edidLen : Nat := 128
/-- `HEADER` (R175). -/
def edidHeader : List Byte := [0x00, 0xFF, 0xFF, 0xFF, 0xFF, 0xFF, 0xFF, 0x00]

/-- XOR of a seed with every byte of a range; over an empty range the seed itself (R151). -/
def xorBytes (seed : Byte) (bs : List Byte) : Byte := bs.foldl (· ^^^ ·) seed

/-- The sum of bytes, without overflow (R176). -/
def sumBytes (bs : List Byte) : Nat := (bs.map BitVec.toNat).sum

/-- `txsum(n)`: the XOR of TXBUF[0] … TXBUF[2+n] (R153). -/
def State.txsum (s : State) (n : Nat) : Except Fault Byte :=
  (s.readBytes .tx 0 (3 + n)).map (xorBytes 0)

/-- `rxsum(n)`: the seed XOR RXBUF[1] … RXBUF[1+n] (R154; spec/90_conflicts.md C1). -/
def State.rxsum (s : State) (n : Nat) : Except Fault Byte :=
  (s.readBytes .rx 1 (1 + n)).map (xorBytes rxSeed)

/-- `(256 - (S mod 256)) mod 256` (R176; spec/90_conflicts.md C6). -/
def edidChecksum (bs : List Byte) : Byte := BitVec.ofNat 8 ((256 - sumBytes bs % 256) % 256)

/-- `edidsum(EDIDBUF)`, over bytes 0..126 (R176). -/
def State.edidsum (s : State) : Except Fault Byte :=
  (s.readBytes .edid 0 127).map edidChecksum

/-- `(EDIDBUF[0] + … + EDIDBUF[127]) mod 256` (R178). -/
def State.edidTotal (s : State) : Except Fault Byte :=
  (s.readBytes .edid 0 edidLen).map fun bs => BitVec.ofNat 8 (sumBytes bs % 256)

/-- `EDIDBUF[0..7] = HEADER` (R178). -/
def State.edidHeaderAtStart (s : State) : Except Fault Bool :=
  (s.readBytes .edid 0 8).map (· == edidHeader)

/-- `hdr_at(c)`: c ≥ 7 and the 8 bytes that end at c are HEADER (R179). -/
def State.headerAt (s : State) (c : Nat) : Except Fault Bool :=
  if 7 ≤ c then (s.readBytes .edid (c - 7) 8).map (· == edidHeader) else .ok false

/-- `(cursor = none) ? 0 : cursor + 1` (R180). -/
def nextIndex (cursor : Option Nat) : Nat :=
  match cursor with
  | none => 0
  | some c => c + 1

end Sys2Proof.Machine
end

