-- ==== Sys2Proof/Machine/Operands.lean ====
section
/-! DEFINITION. How a command reads its operand byte (spec/30_encoding.md R91): as a byte to send, most-significant bit
first; as a DDC/CI length byte to classify (spec/42_codec_ddcci.md R152); as a payload length (R155). -/

namespace Sys2Proof.Machine

/-- `i = 7 downto 0`: the order of the bits on the wire (spec/20_memory.md R70). -/
def bitsDown : List Nat := [7, 6, 5, 4, 3, 2, 1, 0]

/-- `b[i] = 1 ? Released : Low` (spec/40_engine_master.md R116, spec/41_engine_slave.md R143). -/
def bitDrive (b : Byte) (i : Nat) : Drive := if b.getLsbD i then .released else .low

/-- `v` with bit i set to a sampled level: `v[i] <- level` (R117, R134). -/
def setBit (v : Byte) (i : Nat) (l : Level) : Byte :=
  match l with
  | .high => v ||| (1#8 <<< i)
  | .low => v &&& ~~~(1#8 <<< i)

/-- The class of a length byte (R152). -/
inductive LengthClass where
  | null
  | valid (n : Nat)
  | invalid
deriving DecidableEq, Repr

/-- `NULL_LEN` (spec/42_codec_ddcci.md R150). -/
def nullLen : Byte := 0x80

/-- `LEN_MIN` and `LEN_MAX` (R150). -/
def lenMin : Nat := 3
@[inherit_doc lenMin] def lenMax : Nat := 35

/-- `L[6:0]`, the payload length a length byte carries. -/
def lengthBits (l : Byte) : Nat := (l.extractLsb' 0 7).toNat

/-- `classify(L)` (R152): 0x80 is Null; bit 7 set and the low 7 bits in 3..35 is Valid; every other value is Invalid. -/
def classify (l : Byte) : LengthClass :=
  if l = nullLen then .null
  else if l.getLsbD 7 ∧ lenMin ≤ lengthBits l ∧ lengthBits l ≤ lenMax then .valid (lengthBits l)
  else .invalid

/-- The payload length n that DDC_BUILD and DDC_WRITE read from imm8, an unsigned number 0..255 (R91). -/
def payloadLength (imm : Byte) : Nat := imm.toNat

/-- The longest payload a transmitted frame may have (spec/00_scope.md R7; spec/92_eei_decisions.md D24). -/
def txLenMax : Nat := 35

/-- The length byte of a transmitted frame: `0x80 | n` (R155). -/
def txLengthByte (n : Nat) : Byte := 0x80 ||| BitVec.ofNat 8 n

end Sys2Proof.Machine
end

