-- ==== Sys2Proof/Machine/Procedures.lean ====
section
/-! DEFINITION. The procedures and loop bodies of the spec's pseudocode as programs of the sequencer, in the order the
spec writes them: the master procedures (spec/40_engine_master.md R110-R119), the slave loops
(spec/41_engine_slave.md R130-R143), the codec's (spec/42_codec_ddcci.md R155-R161, spec/43_codec_edid.md R180-R182). -/

namespace Sys2Proof.Machine

/-! ### Master procedures -/

/-- `ReleaseSCLAndWait()` (R111). -/
def releaseSclAndWait : List Micro := [.setScl .released, .pollScl 0]

/-- `MStart()` (R114). -/
def mStartProc : List Micro :=
  releaseSclAndWait ++ [.delay, .setSda .released, .delay, .setSda .low, .delay]

/-- `MStop()` (R115). -/
def mStopProc : List Micro :=
  [.clockLowGuard, .setSda .low, .delay] ++ releaseSclAndWait ++ [.delay, .setSda .released, .delay]

/-- One data bit of `MSend` (R116, R113). -/
def sendBitProc (b : Byte) (i : Nat) : List Micro :=
  [.setSda (bitDrive b i), .delay] ++ releaseSclAndWait ++ [.delay, .setScl .low]

/-- The ninth clock of `MSend` (R116). -/
def ackBitProc : List Micro :=
  [.setSda .released, .delay] ++ releaseSclAndWait ++ [.sampleAck, .delay, .setScl .low]

/-- `MSend(b)` (R116); its result is the sequencer's `ack`. -/
def mSendProc (b : Byte) : List Micro :=
  [.clockLowGuard] ++ bitsDown.flatMap (sendBitProc b) ++ ackBitProc

/-- One data bit of `MRecv` (R117). -/
def recvBitProc (i : Nat) : List Micro :=
  [.delay] ++ releaseSclAndWait ++ [.sampleBit i, .delay, .setScl .low]

/-- `MRecv()` (R117); its result is the sequencer's `acc`. -/
def mRecvProc : List Micro :=
  [.clockLowGuard, .setSda .released, .clearAcc] ++ bitsDown.flatMap recvBitProc

/-- `MAckBit(v)` (R118). -/
def mAckBitProc (v : Drive) : List Micro :=
  [.clockLowGuard, .setSda v, .delay] ++ releaseSclAndWait ++ [.delay, .setScl .low, .setSda .released]

/-! ### Slave loops -/

/-- The loop of S_GET_BYTE: `SlaveStep()`, whose sample chooses what comes next (R130, R140). -/
def getLoop : List Micro := [.delay, .getSample]

/-- `WaitClock(e)` (R142). -/
def waitClock (e : Event) : List Micro := [.delay, .waitSample e]

/-- What a START condition does to the automaton (R132). -/
def startActions : List Micro := [.setCount 8, .setShreg 0, .setFirst true, .setSt .start]

/-- What a STOP condition does outside WaitStart (R133). -/
def stopActions : List Micro :=
  [.setSda .released, .setCount 8, .setShreg 0, .setFirst false, .setSt .waitStart]

/-- Byte completion (R135). -/
def byteCompletion : List Micro :=
  [.setSda .released, .rxByteFromShreg, .rxFirstFromFirst, .setFirst false, .setCount 8, .setShreg 0,
   .setStAfterByte, .applyStretch, .finish .ok]

/-- A row of the transition table (R134): the actions and the next state, for the state, the clock event, the count and
the data level of the current sample. `none` is the completed byte, which ends the command; a combination that is not
listed leaves all state unchanged. -/
def automatonRow (st : SlaveState) (clock : Event) (count : Nat) (sda : Level) : Option (List Micro) :=
  match st, clock with
  | .waitStart, _ => some []
  | .start, .falling => some [.setSt .clockAvailable]
  | .clockAvailable, .rising => some [.shiftIn sda, .decCount, .setSt .data]
  | .data, .falling =>
    if count = 0 then some [.setSda .low, .setSt .ack] else some [.setSt .clockAvailable]
  | .ack, .rising => some [.setSt .ackDone]
  | .ackDone, .falling => none
  | _, _ => some []

/-- What S_GET_BYTE goes on with after a sample (R140): START first, then STOP outside WaitStart, else the row. -/
def getByteNext (a : Automaton) (cur : Levels) : List Micro :=
  if isStart a.prev cur then startActions ++ getLoop
  else if isStop a.prev cur && a.st != .waitStart then stopActions ++ getLoop
  else
    match automatonRow a.st (lineEvent a.prev.scl cur.scl) a.count cur.sda with
    | some actions => actions ++ getLoop
    | none => byteCompletion

/-- What `WaitClock(e)` goes on with after a sample, given what is left of the command (R142). Here the STOP rule also
applies in WaitStart. -/
def waitClockNext (e : Event) (previous cur : Levels) (rest : List Micro) : List Micro :=
  if isStart previous cur then [.setSda .released] ++ startActions ++ [.finish .unexpectedStart]
  else if isStop previous cur then stopActions ++ [.finish .unexpectedStop]
  else if lineEvent previous.scl cur.scl == e then rest
  else waitClock e ++ rest

/-- One data bit of S_SEND_TO_MASTER (R143). -/
def sendToMasterBit (b : Byte) (i : Nat) : List Micro :=
  [.setSda (bitDrive b i), .releaseStretchDelayed] ++ waitClock .rising ++ waitClock .falling

/-- S_SEND_TO_MASTER (R143). -/
def sendToMasterProc (b : Byte) : List Micro :=
  bitsDown.flatMap (sendToMasterBit b) ++ [.setSda .released] ++ waitClock .rising ++ [.latchAck]
    ++ waitClock .falling ++ [.setFirst false, .setCount 8, .setShreg 0, .sendToMasterEnd]

/-- The end of S_SEND_TO_MASTER (R143), by the master's ACK. -/
def sendToMasterEndNext (acked : Bool) : List Micro :=
  if acked then [.setSt .clockAvailable, .applyStretch, .finish .ok] else [.setSt .waitStart, .finish .noack]

/-! ### DDC/CI procedures -/

/-- `DDCBuild(n)` (R155). -/
def ddcBuildProc (n : Nat) : List Micro :=
  [.store .tx 0 ddcDestW, .store .tx 1 ddcSrc, .store .tx 2 (txLengthByte n), .txsum n, .storeAcc .tx (3 + n),
   .chksumFromAcc, .setFrameLen n]

/-- The bytes of DDC_WRITE after `MStart()`: `for j = 0 to 3+n` (R160). -/
def ddcSendProc (n : Nat) : List Micro := (List.range (4 + n)).flatMap fun j => [.sendTx j, .stopIfNack]

/-- What `if not MSend(…)` goes on with, given what is left (R160, R161, R180). -/
def stopIfNackNext (acked : Bool) (rest : List Micro) : List Micro :=
  if acked then rest else mStopProc ++ [.finish .noack]

/-- DDC_RXCHECK after its length byte is classified (R157). -/
def rxcheckNext (c : LengthClass) : List Micro :=
  match c with
  | .null => [.setFrameLen 0, .finish .nullMessage]
  | .invalid => [.setFrameLen 0, .finish .invalidLength]
  | .valid n => [.rxsum n, .chksumFromAcc, .setFrameLen n, .rxVerdict n]

/-- One payload byte of DDC_READ (R161). -/
def readPayloadByte (j : Nat) : List Micro := mRecvProc ++ [.storeAcc .rx (2 + j)] ++ mAckBitProc .low

/-- DDC_READ after its length byte is classified (R161; R156, R158: Null and Invalid clock no further byte). -/
def readLengthNext (c : LengthClass) : List Micro :=
  match c with
  | .null => mAckBitProc .released ++ mStopProc ++ [.setFrameLen 0, .finish .nullMessage]
  | .invalid => mAckBitProc .released ++ mStopProc ++ [.setFrameLen 0, .finish .invalidLength]
  | .valid n =>
    mAckBitProc .low ++ (List.range n).flatMap readPayloadByte ++ mRecvProc ++ [.storeAcc .rx (2 + n)]
      ++ mAckBitProc .released ++ mStopProc ++ [.rxsum n, .chksumFromAcc, .setFrameLen n, .rxVerdict n]

/-! ### EDID procedures -/

/-- One pass of EDID_READ, up to its loop (R180). -/
def edidPassProc : List Micro :=
  [.setCursor none, .setValidated false, .setResynced false] ++ mStartProc ++ mSendProc edidR
    ++ [.stopIfNack, .edidWhile]

/-- The start of the loop's body (R180). -/
def edidByteProc : List Micro := mRecvProc ++ [.edidStore, .edidAdvance, .edidMatch]

/-- `while cursor ≠ 127`, and what follows the loop (R180). -/
def edidWhileNext (cursor : Option Nat) : List Micro :=
  if cursor = some 127 then mStopProc ++ [.edidPassEnd] else edidByteProc

/-- `EDIDBUF[0..7] <- HEADER` (R181 (2)), in one step (R11). -/
def storeHeaderProc : List Micro := [.storeAll .edid 0 edidHeader]

/-- Resynchronisation (R181). -/
def edidResyncProc : List Micro :=
  storeHeaderProc ++ [.setCursor (some 7), .setValidated true, .setResynced true] ++ mAckBitProc .released
    ++ mStartProc ++ mSendProc edidR ++ [.stopIfNack, .edidWhile]

/-- What follows the header test at cursor c (R180): `matched` is `validated = 0 and hdr_at(c)`. -/
def edidMatchNext (matched : Bool) (c : Nat) : List Micro :=
  if matched then
    if c = 7 then [.setValidated true, .edidAckByte, .edidWhile] else edidResyncProc
  else [.edidAckByte, .edidWhile]

/-- The ACK bit of the byte at the cursor: the last byte is NACKed (R180). -/
def edidAckNext (cursor : Option Nat) : List Micro :=
  if cursor = some 127 then mAckBitProc .released else mAckBitProc .low

/-- After a pass (R180, R182): OK, the one retry, or failure. -/
def edidPassEndNext (validated pass : Bool) : List Micro :=
  if validated then [.finish .ok]
  else if pass then [.finish .headerNotFound]
  else [.setPass true] ++ edidPassProc

end Sys2Proof.Machine
end

