-- ==== Sys2Proof/Machine/Sequencer.lean ====
section
/-! DEFINITION. The command sequencer (spec/10_state.md R40): what each of its steps does, one step of the controller, the
controller's steps up to the host's next act, and how a command starts (spec/30_encoding.md R96). -/

namespace Sys2Proof.Machine

/-- A step that computes a byte from the buffers, or the model fault of an unmarked byte (R45). -/
def withByte (r : Except Fault Byte) (k : Byte → State) : Outcome :=
  match r with
  | .ok v => .next (k v)
  | .error f => .fault f

/-- A step that tests the buffers, or the model fault of an unmarked byte (R45). -/
def withTest (r : Except Fault Bool) (k : Bool → State) : Outcome :=
  match r with
  | .ok b => .next (k b)
  | .error f => .fault f

/-- `ReleaseSCLAndWait()` after a sample (R111): High ends the wait; Low at the bound aborts the command; else one more
`Delay()` and poll. -/
def pollNext (k : Nat) (scl : Level) (s : State) : State :=
  match scl with
  | .high => s
  | .low => if k = s.timeout.toNat then s.busTimeoutAbort else s.push [.delay, .pollScl (k + 1)]

/-- `ApplyStretch()` (spec/41_engine_slave.md R137). -/
def applyStretch (s : State) : State :=
  if s.ctrl.stretch && s.auto.st == .clockAvailable then s.setScl .low else s

/-- EDID_VALIDATE's tests, with T at hand: the header first (spec/43_codec_edid.md R178). -/
def edidVerdict (headerOk : Bool) (s : State) : State :=
  if !headerOk then s.finish .headerNotFound
  else if s.seq.acc ≠ 0 then s.finish .invalidChecksum
  else s.finish .ok

/-- What one step of the sequencer does. In `s` the step itself has been taken off the position. -/
def runMicro (m : Micro) (s : State) : Outcome :=
  match m with
  -- lines (R11, R21-R24, R110-R112, R116-R118)
  | .setSda v => .next (s.setSda v)
  | .setScl v => .next (s.setScl v)
  | .delay => .next s
  | .clockLowGuard => .next (if s.out.scl = .released then s.push [.setScl .low, .delay] else s)
  | .pollScl k => .next (pollNext k s.levels.scl s.drawn)
  | .sampleAck => .next (s.drawn.setAck (s.levels.sda == .low))
  | .clearAcc => .next (s.setAcc 0)
  | .sampleBit i => .next (s.drawn.setAcc (setBit s.seq.acc i s.levels.sda))
  | .rxByteFromAcc => .next { s with rxData := { s.rxData with byte := s.seq.acc } }
  | .rxFirst b => .next { s with rxData := { s.rxData with first := b } }
  -- slave (R130-R143)
  | .releaseStretch => .next (if s.out.scl = .low then s.setScl .released else s)
  | .releaseStretchDelayed => .next (if s.out.scl = .low then s.push [.delay, .setScl .released] else s)
  | .getSample => .next (s.slaveSample (getByteNext s.auto s.levels))
  | .waitSample e => .next (s.slaveSample (waitClockNext e s.auto.prev s.levels s.seq.todo))
  | .setPrev cur => .next (s.setPrev cur)
  | .latchAck => .next (s.setAck (s.auto.prev.sda == .low))
  | .setSt x => .next { s with auto := { s.auto with st := x } }
  | .setCount n => .next { s with auto := { s.auto with count := n } }
  | .setShreg b => .next { s with auto := { s.auto with shreg := b } }
  | .setFirst b => .next { s with auto := { s.auto with first := b } }
  | .shiftIn l => .next { s with auto := { s.auto with shreg := setBit s.auto.shreg (s.auto.count - 1) l } }
  | .decCount => .next { s with auto := { s.auto with count := s.auto.count - 1 } }
  | .rxByteFromShreg => .next { s with rxData := { s.rxData with byte := s.auto.shreg } }
  | .rxFirstFromFirst => .next { s with rxData := { s.rxData with first := s.auto.first } }
  | .setStAfterByte =>
    .next { s with auto := { s.auto with st := if s.ctrl.b2b then .clockAvailable else .waitStart } }
  | .applyStretch => .next (applyStretch s)
  | .sendToMasterEnd => .next (s.jump (sendToMasterEndNext s.seq.ack))
  -- codec (R152-R161, R176-R178)
  | .store b i v => .next (s.storeByte b i v)
  | .storeAll b i bs => .next (s.storeAll b i bs)
  | .storeAcc b i => .next (s.storeByte b i s.seq.acc)
  | .txsum n => withByte (s.txsum n) s.setAcc
  | .rxsum n => withByte (s.rxsum n) s.setAcc
  | .chksumFromAcc => .next { s with chksum := s.seq.acc }
  | .setFrameLen n => .next { s with frameLen := BitVec.ofNat 6 n }
  | .sendTx j => withByte (s.readByte .tx j) fun b => s.push (mSendProc b)
  | .rxcheckLength => withByte (s.readByte .rx 1) fun l => s.jump (rxcheckNext (classify l))
  | .readLength => .next (s.jump (readLengthNext (classify s.seq.acc)))
  | .rxVerdict n =>
    withByte (s.readByte .rx (2 + n)) fun c => s.finish (if s.seq.acc = c then .ok else .invalidChecksum)
  | .edidsum => withByte s.edidsum s.setAcc
  | .edidTotal => withByte s.edidTotal s.setAcc
  | .edidVerdict => withTest s.edidHeaderAtStart fun h => edidVerdict h s
  -- EDID read (R179-R182)
  | .setPass b => .next { s with edid := { s.edid with pass := b } }
  | .setCursor c => .next { s with edid := { s.edid with cursor := c } }
  | .setValidated b => .next { s with edid := { s.edid with validated := b } }
  | .setResynced b => .next { s with edid := { s.edid with resynced := b } }
  | .edidWhile => .next (s.jump (edidWhileNext s.edid.cursor))
  | .edidStore => .next (s.storeByte .edid (nextIndex s.edid.cursor) s.seq.acc)
  | .edidAdvance => .next { s with edid := { s.edid with cursor := some (nextIndex s.edid.cursor) } }
  | .edidMatch =>
    let c := s.edid.cursor.getD 0
    if s.edid.validated then .next (s.jump (edidMatchNext false c))
    else withTest (s.headerAt c) fun h => s.jump (edidMatchNext h c)
  | .edidAckByte => .next (s.push (edidAckNext s.edid.cursor))
  | .edidPassEnd => .next (s.jump (edidPassEndNext s.edid.validated s.edid.pass))
  -- ends
  | .stopIfNack => .next (s.jump (stopIfNackNext s.seq.ack s.seq.todo))
  | .finish r => .next (s.finish r)
  | .finishAck => .next (s.finish (if s.seq.ack then .ok else .noack))

/-- One step of the controller: the next step of the running command. Idle, it does nothing. -/
def controllerStep (s : State) : Outcome :=
  match s.seq.todo with
  | [] => .next s
  | m :: rest => runMicro m (s.jump rest)

/-- Whether a step of the sequencer performs a `Sample()`. -/
def Micro.samples : Micro → Bool
  | .pollScl _ => true
  | .sampleAck => true
  | .sampleBit _ => true
  | .getSample => true
  | .waitSample _ => true
  | _ => false

/-- The controller's next step is a `Sample()` for which the peer's script lists no drive. -/
def State.needsDraw (s : State) : Bool :=
  match s.seq.todo with
  | [] => false
  | m :: _ => m.samples && s.env.peer.isEmpty

/-- Up to n steps of the controller: until the command finishes, or its next step needs a peer drive that the script does
not list (a later step of the machine then takes a free draw), or the host acts next. The steps left over stay in
`quiet`. Where a step of the machine ends says nothing of the block (assumption log 4). -/
def runController (n : Nat) (s : State) : Outcome :=
  match n with
  | 0 => .next (s.setQuiet 0)
  | k + 1 =>
    if s.seq.todo = [] then .next (s.setQuiet 0)
    else if s.needsDraw then .next (s.setQuiet (k + 1))
    else
      match controllerStep s with
      | .next t => runController k t
      | .fault f => .fault f
      | .refused r => .refused r

/-- CTRL.MODE lets the command run (spec/60_exceptions.md R203): `none` is a command of either mode. -/
def modeAllows (need : Option Mode) (s : State) : Bool :=
  match need with
  | none => true
  | some m => s.ctrl.mode == m

/-- The sequencer starts a command (R30 (4)) whose encoding has been checked: the mode check, which ends the command in
this same step (R96, R203), then its body (`program`) up to the host's next act. -/
def runCommand (need : Option Mode) (program : List Micro) (s : State) : Outcome :=
  if modeAllows need s then runController s.env.quiet (s.start program) else .next (s.finish .modeError)

end Sys2Proof.Machine
end

