-- ==== Sys2Proof/Machine/Ddc.lean ====
section
/-! DEFINITION. The DDC/CI commands (spec/42_codec_ddcci.md R152, R155, R157, R160, R161). DDC_BUILD, DDC_RXCHECK and
LEN_CHECK run in either mode; DDC_WRITE and DDC_READ need Master mode (R159). -/

namespace Sys2Proof.Machine

/-- The operand check of DDC_BUILD and DDC_WRITE, and the body it guards: `if n > 35 then finish(INVALID_LENGTH)`
(R155, R160). -/
def ifLengthAllowed (n : Nat) (body : List Micro) : List Micro :=
  if n > txLenMax then [.finish .invalidLength] else body

/-- What LEN_CHECK does with a length byte's class (R152). -/
def lenCheckProc (c : LengthClass) : List Micro :=
  match c with
  | .valid n => [.setFrameLen n, .finish .ok]
  | .null => [.setFrameLen 0, .finish .nullMessage]
  | .invalid => [.setFrameLen 0, .finish .invalidLength]

/-- LEN_CHECK L (R152). -/
def execLenCheck (l : Byte) (s : State) : Outcome :=
  runCommand none (lenCheckProc (classify l)) s

/-- DDC_BUILD n (R155). -/
def execDdcBuild (n : Byte) (s : State) : Outcome :=
  runCommand none
    (ifLengthAllowed (payloadLength n) (ddcBuildProc (payloadLength n) ++ [.finish .ok])) s

/-- DDC_RXCHECK (R157). -/
def execDdcRxcheck (s : State) : Outcome :=
  runCommand none [.rxcheckLength] s

/-- DDC_WRITE n (R160). -/
def execDdcWrite (n : Byte) (s : State) : Outcome :=
  runCommand (some .master)
    (ifLengthAllowed (payloadLength n)
      (ddcBuildProc (payloadLength n) ++ mStartProc ++ ddcSendProc (payloadLength n) ++ mStopProc ++ [.finish .ok])) s

/-- DDC_READ (R161). -/
def execDdcRead (s : State) : Outcome :=
  runCommand (some .master)
    (mStartProc ++ mSendProc ddcDestR ++ [.stopIfNack] ++ mRecvProc ++ [.storeAcc .rx 0] ++ mAckBitProc .low
      ++ mRecvProc ++ [.storeAcc .rx 1, .readLength]) s

end Sys2Proof.Machine
end

