-- ==== Sys2Proof/Machine/Edid.lean ====
section
/-! DEFINITION. The EDID commands (spec/43_codec_edid.md R177, R178, R180). EDID_FILLSUM and EDID_VALIDATE run in either
mode; EDID_READ needs Master mode. -/

namespace Sys2Proof.Machine

/-- EDID_FILLSUM (R177). -/
def execEdidFillsum (s : State) : Outcome :=
  runCommand none [.edidsum, .storeAcc .edid 127, .chksumFromAcc, .finish .ok] s

/-- EDID_VALIDATE (R178). -/
def execEdidValidate (s : State) : Outcome :=
  runCommand none [.edidTotal, .chksumFromAcc, .edidVerdict] s

/-- EDID_READ: `pass <- 0`, then at most two passes (R180, R182). -/
def execEdidRead (s : State) : Outcome :=
  runCommand (some .master) ([.setPass false] ++ edidPassProc) s

end Sys2Proof.Machine
end

