-- ==== Sys2Proof/Machine/Master.lean ====
section
/-! DEFINITION. The master commands (spec/40_engine_master.md R114-R119). Each needs Master mode. -/

namespace Sys2Proof.Machine

/-- M_START: `MStart(); finish(OK)` (R114). -/
def execMStart (s : State) : Outcome :=
  runCommand (some .master) (mStartProc ++ [.finish .ok]) s

/-- M_STOP: `MStop(); finish(OK)` (R115). -/
def execMStop (s : State) : Outcome :=
  runCommand (some .master) (mStopProc ++ [.finish .ok]) s

/-- M_SEND_BYTE b: `if MSend(imm8) then finish(OK) else finish(NOACK)` (R116). -/
def execMSendByte (b : Byte) (s : State) : Outcome :=
  runCommand (some .master) (mSendProc b ++ [.finishAck]) s

/-- M_RECV_BYTE: `r <- MRecv(); RXDATA[7:0] <- r; RXDATA[8] <- 0; finish(OK)` (R117). -/
def execMRecvByte (s : State) : Outcome :=
  runCommand (some .master) (mRecvProc ++ [.rxByteFromAcc, .rxFirst false, .finish .ok]) s

/-- M_ACK: `MAckBit(Low); finish(OK)` (R118). -/
def execMAck (s : State) : Outcome :=
  runCommand (some .master) (mAckBitProc .low ++ [.finish .ok]) s

/-- M_NACK: `MAckBit(Released); finish(OK)` (R119). -/
def execMNack (s : State) : Outcome :=
  runCommand (some .master) (mAckBitProc .released ++ [.finish .ok]) s

end Sys2Proof.Machine
end

