-- ==== Sys2Proof/Machine/Slave.lean ====
section
/-! DEFINITION. The slave commands (spec/41_engine_slave.md R140, R143). Each needs Slave mode. -/

namespace Sys2Proof.Machine

/-- S_GET_BYTE: release a held SCL, then sample until a byte completes (R138, R140). -/
def execSGetByte (s : State) : Outcome :=
  runCommand (some .slave) ([.releaseStretch] ++ getLoop) s

/-- S_SEND_TO_MASTER b (R143). -/
def execSSendToMaster (b : Byte) (s : State) : Outcome :=
  runCommand (some .slave) (sendToMasterProc b) s

end Sys2Proof.Machine
end

