-- ==== Sys2Proof/Machine/Dispatch.lean ====
section
/-! DEFINITION. The dispatch of a decoded command to its meaning (spec/30_encoding.md R92). -/

namespace Sys2Proof.Machine

/-- A command whose word has been accepted and decoded (spec/10_state.md R30 (4)): from its mode check on, and on through
its body up to the host's next act. -/
def exec (i : Instr) (s : State) : Host.Outcome State Fault Refusal :=
  match i with
  | .mStart => Sys2Proof.Machine.execMStart s
  | .mStop => Sys2Proof.Machine.execMStop s
  | .mSendByte b => Sys2Proof.Machine.execMSendByte b s
  | .mRecvByte => Sys2Proof.Machine.execMRecvByte s
  | .mAck => Sys2Proof.Machine.execMAck s
  | .mNack => Sys2Proof.Machine.execMNack s
  | .sGetByte => Sys2Proof.Machine.execSGetByte s
  | .sSendToMaster b => Sys2Proof.Machine.execSSendToMaster b s
  | .ddcBuild n => Sys2Proof.Machine.execDdcBuild n s
  | .ddcRxcheck => Sys2Proof.Machine.execDdcRxcheck s
  | .lenCheck l => Sys2Proof.Machine.execLenCheck l s
  | .edidFillsum => Sys2Proof.Machine.execEdidFillsum s
  | .edidValidate => Sys2Proof.Machine.execEdidValidate s
  | .ddcWrite n => Sys2Proof.Machine.execDdcWrite n s
  | .ddcRead => Sys2Proof.Machine.execDdcRead s
  | .edidRead => Sys2Proof.Machine.execEdidRead s

end Sys2Proof.Machine
end

