-- ==== Sys2Proof/Machine/HostWindow.lean ====
section
/-! DEFINITION. The host window (spec/20_memory.md R60-R67, R79): its map, what a read returns, and what a write other than
an accepted command does. -/

namespace Sys2Proof.Machine

/-- What stands at an offset of the window (R62). A buffer byte is named by the offset of its word. -/
inductive WindowEntry where
  | ctrl
  | bitDelay
  | timeout
  | cmd
  | status
  | rxData
  | chksum
  | frameLen
  | automaton
  | lines
  | edidInfo
  | bufferByte (addr : Nat)
  | reserved
deriving DecidableEq, Repr

/-- The window map (R62). -/
def windowEntry (off : Offset) : WindowEntry :=
  match off with
  | 0x000#12 => .ctrl
  | 0x004#12 => .bitDelay
  | 0x008#12 => .timeout
  | 0x00C#12 => .cmd
  | 0x010#12 => .status
  | 0x014#12 => .rxData
  | 0x018#12 => .chksum
  | 0x01C#12 => .frameLen
  | 0x020#12 => .automaton
  | 0x024#12 => .lines
  | 0x028#12 => .edidInfo
  | _ => if bufferOffset off.toNat then .bufferByte off.toNat else .reserved

/-- The offset of CMD, where a write starts a command. -/
def cmdOffset : Offset := 0x00C

/-- The offset of STATUS, which a WAIT polls (spec/30_encoding.md R103). -/
def statusOffset : Offset := 0x010

/-- The window admits aligned 32-bit accesses only (R61). -/
def accessAdmitted (off : Offset) (size : Nat) : Bool := off.toNat % 4 == 0 && size == 4

/-- Where an offset of copy u's window stands in the host's own address space (R79; spec/60_exceptions.md R212). -/
def hostAddress (u : Nat) (off : Offset) : Nat := Config.windowBase u + off.toNat

/-- The host's last read returned `v`. -/
def State.setRdata (s : State) (v : Word) : State := { s with env := { s.env with rdata := v } }

/-- `MemRead(off, 4)` (R61, R63-R65): the current value. Only LINES samples the lines; no read changes the block. -/
def hostRead (off : Offset) (s : State) : Outcome :=
  match windowEntry off with
  | .ctrl => .next (s.setRdata (ctrlWord s.ctrl))
  | .bitDelay => .next (s.setRdata (fieldAt s.bitDelay 0))
  | .timeout => .next (s.setRdata (fieldAt s.timeout 0))
  | .cmd => .next (s.setRdata s.cmd)
  | .status => .next (s.setRdata (statusWord s.status))
  | .rxData => .next (s.setRdata (rxDataWord s.rxData))
  | .chksum => .next (s.setRdata (fieldAt s.chksum 0))
  | .frameLen => .next (s.setRdata (fieldAt s.frameLen 0))
  | .automaton => .next (s.setRdata (automatonWord s.auto))
  | .lines => .next (s.drawn.setRdata (linesWord s.levels s.out))
  | .edidInfo => .next (s.setRdata (edidInfoWord s.edid))
  | .bufferByte a =>
    match Memory.read s.mem a with
    | some b => .next (s.setRdata (fieldAt b 0))
    | none => .fault (.hostReadUnmarked a)
  | .reserved => .next (s.setRdata 0)

/-- A change of MODE starts a new session (spec/10_state.md R27 (1)): both lines released, the automaton reset, then
`prev <- Sample()`. -/
def State.newSession (s : State) : State :=
  let t := (s.setSda .released).setScl .released
  { t.drawn with auto := Automaton.fresh t.levels }

/-- R27 (2): STRETCH written 0 while SCL is held Low releases SCL. -/
def State.endStretch (s : State) (stretch : Bool) : State :=
  if !stretch && s.out.scl == .low then s.setScl .released else s

/-- An accepted CTRL write (R26, R27): no side effect where no field changes (assumption log 10). -/
def writeCtrl (v : Word) (s : State) : State :=
  let c := ctrlOfWord v
  if c = s.ctrl then s
  else
    let t := if c.mode = s.ctrl.mode then s else s.newSession
    { t.endStretch c.stretch with ctrl := c }

/-- `MemWrite(off, 4, v)` while idle, other than to CMD (R62, R63, R67): writes to read-only registers and reserved
offsets are ignored. -/
def idleWrite (off : Offset) (v : Word) (s : State) : State :=
  match windowEntry off with
  | .ctrl => writeCtrl v s
  | .bitDelay => { s with bitDelay := v.setWidth 16 }
  | .timeout => { s with timeout := v.setWidth 16 }
  | .cmd => s
  | .status => s
  | .rxData => s
  | .chksum => s
  | .frameLen => s
  | .automaton => s
  | .lines => s
  | .edidInfo => s
  | .bufferByte a => { s with mem := Memory.write s.mem a (v.setWidth 8) }
  | .reserved => s

/-- `MemWrite(off, 4, v)` while a command runs: a CMD write is dropped and sets DROPPED (R66); every other write is
ignored (R67). -/
def busyWrite (off : Offset) (s : State) : State :=
  if windowEntry off = .cmd then { s with status := { s.status with dropped := true } } else s

/-- An accepted CMD write before its word is decoded (spec/10_state.md R30 (1)-(3)). -/
def State.latchCommand (s : State) (w : Word) : State :=
  { s with cmd := w, status := { s.status with dropped := false, busy := true } }

/-- The host's act is over: `n` controller steps come before its next one, if a command runs. -/
def State.afterAct (s : State) (n : Nat) : State := s.setQuiet (if s.status.busy then n else 0)

/-- The host's next act is taken off its list. -/
def State.hostTaken (s : State) (rest : List HostTurn) : State := { s with env := { s.env with host := rest } }

/-- The host statements of a command statement: `WRITE CMD, <word>` then `WAIT` (spec/30_encoding.md R102), with `quiet`
controller steps after the write and between the polls. -/
def commandStatement (w : Word) (quiet : Nat) : List HostTurn :=
  [⟨.write cmdOffset 4 w, quiet⟩, ⟨.wait, quiet⟩]

end Sys2Proof.Machine
end

