-- ==== Sys2Proof/Machine/Turn.lean ====
section
/-! DEFINITION. One turn of the host and one turn of the controller (spec/00_scope.md R8; spec/20_memory.md R60, R73), and
how a command word is accepted (spec/10_state.md R30). -/

namespace Sys2Proof.Machine

/-- A CMD write is accepted (R30): CMD, DROPPED and BUSY are written, then the command the word decodes to starts. A word
that decodes to none runs only `finish(ILLEGAL_COMMAND)`, in this same step (spec/30_encoding.md R94, R96). -/
def acceptCommand (w : Word) (s : State) : Outcome :=
  match decode w with
  | .ok i => exec i (s.latchCommand w)
  | .error _ => .next ((s.latchCommand w).finish .illegalCommand)

/-- A host write that the window admits (R30, R66, R67). -/
def hostWrite (off : Offset) (v : Word) (quiet : Nat) (s : State) : Outcome :=
  if s.status.busy then .next ((busyWrite off s).afterAct quiet)
  else if windowEntry off = .cmd then acceptCommand v (s.setQuiet quiet)
  else .next ((idleWrite off v s).afterAct quiet)

/-- One turn of the host, in a state whose host list begins with it and goes on with `rest`. An access the window does not
admit is refused (R61). A WAIT reads STATUS until BUSY is 0 (spec/30_encoding.md R103), each poll leaving the controller
at least one step (assumption log 9). -/
def hostTurn (turn : HostTurn) (rest : List HostTurn) (s : State) : Outcome :=
  match turn.act with
  | .read off size =>
    if accessAdmitted off size then
      match hostRead off (s.hostTaken rest) with
      | .next t => .next (t.afterAct turn.quiet)
      | .fault f => .fault f
      | .refused r => .refused r
    else .refused (.accessNotAdmitted off.toNat size)
  | .write off size v =>
    if accessAdmitted off size then hostWrite off v turn.quiet (s.hostTaken rest)
    else .refused (.accessNotAdmitted off.toNat size)
  | .wait =>
    if s.status.busy then .next ((s.setRdata (statusWord s.status)).setQuiet (max 1 turn.quiet))
    else .next ((s.hostTaken rest).setRdata (statusWord s.status))
  | .reset => .next (s.hostTaken rest).platformReset

/-- One turn of the controller: its next step, with a free draw where that step samples and the peer's script is used up,
then on up to the host's next act. -/
def controllerTurn (s : State) : Outcome :=
  match controllerStep s with
  | .next t => runController (s.env.quiet - 1) t
  | .fault f => .fault f
  | .refused r => .refused r

/-- It is the controller's turn: a command runs, and the host's next act is not due or there is none. -/
def controllerDue (s : State) : Bool := s.status.busy && (decide (0 < s.env.quiet) || s.env.host.isEmpty)

/-- One step of the machine: the controller's turn or the host's. With no command running and no host act left, nothing
happens: "It executes nothing and waits for an accepted CMD write" (spec/70_reset_and_hazards.md R230). -/
def machineStep (s : State) : Outcome :=
  if controllerDue s then controllerTurn s
  else
    match s.env.host with
    | [] => .next s
    | turn :: rest => hostTurn turn rest s

/-- How many controller steps `withFetchWord` leaves before the host's next act. A command that takes more of them, or a
free draw, goes on in the machine's next steps (assumption log 12). -/
def fetchQuiet : Nat := 256

/-- The command word w as the host's next act, on an idle block (assumption log 12). -/
def State.withCommandWord (s : State) (w : Word) : State :=
  { s with
    status := { s.status with busy := false }
    seq := Sequencer.none
    env := { s.env with host := ⟨.write cmdOffset 4 w, fetchQuiet⟩ :: s.env.host, quiet := 0 } }

end Sys2Proof.Machine
end

