-- ==== Sys2Proof/Machine/Step.lean ====
section
/-! DEFINITION. One step of the machine, and a state whose next step runs a given command word. -/

namespace Sys2Proof.Machine

/-- One step of the machine: a turn of the host or of the controller (spec/20_memory.md R73). -/
def step (s : State) : Host.Outcome State Fault Refusal := machineStep s

/-- `s` with the command word whose bits are `w` as the host's next act: a command is fetched by a CMD write
(spec/10_state.md R30, spec/20_memory.md R76). Assumption log 12. -/
def State.withFetchWord (s : State) (nbits w : Nat) : State :=
  s.withCommandWord (BitVec.ofNat 32 (w % 2 ^ nbits))

end Sys2Proof.Machine
end

