-- ==== Sys2Proof/Machine/Joined.lean ====
section
/-! DEFINITION. Two instances of the block on one wired-AND bus with no other driver, under any schedule of their steps, and
the schedules that meet the sampling premises of the round-trip property (spec/41_engine_slave.md R146). -/

namespace Sys2Proof.Machine

/-- What happens next in a joined system: a controller step of the one instance or of the other, or a CMD write of the
master instance's host. -/
inductive JoinedTurn where
  | master
  | slave
  | command (i : Instr)
deriving DecidableEq, Repr

/-- What a turn of a joined system, or a schedule of them, answers: both instances, the master instance first, or the stop of
either, such as the model fault of a command that reads an unmarked byte (spec/10_state.md R45, spec/20_memory.md R69). -/
abbrev JoinedOutcome := Host.Outcome (State × State) Fault Refusal

/-- One controller step of an instance whose peer drives `peer`. -/
def stepAgainst (peer : Drives) (s : State) : Outcome :=
  controllerStep { s with env := { s.env with peer := [peer] } }

/-- The instance's host writes the command's word to CMD, with no controller step after it: an idle instance accepts it
(spec/10_state.md R30) and stands at its first position; a busy one drops it and sets DROPPED (spec/20_memory.md R66). -/
def acceptJoined (i : Instr) (s : State) : Outcome := hostWrite cmdOffset (encode i) 0 s

/-- The master instance has had a turn, and the slave instance is `b`. -/
def besideSlave (o : Outcome) (b : State) : JoinedOutcome :=
  match o with
  | .next a => .next (a, b)
  | .fault f => .fault f
  | .refused r => .refused r

/-- The slave instance has had a turn, and the master instance is `a`. -/
def besideMaster (a : State) (o : Outcome) : JoinedOutcome :=
  match o with
  | .next b => .next (a, b)
  | .fault f => .fault f
  | .refused r => .refused r

/-- One turn of a joined system: each instance samples what the other drives (R146). -/
def joinedStep (t : JoinedTurn) (p : State × State) : JoinedOutcome :=
  match t with
  | .master => besideSlave (stepAgainst p.2.out p.1) p.2
  | .slave => besideMaster p.1 (stepAgainst p.1.out p.2)
  | .command i => besideSlave (acceptJoined i p.1) p.2

/-- The turns of a schedule, in order, up to the first stop. -/
def joinedRun (turns : List JoinedTurn) (p : State × State) : JoinedOutcome :=
  match turns with
  | [] => .next p
  | t :: rest =>
    match joinedStep t p with
    | .next q => joinedRun rest q
    | .fault f => .fault f
    | .refused r => .refused r

/-- The controller's next step is a `Sample()`. -/
def State.samplesNext (s : State) : Bool :=
  match s.seq.todo with
  | [] => false
  | m :: _ => m.samples

/-- The step moves SDA from what it is. -/
def Micro.movesSda (sda : Drive) (m : Micro) : Bool :=
  match m with
  | .setSda v => v != sda
  | _ => false

/-- What the last sample asked for is not all done: before its next sample the instance still moves SDA. -/
def State.sdaPending (s : State) : Bool :=
  (s.seq.todo.takeWhile fun m => !m.samples).any (Micro.movesSda s.out.sda)

/-- The schedule meets the premises of R146 from a joined system on: the slave takes at least one sample between any two
successive line changes of the master, and the slave's own change of SDA is made before the master's next release of SCL.
`sampled`: the slave has sampled since the master's last line change, or the master has made none. Where a turn stops the
system, no line changes any more. -/
def fairSchedule (sampled : Bool) (turns : List JoinedTurn) (p : State × State) : Bool :=
  match turns with
  | [] => true
  | t :: rest =>
    match joinedStep t p with
    | .next q =>
      let changes := decide (q.1.out ≠ p.1.out)
      let releases := decide (p.1.out.scl = .low ∧ q.1.out.scl = .released)
      (!changes || sampled) && (!releases || !p.2.sdaPending) &&
        fairSchedule (!changes && (sampled || (decide (t = .slave) && p.2.samplesNext))) rest q
    | .fault _ => true
    | .refused _ => true

end Sys2Proof.Machine
end

