-- ==== Sys2Proof/Safety.lean ====
section
/-! DEFINITION. The terms in which statements about the machine speak: the state a finished command leaves, the peer scripts
of the transfers the spec describes, what the block drives in them, and the invariant of a reachable state. -/

namespace Sys2Proof.Machine

/-! ### Finished commands -/

/-- `s` after a command finished with `code`, `peer` being what is left of the peer's script: the block is idle
(spec/60_exceptions.md R200) and nothing else is touched. -/
def State.finishedWith (s : State) (code : Result) (peer : List Drives) : State :=
  { s with
    status := { s.status with busy := false, result := code }
    seq := Sequencer.none
    env := { s.env with peer := peer, quiet := 0 } }

/-- `s` with both line outputs set. -/
def State.withOut (s : State) (sda scl : Drive) : State := { s with out := ⟨sda, scl⟩ }

/-- `s` in the middle of a master command: the outputs, what is left of the peer's script, and the position. -/
def State.busPoint (s : State) (out : Drives) (peer : List Drives) (seq : Sequencer) : State :=
  { s with out := out, seq := seq, env := { s.env with peer := peer } }

/-- `s` with a command running that goes on with `todo`, no local variable written, `peer` being what is left of the peer's
script and the host's next act due. -/
def State.runningAt (s : State) (todo : List Micro) (peer : List Drives) : State :=
  { s with
    status := { s.status with busy := true }
    seq := ⟨todo, 0, false⟩
    env := { s.env with peer := peer, quiet := 0 } }

/-- `s` with the automaton variables `a`. -/
def State.withAuto (s : State) (a : Automaton) : State := { s with auto := a }

/-- The mode a command needs (spec/60_exceptions.md R203): none for the pure codec commands. -/
def neededMode : Instr → Option Mode
  | .mStart => some .master
  | .mStop => some .master
  | .mSendByte _ => some .master
  | .mRecvByte => some .master
  | .mAck => some .master
  | .mNack => some .master
  | .sGetByte => some .slave
  | .sSendToMaster _ => some .slave
  | .ddcBuild _ => none
  | .ddcRxcheck => none
  | .lenCheck _ => none
  | .edidFillsum => none
  | .edidValidate => none
  | .ddcWrite _ => some .master
  | .ddcRead => some .master
  | .edidRead => some .master

/-- The host's next act is due: no command runs, or the controller has taken its steps and the host has an act left. -/
def State.hostDue (s : State) (act : HostAct) (quiet : Nat) (rest : List HostTurn) : Prop :=
  s.env.host = ⟨act, quiet⟩ :: rest ∧ (s.status.busy = true → s.env.quiet = 0)

/-- `s` after a host act: the host's list goes on with `rest`, and the controller may take `quiet` steps before its next. -/
def State.afterHost (s : State) (quiet : Nat) (rest : List HostTurn) : State :=
  { s with env := { s.env with host := rest, quiet := quiet } }

/-- A state is idle: no command runs. -/
def State.idle (s : State) : Prop := s.status.busy = false

/-- The host leaves the block alone for at least n controller steps, and `script` is what the peer drives next. -/
def State.undisturbed (s : State) (n : Nat) (script rest : List Drives) : Prop :=
  n ≤ s.env.quiet ∧ s.env.peer = script ++ rest

/-! ### Peer scripts -/

/-- The peer drives nothing. -/
def released : Drives := Drives.released

/-- The peer holds SDA Low and leaves SCL. -/
def sdaLow : Drives := ⟨.low, .released⟩

/-- The peer holds SCL Low: it stretches the clock. -/
def sclLow : Drives := ⟨.released, .low⟩

/-- The peer puts a bit on SDA with SCL released. -/
def bitDraw (b : Byte) (i : Nat) : Drives := ⟨bitDrive b i, .released⟩

/-- A sample at each of n clock releases, with no stretching and nothing driven. -/
def quietClocks (n : Nat) : List Drives := List.replicate n released

/-- What a peer drives while the block sends a byte without being stretched: eight clock releases, then the stretch-wait
sample and the ACK sample of the ninth (spec/40_engine_master.md R116). -/
def receiverScript (acks : Bool) : List Drives :=
  quietClocks 8 ++ List.replicate 2 (if acks then sdaLow else released)

/-- What a peer drives while the block receives byte `b` without being stretched: two samples for each bit (R117). -/
def senderScript (b : Byte) : List Drives := bitsDown.flatMap fun i => [bitDraw b i, bitDraw b i]

/-- `senderScript` with the block's own ACK bit, which the peer leaves alone (R118). -/
def byteScript (b : Byte) : List Drives := senderScript b ++ quietClocks 1

/-- A peer that sends these bytes. -/
def bytesScript (bs : List Byte) : List Drives := bs.flatMap byteScript

/-- A peer that acknowledges the address byte of a read (START and one byte) and then sends these bytes. -/
def readScript (bs : List Byte) : List Drives := quietClocks 1 ++ receiverScript true ++ bytesScript bs

/-- A bus master's START as a slave samples it, from an idle bus (spec/95_test_vectors.md V-S1). -/
def masterStart : List Drives := [sdaLow, ⟨.low, .low⟩]

/-- A bus master's data bit as a slave samples it, once at each phase (V-S1). -/
def masterBit (b : Byte) (i : Nat) : List Drives :=
  [⟨bitDrive b i, .low⟩, ⟨bitDrive b i, .released⟩, ⟨bitDrive b i, .low⟩]

/-- The ninth clock pulse of a bus master that releases SDA (V-S1) or drives it (V-S8). -/
def masterNinth (sda : Drive) : List Drives := [⟨sda, .low⟩, ⟨sda, .released⟩, ⟨sda, .low⟩]

/-- A bus master that sends a byte and leaves the ACK bit to the slave (V-S1). -/
def masterByte (b : Byte) : List Drives := bitsDown.flatMap (masterBit b) ++ masterNinth .released

/-- A bus master that clocks a byte out of the slave, then drives the ninth bit (V-S8, V-S9). -/
def masterReads (ninth : Drive) : List Drives :=
  (List.replicate 8 [released, sclLow]).flatten ++ masterNinth ninth

/-! ### What the block drives -/

/-- The block's outputs at each `Sample()` of the next n controller steps, in order, up to the end of the command or its model
fault. In a master or codec bus command every
sample is taken with SCL released, so this is what the block drives while the clock is high. -/
def outputsAtSamples (n : Nat) (s : State) : List Drives :=
  match n with
  | 0 => []
  | k + 1 =>
    match s.seq.todo with
    | [] => []
    | m :: _ =>
      (if m.samples then [s.out] else []) ++
        match controllerStep s with
        | .next t => outputsAtSamples k t
        | .fault _ => []
        | .refused _ => []

/-- The command `i`, from where it is accepted in `s`, drives `outs` at the samples of its first n controller steps. -/
def State.drives (s : State) (i : Instr) (n : Nat) (outs : List Drives) : Prop :=
  ∃ t, exec i (s.setQuiet 0) = .next t ∧ outputsAtSamples n t = outs

/-- What the block drives at the samples of a byte it sends, with no stretching: bits 7 downto 0, then SDA released at both
samples of the ninth clock (spec/40_engine_master.md R116). -/
def sentOutputs (b : Byte) : List Drives :=
  bitsDown.map (fun i => bitDraw b i) ++ List.replicate 2 released

/-- What the block drives at the samples of a byte it receives: SDA released at both samples of each bit (R117), then its ACK
(Low) or NACK (Released) on the ninth clock (R118, R119). -/
def receivedOutputs (ack : Drive) : List Drives := List.replicate 16 released ++ [⟨ack, .released⟩]

/-- n bytes received, each ACKed but the last, which is NACKed. -/
def receivedLastNacked (n : Nat) : List Drives :=
  (List.replicate (n - 1) (receivedOutputs .low)).flatten ++ receivedOutputs .released

/-- What the block drives at the one sample of a STOP: SDA Low (R115). -/
def stopOutputs : List Drives := [sdaLow]

/-! ### EDID passes -/

/-- A first pass of EDID_READ without the header: its 128 bytes (spec/43_codec_edid.md R182). -/
def noHeaderIn (bs : List Byte) : Prop :=
  bs.length = 128 ∧ ∀ j, j ≤ 120 → (bs.drop j).take 8 ≠ edidHeader

/-- EDID_READ fails at most one pass before the one at hand; `failed` lists the bytes of that pass (R182). -/
def atMostOneFailed (failed : List (List Byte)) : Prop := failed.length ≤ 1 ∧ ∀ bs ∈ failed, noHeaderIn bs

/-- What a peer drives in the failed passes: address acknowledged, the bytes, STOP. -/
def failedScript (failed : List (List Byte)) : List Drives := failed.flatMap fun bs => readScript bs ++ quietClocks 1

/-- What the block drives in the failed passes, from the address byte of each to the first sample of the START after it. -/
def failedOutputs (failed : List (List Byte)) : List Drives :=
  failed.flatMap fun _ => sentOutputs 0xA1 ++ receivedLastNacked 128 ++ stopOutputs ++ [released]

/-! ### Buffers -/

/-- No byte of memory changes but byte i of one buffer, which now holds `v`. -/
def storesOnly (s t : State) (b : Buffer) (i : Nat) (v : Byte) : Prop :=
  ∀ a, Memory.read t.mem a = if a = b.addr i then some v else Memory.read s.mem a

/-- Bytes i, i+1, … of a buffer are marked and hold `bs`. -/
def State.holds (s : State) (b : Buffer) (i : Nat) (bs : List Byte) : Prop :=
  ∀ k v, bs[k]? = some v → Memory.read s.mem (b.addr (i + k)) = some v

/-- The frame DDC_BUILD leaves (spec/42_codec_ddcci.md R155, R153): destination, source, length byte, payload, checksum. -/
def builtFrame (payload : List Byte) : List Byte :=
  let body := [0x6E, 0x51, 0x80 ||| BitVec.ofNat 8 payload.length] ++ payload
  body ++ [xorBytes 0 body]

/-- Outside bytes i .. i+n-1 of a buffer, `t` has the same memory as `s`: the same bytes with the same marks. -/
def sameOutside (s t : State) (b : Buffer) (i n : Nat) : Prop :=
  ∀ a, (∀ k, k < n → a ≠ b.addr (i + k)) → Memory.read t.mem a = Memory.read s.mem a

/-! ### The invariant -/

/-- A payload length stands in FRAMELEN's range and an index inside its buffer (spec/10_state.md R34, spec/20_memory.md
R69, R184). -/
def Micro.inBounds : Micro → Bool
  | .setCount n => n ≤ 8
  | .setFrameLen n => n ≤ 35
  | .store b i _ => i < b.size
  | .storeAll b i bs => i + bs.length ≤ b.size
  | .storeAcc b i => i < b.size
  | _ => true

/-- The mode a step belongs to, where it belongs to one (spec/60_exceptions.md R203). -/
def Micro.role : Micro → Option Mode
  | .setScl .low => some .master
  | .clockLowGuard => some .master
  | .pollScl _ => some .master
  | .sampleAck => some .master
  | .sampleBit _ => some .master
  | .sendTx _ => some .master
  | .stopIfNack => some .master
  | .readLength => some .master
  | .edidWhile => some .master
  | .edidStore => some .master
  | .edidAdvance => some .master
  | .edidMatch => some .master
  | .edidAckByte => some .master
  | .edidPassEnd => some .master
  | .releaseStretch => some .slave
  | .releaseStretchDelayed => some .slave
  | .getSample => some .slave
  | .waitSample _ => some .slave
  | .setPrev _ => some .slave
  | .setSt _ => some .slave
  | .setCount _ => some .slave
  | .setShreg _ => some .slave
  | .setFirst _ => some .slave
  | .shiftIn _ => some .slave
  | .decCount => some .slave
  | .setStAfterByte => some .slave
  | .applyStretch => some .slave
  | .sendToMasterEnd => some .slave
  | _ => none

/-- A step after which nothing of the command is left, or after which it goes on by another program. -/
def Micro.closes : Micro → Bool
  | .finish _ => true
  | .finishAck => true
  | .rxVerdict _ => true
  | .edidVerdict => true
  | .getSample => true
  | .sendToMasterEnd => true
  | .rxcheckLength => true
  | .readLength => true
  | .edidWhile => true
  | .edidMatch => true
  | .edidPassEnd => true
  | _ => false

/-- Along a position, every EDIDBUF index that comes from the cursor is in 0..127 (R184), the cursor being `c` now. -/
def cursorInBounds (c : Option Nat) (todo : List Micro) : Bool :=
  match todo with
  | [] => true
  | .setCursor d :: rest => d.all (· ≤ 127) && cursorInBounds d rest
  | .edidStore :: rest => nextIndex c ≤ 127 && cursorInBounds c rest
  | .edidAdvance :: rest => nextIndex c ≤ 127 && cursorInBounds (some (nextIndex c)) rest
  | _ :: rest => cursorInBounds c rest

/-- What holds of every reachable state. -/
structure State.Inv (s : State) : Prop where
  /-- The memory is in its one form. -/
  memoryForm : Memory.wf s.mem = true
  /-- Only bytes of the three buffers carry a mark (R62, R69). -/
  memoryBuffers : ∀ cell ∈ s.mem, bufferOffset cell.1 = true
  /-- FRAMELEN holds 0..35 (R34). -/
  frameLenBound : s.frameLen.toNat ≤ 35
  /-- `count` is in 0..8 (R39). -/
  countBound : s.auto.count ≤ 8
  /-- `cursor` is none or in 0..127 (R46). -/
  cursorBound : s.edid.cursor.all (· ≤ 127) = true
  /-- BUSY is 1 exactly while the sequencer has a position (R40). -/
  busyPosition : s.status.busy = true ↔ s.seq.todo ≠ []
  /-- A position ends in a step that finishes the command or goes on with it. -/
  positionCloses : s.seq.todo.getLast?.all Micro.closes = true
  /-- Every index of the position is inside its buffer (R69). -/
  positionBounds : ∀ m ∈ s.seq.todo, m.inBounds = true
  /-- The cursor stays in its buffer along the position (R184). -/
  positionCursor : cursorInBounds s.edid.cursor s.seq.todo = true
  /-- A command runs only in its own mode (R203). -/
  positionMode : ∀ m ∈ s.seq.todo, m.role.all (· = s.ctrl.mode) = true

end Sys2Proof.Machine
end

