-- ==== Sys2Proof/Certificates/Slice0/Obligations.lean ====
section
/-! DEFINITION. The statements put to the provers: encoding, host window, reset, modes, lines, master, slave, codec, and the
whole machine. "The peer's script" is `env.peer`; `undisturbed n script rest` says that the host lets the command take n steps
and that the peer drives `script`, then `rest`. -/

open Sys2Proof Sys2Proof.Machine

/-! ### Encoding -/

/-- R93, R94, R98: a word decodes to a command exactly when it is that command's word, for every operand. -/
def Obligations.DecodeIsExactlyEncode : Prop :=
  ∀ (w : Word) (i : Instr), decode w = .ok i ↔ w = encode i

/-- R93: of the rows' patterns, a word is selected by exactly one, its own command's, or by none. -/
def Obligations.OneRowOrNone : Prop :=
  ∀ w : Word, (opcodePatterns.filter (·.selects w)).map OpcodePattern.mnemonic =
    match decode w with
    | .ok i => [mnemonic i]
    | .error _ => []

/-- R92, R98: words written out from the opcode map. -/
def Obligations.WrittenWordsDecode : Prop :=
  decode 0x00000010 = .ok .mStart ∧ decode 0x0000A112 = .ok (.mSendByte 0xA1) ∧ decode 0x00000020 = .ok .sGetByte ∧
    decode 0x00000021 = .ok (.sSendToMaster 0) ∧ decode 0x00008332 = .ok (.lenCheck 0x83) ∧
    decode 0x00000340 = .ok (.ddcWrite 3) ∧ decode 0x00000042 = .ok .edidRead ∧
    decode 0x00010010 = .error .reservedBits ∧ decode 0x00000110 = .error .strayOperand ∧
    decode 0x00000016 = .error (.reservedOpcode 0x16)

/-- R94: an accepted illegal word ends in its accepting step with ILLEGAL_COMMAND; CMD records it, DROPPED is cleared, and
nothing else of the block changes. -/
def Obligations.IllegalWordOnlyReports : Prop :=
  ∀ (s : State) (w : Word) (q : Nat) (rest : List HostTurn),
    s.idle → s.hostDue (.write cmdOffset 4 w) q rest → legalWord w = false →
      step s = .next { s.afterHost 0 rest with
        cmd := w, status := ⟨false, false, .illegalCommand⟩, seq := Sequencer.none }

/-! ### A step of the machine -/

/-- R30: the step in which the host writes a legal word to CMD on an idle block is `exec` of the command it decodes to, in the
state in which CMD holds the word, DROPPED is 0 and BUSY is 1, RESULT and all else as before. -/
def Obligations.StepRunsTheDecodedCommand : Prop :=
  ∀ (s : State) (w : Word) (i : Instr) (q : Nat) (rest : List HostTurn),
    s.idle → s.hostDue (.write cmdOffset 4 w) q rest → decode w = .ok i →
      step s = exec i { s.afterHost q rest with
        cmd := w, status := { busy := true, dropped := false, result := s.status.result } }

/-- The model's schedule (assumption log 4) says nothing of the block. While a command runs and no act of the host is due, a
step of the machine is the controller's steps up to the host's next act, and a free draw is like a listed one; and a command
that was stopped after m controller steps and goes on for n more reaches what it reaches in m + n. -/
def Obligations.RunningCommandGoesOn : Prop :=
  (∀ s : State, s.status.busy = true → 0 < s.env.quiet ∨ s.env.host = [] → s.seq.todo ≠ [] →
    (s.needsDraw = false → step s = runController (max 1 s.env.quiet) s) ∧
    (s.needsDraw = true → step s = runController (max 1 s.env.quiet)
      { s with env := { s.env with peer := [Config.peerDrive s.env.unit s.env.draws], draws := s.env.draws + 1 } })) ∧
  ∀ (s t : State) (m n : Nat), runController m s = .next t → t.env.quiet = 0 → t.seq.todo ≠ [] →
    runController (m + n) s = runController n t

/-! ### Host window -/

/-- R66: a CMD write while BUSY = 1 only sets DROPPED. -/
def Obligations.CommandWriteWhileBusyIsDropped : Prop :=
  ∀ (s : State) (w : Word) (q : Nat) (rest : List HostTurn),
    s.status.busy = true → s.hostDue (.write cmdOffset 4 w) q rest →
      step s = .next { s.afterHost q rest with status := { s.status with dropped := true } }

/-- R67: while BUSY = 1 every other write is ignored; a write to a read-only register or a reserved offset always is. -/
def Obligations.IgnoredWrites : Prop :=
  ∀ (s : State) (off : Offset) (v : Word) (q : Nat) (rest : List HostTurn),
    s.hostDue (.write off 4 v) q rest → off.toNat % 4 = 0 → off ≠ cmdOffset →
      (s.status.busy = true → step s = .next (s.afterHost q rest)) ∧
      (s.status.busy = false →
        0x010 ≤ off.toNat ∧ off.toNat ≤ 0x0FC ∨ 0x1A0 ≤ off.toNat ∧ off.toNat ≤ 0x1FC ∨
          0x2A0 ≤ off.toNat ∧ off.toNat ≤ 0x3FC ∨ 0x600 ≤ off.toNat →
        step s = .next (s.afterHost 0 rest))

/-- R63, R45: a read of a buffer word returns the byte zero-extended, also while a command runs, and is the model fault where
the byte carries no mark; an accepted write stores v[7:0], marks that byte, and changes nothing else. -/
def Obligations.BufferWords : Prop :=
  ∀ (s : State) (b : Buffer) (i q : Nat) (rest : List HostTurn), i < b.size →
    (∀ v : Byte, s.hostDue (.read (BitVec.ofNat 12 (b.addr i)) 4) q rest → Memory.read s.mem (b.addr i) = some v →
      step s = .next ((s.afterHost (if s.status.busy then q else 0) rest).setRdata (v.setWidth 32))) ∧
    (s.hostDue (.read (BitVec.ofNat 12 (b.addr i)) 4) q rest → Memory.read s.mem (b.addr i) = none →
      step s = .fault (.hostReadUnmarked (b.addr i))) ∧
    (∀ v : Word, s.idle → s.hostDue (.write (BitVec.ofNat 12 (b.addr i)) 4 v) q rest →
      ∃ m, step s = .next { s.afterHost 0 rest with mem := m } ∧
        storesOnly s { s with mem := m } b i (v.extractLsb' 0 8))

/-- R64, R36: a read of an aligned word, a marked one where it is a buffer byte's, completes and changes nothing of the block,
and only a read of LINES samples the lines. -/
def Obligations.ReadsHaveNoSideEffect : Prop :=
  ∀ (s : State) (off : Offset) (q : Nat) (rest : List HostTurn),
    s.hostDue (.read off 4) q rest → off.toNat % 4 = 0 →
      (∀ (b : Buffer) (i : Nat), i < b.size → off.toNat = b.addr i → Memory.read s.mem (b.addr i) ≠ none) →
        ∃ t, step s = .next t ∧ t = { s with env := t.env } ∧ t.env.host = rest ∧
          (off ≠ 0x024 → t.env.peer = s.env.peer ∧ t.env.draws = s.env.draws) ∧
          (off = 0x024 → t.env.peer = s.env.peer.tail)

/-- R61: an access that is misaligned or not of 4 bytes has no step: it is refused. -/
def Obligations.OtherAccessesAreRefused : Prop :=
  ∀ (s : State) (off : Offset) (size : Nat) (v : Word) (q : Nat) (rest : List HostTurn),
    off.toNat % 4 ≠ 0 ∨ size ≠ 4 →
      (s.hostDue (.read off size) q rest → step s = .refused (.accessNotAdmitted off.toNat size)) ∧
      (s.hostDue (.write off size v) q rest → step s = .refused (.accessNotAdmitted off.toNat size))

/-- R26, R28-R34, R38, R201: a read of a plain register completes and shows its fields, every other bit reading 0; a read of a
reserved offset reads 0. -/
def Obligations.RegisterReads : Prop :=
  ∀ (s : State) (off : Offset) (q : Nat) (rest : List HostTurn),
    s.hostDue (.read off 4) q rest → off.toNat % 4 = 0 →
      off.toNat ≤ 0x01C ∨ 0x02C ≤ off.toNat ∧ off.toNat ≤ 0x0FC ∨ 0x1A0 ≤ off.toNat ∧ off.toNat ≤ 0x1FC ∨
        0x2A0 ≤ off.toNat ∧ off.toNat ≤ 0x3FC ∨ 0x600 ≤ off.toNat →
      ∃ t, step s = .next t ∧
        (off = 0x000 → t.env.rdata.toNat =
          (if s.ctrl.mode = .slave then 1 else 0) + (if s.ctrl.b2b then 2 else 0) + (if s.ctrl.stretch then 4 else 0)) ∧
        (off = 0x004 → t.env.rdata.toNat = s.bitDelay.toNat) ∧
        (off = 0x008 → t.env.rdata.toNat = s.timeout.toNat) ∧
        (off = 0x00C → t.env.rdata = s.cmd) ∧
        (off = 0x010 → t.env.rdata.toNat =
          (if s.status.busy then 1 else 0) + (if s.status.dropped then 2 else 0) + 16 * (match s.status.result with
            | .ok => 0x0
            | .noack => 0x1
            | .unexpectedStart => 0x2
            | .unexpectedStop => 0x3
            | .invalidChecksum => 0x4
            | .invalidLength => 0x5
            | .headerNotFound => 0x6
            | .busTimeout => 0x7
            | .nullMessage => 0x8
            | .illegalCommand => 0x9
            | .modeError => 0xA)) ∧
        (off = 0x014 → t.env.rdata.toNat = s.rxData.byte.toNat + if s.rxData.first then 256 else 0) ∧
        (off = 0x018 → t.env.rdata.toNat = s.chksum.toNat) ∧
        (off = 0x01C → t.env.rdata.toNat = s.frameLen.toNat) ∧
        (0x02C ≤ off.toNat → t.env.rdata = 0)

/-- R35, R36, R37: a read of a view completes and shows its fields, every other bit reading 0. The levels of LINES are those
of its own sample. -/
def Obligations.ViewReads : Prop :=
  ∀ (s : State) (off : Offset) (q : Nat) (rest : List HostTurn),
    s.hostDue (.read off 4) q rest → s.auto.count ≤ 8 → s.edid.cursor.all (· ≤ 127) = true →
      off ∈ [0x020, 0x024, 0x028] →
      ∃ t, step s = .next t ∧
        (off = 0x020 → t.env.rdata.toNat =
          (match s.auto.st with
            | .waitStart => 0
            | .start => 1
            | .clockAvailable => 2
            | .data => 3
            | .ack => 4
            | .ackDone => 5) + 16 * s.auto.count + 256 * s.auto.shreg.toNat +
            (if s.auto.prev.sda = .high then 65536 else 0) + (if s.auto.prev.scl = .high then 131072 else 0) +
            if s.auto.first then 262144 else 0) ∧
        (off = 0x024 → t.env.rdata.toNat =
          (if s.out.sda = .released ∧ s.peerDrive.sda = .released then 1 else 0) +
            (if s.out.scl = .released ∧ s.peerDrive.scl = .released then 2 else 0) +
            (if s.out.sda = .released then 4 else 0) + if s.out.scl = .released then 8 else 0) ∧
        (off = 0x028 → t.env.rdata.toNat =
          s.edid.cursor.getD 255 + (if s.edid.validated then 256 else 0) + (if s.edid.resynced then 512 else 0) +
            if s.edid.pass then 1024 else 0)

/-- R27: an accepted CTRL write. A change of MODE releases both lines, restarts the automaton and samples the lines; a write
that changes no field does nothing. A write that keeps MODE, changes another field and has STRETCH 0 releases SCL, in Master
mode too and where STRETCH was 0 already: that reading of R27 is the model's (assumption log 10, DEDUCED, unsafe). -/
def Obligations.CtrlWriteSideEffects : Prop :=
  ∀ (s : State) (v : Word) (q : Nat) (rest : List HostTurn) (d : Drives) (ds : List Drives),
    s.idle → s.hostDue (.write 0x000 4 v) q rest → s.env.peer = d :: ds →
      ∃ t, step s = .next t ∧
        t.ctrl = ⟨if v.getLsbD 0 then .slave else .master, v.getLsbD 1, v.getLsbD 2⟩ ∧
        (t.ctrl.mode ≠ s.ctrl.mode →
          t = { (s.afterHost 0 rest).withOut .released .released with
            ctrl := t.ctrl
            auto := ⟨.waitStart, 8, 0, false, levelsOf ⟨.released, .released⟩ d⟩
            env := { s.env with host := rest, quiet := 0, peer := ds } }) ∧
        (t.ctrl.mode = s.ctrl.mode → t.ctrl ≠ s.ctrl →
          t = { (s.afterHost 0 rest).withOut s.out.sda (if v.getLsbD 2 then s.out.scl else .released) with
            ctrl := t.ctrl }) ∧
        (t.ctrl = s.ctrl → t = s.afterHost 0 rest)

/-- R28, R29: an accepted write of BITDELAY or TIMEOUT stores bits [15:0] and changes nothing else. -/
def Obligations.ParameterWrites : Prop :=
  ∀ (s : State) (v : Word) (q : Nat) (rest : List HostTurn), s.idle →
    (s.hostDue (.write 0x004 4 v) q rest →
      step s = .next { s.afterHost 0 rest with bitDelay := v.extractLsb' 0 16 }) ∧
    (s.hostDue (.write 0x008 4 v) q rest →
      step s = .next { s.afterHost 0 rest with timeout := v.extractLsb' 0 16 })

/-- R103: a WAIT reads STATUS and ends when BUSY is 0; until then it polls again. The pace of the polls is the model's choice
(`1 ≤ n`: each poll leaves the controller at least one step; assumption log 9, DESIGN CHOICE, unsafe), not the spec's. -/
def Obligations.WaitPollsUntilIdle : Prop :=
  ∀ (s : State) (q : Nat) (rest : List HostTurn), s.hostDue .wait q rest →
    (s.idle → step s = .next { s with env := { s.env with host := rest, rdata := statusWord s.status } }) ∧
    (¬ s.idle → ∃ n, 1 ≤ n ∧
      step s = .next { s with env := { s.env with quiet := n, rdata := statusWord s.status } })

/-! ### Reset -/

/-- R48: the state right after reset. `prev` is the sample of released lines: the levels of the peer's drive. -/
def Obligations.ResetValues : Prop :=
  State.reset.out = ⟨.released, .released⟩ ∧ State.reset.ctrl = ⟨.master, false, false⟩ ∧ State.reset.bitDelay = 5 ∧
    State.reset.timeout = 10000 ∧ State.reset.cmd = 0 ∧ State.reset.status = ⟨false, false, .ok⟩ ∧
    State.reset.rxData = ⟨0, false⟩ ∧ State.reset.chksum = 0 ∧ State.reset.frameLen = 0 ∧
    State.reset.auto = ⟨.waitStart, 8, 0, false, levelsOf ⟨.released, .released⟩ (Config.peerDrive 0 0)⟩ ∧
    State.reset.seq.todo = [] ∧ State.reset.edid = ⟨none, false, false, false⟩ ∧
    ∀ a, Memory.read State.reset.mem a = none

/-- R230: the reset input, at any point of any command: every element takes its reset value, the command leaves no result,
every mark is cleared, and `prev` is a sample with both lines released. -/
def Obligations.ResetInputResetsEverything : Prop :=
  ∀ (s : State) (q : Nat) (rest : List HostTurn) (d : Drives) (ds : List Drives),
    s.hostDue .reset q rest → s.env.peer = d :: ds →
      step s = .next { State.reset with
        auto := ⟨.waitStart, 8, 0, false, levelsOf ⟨.released, .released⟩ d⟩
        env := { s.env with host := rest, quiet := 0, peer := ds } }

/-! ### Modes and lines -/

/-- R203: a command in the wrong mode only finishes with MODE_ERROR, in its accepting step; in its own mode, and a pure codec
command in either, no command finishes with MODE_ERROR. -/
def Obligations.ModeCheck : Prop :=
  ∀ (i : Instr) (s : State),
    (neededMode i = some (if s.ctrl.mode = .master then .slave else .master) →
      exec i s = .next (s.finishedWith .modeError s.env.peer)) ∧
    ∀ t, neededMode i = none ∨ neededMode i = some s.ctrl.mode → exec i s = .next t → t.status.busy = false →
      t.status.result ≠ .modeError

/-- R22: a sample of either line is High exactly when the block and the peer both release it, and sampling changes nothing of
the block. -/
def Obligations.SampleIsWiredAnd : Prop :=
  ∀ s : State, (s.sample.1.sda = .high ↔ s.out.sda = .released ∧ s.peerDrive.sda = .released) ∧
    (s.sample.1.scl = .high ↔ s.out.scl = .released ∧ s.peerDrive.scl = .released) ∧
    s.sample.2 = { s with env := s.sample.2.env }

/-! ### Master commands -/

/-- R114: M_START, from any outputs, on a clock that is not stretched: OK, SDA Low, SCL Released; and between the sample that
shows SCL High and the end, SDA is first Released and then Low, SCL staying Released: a START on the bus. -/
def Obligations.MStartCompletes : Prop :=
  ∀ (s : State) (d : Drives) (rest : List Drives),
    s.ctrl.mode = .master → s.env.peer = d :: rest → d.scl = .released →
      (8 ≤ s.env.quiet → exec .mStart s = .next ((s.withOut .low .released).finishedWith .ok rest)) ∧
      (s.env.quiet ∈ [4, 5] → ∃ t, exec .mStart s = .next t ∧ t.status.busy = true ∧ t.out = ⟨.released, .released⟩) ∧
      (s.env.quiet ∈ [6, 7] → ∃ t, exec .mStart s = .next t ∧ t.status.busy = true ∧ t.out = ⟨.low, .released⟩)

/-- R115, R110: M_STOP: OK, both outputs Released; and between the sample that shows SCL High and the end, SDA is first Low
and then Released, SCL staying Released: a STOP on the bus. Where SCL was Released, the guard's two steps come first. -/
def Obligations.MStopCompletes : Prop :=
  ∀ (s : State) (d : Drives) (rest : List Drives),
    s.ctrl.mode = .master → s.env.peer = d :: rest → d.scl = .released →
      let g := if s.out.scl = .released then 2 else 0
      (11 ≤ s.env.quiet → exec .mStop s = .next ((s.withOut .released .released).finishedWith .ok rest)) ∧
      (s.env.quiet ∈ [5 + g, 6 + g] →
        ∃ t, exec .mStop s = .next t ∧ t.status.busy = true ∧ t.out = ⟨.low, .released⟩) ∧
      (s.env.quiet ∈ [7 + g, 8 + g] →
        ∃ t, exec .mStop s = .next t ∧ t.status.busy = true ∧ t.out = ⟨.released, .released⟩)

/-- R116: M_SEND_BYTE, whatever the peer does with SDA during the data bits: OK or NOACK by the one ACK sample, SDA Released
and SCL Low. -/
def Obligations.MSendByteCompletes : Prop :=
  ∀ (s : State) (b : Byte) (clocks : List Drives) (ack : Drives) (rest : List Drives),
    s.ctrl.mode = .master → s.undisturbed 59 (clocks ++ [ack]) rest → clocks.length = 9 →
      (∀ d ∈ clocks, d.scl = .released) →
        exec (.mSendByte b) s =
          .next ((s.withOut .released .low).finishedWith (if ack.sda = .low then .ok else .noack) rest)

/-- R116, R113, R70: bit j of the byte, counted from the most-significant, is on SDA before its clock is released, while the
clock is high, and still when the clock falls. Where SCL was Released, the guard's two steps come first. -/
def Obligations.MSendByteShowsEachBit : Prop :=
  ∀ (s : State) (b : Byte) (j : Nat) (clocks rest : List Drives),
    s.ctrl.mode = .master → j < 8 → clocks.length = j + 1 → (∀ d ∈ clocks, d.scl = .released) →
      s.env.peer = clocks ++ rest →
        let g := 6 * j + if s.out.scl = .released then 2 else 0
        let bit : Drive := if b.getLsbD (7 - j) then .released else .low
        (s.env.quiet ∈ [4 + g, 5 + g, 6 + g] →
          ∃ t, exec (.mSendByte b) s = .next t ∧ t.status.busy = true ∧ t.out = ⟨bit, .released⟩) ∧
        (s.env.quiet ∈ [2 + g, 3 + g, 7 + g] →
          ∃ t, exec (.mSendByte b) s = .next t ∧ t.status.busy = true ∧ t.out = ⟨bit, .low⟩)

/-- R117: M_RECV_BYTE: RXDATA takes the byte the peer presents, with FIRST 0; SDA Released and SCL Low. -/
def Obligations.MRecvByteCompletes : Prop :=
  ∀ (s : State) (b : Byte) (rest : List Drives),
    s.ctrl.mode = .master → s.undisturbed 56 (senderScript b) rest →
      exec .mRecvByte s =
        .next (({ s with rxData := ⟨b, false⟩ }.withOut .released .low).finishedWith .ok rest)

/-- R118, R119: M_ACK and M_NACK: OK, SDA Released and SCL Low. -/
def Obligations.MAckAndMNackComplete : Prop :=
  ∀ (s : State) (i : Instr) (d : Drives) (rest : List Drives), i ∈ [.mAck, .mNack] →
    s.ctrl.mode = .master → s.undisturbed 11 [d] rest → d.scl = .released →
      exec i s = .next ((s.withOut .released .low).finishedWith .ok rest)

/-- R118, R119, R118 (a): M_ACK holds SDA Low and M_NACK leaves it Released from before the ninth clock is released until SCL
is Low again; only then is SDA released. Where SCL was Released, the guard's two steps come first. -/
def Obligations.AckBitOnTheWire : Prop :=
  ∀ (s : State) (i : Instr) (v : Drive) (d : Drives) (rest : List Drives),
    (i, v) ∈ [(.mAck, .low), (.mNack, .released)] →
      s.ctrl.mode = .master → s.env.peer = d :: rest → d.scl = .released →
        let g := if s.out.scl = .released then 2 else 0
        (s.env.quiet ∈ [4 + g, 5 + g, 6 + g] →
          ∃ t, exec i s = .next t ∧ t.status.busy = true ∧ t.out = ⟨v, .released⟩) ∧
        (s.env.quiet ∈ [2 + g, 3 + g, 7 + g] →
          ∃ t, exec i s = .next t ∧ t.status.busy = true ∧ t.out = ⟨v, .low⟩) ∧
        (s.env.quiet = 8 + g → ∃ t, exec i s = .next t ∧ t.status.busy = true ∧ t.out = ⟨.released, .low⟩)

/-- R111: a peer that stretches a clock release within the bound delays the command and changes nothing else: each extra sample
costs two steps. At whatever poll of SCL a command stands, a codec bus command too; and from the acceptance of a master
command on, at its first. -/
def Obligations.StretchingOnlyDelays : Prop :=
  ∀ (s : State) (lows : List Drives) (d : Drives) (rest : List Drives) (q : Nat),
    (∀ e ∈ lows, e.scl = .low) → d.scl = .released →
      (∀ (todo : List Micro) (k : Nat), s.seq.todo = .pollScl k :: todo → s.out.scl = .released →
        k + lows.length ≤ s.timeout.toNat → 1 ≤ q →
          runController (q + 2 * lows.length) { s with env := { s.env with peer := lows ++ d :: rest } } =
            runController q { s with env := { s.env with peer := d :: rest } }) ∧
      ∀ (i : Instr) (b : Byte),
        i ∈ [.mStart, .mStop, .mSendByte b, .mRecvByte, .mAck, .mNack] → s.ctrl.mode = .master →
          lows.length ≤ s.timeout.toNat → 10 ≤ q →
            exec i { s with env := { s.env with peer := lows ++ d :: rest, quiet := q + 2 * lows.length } } =
              exec i { s with env := { s.env with peer := d :: rest, quiet := q } }

/-- R111, R112: a peer that holds SCL Low for STRETCH_LIMIT + 1 samples ends a master command with BUS_TIMEOUT, both outputs
Released and RXDATA as it was; and a Low sample at the bound ends whatever command is running, a codec bus command too. -/
def Obligations.HeldClockTimesOut : Prop :=
  (∀ (s : State) (todo : List Micro) (d : Drives) (rest : List Drives),
    s.seq.todo = .pollScl s.timeout.toNat :: todo → s.out.scl = .released → s.env.peer = d :: rest → d.scl = .low →
      runController 3 s = .next ((s.withOut .released .released).finishedWith .busTimeout rest)) ∧
  ∀ (s : State) (i : Instr) (b : Byte) (lows rest : List Drives),
    i ∈ [.mStart, .mStop, .mSendByte b, .mRecvByte, .mAck, .mNack] → s.ctrl.mode = .master →
      (∀ e ∈ lows, e.scl = .low) → lows.length = s.timeout.toNat + 1 → s.undisturbed (2 * lows.length + 12) lows rest →
        exec i s = .next ((s.withOut .released .released).finishedWith .busTimeout rest)

/-- R122: the commands that need Master mode neither read nor write the automaton variables. -/
def Obligations.MasterCommandsIgnoreTheAutomaton : Prop :=
  ∀ (i : Instr) (s : State) (a : Automaton), neededMode i = some .master →
    exec i (s.withAuto a) =
      match exec i s with
      | .next t => .next (t.withAuto a)
      | .fault f => .fault f
      | .refused r => .refused r

/-- What a command leaves alone, wherever the host interrupts it: CTRL, BITDELAY, TIMEOUT, CMD and DROPPED always (R205 (a),
R67, R30), the automaton but for the slave commands (R122, R140, R143), the outputs for the pure codec commands, and RXDATA
(R32), CHKSUM (R33), FRAMELEN (R34), the EDID variables (R46) and each byte of memory (R69) but for the commands whose
"Registers written" name them (R117, R140, R152, R155, R157, R160, R161, R177, R178, R180). -/
def Obligations.CommandFrame : Prop :=
  ∀ (s t : State) (i : Instr), exec i s = .next t →
    (t.ctrl = s.ctrl ∧ t.bitDelay = s.bitDelay ∧ t.timeout = s.timeout ∧ t.cmd = s.cmd ∧
      t.status.dropped = s.status.dropped) ∧
    (t.env.unit = s.env.unit ∧ t.env.host = s.env.host ∧ t.env.rdata = s.env.rdata) ∧
    (neededMode i = none → t.out = s.out ∧ t.env.peer = s.env.peer ∧ t.env.draws = s.env.draws) ∧
    (neededMode i ≠ some .slave → t.auto = s.auto) ∧
    (i ≠ .mRecvByte → i ≠ .sGetByte → t.rxData = s.rxData) ∧
    (i ≠ .edidRead → t.edid = s.edid) ∧
    ((∀ n, i ≠ .ddcBuild n ∧ i ≠ .ddcWrite n) → i ∉ [.ddcRxcheck, .ddcRead, .edidFillsum, .edidValidate] →
      t.chksum = s.chksum) ∧
    ((∀ n, i ≠ .ddcBuild n ∧ i ≠ .ddcWrite n ∧ i ≠ .lenCheck n) → i ∉ [.ddcRxcheck, .ddcRead] →
      t.frameLen = s.frameLen) ∧
    (∀ n, i = .ddcBuild n ∨ i = .ddcWrite n → ∀ a, a ∉ [0x100, 0x104, 0x108, 0x10C + 4 * n.toNat] →
      Memory.read t.mem a = Memory.read s.mem a) ∧
    (i = .ddcRead → sameOutside s t .rx 0 38) ∧ (i = .edidFillsum → sameOutside s t .edid 127 1) ∧
    (i = .edidRead → sameOutside s t .edid 0 128) ∧
    ((∀ n, i ≠ .ddcBuild n ∧ i ≠ .ddcWrite n) → i ∉ [.ddcRead, .edidFillsum, .edidRead] → t.mem = s.mem)

/-! ### Slave commands -/

/-- R140, R135, R137: S_GET_BYTE receives a byte after a START, in any automaton state: FIRST is 1, and the automaton and SCL
are left as B2B and STRETCH say. -/
def Obligations.SGetByteAfterStart : Prop :=
  ∀ (s : State) (b : Byte) (rest : List Drives),
    s.ctrl.mode = .slave → s.auto.prev = ⟨.high, .high⟩ → s.out.sda = .released →
      s.undisturbed 150 (masterStart ++ masterByte b) rest →
        exec .sGetByte s = .next (({ s with
          rxData := ⟨b, true⟩
          auto := ⟨if s.ctrl.b2b then .clockAvailable else .waitStart, 8, 0, false, ⟨.low, .low⟩⟩ }.withOut .released
            (if s.ctrl.b2b ∧ s.ctrl.stretch then .low else .released)).finishedWith .ok rest)

/-- R140 (b), R138: in ClockAvailable S_GET_BYTE receives a byte with no START, after it releases a held SCL. -/
def Obligations.SGetByteBackToBack : Prop :=
  ∀ (s : State) (b : Byte) (rest : List Drives),
    s.ctrl.mode = .slave → s.auto.st = .clockAvailable → s.auto.count = 8 → s.auto.prev.scl = .low →
      s.out.sda = .released → s.undisturbed 150 (masterByte b) rest →
        exec .sGetByte s = .next (({ s with
          rxData := ⟨b, s.auto.first⟩
          auto := ⟨if s.ctrl.b2b then .clockAvailable else .waitStart, 8, 0, false, ⟨.low, .low⟩⟩ }.withOut .released
            (if s.ctrl.b2b ∧ s.ctrl.stretch then .low else .released)).finishedWith .ok rest)

/-- R132, R133, R141: a START restarts the automaton in every state, a STOP discards the partial byte outside WaitStart and
does nothing in it, and S_GET_BYTE goes on. -/
def Obligations.ConditionsInSGetByte : Prop :=
  ∀ (s : State) (rest : List Drives), s.ctrl.mode = .slave →
    (s.auto.prev = ⟨.high, .high⟩ → s.env.peer = sdaLow :: rest → s.env.quiet = 8 →
      exec .sGetByte s = .next (((s.withOut s.out.sda .released).withAuto
        ⟨.start, 8, 0, true, ⟨.low, .high⟩⟩).runningAt getLoop rest)) ∧
    (s.auto.prev = ⟨.low, .high⟩ → s.out.sda = .released → s.env.peer = released :: rest → s.auto.st ≠ .waitStart →
      s.env.quiet = 9 →
        exec .sGetByte s = .next (((s.withOut .released .released).withAuto
          ⟨.waitStart, 8, 0, false, ⟨.high, .high⟩⟩).runningAt getLoop rest)) ∧
    (s.auto.prev = ⟨.low, .high⟩ → s.out.sda = .released → s.env.peer = released :: rest → s.auto.st = .waitStart →
      s.env.quiet = 4 →
        exec .sGetByte s = .next (((s.withOut .released .released).withAuto
          { s.auto with prev := ⟨.high, .high⟩ }).runningAt getLoop rest))

/-- R134, R135: the transition table, row by row, for a sample that is neither a START nor a STOP. `cur` is the sample. A
combination that is not listed changes `prev` alone. R130, R11: the sample and the write of `prev` are two steps, between which
the host still reads the old automaton. -/
def Obligations.AutomatonTransitions : Prop :=
  ∀ (s : State) (d : Drives) (rest : List Drives),
    let p := s.auto.prev
    let cur := levelsOf ⟨s.out.sda, .released⟩ d
    let falls := p.scl = .high ∧ cur.scl = .low
    let rises := p.scl = .low ∧ cur.scl = .high
    let goesOn := fun (sda : Drive) (a : Automaton) =>
      exec .sGetByte s = .next (((s.withOut sda .released).withAuto a).runningAt getLoop rest)
    s.ctrl.mode = .slave → s.env.peer = d :: rest → ¬ (p.scl = .high ∧ cur.scl = .high ∧ p.sda ≠ cur.sda) →
      (s.auto.st = .start → falls → s.env.quiet = 5 →
        goesOn s.out.sda { s.auto with st := .clockAvailable, prev := cur }) ∧
      (s.auto.st = .clockAvailable → rises → 1 ≤ s.auto.count → s.env.quiet = 7 →
        ∃ v : Byte, (∀ k, k < 8 → v.getLsbD k =
            if k = s.auto.count - 1 then decide (cur.sda = .high) else s.auto.shreg.getLsbD k) ∧
          goesOn s.out.sda { s.auto with st := .data, count := s.auto.count - 1, shreg := v, prev := cur }) ∧
      (s.auto.st = .data → falls → s.auto.count ≠ 0 → s.env.quiet = 5 →
        goesOn s.out.sda { s.auto with st := .clockAvailable, prev := cur }) ∧
      (s.auto.st = .data → falls → s.auto.count = 0 → s.env.quiet = 6 →
        goesOn .low { s.auto with st := .ack, prev := cur }) ∧
      (s.auto.st = .ack → rises → s.env.quiet = 5 →
        goesOn s.out.sda { s.auto with st := .ackDone, prev := cur }) ∧
      (s.auto.st = .ackDone → falls → 13 ≤ s.env.quiet →
        exec .sGetByte s = .next (({ s with
          rxData := ⟨s.auto.shreg, s.auto.first⟩
          auto := ⟨if s.ctrl.b2b then .clockAvailable else .waitStart, 8, 0, false, cur⟩ }.withOut .released
            (if s.ctrl.b2b ∧ s.ctrl.stretch then .low else .released)).finishedWith .ok rest)) ∧
      ((falls → s.auto.st ∈ [.waitStart, .clockAvailable, .ack]) →
        (rises → s.auto.st ∈ [.waitStart, .start, .data, .ackDone]) → s.env.quiet = 4 →
          goesOn s.out.sda { s.auto with prev := cur }) ∧
      (s.env.quiet = 3 → ∃ t, exec .sGetByte s = .next t ∧ t.status.busy = true ∧ t.auto = s.auto ∧ t.env.peer = rest)

/-- R143, R144: S_SEND_TO_MASTER follows nine clock pulses and ends by the level of SDA on the ninth: OK in ClockAvailable,
with SCL held by STRETCH, or NOACK in WaitStart. -/
def Obligations.SSendToMasterCompletes : Prop :=
  ∀ (s : State) (b : Byte) (ninth : Drive) (rest : List Drives),
    s.ctrl.mode = .slave → s.auto.prev.scl = .low → s.undisturbed 100 (masterReads ninth) rest →
      exec (.sSendToMaster b) s = .next (match ninth with
        | .low => ((s.withOut .released (if s.ctrl.stretch then .low else .released)).withAuto
            ⟨.clockAvailable, 8, 0, false, ⟨.low, .low⟩⟩).finishedWith .ok rest
        | .released => ((s.withOut .released .released).withAuto
            ⟨.waitStart, 8, 0, false, ⟨.high, .low⟩⟩).finishedWith .noack rest)

/-- R143, R70, R138: when the master raises the clock of bit j, SDA carries bit 7 - j of the byte. Where SCL is held Low by a
stretch, bit 7 is on SDA first, SCL stays Low through the Delay, and only then is SCL released. -/
def Obligations.SSendToMasterShowsEachBit : Prop :=
  (∀ (s : State) (b : Byte) (j : Nat) (rest : List Drives),
    s.ctrl.mode = .slave → s.auto.prev.scl = .low → j < 8 →
      s.env.quiet = 8 * j + 5 + (if s.out.scl = .low then 2 else 0) →
      s.env.peer = (List.replicate j [released, sclLow]).flatten ++ released :: rest →
        ∃ t, exec (.sSendToMaster b) s = .next t ∧ t.status.busy = true ∧
          t.out = ⟨if b.getLsbD (7 - j) then .released else .low, .released⟩ ∧ t.auto.prev.scl = .high) ∧
  ∀ (s : State) (b : Byte),
    s.ctrl.mode = .slave → s.out.scl = .low →
      let bit : Drive := if b.getLsbD 7 then .released else .low
      (s.env.quiet ∈ [1, 2, 3] →
        ∃ t, exec (.sSendToMaster b) s = .next t ∧ t.status.busy = true ∧ t.out = ⟨bit, .low⟩ ∧ t.auto = s.auto) ∧
      (s.env.quiet ∈ [4, 5] →
        ∃ t, exec (.sSendToMaster b) s = .next t ∧ t.status.busy = true ∧ t.out = ⟨bit, .released⟩ ∧ t.auto = s.auto)

/-- R142, R144, R243: at whatever sample S_SEND_TO_MASTER waits, a START or a STOP ends it, the clock event it waits for lets
it go on, and any other sample changes `prev` alone; so does a START or a STOP at its first sample, also one that its own
drive of bit 7 makes. -/
def Obligations.UnexpectedConditions : Prop :=
  (∀ (s : State) (e : Event) (todo : List Micro) (d : Drives) (rest : List Drives) (n : Nat),
    let p := s.auto.prev
    let cur := levelsOf s.out d
    let starts := p = ⟨.high, .high⟩ ∧ cur = ⟨.low, .high⟩
    let stops := p = ⟨.low, .high⟩ ∧ cur = ⟨.high, .high⟩
    let happens := e = .rising ∧ p.scl = .low ∧ cur.scl = .high ∨ e = .falling ∧ p.scl = .high ∧ cur.scl = .low
    s.seq.todo = .waitSample e :: todo → e ∈ [.rising, .falling] → s.env.peer = d :: rest →
      (starts → 8 ≤ n → runController n s = .next (((s.withOut .released s.out.scl).withAuto
        ⟨.start, 8, 0, true, ⟨.low, .high⟩⟩).finishedWith .unexpectedStart rest)) ∧
      (stops → 8 ≤ n → runController n s = .next (((s.withOut .released s.out.scl).withAuto
        ⟨.waitStart, 8, 0, false, ⟨.high, .high⟩⟩).finishedWith .unexpectedStop rest)) ∧
      (happens → runController (n + 2) s = runController n
        ((s.withAuto { s.auto with prev := cur }).busPoint s.out rest { s.seq with todo := todo })) ∧
      (¬ starts → ¬ stops → ¬ happens → runController (n + 3) s = runController n
        ((s.withAuto { s.auto with prev := cur }).busPoint s.out rest s.seq))) ∧
  ∀ (s : State) (b : Byte) (d : Drives) (rest : List Drives),
    s.ctrl.mode = .slave → s.out.scl = .released → s.auto.prev.scl = .high → s.undisturbed 12 [d] rest →
      d.scl = .released →
        (s.auto.prev.sda = .high → b.getLsbD 7 = false ∨ d.sda = .low →
          exec (.sSendToMaster b) s = .next (((s.withOut .released .released).withAuto
            ⟨.start, 8, 0, true, ⟨.low, .high⟩⟩).finishedWith .unexpectedStart rest)) ∧
        (s.auto.prev.sda = .low → b.getLsbD 7 = true → d.sda = .released →
          exec (.sSendToMaster b) s = .next (((s.withOut .released .released).withAuto
            ⟨.waitStart, 8, 0, false, ⟨.high, .high⟩⟩).finishedWith .unexpectedStop rest))

/-- R245: on an idle bus S_GET_BYTE waits, however many samples it takes: BUSY stays 1. -/
def Obligations.SGetByteWaitsOnAnIdleBus : Prop :=
  ∀ (s : State) (n : Nat) (rest : List Drives),
    s.ctrl.mode = .slave → s.auto.prev = ⟨.high, .high⟩ → s.out.sda = .released →
      s.env.peer = quietClocks n ++ rest → s.env.quiet ≤ 3 * n + 2 →
        ∃ t, exec .sGetByte s = .next t ∧ t.status.busy = true ∧ t.auto = s.auto ∧ t.rxData = s.rxData ∧ t.mem = s.mem

/-! ### DDC/CI -/

/-- R152: LEN_CHECK: 0x80 is Null, 0x83..0xA3 is Valid, everything else is Invalid. -/
def Obligations.LenCheckClassifies : Prop :=
  ∀ (s : State) (l : Byte), 2 ≤ s.env.quiet →
    exec (.lenCheck l) s = .next (
      if l = 0x80 then { s with frameLen := 0 }.finishedWith .nullMessage s.env.peer
      else if 0x83 ≤ l.toNat ∧ l.toNat ≤ 0xA3 then
        { s with frameLen := BitVec.ofNat 6 (l.toNat - 0x80) }.finishedWith .ok s.env.peer
      else { s with frameLen := 0 }.finishedWith .invalidLength s.env.peer)

/-- R155, R153: DDC_BUILD n, in either mode, from a marked payload of n bytes: TXBUF holds the frame, CHKSUM the XOR of its
bytes before the checksum, FRAMELEN n. -/
def Obligations.DdcBuildBuildsTheFrame : Prop :=
  ∀ (s : State) (payload : List Byte), payload.length ≤ 35 → s.holds .tx 3 payload → 8 ≤ s.env.quiet →
    ∃ m, exec (.ddcBuild (BitVec.ofNat 8 payload.length)) s = .next ({ s with
        mem := m
        chksum := xorBytes 0 ([0x6E, 0x51, 0x80 ||| BitVec.ofNat 8 payload.length] ++ payload)
        frameLen := BitVec.ofNat 6 payload.length }.finishedWith .ok s.env.peer) ∧
      State.holds { s with mem := m } .tx 0 (builtFrame payload) ∧
      sameOutside s { s with mem := m } .tx 0 (4 + payload.length)

/-- R155, R160: a payload length over 35 is INVALID_LENGTH, and nothing else changes. -/
def Obligations.TransmitLengthBound : Prop :=
  ∀ (s : State) (n : Byte), 35 < n.toNat → 1 ≤ s.env.quiet →
    exec (.ddcBuild n) s = .next (s.finishedWith .invalidLength s.env.peer) ∧
    (s.ctrl.mode = .master → exec (.ddcWrite n) s = .next (s.finishedWith .invalidLength s.env.peer))

/-- R45, R69: a command that comes to an unmarked byte is the model fault, at the first such byte in its order: the payload of
DDC_BUILD n and DDC_WRITE n; the length byte, the payload and the checksum of DDC_RXCHECK; bytes 0..126 of EDID_FILLSUM and
0..127 of EDID_VALIDATE. -/
def Obligations.UnmarkedOperandFaults : Prop :=
  ∀ (s : State) (bs : List Byte), 5 ≤ s.env.quiet →
    (∀ n : Byte, n.toNat ≤ 35 → bs.length < n.toNat → s.holds .tx 3 bs →
      Memory.read s.mem (Buffer.tx.addr (3 + bs.length)) = none →
        exec (.ddcBuild n) s = .fault (.commandReadUnmarked (Buffer.tx.addr (3 + bs.length))) ∧
        (s.ctrl.mode = .master →
          exec (.ddcWrite n) s = .fault (.commandReadUnmarked (Buffer.tx.addr (3 + bs.length))))) ∧
    (Memory.read s.mem (Buffer.rx.addr 1) = none →
      exec .ddcRxcheck s = .fault (.commandReadUnmarked (Buffer.rx.addr 1))) ∧
    (∀ n : Nat, 3 ≤ n → n ≤ 35 → bs.length ≤ n → s.holds .rx 1 ((0x80 ||| BitVec.ofNat 8 n) :: bs) →
      Memory.read s.mem (Buffer.rx.addr (2 + bs.length)) = none →
        exec .ddcRxcheck s = .fault (.commandReadUnmarked (Buffer.rx.addr (2 + bs.length)))) ∧
    (s.holds .edid 0 bs → Memory.read s.mem (Buffer.edid.addr bs.length) = none →
      (bs.length < 127 → exec .edidFillsum s = .fault (.commandReadUnmarked (Buffer.edid.addr bs.length))) ∧
      (bs.length < 128 → exec .edidValidate s = .fault (.commandReadUnmarked (Buffer.edid.addr bs.length))))

/-- R157, R154: DDC_RXCHECK of a frame with a Valid length byte: CHKSUM is the seed XOR the length byte and the payload, and
the result says whether the stored checksum equals it. RXBUF[0] is not read. -/
def Obligations.DdcRxcheckChecksTheFrame : Prop :=
  ∀ (s : State) (payload : List Byte) (c : Byte), 3 ≤ payload.length → payload.length ≤ 35 → 5 ≤ s.env.quiet →
    s.holds .rx 1 ((0x80 ||| BitVec.ofNat 8 payload.length) :: payload ++ [c]) →
      let x := xorBytes 0x3E ((0x80 ||| BitVec.ofNat 8 payload.length) :: payload)
      exec .ddcRxcheck s = .next ({ s with chksum := x, frameLen := BitVec.ofNat 6 payload.length }.finishedWith
        (if x = c then .ok else .invalidChecksum) s.env.peer)

/-- R156, R157: DDC_RXCHECK of a Null or Invalid length byte reads nothing more: FRAMELEN is 0 and CHKSUM stands. -/
def Obligations.DdcRxcheckStopsAtTheLength : Prop :=
  ∀ (s : State) (l : Byte), s.holds .rx 1 [l] → ¬ (0x83 ≤ l.toNat ∧ l.toNat ≤ 0xA3) → 3 ≤ s.env.quiet →
    exec .ddcRxcheck s = .next ({ s with frameLen := 0 }.finishedWith
      (if l = 0x80 then .nullMessage else .invalidLength) s.env.peer)

/-- R160: DDC_WRITE n to a peer that acknowledges every byte: START, the 4+n bytes of the built frame on SDA and STOP; the
built frame in TXBUF, OK, both outputs Released. -/
def Obligations.DdcWriteSendsTheFrame : Prop :=
  ∀ (s : State) (payload : List Byte) (rest : List Drives), s.ctrl.mode = .master →
    payload.length ≤ 35 → s.holds .tx 3 payload →
      s.undisturbed 4000 (quietClocks 1 ++ (List.replicate (4 + payload.length) (receiverScript true)).flatten ++
        quietClocks 1) rest →
        (∃ m, exec (.ddcWrite (BitVec.ofNat 8 payload.length)) s = .next (({ s with
            mem := m
            chksum := xorBytes 0 ([0x6E, 0x51, 0x80 ||| BitVec.ofNat 8 payload.length] ++ payload)
            frameLen := BitVec.ofNat 6 payload.length }.withOut .released .released).finishedWith .ok rest) ∧
          State.holds { s with mem := m } .tx 0 (builtFrame payload) ∧
          sameOutside s { s with mem := m } .tx 0 (4 + payload.length)) ∧
        s.drives (.ddcWrite (BitVec.ofNat 8 payload.length)) 4000
          ([⟨s.out.sda, .released⟩] ++ (builtFrame payload).flatMap sentOutputs ++ stopOutputs)

/-- R160, R202: DDC_WRITE n to a peer that does not acknowledge byte j: bytes 0..j of the frame on SDA, STOP, NOACK, and no
further byte; the built frame stands. -/
def Obligations.DdcWriteStopsAtANack : Prop :=
  ∀ (s : State) (payload : List Byte) (j : Nat) (rest : List Drives), s.ctrl.mode = .master →
    payload.length ≤ 35 → s.holds .tx 3 payload → j < 4 + payload.length →
      s.undisturbed 4000 (quietClocks 1 ++ (List.replicate j (receiverScript true)).flatten ++ receiverScript false ++
        quietClocks 1) rest →
        (∃ m, exec (.ddcWrite (BitVec.ofNat 8 payload.length)) s = .next (({ s with
            mem := m
            chksum := xorBytes 0 ([0x6E, 0x51, 0x80 ||| BitVec.ofNat 8 payload.length] ++ payload)
            frameLen := BitVec.ofNat 6 payload.length }.withOut .released .released).finishedWith .noack rest) ∧
          State.holds { s with mem := m } .tx 0 (builtFrame payload) ∧
          sameOutside s { s with mem := m } .tx 0 (4 + payload.length)) ∧
        s.drives (.ddcWrite (BitVec.ofNat 8 payload.length)) 4000
          ([⟨s.out.sda, .released⟩] ++ ((builtFrame payload).take (j + 1)).flatMap sentOutputs ++ stopOutputs)

/-- R161: DDC_READ of a reply with a Valid length byte: START, 0x6F, then every byte ACKed but the last, which is NACKed, and
STOP; RXBUF holds the whole reply, and the result is that of its checksum. The source byte is stored, not checked. -/
def Obligations.DdcReadReceivesAFrame : Prop :=
  ∀ (s : State) (source : Byte) (payload : List Byte) (c : Byte) (rest : List Drives), s.ctrl.mode = .master →
    3 ≤ payload.length → payload.length ≤ 35 →
      let len : Byte := 0x80 ||| BitVec.ofNat 8 payload.length
      let x := xorBytes 0x3E (len :: payload)
      s.undisturbed 4000 (readScript (source :: len :: payload ++ [c]) ++ quietClocks 1) rest →
        (∃ m, exec .ddcRead s = .next (({ s with
            mem := m, chksum := x, frameLen := BitVec.ofNat 6 payload.length }.withOut .released .released).finishedWith
            (if x = c then .ok else .invalidChecksum) rest) ∧
          State.holds { s with mem := m } .rx 0 (source :: len :: payload ++ [c]) ∧
          sameOutside s { s with mem := m } .rx 0 (3 + payload.length)) ∧
        s.drives .ddcRead 4000
          ([⟨s.out.sda, .released⟩] ++ sentOutputs 0x6F ++ receivedLastNacked (3 + payload.length) ++ stopOutputs)

/-- R161, R156, R158: DDC_READ of a Null or Invalid length byte takes exactly two bytes, ACKs the first, NACKs the second (SDA
Released while its ninth clock is high) and issues STOP. -/
def Obligations.DdcReadStopsAtTheLength : Prop :=
  ∀ (s : State) (source l : Byte) (rest : List Drives), s.ctrl.mode = .master → ¬ (0x83 ≤ l.toNat ∧ l.toNat ≤ 0xA3) →
    s.undisturbed 4000 (readScript [source, l] ++ quietClocks 1) rest →
      (∃ m, exec .ddcRead s = .next (({ s with mem := m, frameLen := 0 }.withOut .released .released).finishedWith
          (if l = 0x80 then .nullMessage else .invalidLength) rest) ∧
        State.holds { s with mem := m } .rx 0 [source, l] ∧ sameOutside s { s with mem := m } .rx 0 2) ∧
      s.drives .ddcRead 4000
        ([⟨s.out.sda, .released⟩] ++ sentOutputs 0x6F ++ receivedOutputs .low ++ receivedOutputs .released ++ stopOutputs)

/-- R161 (d), R180 (f), R180 Results: a read whose address byte (0x6F, 0xA1) is not acknowledged ends with STOP and NOACK. At
the first START it stores no byte; EDID_READ on its second pass leaves the first pass's 128 bytes, and at a resynchronisation
the header at 0..7 and the stale bytes after it. -/
def Obligations.ReadsWithNoDevice : Prop :=
  (∀ (s : State) (rest : List Drives), s.ctrl.mode = .master →
    s.undisturbed 100 (quietClocks 1 ++ receiverScript false ++ quietClocks 1) rest →
      exec .ddcRead s = .next ((s.withOut .released .released).finishedWith .noack rest) ∧
      exec .edidRead s = .next (({ s with edid := ⟨none, false, false, false⟩ }.withOut .released .released).finishedWith
        .noack rest) ∧
      s.drives .ddcRead 100 ([⟨s.out.sda, .released⟩] ++ sentOutputs 0x6F ++ stopOutputs) ∧
      s.drives .edidRead 100 ([⟨s.out.sda, .released⟩] ++ sentOutputs 0xA1 ++ stopOutputs)) ∧
  (∀ (s : State) (one : List Byte) (rest : List Drives), s.ctrl.mode = .master → noHeaderIn one →
    s.undisturbed 40000 (failedScript [one] ++ quietClocks 1 ++ receiverScript false ++ quietClocks 1) rest →
      (∃ m, exec .edidRead s = .next (({ s with mem := m, edid := ⟨none, false, false, true⟩ }.withOut .released
          .released).finishedWith .noack rest) ∧
        State.holds { s with mem := m } .edid 0 one ∧ sameOutside s { s with mem := m } .edid 0 128) ∧
      s.drives .edidRead 40000 ([⟨s.out.sda, .released⟩] ++ failedOutputs [one] ++ sentOutputs 0xA1 ++ stopOutputs)) ∧
  ∀ (s : State) (failed : List (List Byte)) (garbage : List Byte) (rest : List Drives), s.ctrl.mode = .master →
    atMostOneFailed failed → 1 ≤ garbage.length → garbage.length ≤ 120 →
      (∀ j, j < garbage.length → ((garbage ++ edidHeader).drop j).take 8 ≠ edidHeader) →
        s.undisturbed 40000 (failedScript failed ++ readScript (garbage ++ edidHeader) ++ quietClocks 1 ++
          receiverScript false ++ quietClocks 1) rest →
          (∃ m, exec .edidRead s = .next (({ s with mem := m, edid := ⟨some 7, true, true, !failed.isEmpty⟩ }.withOut
              .released .released).finishedWith .noack rest) ∧
            State.holds { s with mem := m } .edid 0 (edidHeader ++ (garbage ++ edidHeader).drop 8 ++
              failed.flatten.drop (garbage.length + 8)) ∧
            sameOutside s { s with mem := m } .edid 0 (if failed.isEmpty then garbage.length + 8 else 128)) ∧
          s.drives .edidRead 40000 ([⟨s.out.sda, .released⟩] ++ failedOutputs failed ++ sentOutputs 0xA1 ++
            receivedLastNacked (garbage.length + 8) ++ [released] ++ sentOutputs 0xA1 ++ stopOutputs)

/-! ### EDID -/

/-- R177, R176: EDID_FILLSUM, in either mode: byte 127 and CHKSUM take what makes the 128 bytes sum to 0 modulo 256, and no
other byte changes. -/
def Obligations.EdidFillsumWritesTheChecksum : Prop :=
  ∀ (s : State) (bs : List Byte), bs.length = 127 → s.holds .edid 0 bs → 4 ≤ s.env.quiet →
    let c : Byte := BitVec.ofNat 8 ((256 - (bs.map BitVec.toNat).sum % 256) % 256)
    ∃ m, exec .edidFillsum s = .next ({ s with mem := m, chksum := c }.finishedWith .ok s.env.peer) ∧
      storesOnly s { s with mem := m } .edid 127 c

/-- R178: EDID_VALIDATE, in either mode: CHKSUM takes the sum modulo 256; the header is tested before the sum. -/
def Obligations.EdidValidateChecks : Prop :=
  ∀ (s : State) (bs : List Byte), bs.length = 128 → s.holds .edid 0 bs → 3 ≤ s.env.quiet →
    let sum := (bs.map BitVec.toNat).sum % 256
    exec .edidValidate s = .next ({ s with chksum := BitVec.ofNat 8 sum }.finishedWith
      (if bs.take 8 ≠ [0x00, 0xFF, 0xFF, 0xFF, 0xFF, 0xFF, 0xFF, 0x00] then .headerNotFound
        else if sum ≠ 0 then .invalidChecksum else .ok) s.env.peer)

/-- R177 (the checksum-fill property): with the header in place, EDID_FILLSUM then EDID_VALIDATE gives OK and CHKSUM 0,
whatever the other bytes are. -/
def Obligations.FillsumThenValidateIsOk : Prop :=
  ∀ (s : State) (bs : List Byte), bs.length = 127 → s.holds .edid 0 bs → 4 ≤ s.env.quiet →
    bs.take 8 = [0x00, 0xFF, 0xFF, 0xFF, 0xFF, 0xFF, 0xFF, 0x00] →
      ∃ t u, exec .edidFillsum s = .next t ∧ exec .edidValidate (t.setQuiet 3) = .next u ∧
        u.status.result = .ok ∧ u.chksum = 0

/-- R180 (a), R182: EDID_READ of a record whose header comes first, at once or on the second pass after one without the
header: START, 0xA1, 127 bytes ACKed and the last NACKed, STOP; OK, EDIDBUF holds the 128 bytes, with no resynchronisation,
and PASS says whether a pass failed before. -/
def Obligations.EdidReadHeaderAtStart : Prop :=
  ∀ (s : State) (failed : List (List Byte)) (bs : List Byte) (rest : List Drives), s.ctrl.mode = .master →
    atMostOneFailed failed → bs.length = 128 → bs.take 8 = edidHeader →
      s.undisturbed 40000 (failedScript failed ++ readScript bs ++ quietClocks 1) rest →
        (∃ m, exec .edidRead s = .next (({ s with mem := m, edid := ⟨some 127, true, false, !failed.isEmpty⟩ }.withOut
            .released .released).finishedWith .ok rest) ∧
          State.holds { s with mem := m } .edid 0 bs ∧ sameOutside s { s with mem := m } .edid 0 128) ∧
        s.drives .edidRead 40000
          ([⟨s.out.sda, .released⟩] ++ failedOutputs failed ++ sentOutputs 0xA1 ++ receivedLastNacked 128 ++ stopOutputs)

/-- R181, R182: EDID_READ of a stream that starts in the middle of a record, at once or on the second pass: where the header
first ends after `garbage`, its last byte is NACKed, the read restarts with START and 0xA1, and the next 120 bytes land after
the canonical header; OK, and PASS says whether a pass failed before. -/
def Obligations.EdidReadResynchronises : Prop :=
  ∀ (s : State) (failed : List (List Byte)) (garbage body : List Byte) (rest : List Drives), s.ctrl.mode = .master →
    atMostOneFailed failed → 1 ≤ garbage.length → garbage.length ≤ 120 → body.length = 120 →
      (∀ j, j < garbage.length → ((garbage ++ edidHeader).drop j).take 8 ≠ edidHeader) →
        s.undisturbed 40000 (failedScript failed ++ readScript (garbage ++ edidHeader) ++ readScript body ++
          quietClocks 1) rest →
          (∃ m, exec .edidRead s = .next (({ s with mem := m, edid := ⟨some 127, true, true, !failed.isEmpty⟩ }.withOut
              .released .released).finishedWith .ok rest) ∧
            State.holds { s with mem := m } .edid 0 (edidHeader ++ body) ∧ sameOutside s { s with mem := m } .edid 0 128) ∧
          s.drives .edidRead 40000
            ([⟨s.out.sda, .released⟩] ++ failedOutputs failed ++ sentOutputs 0xA1 ++
              receivedLastNacked (garbage.length + 8) ++ [released] ++ sentOutputs 0xA1 ++ receivedLastNacked 120 ++
              stopOutputs)

/-- R182, R180 (d): two passes of 128 bytes without the header, each NACKing its last byte and ended by STOP:
HEADER_NOT_FOUND, with the second pass's bytes in EDIDBUF. -/
def Obligations.EdidReadFailsAfterTwoPasses : Prop :=
  ∀ (s : State) (one two : List Byte) (rest : List Drives), s.ctrl.mode = .master → noHeaderIn one → noHeaderIn two →
    s.undisturbed 40000 (failedScript [one] ++ readScript two ++ quietClocks 1) rest →
      (∃ m, exec .edidRead s = .next (({ s with mem := m, edid := ⟨some 127, false, false, true⟩ }.withOut .released
          .released).finishedWith .headerNotFound rest) ∧
        State.holds { s with mem := m } .edid 0 two ∧ sameOutside s { s with mem := m } .edid 0 128) ∧
      s.drives .edidRead 40000
        ([⟨s.out.sda, .released⟩] ++ failedOutputs [one] ++ sentOutputs 0xA1 ++ receivedLastNacked 128 ++ stopOutputs)

/-! ### The whole machine -/

/-- The invariant holds right after reset. -/
def Obligations.ResetHasTheInvariant : Prop := State.reset.Inv

/-- R34, R39, R40, R46, R69, R184, R203: every step of the machine keeps the invariant. -/
def Obligations.StepKeepsTheInvariant : Prop :=
  ∀ s t : State, s.Inv → step s = .next t → t.Inv

/-- R245: every master command and codec bus command ends, whatever the peer does: within a number of steps and samples that
holds for all states and all peers it finishes, or it is DDC_WRITE n, its payload byte k < n is unmarked, and it is the model
fault at that byte. -/
def Obligations.MasterCommandsFinish : Prop :=
  ∃ n, ∀ (i : Instr) (s : State), neededMode i = some .master → n ≤ s.env.quiet → n ≤ s.env.peer.length →
    (∃ t, exec i s = .next t ∧ t.status.busy = false) ∨
    ∃ (m : Byte) (k : Nat), i = .ddcWrite m ∧ m.toNat ≤ 35 ∧ k < m.toNat ∧
      Memory.read s.mem (Buffer.tx.addr (3 + k)) = none ∧
      exec i s = .fault (.commandReadUnmarked (Buffer.tx.addr (3 + k)))

/-- R146: two instances on one wired-AND bus with no other driver, under every schedule that `fairSchedule` admits, which is
the model's reading of the rule's two premises on the schedule (assumption log 19, DEDUCED, unsafe if R146 were meant to admit
more schedules): the one, in Master mode, runs `M_START` then `M_SEND_BYTE v`, the other, in Slave mode with B2B 0, an idle
bus behind it and st = WaitStart, runs S_GET_BYTE. Nothing stops, and once each command has had its steps, the slave has
received v, the first byte after a START, the master has its ACK, and the automaton is back in WaitStart. -/
def Obligations.JoinedRoundTrip : Prop :=
  ∀ (a b : State) (v : Byte), a.idle → a.ctrl.mode = .master → b.ctrl.mode = .slave → b.ctrl.b2b = false →
    a.out = ⟨.released, .released⟩ → b.out = ⟨.released, .released⟩ → b.auto.st = .waitStart →
      b.auto.prev = ⟨.high, .high⟩ →
        ∃ b1, exec .sGetByte (b.setQuiet 0) = .next b1 ∧
          ∀ starting sending : List JoinedTurn,
            (∀ t ∈ starting ++ sending, t = .master ∨ t = .slave) →
              8 ≤ starting.count .master → 59 ≤ sending.count .master →
                let turns := .command .mStart :: starting ++ .command (.mSendByte v) :: sending
                fairSchedule true turns (a, b1) = true →
                  ∃ q, joinedRun (turns ++ List.replicate 20 .slave) (a, b1) = .next q ∧
                    q.1.status.busy = false ∧ q.1.status.result = .ok ∧ q.2.status.busy = false ∧
                    q.2.status.result = .ok ∧ q.2.rxData = ⟨v, true⟩ ∧ q.2.auto.st = .waitStart
end

