-- ==== Sys2Proof/Laws/State.lean ====
section
/-! SUPPORT. What every named update of the state does to each of its fields, once, so that no later proof unfolds a
record update. -/

namespace Sys2Proof.Machine

variable (s : State)

/-! ### `SetSDA` -/

@[simp] theorem State.setSda_out (v : Drive) : (s.setSda v).out = { s.out with sda := v } := rfl
@[simp] theorem State.setSda_ctrl (v : Drive) : (s.setSda v).ctrl = s.ctrl := rfl
@[simp] theorem State.setSda_bitDelay (v : Drive) : (s.setSda v).bitDelay = s.bitDelay := rfl
@[simp] theorem State.setSda_timeout (v : Drive) : (s.setSda v).timeout = s.timeout := rfl
@[simp] theorem State.setSda_cmd (v : Drive) : (s.setSda v).cmd = s.cmd := rfl
@[simp] theorem State.setSda_status (v : Drive) : (s.setSda v).status = s.status := rfl
@[simp] theorem State.setSda_rxData (v : Drive) : (s.setSda v).rxData = s.rxData := rfl
@[simp] theorem State.setSda_chksum (v : Drive) : (s.setSda v).chksum = s.chksum := rfl
@[simp] theorem State.setSda_frameLen (v : Drive) : (s.setSda v).frameLen = s.frameLen := rfl
@[simp] theorem State.setSda_auto (v : Drive) : (s.setSda v).auto = s.auto := rfl
@[simp] theorem State.setSda_edid (v : Drive) : (s.setSda v).edid = s.edid := rfl
@[simp] theorem State.setSda_mem (v : Drive) : (s.setSda v).mem = s.mem := rfl
@[simp] theorem State.setSda_seq (v : Drive) : (s.setSda v).seq = s.seq := rfl
@[simp] theorem State.setSda_env (v : Drive) : (s.setSda v).env = s.env := rfl

/-! ### `SetSCL` -/

@[simp] theorem State.setScl_out (v : Drive) : (s.setScl v).out = { s.out with scl := v } := rfl
@[simp] theorem State.setScl_ctrl (v : Drive) : (s.setScl v).ctrl = s.ctrl := rfl
@[simp] theorem State.setScl_bitDelay (v : Drive) : (s.setScl v).bitDelay = s.bitDelay := rfl
@[simp] theorem State.setScl_timeout (v : Drive) : (s.setScl v).timeout = s.timeout := rfl
@[simp] theorem State.setScl_cmd (v : Drive) : (s.setScl v).cmd = s.cmd := rfl
@[simp] theorem State.setScl_status (v : Drive) : (s.setScl v).status = s.status := rfl
@[simp] theorem State.setScl_rxData (v : Drive) : (s.setScl v).rxData = s.rxData := rfl
@[simp] theorem State.setScl_chksum (v : Drive) : (s.setScl v).chksum = s.chksum := rfl
@[simp] theorem State.setScl_frameLen (v : Drive) : (s.setScl v).frameLen = s.frameLen := rfl
@[simp] theorem State.setScl_auto (v : Drive) : (s.setScl v).auto = s.auto := rfl
@[simp] theorem State.setScl_edid (v : Drive) : (s.setScl v).edid = s.edid := rfl
@[simp] theorem State.setScl_mem (v : Drive) : (s.setScl v).mem = s.mem := rfl
@[simp] theorem State.setScl_seq (v : Drive) : (s.setScl v).seq = s.seq := rfl
@[simp] theorem State.setScl_env (v : Drive) : (s.setScl v).env = s.env := rfl

/-! ### `prev <- cur` -/

@[simp] theorem State.setPrev_out (l : Levels) : (s.setPrev l).out = s.out := rfl
@[simp] theorem State.setPrev_ctrl (l : Levels) : (s.setPrev l).ctrl = s.ctrl := rfl
@[simp] theorem State.setPrev_bitDelay (l : Levels) : (s.setPrev l).bitDelay = s.bitDelay := rfl
@[simp] theorem State.setPrev_timeout (l : Levels) : (s.setPrev l).timeout = s.timeout := rfl
@[simp] theorem State.setPrev_cmd (l : Levels) : (s.setPrev l).cmd = s.cmd := rfl
@[simp] theorem State.setPrev_status (l : Levels) : (s.setPrev l).status = s.status := rfl
@[simp] theorem State.setPrev_rxData (l : Levels) : (s.setPrev l).rxData = s.rxData := rfl
@[simp] theorem State.setPrev_chksum (l : Levels) : (s.setPrev l).chksum = s.chksum := rfl
@[simp] theorem State.setPrev_frameLen (l : Levels) : (s.setPrev l).frameLen = s.frameLen := rfl
@[simp] theorem State.setPrev_auto (l : Levels) : (s.setPrev l).auto = { s.auto with prev := l } := rfl
@[simp] theorem State.setPrev_edid (l : Levels) : (s.setPrev l).edid = s.edid := rfl
@[simp] theorem State.setPrev_mem (l : Levels) : (s.setPrev l).mem = s.mem := rfl
@[simp] theorem State.setPrev_seq (l : Levels) : (s.setPrev l).seq = s.seq := rfl
@[simp] theorem State.setPrev_env (l : Levels) : (s.setPrev l).env = s.env := rfl

/-! ### A store to a buffer -/

@[simp] theorem State.storeByte_out (b : Buffer) (i : Nat) (v : Byte) : (s.storeByte b i v).out = s.out := rfl
@[simp] theorem State.storeByte_ctrl (b : Buffer) (i : Nat) (v : Byte) : (s.storeByte b i v).ctrl = s.ctrl := rfl
@[simp] theorem State.storeByte_bitDelay (b : Buffer) (i : Nat) (v : Byte) : (s.storeByte b i v).bitDelay = s.bitDelay := rfl
@[simp] theorem State.storeByte_timeout (b : Buffer) (i : Nat) (v : Byte) : (s.storeByte b i v).timeout = s.timeout := rfl
@[simp] theorem State.storeByte_cmd (b : Buffer) (i : Nat) (v : Byte) : (s.storeByte b i v).cmd = s.cmd := rfl
@[simp] theorem State.storeByte_status (b : Buffer) (i : Nat) (v : Byte) : (s.storeByte b i v).status = s.status := rfl
@[simp] theorem State.storeByte_rxData (b : Buffer) (i : Nat) (v : Byte) : (s.storeByte b i v).rxData = s.rxData := rfl
@[simp] theorem State.storeByte_chksum (b : Buffer) (i : Nat) (v : Byte) : (s.storeByte b i v).chksum = s.chksum := rfl
@[simp] theorem State.storeByte_frameLen (b : Buffer) (i : Nat) (v : Byte) : (s.storeByte b i v).frameLen = s.frameLen := rfl
@[simp] theorem State.storeByte_auto (b : Buffer) (i : Nat) (v : Byte) : (s.storeByte b i v).auto = s.auto := rfl
@[simp] theorem State.storeByte_edid (b : Buffer) (i : Nat) (v : Byte) : (s.storeByte b i v).edid = s.edid := rfl
@[simp] theorem State.storeByte_mem (b : Buffer) (i : Nat) (v : Byte) : (s.storeByte b i v).mem = Memory.write s.mem (b.addr i) v := rfl
@[simp] theorem State.storeByte_seq (b : Buffer) (i : Nat) (v : Byte) : (s.storeByte b i v).seq = s.seq := rfl
@[simp] theorem State.storeByte_env (b : Buffer) (i : Nat) (v : Byte) : (s.storeByte b i v).env = s.env := rfl

/-! ### A run of stores to a buffer -/

@[simp] theorem State.storeAll_out (b : Buffer) (i : Nat) (bs : List Byte) : (s.storeAll b i bs).out = s.out := rfl
@[simp] theorem State.storeAll_ctrl (b : Buffer) (i : Nat) (bs : List Byte) : (s.storeAll b i bs).ctrl = s.ctrl := rfl
@[simp] theorem State.storeAll_bitDelay (b : Buffer) (i : Nat) (bs : List Byte) : (s.storeAll b i bs).bitDelay = s.bitDelay := rfl
@[simp] theorem State.storeAll_timeout (b : Buffer) (i : Nat) (bs : List Byte) : (s.storeAll b i bs).timeout = s.timeout := rfl
@[simp] theorem State.storeAll_cmd (b : Buffer) (i : Nat) (bs : List Byte) : (s.storeAll b i bs).cmd = s.cmd := rfl
@[simp] theorem State.storeAll_status (b : Buffer) (i : Nat) (bs : List Byte) : (s.storeAll b i bs).status = s.status := rfl
@[simp] theorem State.storeAll_rxData (b : Buffer) (i : Nat) (bs : List Byte) : (s.storeAll b i bs).rxData = s.rxData := rfl
@[simp] theorem State.storeAll_chksum (b : Buffer) (i : Nat) (bs : List Byte) : (s.storeAll b i bs).chksum = s.chksum := rfl
@[simp] theorem State.storeAll_frameLen (b : Buffer) (i : Nat) (bs : List Byte) : (s.storeAll b i bs).frameLen = s.frameLen := rfl
@[simp] theorem State.storeAll_auto (b : Buffer) (i : Nat) (bs : List Byte) : (s.storeAll b i bs).auto = s.auto := rfl
@[simp] theorem State.storeAll_edid (b : Buffer) (i : Nat) (bs : List Byte) : (s.storeAll b i bs).edid = s.edid := rfl
@[simp] theorem State.storeAll_mem (b : Buffer) (i : Nat) (bs : List Byte) : (s.storeAll b i bs).mem = Memory.writeAll s.mem b i bs := rfl
@[simp] theorem State.storeAll_seq (b : Buffer) (i : Nat) (bs : List Byte) : (s.storeAll b i bs).seq = s.seq := rfl
@[simp] theorem State.storeAll_env (b : Buffer) (i : Nat) (bs : List Byte) : (s.storeAll b i bs).env = s.env := rfl

/-! ### Going on with a program first -/

@[simp] theorem State.push_out (ms : List Micro) : (s.push ms).out = s.out := rfl
@[simp] theorem State.push_ctrl (ms : List Micro) : (s.push ms).ctrl = s.ctrl := rfl
@[simp] theorem State.push_bitDelay (ms : List Micro) : (s.push ms).bitDelay = s.bitDelay := rfl
@[simp] theorem State.push_timeout (ms : List Micro) : (s.push ms).timeout = s.timeout := rfl
@[simp] theorem State.push_cmd (ms : List Micro) : (s.push ms).cmd = s.cmd := rfl
@[simp] theorem State.push_status (ms : List Micro) : (s.push ms).status = s.status := rfl
@[simp] theorem State.push_rxData (ms : List Micro) : (s.push ms).rxData = s.rxData := rfl
@[simp] theorem State.push_chksum (ms : List Micro) : (s.push ms).chksum = s.chksum := rfl
@[simp] theorem State.push_frameLen (ms : List Micro) : (s.push ms).frameLen = s.frameLen := rfl
@[simp] theorem State.push_auto (ms : List Micro) : (s.push ms).auto = s.auto := rfl
@[simp] theorem State.push_edid (ms : List Micro) : (s.push ms).edid = s.edid := rfl
@[simp] theorem State.push_mem (ms : List Micro) : (s.push ms).mem = s.mem := rfl
@[simp] theorem State.push_seq (ms : List Micro) : (s.push ms).seq = { s.seq with todo := ms ++ s.seq.todo } := rfl
@[simp] theorem State.push_env (ms : List Micro) : (s.push ms).env = s.env := rfl

/-! ### Going on with a program instead -/

@[simp] theorem State.jump_out (ms : List Micro) : (s.jump ms).out = s.out := rfl
@[simp] theorem State.jump_ctrl (ms : List Micro) : (s.jump ms).ctrl = s.ctrl := rfl
@[simp] theorem State.jump_bitDelay (ms : List Micro) : (s.jump ms).bitDelay = s.bitDelay := rfl
@[simp] theorem State.jump_timeout (ms : List Micro) : (s.jump ms).timeout = s.timeout := rfl
@[simp] theorem State.jump_cmd (ms : List Micro) : (s.jump ms).cmd = s.cmd := rfl
@[simp] theorem State.jump_status (ms : List Micro) : (s.jump ms).status = s.status := rfl
@[simp] theorem State.jump_rxData (ms : List Micro) : (s.jump ms).rxData = s.rxData := rfl
@[simp] theorem State.jump_chksum (ms : List Micro) : (s.jump ms).chksum = s.chksum := rfl
@[simp] theorem State.jump_frameLen (ms : List Micro) : (s.jump ms).frameLen = s.frameLen := rfl
@[simp] theorem State.jump_auto (ms : List Micro) : (s.jump ms).auto = s.auto := rfl
@[simp] theorem State.jump_edid (ms : List Micro) : (s.jump ms).edid = s.edid := rfl
@[simp] theorem State.jump_mem (ms : List Micro) : (s.jump ms).mem = s.mem := rfl
@[simp] theorem State.jump_seq (ms : List Micro) : (s.jump ms).seq = { s.seq with todo := ms } := rfl
@[simp] theorem State.jump_env (ms : List Micro) : (s.jump ms).env = s.env := rfl

/-! ### The byte at hand -/

@[simp] theorem State.setAcc_out (v : Byte) : (s.setAcc v).out = s.out := rfl
@[simp] theorem State.setAcc_ctrl (v : Byte) : (s.setAcc v).ctrl = s.ctrl := rfl
@[simp] theorem State.setAcc_bitDelay (v : Byte) : (s.setAcc v).bitDelay = s.bitDelay := rfl
@[simp] theorem State.setAcc_timeout (v : Byte) : (s.setAcc v).timeout = s.timeout := rfl
@[simp] theorem State.setAcc_cmd (v : Byte) : (s.setAcc v).cmd = s.cmd := rfl
@[simp] theorem State.setAcc_status (v : Byte) : (s.setAcc v).status = s.status := rfl
@[simp] theorem State.setAcc_rxData (v : Byte) : (s.setAcc v).rxData = s.rxData := rfl
@[simp] theorem State.setAcc_chksum (v : Byte) : (s.setAcc v).chksum = s.chksum := rfl
@[simp] theorem State.setAcc_frameLen (v : Byte) : (s.setAcc v).frameLen = s.frameLen := rfl
@[simp] theorem State.setAcc_auto (v : Byte) : (s.setAcc v).auto = s.auto := rfl
@[simp] theorem State.setAcc_edid (v : Byte) : (s.setAcc v).edid = s.edid := rfl
@[simp] theorem State.setAcc_mem (v : Byte) : (s.setAcc v).mem = s.mem := rfl
@[simp] theorem State.setAcc_seq (v : Byte) : (s.setAcc v).seq = { s.seq with acc := v } := rfl
@[simp] theorem State.setAcc_env (v : Byte) : (s.setAcc v).env = s.env := rfl

/-! ### The ACK at hand -/

@[simp] theorem State.setAck_out (b : Bool) : (s.setAck b).out = s.out := rfl
@[simp] theorem State.setAck_ctrl (b : Bool) : (s.setAck b).ctrl = s.ctrl := rfl
@[simp] theorem State.setAck_bitDelay (b : Bool) : (s.setAck b).bitDelay = s.bitDelay := rfl
@[simp] theorem State.setAck_timeout (b : Bool) : (s.setAck b).timeout = s.timeout := rfl
@[simp] theorem State.setAck_cmd (b : Bool) : (s.setAck b).cmd = s.cmd := rfl
@[simp] theorem State.setAck_status (b : Bool) : (s.setAck b).status = s.status := rfl
@[simp] theorem State.setAck_rxData (b : Bool) : (s.setAck b).rxData = s.rxData := rfl
@[simp] theorem State.setAck_chksum (b : Bool) : (s.setAck b).chksum = s.chksum := rfl
@[simp] theorem State.setAck_frameLen (b : Bool) : (s.setAck b).frameLen = s.frameLen := rfl
@[simp] theorem State.setAck_auto (b : Bool) : (s.setAck b).auto = s.auto := rfl
@[simp] theorem State.setAck_edid (b : Bool) : (s.setAck b).edid = s.edid := rfl
@[simp] theorem State.setAck_mem (b : Bool) : (s.setAck b).mem = s.mem := rfl
@[simp] theorem State.setAck_seq (b : Bool) : (s.setAck b).seq = { s.seq with ack := b } := rfl
@[simp] theorem State.setAck_env (b : Bool) : (s.setAck b).env = s.env := rfl

/-! ### The host's distance -/

@[simp] theorem State.setQuiet_out (n : Nat) : (s.setQuiet n).out = s.out := rfl
@[simp] theorem State.setQuiet_ctrl (n : Nat) : (s.setQuiet n).ctrl = s.ctrl := rfl
@[simp] theorem State.setQuiet_bitDelay (n : Nat) : (s.setQuiet n).bitDelay = s.bitDelay := rfl
@[simp] theorem State.setQuiet_timeout (n : Nat) : (s.setQuiet n).timeout = s.timeout := rfl
@[simp] theorem State.setQuiet_cmd (n : Nat) : (s.setQuiet n).cmd = s.cmd := rfl
@[simp] theorem State.setQuiet_status (n : Nat) : (s.setQuiet n).status = s.status := rfl
@[simp] theorem State.setQuiet_rxData (n : Nat) : (s.setQuiet n).rxData = s.rxData := rfl
@[simp] theorem State.setQuiet_chksum (n : Nat) : (s.setQuiet n).chksum = s.chksum := rfl
@[simp] theorem State.setQuiet_frameLen (n : Nat) : (s.setQuiet n).frameLen = s.frameLen := rfl
@[simp] theorem State.setQuiet_auto (n : Nat) : (s.setQuiet n).auto = s.auto := rfl
@[simp] theorem State.setQuiet_edid (n : Nat) : (s.setQuiet n).edid = s.edid := rfl
@[simp] theorem State.setQuiet_mem (n : Nat) : (s.setQuiet n).mem = s.mem := rfl
@[simp] theorem State.setQuiet_seq (n : Nat) : (s.setQuiet n).seq = s.seq := rfl
@[simp] theorem State.setQuiet_env (n : Nat) : (s.setQuiet n).env = { s.env with quiet := n } := rfl

/-! ### The host's read value -/

@[simp] theorem State.setRdata_out (v : Word) : (s.setRdata v).out = s.out := rfl
@[simp] theorem State.setRdata_ctrl (v : Word) : (s.setRdata v).ctrl = s.ctrl := rfl
@[simp] theorem State.setRdata_bitDelay (v : Word) : (s.setRdata v).bitDelay = s.bitDelay := rfl
@[simp] theorem State.setRdata_timeout (v : Word) : (s.setRdata v).timeout = s.timeout := rfl
@[simp] theorem State.setRdata_cmd (v : Word) : (s.setRdata v).cmd = s.cmd := rfl
@[simp] theorem State.setRdata_status (v : Word) : (s.setRdata v).status = s.status := rfl
@[simp] theorem State.setRdata_rxData (v : Word) : (s.setRdata v).rxData = s.rxData := rfl
@[simp] theorem State.setRdata_chksum (v : Word) : (s.setRdata v).chksum = s.chksum := rfl
@[simp] theorem State.setRdata_frameLen (v : Word) : (s.setRdata v).frameLen = s.frameLen := rfl
@[simp] theorem State.setRdata_auto (v : Word) : (s.setRdata v).auto = s.auto := rfl
@[simp] theorem State.setRdata_edid (v : Word) : (s.setRdata v).edid = s.edid := rfl
@[simp] theorem State.setRdata_mem (v : Word) : (s.setRdata v).mem = s.mem := rfl
@[simp] theorem State.setRdata_seq (v : Word) : (s.setRdata v).seq = s.seq := rfl
@[simp] theorem State.setRdata_env (v : Word) : (s.setRdata v).env = { s.env with rdata := v } := rfl

/-! ### Taking the host's act -/

@[simp] theorem State.hostTaken_out (rest : List HostTurn) : (s.hostTaken rest).out = s.out := rfl
@[simp] theorem State.hostTaken_ctrl (rest : List HostTurn) : (s.hostTaken rest).ctrl = s.ctrl := rfl
@[simp] theorem State.hostTaken_bitDelay (rest : List HostTurn) : (s.hostTaken rest).bitDelay = s.bitDelay := rfl
@[simp] theorem State.hostTaken_timeout (rest : List HostTurn) : (s.hostTaken rest).timeout = s.timeout := rfl
@[simp] theorem State.hostTaken_cmd (rest : List HostTurn) : (s.hostTaken rest).cmd = s.cmd := rfl
@[simp] theorem State.hostTaken_status (rest : List HostTurn) : (s.hostTaken rest).status = s.status := rfl
@[simp] theorem State.hostTaken_rxData (rest : List HostTurn) : (s.hostTaken rest).rxData = s.rxData := rfl
@[simp] theorem State.hostTaken_chksum (rest : List HostTurn) : (s.hostTaken rest).chksum = s.chksum := rfl
@[simp] theorem State.hostTaken_frameLen (rest : List HostTurn) : (s.hostTaken rest).frameLen = s.frameLen := rfl
@[simp] theorem State.hostTaken_auto (rest : List HostTurn) : (s.hostTaken rest).auto = s.auto := rfl
@[simp] theorem State.hostTaken_edid (rest : List HostTurn) : (s.hostTaken rest).edid = s.edid := rfl
@[simp] theorem State.hostTaken_mem (rest : List HostTurn) : (s.hostTaken rest).mem = s.mem := rfl
@[simp] theorem State.hostTaken_seq (rest : List HostTurn) : (s.hostTaken rest).seq = s.seq := rfl
@[simp] theorem State.hostTaken_env (rest : List HostTurn) : (s.hostTaken rest).env = { s.env with host := rest } := rfl

/-! ### The start of a command -/

@[simp] theorem State.start_out (program : List Micro) : (s.start program).out = s.out := rfl
@[simp] theorem State.start_ctrl (program : List Micro) : (s.start program).ctrl = s.ctrl := rfl
@[simp] theorem State.start_bitDelay (program : List Micro) : (s.start program).bitDelay = s.bitDelay := rfl
@[simp] theorem State.start_timeout (program : List Micro) : (s.start program).timeout = s.timeout := rfl
@[simp] theorem State.start_cmd (program : List Micro) : (s.start program).cmd = s.cmd := rfl
@[simp] theorem State.start_status (program : List Micro) : (s.start program).status = { s.status with busy := true } := rfl
@[simp] theorem State.start_rxData (program : List Micro) : (s.start program).rxData = s.rxData := rfl
@[simp] theorem State.start_chksum (program : List Micro) : (s.start program).chksum = s.chksum := rfl
@[simp] theorem State.start_frameLen (program : List Micro) : (s.start program).frameLen = s.frameLen := rfl
@[simp] theorem State.start_auto (program : List Micro) : (s.start program).auto = s.auto := rfl
@[simp] theorem State.start_edid (program : List Micro) : (s.start program).edid = s.edid := rfl
@[simp] theorem State.start_mem (program : List Micro) : (s.start program).mem = s.mem := rfl
@[simp] theorem State.start_seq (program : List Micro) : (s.start program).seq = { Sequencer.none with todo := program } := rfl
@[simp] theorem State.start_env (program : List Micro) : (s.start program).env = s.env := rfl

/-! ### `finish` -/

@[simp] theorem State.finish_out (code : Result) : (s.finish code).out = s.out := rfl
@[simp] theorem State.finish_ctrl (code : Result) : (s.finish code).ctrl = s.ctrl := rfl
@[simp] theorem State.finish_bitDelay (code : Result) : (s.finish code).bitDelay = s.bitDelay := rfl
@[simp] theorem State.finish_timeout (code : Result) : (s.finish code).timeout = s.timeout := rfl
@[simp] theorem State.finish_cmd (code : Result) : (s.finish code).cmd = s.cmd := rfl
@[simp] theorem State.finish_status (code : Result) : (s.finish code).status = { s.status with busy := false, result := code } := rfl
@[simp] theorem State.finish_rxData (code : Result) : (s.finish code).rxData = s.rxData := rfl
@[simp] theorem State.finish_chksum (code : Result) : (s.finish code).chksum = s.chksum := rfl
@[simp] theorem State.finish_frameLen (code : Result) : (s.finish code).frameLen = s.frameLen := rfl
@[simp] theorem State.finish_auto (code : Result) : (s.finish code).auto = s.auto := rfl
@[simp] theorem State.finish_edid (code : Result) : (s.finish code).edid = s.edid := rfl
@[simp] theorem State.finish_mem (code : Result) : (s.finish code).mem = s.mem := rfl
@[simp] theorem State.finish_seq (code : Result) : (s.finish code).seq = Sequencer.none := rfl
@[simp] theorem State.finish_env (code : Result) : (s.finish code).env = { s.env with quiet := 0 } := rfl

/-! ### `BusTimeoutAbort` -/

@[simp] theorem State.busTimeoutAbort_out : (s.busTimeoutAbort).out = s.out := rfl
@[simp] theorem State.busTimeoutAbort_ctrl : (s.busTimeoutAbort).ctrl = s.ctrl := rfl
@[simp] theorem State.busTimeoutAbort_bitDelay : (s.busTimeoutAbort).bitDelay = s.bitDelay := rfl
@[simp] theorem State.busTimeoutAbort_timeout : (s.busTimeoutAbort).timeout = s.timeout := rfl
@[simp] theorem State.busTimeoutAbort_cmd : (s.busTimeoutAbort).cmd = s.cmd := rfl
@[simp] theorem State.busTimeoutAbort_status : (s.busTimeoutAbort).status = s.status := rfl
@[simp] theorem State.busTimeoutAbort_rxData : (s.busTimeoutAbort).rxData = s.rxData := rfl
@[simp] theorem State.busTimeoutAbort_chksum : (s.busTimeoutAbort).chksum = s.chksum := rfl
@[simp] theorem State.busTimeoutAbort_frameLen : (s.busTimeoutAbort).frameLen = s.frameLen := rfl
@[simp] theorem State.busTimeoutAbort_auto : (s.busTimeoutAbort).auto = s.auto := rfl
@[simp] theorem State.busTimeoutAbort_edid : (s.busTimeoutAbort).edid = s.edid := rfl
@[simp] theorem State.busTimeoutAbort_mem : (s.busTimeoutAbort).mem = s.mem := rfl
@[simp] theorem State.busTimeoutAbort_seq : (s.busTimeoutAbort).seq = { s.seq with todo := [.setSda .released, .finish .busTimeout] } := rfl
@[simp] theorem State.busTimeoutAbort_env : (s.busTimeoutAbort).env = s.env := rfl

/-! ### An accepted CMD write -/

@[simp] theorem State.latchCommand_out (w : Word) : (s.latchCommand w).out = s.out := rfl
@[simp] theorem State.latchCommand_ctrl (w : Word) : (s.latchCommand w).ctrl = s.ctrl := rfl
@[simp] theorem State.latchCommand_bitDelay (w : Word) : (s.latchCommand w).bitDelay = s.bitDelay := rfl
@[simp] theorem State.latchCommand_timeout (w : Word) : (s.latchCommand w).timeout = s.timeout := rfl
@[simp] theorem State.latchCommand_cmd (w : Word) : (s.latchCommand w).cmd = w := rfl
@[simp] theorem State.latchCommand_status (w : Word) : (s.latchCommand w).status = { s.status with dropped := false, busy := true } := rfl
@[simp] theorem State.latchCommand_rxData (w : Word) : (s.latchCommand w).rxData = s.rxData := rfl
@[simp] theorem State.latchCommand_chksum (w : Word) : (s.latchCommand w).chksum = s.chksum := rfl
@[simp] theorem State.latchCommand_frameLen (w : Word) : (s.latchCommand w).frameLen = s.frameLen := rfl
@[simp] theorem State.latchCommand_auto (w : Word) : (s.latchCommand w).auto = s.auto := rfl
@[simp] theorem State.latchCommand_edid (w : Word) : (s.latchCommand w).edid = s.edid := rfl
@[simp] theorem State.latchCommand_mem (w : Word) : (s.latchCommand w).mem = s.mem := rfl
@[simp] theorem State.latchCommand_seq (w : Word) : (s.latchCommand w).seq = s.seq := rfl
@[simp] theorem State.latchCommand_env (w : Word) : (s.latchCommand w).env = s.env := rfl

/-! ### Both outputs -/

@[simp] theorem State.withOut_out (sda scl : Drive) : (s.withOut sda scl).out = ⟨sda, scl⟩ := rfl
@[simp] theorem State.withOut_ctrl (sda scl : Drive) : (s.withOut sda scl).ctrl = s.ctrl := rfl
@[simp] theorem State.withOut_bitDelay (sda scl : Drive) : (s.withOut sda scl).bitDelay = s.bitDelay := rfl
@[simp] theorem State.withOut_timeout (sda scl : Drive) : (s.withOut sda scl).timeout = s.timeout := rfl
@[simp] theorem State.withOut_cmd (sda scl : Drive) : (s.withOut sda scl).cmd = s.cmd := rfl
@[simp] theorem State.withOut_status (sda scl : Drive) : (s.withOut sda scl).status = s.status := rfl
@[simp] theorem State.withOut_rxData (sda scl : Drive) : (s.withOut sda scl).rxData = s.rxData := rfl
@[simp] theorem State.withOut_chksum (sda scl : Drive) : (s.withOut sda scl).chksum = s.chksum := rfl
@[simp] theorem State.withOut_frameLen (sda scl : Drive) : (s.withOut sda scl).frameLen = s.frameLen := rfl
@[simp] theorem State.withOut_auto (sda scl : Drive) : (s.withOut sda scl).auto = s.auto := rfl
@[simp] theorem State.withOut_edid (sda scl : Drive) : (s.withOut sda scl).edid = s.edid := rfl
@[simp] theorem State.withOut_mem (sda scl : Drive) : (s.withOut sda scl).mem = s.mem := rfl
@[simp] theorem State.withOut_seq (sda scl : Drive) : (s.withOut sda scl).seq = s.seq := rfl
@[simp] theorem State.withOut_env (sda scl : Drive) : (s.withOut sda scl).env = s.env := rfl

/-! ### A finished command -/

@[simp] theorem State.finishedWith_out (code : Result) (peer : List Drives) : (s.finishedWith code peer).out = s.out := rfl
@[simp] theorem State.finishedWith_ctrl (code : Result) (peer : List Drives) : (s.finishedWith code peer).ctrl = s.ctrl := rfl
@[simp] theorem State.finishedWith_bitDelay (code : Result) (peer : List Drives) : (s.finishedWith code peer).bitDelay = s.bitDelay := rfl
@[simp] theorem State.finishedWith_timeout (code : Result) (peer : List Drives) : (s.finishedWith code peer).timeout = s.timeout := rfl
@[simp] theorem State.finishedWith_cmd (code : Result) (peer : List Drives) : (s.finishedWith code peer).cmd = s.cmd := rfl
@[simp] theorem State.finishedWith_status (code : Result) (peer : List Drives) : (s.finishedWith code peer).status = { s.status with busy := false, result := code } := rfl
@[simp] theorem State.finishedWith_rxData (code : Result) (peer : List Drives) : (s.finishedWith code peer).rxData = s.rxData := rfl
@[simp] theorem State.finishedWith_chksum (code : Result) (peer : List Drives) : (s.finishedWith code peer).chksum = s.chksum := rfl
@[simp] theorem State.finishedWith_frameLen (code : Result) (peer : List Drives) : (s.finishedWith code peer).frameLen = s.frameLen := rfl
@[simp] theorem State.finishedWith_auto (code : Result) (peer : List Drives) : (s.finishedWith code peer).auto = s.auto := rfl
@[simp] theorem State.finishedWith_edid (code : Result) (peer : List Drives) : (s.finishedWith code peer).edid = s.edid := rfl
@[simp] theorem State.finishedWith_mem (code : Result) (peer : List Drives) : (s.finishedWith code peer).mem = s.mem := rfl
@[simp] theorem State.finishedWith_seq (code : Result) (peer : List Drives) : (s.finishedWith code peer).seq = Sequencer.none := rfl
@[simp] theorem State.finishedWith_env (code : Result) (peer : List Drives) : (s.finishedWith code peer).env = { s.env with peer := peer, quiet := 0 } := rfl

/-! ### A draw of the peer's drive: it touches the peer's script or the count of free draws, nothing else -/

@[simp] theorem State.drawn_out : s.drawn.out = s.out := by unfold State.drawn; split <;> rfl
@[simp] theorem State.drawn_ctrl : s.drawn.ctrl = s.ctrl := by unfold State.drawn; split <;> rfl
@[simp] theorem State.drawn_bitDelay : s.drawn.bitDelay = s.bitDelay := by unfold State.drawn; split <;> rfl
@[simp] theorem State.drawn_timeout : s.drawn.timeout = s.timeout := by unfold State.drawn; split <;> rfl
@[simp] theorem State.drawn_cmd : s.drawn.cmd = s.cmd := by unfold State.drawn; split <;> rfl
@[simp] theorem State.drawn_status : s.drawn.status = s.status := by unfold State.drawn; split <;> rfl
@[simp] theorem State.drawn_rxData : s.drawn.rxData = s.rxData := by unfold State.drawn; split <;> rfl
@[simp] theorem State.drawn_chksum : s.drawn.chksum = s.chksum := by unfold State.drawn; split <;> rfl
@[simp] theorem State.drawn_frameLen : s.drawn.frameLen = s.frameLen := by unfold State.drawn; split <;> rfl
@[simp] theorem State.drawn_auto : s.drawn.auto = s.auto := by unfold State.drawn; split <;> rfl
@[simp] theorem State.drawn_edid : s.drawn.edid = s.edid := by unfold State.drawn; split <;> rfl
@[simp] theorem State.drawn_mem : s.drawn.mem = s.mem := by unfold State.drawn; split <;> rfl
@[simp] theorem State.drawn_seq : s.drawn.seq = s.seq := by unfold State.drawn; split <;> rfl
@[simp] theorem State.drawn_env_host : s.drawn.env.host = s.env.host := by unfold State.drawn; split <;> rfl
@[simp] theorem State.drawn_env_quiet : s.drawn.env.quiet = s.env.quiet := by unfold State.drawn; split <;> rfl
@[simp] theorem State.drawn_env_rdata : s.drawn.env.rdata = s.env.rdata := by unfold State.drawn; split <;> rfl

theorem State.drawn_peer_cons {d : Drives} {ds : List Drives} (h : s.env.peer = d :: ds) :
    s.drawn = { s with env := { s.env with peer := ds } } := by
  unfold State.drawn; rw [h]

theorem State.drawn_peer_nil (h : s.env.peer = []) :
    s.drawn = { s with env := { s.env with draws := s.env.draws + 1 } } := by
  unfold State.drawn; rw [h]

theorem State.peerDrive_cons {d : Drives} {ds : List Drives} (h : s.env.peer = d :: ds) : s.peerDrive = d := by
  unfold State.peerDrive; rw [h]

theorem State.levels_cons {d : Drives} {ds : List Drives} (h : s.env.peer = d :: ds) :
    s.levels = levelsOf s.out d := by
  unfold State.levels; rw [s.peerDrive_cons h]

end Sys2Proof.Machine
end

