-- ==== Sys2Proof/Laws/Memory.lean ====
section
/-! SUPPORT. The laws of the buffers' memory: a byte stored reads back, every other byte stands, and every write keeps the
memory's one form. -/

namespace Sys2Proof.Machine

/-! ### Reads after writes -/

@[simp] theorem Memory.read_nil (a : Nat) : Memory.read [] a = none := rfl

theorem Memory.read_cons (a b : Nat) (v : Byte) (m : List Host.Cell) :
    Memory.read ((b, v) :: m) a = if a = b then some v else Memory.read m a := rfl

@[simp] theorem Memory.read_write_same (m : List Host.Cell) (a : Nat) (v : Byte) :
    Memory.read (Memory.write m a v) a = some v := by
  induction m with
  | nil => simp [Memory.write, Memory.read]
  | cons c m ih =>
    obtain ⟨b, w⟩ := c
    simp only [Memory.write]
    split_ifs with h1 h2
    · simp [Memory.read]
    · simp [Memory.read]
    · simp [Memory.read, h2, ih]

theorem Memory.read_write_other {m : List Host.Cell} {a b : Nat} (v : Byte) (h : a ≠ b) :
    Memory.read (Memory.write m b v) a = Memory.read m a := by
  induction m with
  | nil => simp [Memory.write, Memory.read, h]
  | cons c m ih =>
    obtain ⟨d, w⟩ := c
    simp only [Memory.write]
    split_ifs with h1 h2
    · simp [Memory.read, h]
    · subst h2; simp [Memory.read, h]
    · simp [Memory.read, ih]

theorem Memory.read_write (m : List Host.Cell) (a b : Nat) (v : Byte) :
    Memory.read (Memory.write m b v) a = if a = b then some v else Memory.read m a := by
  split_ifs with h
  · subst h; simp
  · exact Memory.read_write_other v h

/-! ### The one form -/

theorem Memory.wf_tail {c : Host.Cell} {m : List Host.Cell} (h : Memory.wf (c :: m) = true) :
    Memory.wf m = true := by
  cases m with
  | nil => rfl
  | cons d m => simp only [Memory.wf, Bool.and_eq_true] at h; exact h.2

theorem Memory.wf_cons_iff (a : Nat) (v : Byte) (m : List Host.Cell) :
    Memory.wf ((a, v) :: m) = true ↔ (∀ c ∈ m.head?, a < c.1) ∧ Memory.wf m = true := by
  cases m with
  | nil => simp [Memory.wf]
  | cons d m => obtain ⟨b, w⟩ := d; simp [Memory.wf]

/-- The first offset after a write is the old first offset or the offset written. -/
theorem Memory.head_write {m : List Host.Cell} {a b : Nat} {v : Byte} (h : ∀ c ∈ m.head?, b < c.1) (hb : b < a) :
    ∀ c ∈ (Memory.write m a v).head?, b < c.1 := by
  cases m with
  | nil => simp [Memory.write, hb]
  | cons d m =>
    obtain ⟨e, w⟩ := d
    simp only [Memory.write]
    split_ifs <;> simp_all

/-- Every write keeps the form. -/
theorem Memory.wf_write {m : List Host.Cell} (a : Nat) (v : Byte) (h : Memory.wf m = true) :
    Memory.wf (Memory.write m a v) = true := by
  induction m with
  | nil => rfl
  | cons c m ih =>
    obtain ⟨b, w⟩ := c
    have ht := Memory.wf_tail h
    have hh := ((Memory.wf_cons_iff b w m).1 h).1
    simp only [Memory.write]
    split_ifs with h1 h2
    · rw [Memory.wf_cons_iff]; exact ⟨by simp [h1], h⟩
    · subst h2; rw [Memory.wf_cons_iff]; exact ⟨hh, ht⟩
    · rw [Memory.wf_cons_iff]
      exact ⟨Memory.head_write hh (by omega), ih ht⟩

/-- No command's store breaks the form. -/
theorem State.storeByte_wf {s : State} (b : Buffer) (i : Nat) (v : Byte) (h : Memory.wf s.mem = true) :
    Memory.wf (s.storeByte b i v).mem = true := Memory.wf_write _ v h

theorem Memory.wf_writeAll {m : List Host.Cell} (b : Buffer) (i : Nat) (bs : List Byte) (h : Memory.wf m = true) :
    Memory.wf (Memory.writeAll m b i bs) = true := by
  induction bs generalizing m i with
  | nil => exact h
  | cons v vs ih => exact ih (i + 1) (Memory.wf_write _ v h)

theorem State.storeAll_wf {s : State} (b : Buffer) (i : Nat) (bs : List Byte) (h : Memory.wf s.mem = true) :
    Memory.wf (s.storeAll b i bs).mem = true := Memory.wf_writeAll b i bs h

/-- The memory after reset, in which nothing is listed, has the form. -/
theorem State.reset_memory_wf : Memory.wf State.reset.mem = true := rfl

/-- A write lists only what was listed and the offset written. -/
theorem Memory.mem_write {m : List Host.Cell} {a : Nat} {v : Byte} {c : Host.Cell} (h : c ∈ Memory.write m a v) :
    c = (a, v) ∨ c ∈ m := by
  induction m with
  | nil => simp [Memory.write] at h; exact .inl h
  | cons d m ih =>
    obtain ⟨b, w⟩ := d
    simp only [Memory.write] at h
    split_ifs at h with h1 h2
    · simpa using h
    · simp at h; rcases h with h | h
      · exact .inl h
      · exact .inr (by simp [h])
    · simp at h; rcases h with h | h
      · exact .inr (by simp [h])
      · rcases ih h with h | h
        · exact .inl h
        · exact .inr (by simp [h])

/-! ### Buffers -/

theorem bufferOffset_iff (a : Nat) : bufferOffset a = true ↔
    a % 4 = 0 ∧ (0x100 ≤ a ∧ a ≤ 0x19C ∨ 0x200 ≤ a ∧ a ≤ 0x29C ∨ 0x400 ≤ a ∧ a ≤ 0x5FC) :=
  decide_eq_true_iff

/-- Byte i of a buffer stands at an offset of the window map's buffers. -/
theorem Buffer.addr_bufferOffset {b : Buffer} {i : Nat} (h : i < b.size) : bufferOffset (b.addr i) = true := by
  rw [bufferOffset_iff]
  cases b <;> simp only [Buffer.size] at h <;> simp only [Buffer.addr, Buffer.base] <;> omega

/-- Different bytes of the buffers stand at different offsets. -/
theorem Buffer.addr_inj {b c : Buffer} {i j : Nat} (hi : i < b.size) (hj : j < c.size)
    (h : b.addr i = c.addr j) : b = c ∧ i = j := by
  cases b <;> cases c <;> simp only [Buffer.size] at hi hj <;> simp only [Buffer.addr, Buffer.base] at h <;>
    first
      | exact ⟨rfl, by omega⟩
      | exact absurd h (by omega)

/-- Within one buffer, indices and offsets match one to one. -/
@[simp] theorem Buffer.addr_eq_iff (b : Buffer) (i j : Nat) : b.addr i = b.addr j ↔ i = j := by
  simp only [Buffer.addr]; omega

/-- What a buffer byte reads as after a run of stores: the stored one, where it is in the run. -/
theorem Memory.read_writeAll (m : List Host.Cell) (b : Buffer) (i : Nat) (bs : List Byte) (j : Nat) :
    Memory.read (Memory.writeAll m b i bs) (b.addr j) =
      if h : i ≤ j ∧ j - i < bs.length then some bs[j - i] else Memory.read m (b.addr j) := by
  induction bs generalizing m i with
  | nil => simp [Memory.writeAll]
  | cons v vs ih =>
    rw [Memory.writeAll, ih]
    rcases Nat.lt_trichotomy j i with hj | rfl | hj
    · rw [dif_neg (by omega), dif_neg (by omega), Memory.read_write_other v (by simp; omega)]
    · rw [dif_neg (by omega), dif_pos (by simp), Memory.read_write_same]
      simp
    · obtain ⟨k, rfl⟩ : ∃ k, j = i + 1 + k := ⟨j - (i + 1), by omega⟩
      have e : i + 1 + k - i = k + 1 := by omega
      have e' : i + 1 + k - (i + 1) = k := by omega
      by_cases hk : k < vs.length
      · rw [dif_pos (by omega), dif_pos (by simp; omega)]
        simp only [e, e', List.getElem_cons_succ]
      · rw [dif_neg (by omega), dif_neg (by simp; omega), Memory.read_write_other v (by simp; omega)]

/-- An offset that is none of the run's keeps its byte and its mark. -/
theorem Memory.read_writeAll_other {m : List Host.Cell} {b : Buffer} {i : Nat} {bs : List Byte} {a : Nat}
    (h : ∀ k, k < bs.length → a ≠ b.addr (i + k)) : Memory.read (Memory.writeAll m b i bs) a = Memory.read m a := by
  induction bs generalizing m i with
  | nil => rfl
  | cons v vs ih =>
    rw [Memory.writeAll, ih fun k hk => ?_, Memory.read_write_other v (by simpa using h 0 (by simp))]
    have := h (k + 1) (by simpa using hk)
    rwa [show i + (k + 1) = i + 1 + k by omega] at this

/-- `b[i..] <- bs` leaves the bytes stored, and no other byte changed. -/
theorem State.storeAll_spec (s : State) (b : Buffer) (i : Nat) (bs : List Byte) :
    (s.storeAll b i bs).holds b i bs ∧ sameOutside s (s.storeAll b i bs) b i bs.length := by
  refine ⟨fun k v hk => ?_, fun a ha => Memory.read_writeAll_other ha⟩
  obtain ⟨hl, hv⟩ := List.getElem?_eq_some_iff.1 hk
  have := Memory.read_writeAll s.mem b i bs (i + k)
  rw [dif_pos ⟨by omega, by omega⟩] at this
  simpa [hv] using this

theorem State.readByte_ok_iff (s : State) (b : Buffer) (i : Nat) (v : Byte) :
    s.readByte b i = .ok v ↔ Memory.read s.mem (b.addr i) = some v := by
  unfold State.readByte
  cases Memory.read s.mem (b.addr i) <;> simp

theorem State.readByte_error_iff (s : State) (b : Buffer) (i : Nat) (f : Fault) :
    s.readByte b i = .error f ↔ Memory.read s.mem (b.addr i) = none ∧ f = .commandReadUnmarked (b.addr i) := by
  unfold State.readByte
  cases Memory.read s.mem (b.addr i) <;> simp [eq_comm]

@[simp] theorem State.readByte_storeByte (s : State) (b : Buffer) (i j : Nat) (v : Byte) :
    (s.storeByte b i v).readByte b j = if j = i then .ok v else s.readByte b j := by
  unfold State.readByte
  rw [State.storeByte_mem, Memory.read_write]
  by_cases h : j = i <;> simp [h]

/-- Reading a range answers its bytes in order, when every one of them is marked. -/
theorem State.readBytes_ok {s : State} {b : Buffer} {bs : List Byte} {i : Nat} (h : s.holds b i bs) :
    s.readBytes b i bs.length = .ok bs := by
  induction bs generalizing i with
  | nil => rfl
  | cons v vs ih =>
    have h0 : Memory.read s.mem (b.addr i) = some v := by simpa using h 0 v rfl
    have ht : s.holds b (i + 1) vs := by
      intro k w hw
      have := h (k + 1) w (by simpa using hw)
      rwa [show i + (k + 1) = i + 1 + k by omega] at this
    have hr : s.readByte b i = .ok v := (s.readByte_ok_iff b i v).2 h0
    simp only [List.length_cons, State.readBytes, hr, ih ht]

/-- Reading a range can only fail on an unmarked byte of it, and by the model fault. -/
theorem State.readBytes_error {s : State} {b : Buffer} {n i : Nat} {f : Fault}
    (h : s.readBytes b i n = .error f) :
    ∃ k, k < n ∧ Memory.read s.mem (b.addr (i + k)) = none ∧ f = .commandReadUnmarked (b.addr (i + k)) := by
  induction n generalizing i with
  | zero => simp [State.readBytes] at h
  | succ n ih =>
    simp only [State.readBytes] at h
    split at h
    · rename_i g hg
      cases h
      obtain ⟨h1, h2⟩ := (s.readByte_error_iff b i _).1 hg
      exact ⟨0, by omega, by simpa using h1, by simpa using h2⟩
    · split at h
      · rename_i g hg
        cases h
        obtain ⟨k, hk, h1, h2⟩ := ih hg
        refine ⟨k + 1, by omega, ?_, ?_⟩
        · rwa [show i + (k + 1) = i + 1 + k by omega]
        · rwa [show i + (k + 1) = i + 1 + k by omega]
      · cases h

/-- What a range read answers is what the buffer holds there. -/
theorem State.holds_of_readBytes {s : State} {b : Buffer} {n i : Nat} {bs : List Byte}
    (h : s.readBytes b i n = .ok bs) : bs.length = n ∧ s.holds b i bs := by
  induction n generalizing i bs with
  | zero =>
    simp only [State.readBytes, Except.ok.injEq] at h
    subst h
    exact ⟨rfl, by intro k v hv; simp at hv⟩
  | succ n ih =>
    simp only [State.readBytes] at h
    split at h
    · cases h
    · rename_i v hv
      split at h
      · cases h
      · rename_i vs hvs
        cases h
        obtain ⟨h1, h2⟩ := ih hvs
        refine ⟨by simp [h1], ?_⟩
        intro k w hw
        cases k with
        | zero =>
          simp only [List.getElem?_cons_zero, Option.some.injEq] at hw
          subst hw
          simpa using (s.readByte_ok_iff b i v).1 hv
        | succ k =>
          have := h2 k w (by simpa using hw)
          rwa [show i + 1 + k = i + (k + 1) by omega] at this

end Sys2Proof.Machine
end

