-- ==== Sys2Proof/Laws/Sequencer.lean ====
section
/-! SUPPORT. What the controller's steps can do: one step at a position, several in a row, and the fields no step of a
command ever touches. -/

namespace Sys2Proof.Machine

/-! ### One step -/

theorem controllerStep_cons {s : State} {m : Micro} {rest : List Micro} (h : s.seq.todo = m :: rest) :
    controllerStep s = runMicro m (s.jump rest) := by
  unfold controllerStep; rw [h]

@[simp] theorem controllerStep_idle {s : State} (h : s.seq.todo = []) : controllerStep s = .next s := by
  unfold controllerStep; rw [h]

@[simp] theorem State.jump_jump (s : State) (a b : List Micro) : (s.jump a).jump b = s.jump b := rfl

@[simp] theorem State.push_jump (s : State) (a b : List Micro) : (s.jump a).push b = s.jump (b ++ a) := rfl

theorem withByte_next {r : Except Fault Byte} {k : Byte → State} {t : State} (h : withByte r k = .next t) :
    ∃ v, r = .ok v ∧ t = k v := by
  unfold withByte at h
  split at h
  · exact ⟨_, rfl, by cases h; rfl⟩
  · cases h

theorem withTest_next {r : Except Fault Bool} {k : Bool → State} {t : State} (h : withTest r k = .next t) :
    ∃ b, r = .ok b ∧ t = k b := by
  unfold withTest at h
  split at h
  · exact ⟨_, rfl, by cases h; rfl⟩
  · cases h

/-- What no step of a command touches: CTRL, BITDELAY, TIMEOUT, CMD, DROPPED, and what the host does and has read
(spec/20_memory.md R67, spec/60_exceptions.md R205 (a)). -/
def sameFixedPart (s t : State) : Prop :=
  t.ctrl = s.ctrl ∧ t.bitDelay = s.bitDelay ∧ t.timeout = s.timeout ∧ t.cmd = s.cmd ∧
    t.status.dropped = s.status.dropped ∧ t.env.host = s.env.host ∧ t.env.rdata = s.env.rdata

theorem sameFixedPart.refl (s : State) : sameFixedPart s s := ⟨rfl, rfl, rfl, rfl, rfl, rfl, rfl⟩

theorem sameFixedPart.trans {s t u : State} (h : sameFixedPart s t) (g : sameFixedPart t u) : sameFixedPart s u := by
  obtain ⟨h1, h2, h3, h4, h5, h6, h7⟩ := h
  obtain ⟨g1, g2, g3, g4, g5, g6, g7⟩ := g
  exact ⟨g1.trans h1, g2.trans h2, g3.trans h3, g4.trans h4, g5.trans h5, g6.trans h6, g7.trans h7⟩

theorem sameFixedPart_drawn (s : State) : sameFixedPart s s.drawn := by
  unfold State.drawn; split <;> exact ⟨rfl, rfl, rfl, rfl, rfl, rfl, rfl⟩

theorem sameFixedPart_pollNext (k : Nat) (l : Level) (s : State) : sameFixedPart s (pollNext k l s) := by
  unfold pollNext State.busTimeoutAbort
  cases l
  · dsimp only; split <;> exact ⟨rfl, rfl, rfl, rfl, rfl, rfl, rfl⟩
  · exact sameFixedPart.refl s

theorem sameFixedPart_edidVerdict (b : Bool) (s : State) : sameFixedPart s (edidVerdict b s) := by
  unfold edidVerdict; split_ifs <;> exact ⟨rfl, rfl, rfl, rfl, rfl, rfl, rfl⟩

/-- The sample of `SlaveStep()` leaves the automaton, the outputs and the memory; `prev` takes the sample in the next step. -/
theorem State.slaveSample_spec (s : State) (next : List Micro) :
    (s.slaveSample next).auto = s.auto ∧ (s.slaveSample next).out = s.out ∧ (s.slaveSample next).mem = s.mem ∧
      (s.slaveSample next).seq.todo = .setPrev s.levels :: next := by
  unfold State.slaveSample State.drawn
  split <;> exact ⟨rfl, rfl, rfl, rfl⟩

/-- No step of the sequencer touches the fixed part. -/
theorem runMicro_sameFixedPart {m : Micro} {s t : State} (h : runMicro m s = .next t) : sameFixedPart s t := by
  have hd := sameFixedPart_drawn s
  have hp := fun k => sameFixedPart_pollNext k s.levels.scl s.drawn
  cases m <;> simp only [runMicro] at h
  case pollScl k => cases h; exact hd.trans (hp k)
  case sampleAck => cases h; exact hd.trans ⟨rfl, rfl, rfl, rfl, rfl, rfl, rfl⟩
  case sampleBit => cases h; exact hd.trans ⟨rfl, rfl, rfl, rfl, rfl, rfl, rfl⟩
  case getSample => cases h; exact hd.trans ⟨rfl, rfl, rfl, rfl, rfl, rfl, rfl⟩
  case waitSample => cases h; exact hd.trans ⟨rfl, rfl, rfl, rfl, rfl, rfl, rfl⟩
  case clockLowGuard => cases h; split_ifs <;> exact ⟨rfl, rfl, rfl, rfl, rfl, rfl, rfl⟩
  case releaseStretch => cases h; split_ifs <;> exact ⟨rfl, rfl, rfl, rfl, rfl, rfl, rfl⟩
  case releaseStretchDelayed => cases h; split_ifs <;> exact ⟨rfl, rfl, rfl, rfl, rfl, rfl, rfl⟩
  case applyStretch => cases h; unfold applyStretch; split_ifs <;> exact ⟨rfl, rfl, rfl, rfl, rfl, rfl, rfl⟩
  case txsum n => obtain ⟨v, -, rfl⟩ := withByte_next h; exact ⟨rfl, rfl, rfl, rfl, rfl, rfl, rfl⟩
  case rxsum n => obtain ⟨v, -, rfl⟩ := withByte_next h; exact ⟨rfl, rfl, rfl, rfl, rfl, rfl, rfl⟩
  case sendTx j => obtain ⟨v, -, rfl⟩ := withByte_next h; exact ⟨rfl, rfl, rfl, rfl, rfl, rfl, rfl⟩
  case rxcheckLength => obtain ⟨v, -, rfl⟩ := withByte_next h; exact ⟨rfl, rfl, rfl, rfl, rfl, rfl, rfl⟩
  case rxVerdict n => obtain ⟨v, -, rfl⟩ := withByte_next h; exact ⟨rfl, rfl, rfl, rfl, rfl, rfl, rfl⟩
  case edidsum => obtain ⟨v, -, rfl⟩ := withByte_next h; exact ⟨rfl, rfl, rfl, rfl, rfl, rfl, rfl⟩
  case edidTotal => obtain ⟨v, -, rfl⟩ := withByte_next h; exact ⟨rfl, rfl, rfl, rfl, rfl, rfl, rfl⟩
  case edidVerdict => obtain ⟨b, -, rfl⟩ := withTest_next h; exact sameFixedPart_edidVerdict b s
  case edidMatch =>
    split_ifs at h
    · cases h; exact ⟨rfl, rfl, rfl, rfl, rfl, rfl, rfl⟩
    · obtain ⟨b, -, rfl⟩ := withTest_next h; exact ⟨rfl, rfl, rfl, rfl, rfl, rfl, rfl⟩
  all_goals cases h; exact ⟨rfl, rfl, rfl, rfl, rfl, rfl, rfl⟩

/-- No step of the sequencer is refused: a command ends by `finish`, goes on, or reads an unmarked byte. -/
theorem runMicro_not_refused (m : Micro) (s : State) (r : Refusal) : runMicro m s ≠ .refused r := by
  have hb : ∀ (e : Except Fault Byte) (k : Byte → State), withByte e k ≠ .refused r := by
    intro e k; unfold withByte; split <;> simp
  have ht : ∀ (e : Except Fault Bool) (k : Bool → State), withTest e k ≠ .refused r := by
    intro e k; unfold withTest; split <;> simp
  cases m <;> simp only [runMicro] <;> try exact hb _ _
  case edidVerdict => exact ht _ _
  case edidMatch => split_ifs <;> [simp; exact ht _ _]
  all_goals simp

/-! ### Several steps -/

@[simp] theorem runController_zero (s : State) : runController 0 s = .next (s.setQuiet 0) := rfl

/-- An idle block with no pause left is left alone. -/
@[simp] theorem runController_idle {s : State} (n : Nat) (h : s.seq.todo = []) (hq : s.env.quiet = 0) :
    runController n s = .next s := by
  have hs : s.setQuiet 0 = s := by
    obtain ⟨_, _, _, _, _, _, _, _, _, _, _, _, _, ⟨_, _, _, _, _⟩⟩ := s
    simp_all [State.setQuiet]
  cases n with
  | zero => simp [hs]
  | succ k => simp [runController, h, hs]

/-- A finished command takes no further step (R11). -/
@[simp] theorem runController_finish (n : Nat) (s : State) (r : Result) :
    runController n (s.finish r) = .next (s.finish r) :=
  runController_idle n rfl rfl

theorem runController_succ {s : State} (n : Nat) (hb : s.seq.todo ≠ []) (hd : s.needsDraw = false) :
    runController (n + 1) s =
      match controllerStep s with
      | .next t => runController n t
      | .fault f => .fault f
      | .refused r => .refused r :=
  (if_neg hb).trans (if_neg (by simp [hd]))

/-- `t` is what n controller steps make of `s`, none of which needs a free draw. -/
def Runs (n : Nat) (s t : State) : Prop :=
  match n with
  | 0 => s = t
  | k + 1 => s.seq.todo ≠ [] ∧ s.needsDraw = false ∧ ∃ u, controllerStep s = .next u ∧ Runs k u t

theorem Runs.trans {m n : Nat} {s t u : State} (h : Runs m s t) (g : Runs n t u) : Runs (m + n) s u := by
  induction m generalizing s with
  | zero => cases h; simpa using g
  | succ m ih =>
    obtain ⟨h1, h2, v, h3, h4⟩ := h
    rw [show m + 1 + n = (m + n) + 1 by omega]
    exact ⟨h1, h2, v, h3, ih h4⟩

/-- A step at a position, then the rest. -/
theorem Runs.step {n : Nat} {s t u : State} {m : Micro} {rest : List Micro} (h : s.seq.todo = m :: rest)
    (hd : m.samples = true → s.env.peer ≠ []) (hm : runMicro m (s.jump rest) = .next u) (g : Runs n u t) :
    Runs (n + 1) s t := by
  refine ⟨by simp [h], ?_, u, ?_, g⟩
  · unfold State.needsDraw; rw [h]
    cases hs : m.samples with
    | false => simp [hs]
    | true => simpa [hs] using hd hs
  · rw [controllerStep_cons h, hm]

/-- The controller performs those steps, if the host leaves it that long. -/
theorem runController_of_runs {n q : Nat} {s t : State} (h : Runs n s t) (hq : n ≤ q) :
    runController q s = runController (q - n) t := by
  induction n generalizing s q with
  | zero => cases h; rfl
  | succ n ih =>
    obtain ⟨h1, h2, v, h3, h4⟩ := h
    obtain ⟨p, rfl⟩ : ∃ p, q = p + 1 := ⟨q - 1, by omega⟩
    rw [runController_succ p h1 h2, h3, show p + 1 - (n + 1) = p - n by omega]
    exact ih h4 (by omega)

/-- The controller's steps never refuse. -/
theorem runController_not_refused (n : Nat) (s : State) (r : Refusal) : runController n s ≠ .refused r := by
  induction n generalizing s with
  | zero => simp
  | succ n ih =>
    unfold runController
    split_ifs
    · simp
    · simp
    · split
      · exact ih _
      · simp
      · rename_i u hu
        exfalso
        cases ht : s.seq.todo with
        | nil => simp [controllerStep_idle ht] at hu
        | cons m rest => rw [controllerStep_cons ht] at hu; exact runMicro_not_refused m _ _ hu

/-- However far the controller gets, the fixed part stands. -/
theorem runController_sameFixedPart {n : Nat} {s t : State} (h : runController n s = .next t) :
    sameFixedPart s t := by
  induction n generalizing s with
  | zero => cases h; exact ⟨rfl, rfl, rfl, rfl, rfl, rfl, rfl⟩
  | succ n ih =>
    unfold runController at h
    split_ifs at h with h1 h2
    · cases h; exact ⟨rfl, rfl, rfl, rfl, rfl, rfl, rfl⟩
    · cases h; exact ⟨rfl, rfl, rfl, rfl, rfl, rfl, rfl⟩
    · split at h
      · rename_i u hu
        refine sameFixedPart.trans ?_ (ih h)
        cases ht : s.seq.todo with
        | nil => exact absurd ht h1
        | cons m rest =>
          rw [controllerStep_cons ht] at hu
          exact sameFixedPart.trans (t := s.jump rest) ⟨rfl, rfl, rfl, rfl, rfl, rfl, rfl⟩
            (runMicro_sameFixedPart hu)
      · cases h
      · cases h

/-! ### Starting a command -/

theorem runCommand_allowed {need : Option Mode} {program : List Micro} {s : State} (h : modeAllows need s = true) :
    runCommand need program s = runController s.env.quiet (s.start program) := by
  simp [runCommand, h]

theorem runCommand_wrongMode {need : Option Mode} {program : List Micro} {s : State}
    (h : modeAllows need s = false) : runCommand need program s = .next (s.finish .modeError) := by
  simp [runCommand, h]

/-- A command whose steps end in a finished state answers that state. -/
theorem runCommand_of_runs {need : Option Mode} {program : List Micro} {s t : State} {n : Nat}
    (h : modeAllows need s = true) (hr : Runs n (s.start program) t) (hq : n ≤ s.env.quiet)
    (hi : t.seq.todo = []) (h0 : t.env.quiet = 0) : runCommand need program s = .next t := by
  rw [runCommand_allowed h, runController_of_runs hr hq, runController_idle _ hi h0]

/-- No command is refused. -/
theorem runCommand_not_refused (need : Option Mode) (program : List Micro) (s : State) (r : Refusal) :
    runCommand need program s ≠ .refused r := by
  unfold runCommand
  split_ifs
  · exact runController_not_refused _ _ _
  · simp

/-- No command touches the fixed part, whatever its result (spec/60_exceptions.md R205 (a)). -/
theorem runCommand_sameFixedPart {need : Option Mode} {program : List Micro} {s t : State}
    (h : runCommand need program s = .next t) : sameFixedPart s t := by
  unfold runCommand at h
  split_ifs at h
  · exact sameFixedPart.trans (t := s.start program) ⟨rfl, rfl, rfl, rfl, rfl, rfl, rfl⟩
      (runController_sameFixedPart h)
  · cases h; exact ⟨rfl, rfl, rfl, rfl, rfl, rfl, rfl⟩

end Sys2Proof.Machine
end

