-- ==== Sys2Proof/Laws/Codec.lean ====
section
/-! SUPPORT. What the codec's byte functions answer over marked bytes (spec/42_codec_ddcci.md R153, R154;
spec/43_codec_edid.md R176, R178, R179), and how they can fail: only on an unmarked byte. -/

namespace Sys2Proof.Machine

/-- `txsum(n)` over a marked frame (R153). -/
theorem State.txsum_ok {s : State} {n : Nat} {bs : List Byte} (hl : bs.length = 3 + n) (h : s.holds .tx 0 bs) :
    s.txsum n = .ok (xorBytes 0 bs) := by
  unfold State.txsum; rw [← hl, State.readBytes_ok h]; rfl

/-- `rxsum(n)` over marked bytes (R154): RXBUF[0] is not read. -/
theorem State.rxsum_ok {s : State} {n : Nat} {bs : List Byte} (hl : bs.length = 1 + n) (h : s.holds .rx 1 bs) :
    s.rxsum n = .ok (xorBytes rxSeed bs) := by
  unfold State.rxsum; rw [← hl, State.readBytes_ok h]; rfl

/-- `edidsum(EDIDBUF)` over 127 marked bytes (R176). -/
theorem State.edidsum_ok {s : State} {bs : List Byte} (hl : bs.length = 127) (h : s.holds .edid 0 bs) :
    s.edidsum = .ok (edidChecksum bs) := by
  unfold State.edidsum; rw [← hl, State.readBytes_ok h]; rfl

/-- The sum of 128 marked bytes (R178). -/
theorem State.edidTotal_ok {s : State} {bs : List Byte} (hl : bs.length = edidLen) (h : s.holds .edid 0 bs) :
    s.edidTotal = .ok (BitVec.ofNat 8 (sumBytes bs % 256)) := by
  unfold State.edidTotal; rw [← hl, State.readBytes_ok h]; rfl

/-- The header test at offset 0, over 8 marked bytes (R178). -/
theorem State.edidHeaderAtStart_ok {s : State} {bs : List Byte} (hl : bs.length = 8) (h : s.holds .edid 0 bs) :
    s.edidHeaderAtStart = .ok (bs == edidHeader) := by
  have hr := State.readBytes_ok h
  rw [hl] at hr
  unfold State.edidHeaderAtStart; rw [hr]; rfl

/-- `hdr_at(c)` over the 8 marked bytes that end at c (R179). -/
theorem State.headerAt_ok {s : State} {c : Nat} {bs : List Byte} (hc : 7 ≤ c) (hl : bs.length = 8)
    (h : s.holds .edid (c - 7) bs) : s.headerAt c = .ok (bs == edidHeader) := by
  have hr := State.readBytes_ok h
  rw [hl] at hr
  unfold State.headerAt; rw [if_pos hc, hr]; rfl

@[simp] theorem State.headerAt_early {s : State} {c : Nat} (hc : c < 7) : s.headerAt c = .ok false := by
  unfold State.headerAt; rw [if_neg (by omega)]

/-- What a buffer holds splits at any index. -/
theorem State.holds_append {s : State} {b : Buffer} {i : Nat} {xs ys : List Byte} :
    s.holds b i (xs ++ ys) ↔ s.holds b i xs ∧ s.holds b (i + xs.length) ys := by
  constructor
  · intro h
    refine ⟨fun k v hk => h k v ?_, fun k v hk => ?_⟩
    · rw [List.getElem?_append_left (by obtain ⟨hlt, -⟩ := List.getElem?_eq_some_iff.1 hk; exact hlt)]; exact hk
    · have := h (xs.length + k) v (by rw [List.getElem?_append_right (by omega)]; simpa using hk)
      rwa [show i + (xs.length + k) = i + xs.length + k by omega] at this
  · rintro ⟨h1, h2⟩ k v hk
    by_cases hlt : k < xs.length
    · exact h1 k v (by rwa [List.getElem?_append_left hlt] at hk)
    · have := h2 (k - xs.length) v (by rwa [List.getElem?_append_right (by omega)] at hk)
      rwa [show i + xs.length + (k - xs.length) = i + k by omega] at this

/-- XOR from a seed, one byte more. -/
@[simp] theorem xorBytes_append (seed : Byte) (xs ys : List Byte) :
    xorBytes seed (xs ++ ys) = xorBytes (xorBytes seed xs) ys := by
  unfold xorBytes; rw [List.foldl_append]

/-- A range that is not all marked fails by the model fault of a byte of it (R45, R69). -/
theorem State.txsum_error {s : State} {n : Nat} {f : Fault} (h : s.txsum n = .error f) :
    ∃ k, k < 3 + n ∧ Memory.read s.mem (Buffer.tx.addr k) = none ∧ f = .commandReadUnmarked (Buffer.tx.addr k) := by
  unfold State.txsum at h
  cases hr : s.readBytes .tx 0 (3 + n) with
  | ok bs => rw [hr] at h; cases h
  | error g =>
    rw [hr] at h
    cases h
    obtain ⟨k, hk, h1, h2⟩ := State.readBytes_error hr
    exact ⟨k, hk, by simpa using h1, by simpa using h2⟩

end Sys2Proof.Machine
end

