-- ==== Sys2Proof/Laws/Encoding.lean ====
section
/-! SUPPORT. The fields of an encoded command word (spec/30_encoding.md R90, R98), and the round trip's first half: what a
word's fields are when it decodes. -/

namespace Sys2Proof

/-- Every term of `Instr` is well formed: its operand is a byte by its type (R91), and present exactly as R92 has it. -/
@[simp] theorem Instr.wellFormed_all (i : Instr) : i.wellFormed = true := by
  cases i <;> rfl

/-- A byte stored in bits [15:8] beside an opcode in bits [7:0] comes out of its field again. -/
theorem fields_of_word (op imm : Byte) :
    opField (imm.setWidth 32 <<< 8 ||| op.setWidth 32) = op ∧
      immField (imm.setWidth 32 <<< 8 ||| op.setWidth 32) = imm ∧
      rsvField (imm.setWidth 32 <<< 8 ||| op.setWidth 32) = 0 := by
  refine ⟨?_, ?_, ?_⟩
  · unfold opField
    ext k hk
    simp only [BitVec.getElem_extractLsb', BitVec.getLsbD_or, BitVec.getLsbD_shiftLeft, BitVec.getLsbD_setWidth]
    simp [show k < 32 by omega, hk]
  · unfold immField
    ext k hk
    simp only [BitVec.getElem_extractLsb', BitVec.getLsbD_or, BitVec.getLsbD_shiftLeft, BitVec.getLsbD_setWidth]
    simp [show 8 + k < 32 by omega, show k < 32 by omega, ← BitVec.getLsbD_eq_getElem]
  · unfold rsvField
    ext k hk
    simp only [BitVec.getElem_extractLsb', BitVec.getLsbD_or, BitVec.getLsbD_shiftLeft, BitVec.getLsbD_setWidth]
    simp [BitVec.getLsbD_of_ge op (16 + k) (by omega), BitVec.getLsbD_of_ge imm (16 + k - 8) (by omega)]

@[simp] theorem opField_encode (i : Instr) : opField (encode i) = i.opcode := (fields_of_word _ _).1

@[simp] theorem immField_encode (i : Instr) : immField (encode i) = i.operand.getD 0 := (fields_of_word _ _).2.1

@[simp] theorem rsvField_encode (i : Instr) : rsvField (encode i) = 0 := (fields_of_word _ _).2.2

/-- A plain row answers its command, and only for `imm8 = 0`. -/
theorem plainRow_ok_iff (j i : Instr) (imm : Byte) : plainRow j imm = .ok i ↔ imm = 0 ∧ j = i := by
  unfold plainRow
  split_ifs with h
  · simp [h]
  · exact iff_of_false (by simp) fun e => h e.1

/-- What the row of an opcode answers carries that opcode and that operand. -/
theorem opcodeRow_ok {op imm : Byte} {i : Instr} (h : opcodeRow op imm = .ok i) :
    i.opcode = op ∧ i.operand.getD 0 = imm := by
  unfold opcodeRow at h
  split at h <;> simp only [plainRow_ok_iff, Except.ok.injEq, reduceCtorEq] at h <;>
    (obtain ⟨rfl, rfl⟩ := h; exact ⟨rfl, rfl⟩)

/-- The fields of a word that decodes. -/
theorem decode_ok {w : Word} {i : Instr} (h : decode w = .ok i) :
    rsvField w = 0 ∧ i.opcode = opField w ∧ i.operand.getD 0 = immField w := by
  unfold decode at h
  split_ifs at h with hr
  exact ⟨hr, opcodeRow_ok h⟩

end Sys2Proof
end

