-- ==== Sys2Proof/Laws/Host.lean ====
section
/-! SUPPORT. Whose turn a step of the machine is, and what each act of the host can do, once per operation. -/

namespace Sys2Proof.Machine

/-! ### Turns -/

/-- When the host's next act is due, the step is the host's turn. -/
theorem step_of_hostDue {s : State} {act : HostAct} {q : Nat} {rest : List HostTurn} (h : s.hostDue act q rest) :
    step s = hostTurn ⟨act, q⟩ rest s := by
  obtain ⟨h1, h2⟩ := h
  have hc : controllerDue s = false := by
    unfold controllerDue
    cases hb : s.status.busy with
    | false => rfl
    | true => simp [h2 hb, h1]
  simp only [step, machineStep, hc, h1, Bool.false_eq_true, if_false]

/-- While a command runs and no act of the host is due, the step is the controller's. -/
theorem step_of_controllerDue {s : State} (h : controllerDue s = true) : step s = controllerTurn s := by
  simp only [step, machineStep, h, if_true]

/-- With no command running and no host act left, nothing happens (spec/70_reset_and_hazards.md R230). -/
theorem step_of_nothing_due {s : State} (hb : s.status.busy = false) (hh : s.env.host = []) : step s = .next s := by
  have hc : controllerDue s = false := by simp [controllerDue, hb]
  simp only [step, machineStep, hc, hh, Bool.false_eq_true, if_false]

/-- A controller's turn never refuses. -/
theorem controllerTurn_not_refused (s : State) (r : Refusal) : controllerTurn s ≠ .refused r := by
  unfold controllerTurn
  split
  · exact runController_not_refused _ _ _
  · simp
  · rename_i u hu
    exfalso
    cases ht : s.seq.todo with
    | nil => simp [controllerStep_idle ht] at hu
    | cons m rest => rw [controllerStep_cons ht] at hu; exact runMicro_not_refused m _ _ hu

/-! ### The window -/

/-- An offset of byte i of a buffer is that buffer byte's entry in the map (spec/20_memory.md R62). -/
theorem windowEntry_buffer {b : Buffer} {i : Nat} (h : i < b.size) :
    windowEntry (BitVec.ofNat 12 (b.addr i)) = .bufferByte (b.addr i) := by
  have hb := Buffer.addr_bufferOffset h
  have hlt : b.addr i < 4096 ∧ 0x100 ≤ b.addr i := by
    rw [bufferOffset_iff] at hb; omega
  have hn : (BitVec.ofNat 12 (b.addr i)).toNat = b.addr i := by
    simp [BitVec.toNat_ofNat, Nat.mod_eq_of_lt hlt.1]
  unfold windowEntry
  split
  case h_12 => rw [hn, hb]; rfl
  all_goals
    rename_i he
    have := congrArg BitVec.toNat he
    rw [hn] at this
    simp at this
    omega

/-- A host read answers a next state, with the block as it was, or the model fault of an unmarked byte (R45, R64). -/
theorem hostRead_spec (off : Offset) (s : State) :
    (∃ v, hostRead off s = .next (s.setRdata v)) ∨ (∃ v, hostRead off s = .next (s.drawn.setRdata v)) ∨
      ∃ a, hostRead off s = .fault (.hostReadUnmarked a) ∧ Memory.read s.mem a = none := by
  unfold hostRead
  split
  case h_10 => exact .inr (.inl ⟨_, rfl⟩)
  case h_12 a =>
    split
    · exact .inl ⟨_, rfl⟩
    · rename_i hm; exact .inr (.inr ⟨_, rfl, hm⟩)
  all_goals exact .inl ⟨_, rfl⟩

/-- While a command runs, a write changes nothing but DROPPED (R66, R67). -/
theorem busyWrite_spec (off : Offset) (s : State) :
    busyWrite off s = { s with status := { s.status with dropped := s.status.dropped || windowEntry off == .cmd } } := by
  unfold busyWrite
  by_cases h : windowEntry off = .cmd
  · simp [h]
  · have hb : (windowEntry off == WindowEntry.cmd) = false := by simpa using h
    simp [h, hb]

/-- An accepted write keeps all but the lines, CTRL, the two parameters, the automaton and the buffers, and the command
part of the state (R27, R63, R67). -/
theorem idleWrite_frame (off : Offset) (v : Word) (s : State) :
    (idleWrite off v s).cmd = s.cmd ∧ (idleWrite off v s).status = s.status ∧ (idleWrite off v s).rxData = s.rxData ∧
      (idleWrite off v s).chksum = s.chksum ∧ (idleWrite off v s).frameLen = s.frameLen ∧
      (idleWrite off v s).edid = s.edid ∧ (idleWrite off v s).seq = s.seq := by
  have hw : ∀ (u : State) (b : Bool), (u.endStretch b).cmd = u.cmd ∧ (u.endStretch b).status = u.status ∧
      (u.endStretch b).rxData = u.rxData ∧ (u.endStretch b).chksum = u.chksum ∧ (u.endStretch b).frameLen = u.frameLen ∧
      (u.endStretch b).edid = u.edid ∧ (u.endStretch b).seq = u.seq := by
    intro u b; unfold State.endStretch; split_ifs <;> exact ⟨rfl, rfl, rfl, rfl, rfl, rfl, rfl⟩
  have hd : ∀ u : State, u.drawn.cmd = u.cmd ∧ u.drawn.status = u.status ∧ u.drawn.rxData = u.rxData ∧
      u.drawn.chksum = u.chksum ∧ u.drawn.frameLen = u.frameLen ∧ u.drawn.edid = u.edid ∧ u.drawn.seq = u.seq := by
    intro u; unfold State.drawn; split <;> exact ⟨rfl, rfl, rfl, rfl, rfl, rfl, rfl⟩
  unfold idleWrite
  split
  case h_1 =>
    unfold writeCtrl
    dsimp only
    split_ifs
    · exact ⟨rfl, rfl, rfl, rfl, rfl, rfl, rfl⟩
    · exact hw s _
    · obtain ⟨h1, h2, h3, h4, h5, h6, h7⟩ := hw s.newSession (ctrlOfWord v).stretch
      obtain ⟨g1, g2, g3, g4, g5, g6, g7⟩ := hd ((s.setSda .released).setScl .released)
      exact ⟨h1.trans g1, h2.trans g2, h3.trans g3, h4.trans g4, h5.trans g5, h6.trans g6, h7.trans g7⟩
  all_goals exact ⟨rfl, rfl, rfl, rfl, rfl, rfl, rfl⟩

end Sys2Proof.Machine
end

