-- ==== Sys2Proof/Laws/Joined.lean ====
section
/-! SUPPORT. What a turn of two joined instances can do (spec/41_engine_slave.md R146), and schedules one turn at a time. -/

namespace Sys2Proof.Machine

/-- A step of a joined instance, at a position. -/
theorem stepAgainst_cons {peer : Drives} {s : State} {m : Micro} {rest : List Micro} (h : s.seq.todo = m :: rest) :
    stepAgainst peer s = runMicro m (State.jump { s with env := { s.env with peer := [peer] } } rest) :=
  controllerStep_cons (s := { s with env := { s.env with peer := [peer] } }) h

/-- With no command running, only the peer's drive at hand moves on. -/
theorem stepAgainst_idle {peer : Drives} {s : State} (h : s.seq.todo = []) :
    stepAgainst peer s = .next { s with env := { s.env with peer := [peer] } } := controllerStep_idle h

/-- An idle instance accepts the command: CMD, DROPPED and BUSY are written, and it stands at its first position. -/
theorem acceptJoined_idle {i : Instr} {s : State} (hb : s.status.busy = false) (hd : decode (encode i) = .ok i) :
    acceptJoined i s = exec i ((s.setQuiet 0).latchCommand (encode i)) := by
  unfold acceptJoined hostWrite
  rw [if_neg (by simp [hb]), if_pos (by decide)]
  unfold acceptCommand
  rw [hd]

/-- A busy instance drops the command: DROPPED is set, and nothing else of the block changes (R66). -/
theorem acceptJoined_busy {i : Instr} {s : State} (h : s.status.busy = true) :
    acceptJoined i s = .next ({ s with status := { s.status with dropped := true } }.setQuiet 0) := by
  unfold acceptJoined hostWrite
  rw [if_pos h]
  unfold busyWrite State.afterAct
  rw [if_pos (by decide)]
  simp [h]

@[simp] theorem besideSlave_next (a b : State) : besideSlave (.next a) b = .next (a, b) := rfl
@[simp] theorem besideSlave_fault (f : Fault) (b : State) : besideSlave (.fault f) b = .fault f := rfl
@[simp] theorem besideMaster_next (a b : State) : besideMaster a (.next b) = .next (a, b) := rfl
@[simp] theorem besideMaster_fault (f : Fault) (a : State) : besideMaster a (.fault f) = .fault f := rfl

@[simp] theorem joinedStep_master (a b : State) : joinedStep .master (a, b) = besideSlave (stepAgainst b.out a) b := rfl
@[simp] theorem joinedStep_slave (a b : State) : joinedStep .slave (a, b) = besideMaster a (stepAgainst a.out b) := rfl
@[simp] theorem joinedStep_command (i : Instr) (a b : State) :
    joinedStep (.command i) (a, b) = besideSlave (acceptJoined i a) b := rfl

@[simp] theorem joinedRun_nil (p : State × State) : joinedRun [] p = .next p := rfl

theorem joinedRun_cons {t : JoinedTurn} {p q : State × State} (h : joinedStep t p = .next q) (ts : List JoinedTurn) :
    joinedRun (t :: ts) p = joinedRun ts q := by
  rw [joinedRun, h]

/-- The model fault of a turn stops the joined system (R45, R69). -/
theorem joinedRun_fault {t : JoinedTurn} {p : State × State} {f : Fault} (h : joinedStep t p = .fault f)
    (ts : List JoinedTurn) : joinedRun (t :: ts) p = .fault f := by
  rw [joinedRun, h]

/-- Some turns, then the rest. -/
theorem joinedRun_append {ts : List JoinedTurn} {p q : State × State} (h : joinedRun ts p = .next q) (us : List JoinedTurn) :
    joinedRun (ts ++ us) p = joinedRun us q := by
  induction ts generalizing p with
  | nil => cases h; rfl
  | cons t ts ih =>
    rw [List.cons_append, joinedRun]
    rw [joinedRun] at h
    cases hj : joinedStep t p with
    | next r => rw [hj] at h; exact ih h
    | fault f => rw [hj] at h; cases h
    | refused r => rw [hj] at h; cases h

/-- A slave's turn is fair whatever the rest of the bus does, and its sample counts from then on. -/
theorem fairSchedule_slave {a b b' : State} (h : stepAgainst a.out b = .next b') (k : Bool) (ts : List JoinedTurn) :
    fairSchedule k (.slave :: ts) (a, b) = fairSchedule (k || b.samplesNext) ts (a, b') := by
  have hn : ¬ (a.out.scl = .low ∧ a.out.scl = .released) := by rintro ⟨h1, h2⟩; rw [h1] at h2; cases h2
  simp only [fairSchedule, joinedStep_slave, h, besideMaster_next, ne_eq, not_true_eq_false, decide_false, hn, decide_true,
    Bool.not_false, Bool.true_or, Bool.true_and]

/-- A master's turn is fair where it changes no line, or changes one the slave has sampled since, with no change of SDA
pending where it releases SCL. -/
theorem fairSchedule_master {a a' b : State} (h : stepAgainst b.out a = .next a') (k : Bool) (ts : List JoinedTurn) :
    fairSchedule k (.master :: ts) (a, b) = true ↔
      (a'.out ≠ a.out → k = true) ∧
      (a.out.scl = .low → a'.out.scl = .released → b.sdaPending = false) ∧
      fairSchedule (decide (a'.out = a.out) && k) ts (a', b) = true := by
  have flag : (!decide (a'.out ≠ a.out) && (k || (decide (JoinedTurn.master = JoinedTurn.slave) && b.samplesNext))) =
      (decide (a'.out = a.out) && k) := by
    by_cases h : a'.out = a.out <;> simp [h]
  rw [fairSchedule, joinedStep_master, h, besideSlave_next]
  show ((!decide (a'.out ≠ a.out) || k) && (!decide (a.out.scl = .low ∧ a'.out.scl = .released) || !b.sdaPending) &&
    fairSchedule (!decide (a'.out ≠ a.out) && (k || (decide (JoinedTurn.master = JoinedTurn.slave) && b.samplesNext))) ts
      (a', b)) = true ↔ _
  rw [flag]
  simp only [Bool.and_eq_true, Bool.or_eq_true, Bool.not_eq_true', decide_eq_false_iff_not]
  tauto

end Sys2Proof.Machine
end

