-- ==== Sys2Proof/Laws/PerInstr.lean ====
section
/-! SUPPORT. What holds of every command as syntax: one lemma per constructor. -/

namespace Sys2Proof.Laws.CommandWord

/-- The command is a legal term, and its word is legal (spec/30_encoding.md R94) and carries its opcode, its operand (0
where it has none) and clear reserved bits (R90, R98). -/
def Statement (i : Instr) : Prop :=
  i.wellFormed = true ∧ legalWord (encode i) = true ∧ opField (encode i) = i.opcode ∧
    immField (encode i) = i.operand.getD 0 ∧ rsvField (encode i) = 0

/-- The statement, from the command's row of the opcode map. -/
theorem of_row {i : Instr} (h : (operandOpcodes ++ plainOpcodes).contains i.opcode = true)
    (he : (i.operand.getD 0 == 0 || operandOpcodes.contains i.opcode) = true) : Statement i := by
  refine ⟨i.wellFormed_all, ?_, opField_encode i, immField_encode i, rsvField_encode i⟩
  simp only [legalWord, opcodeListed, reservedClear, operandExpected, opField_encode, immField_encode,
    rsvField_encode, h, he, beq_self_eq_true, Bool.and_self]

theorem mStart : Statement .mStart := of_row (by decide) (by decide)
theorem mStop : Statement .mStop := of_row (by decide) (by decide)
theorem mSendByte (b : Byte) : Statement (.mSendByte b) :=
  of_row (by simp [Instr.opcode, operandOpcodes]) (by simp [Instr.opcode, operandOpcodes])
theorem mRecvByte : Statement .mRecvByte := of_row (by decide) (by decide)
theorem mAck : Statement .mAck := of_row (by decide) (by decide)
theorem mNack : Statement .mNack := of_row (by decide) (by decide)
theorem sGetByte : Statement .sGetByte := of_row (by decide) (by decide)
theorem sSendToMaster (b : Byte) : Statement (.sSendToMaster b) :=
  of_row (by simp [Instr.opcode, operandOpcodes]) (by simp [Instr.opcode, operandOpcodes])
theorem ddcBuild (n : Byte) : Statement (.ddcBuild n) :=
  of_row (by simp [Instr.opcode, operandOpcodes]) (by simp [Instr.opcode, operandOpcodes])
theorem ddcRxcheck : Statement .ddcRxcheck := of_row (by decide) (by decide)
theorem lenCheck (l : Byte) : Statement (.lenCheck l) :=
  of_row (by simp [Instr.opcode, operandOpcodes]) (by simp [Instr.opcode, operandOpcodes])
theorem edidFillsum : Statement .edidFillsum := of_row (by decide) (by decide)
theorem edidValidate : Statement .edidValidate := of_row (by decide) (by decide)
theorem ddcWrite (n : Byte) : Statement (.ddcWrite n) :=
  of_row (by simp [Instr.opcode, operandOpcodes]) (by simp [Instr.opcode, operandOpcodes])
theorem ddcRead : Statement .ddcRead := of_row (by decide) (by decide)
theorem edidRead : Statement .edidRead := of_row (by decide) (by decide)

end Sys2Proof.Laws.CommandWord
end

