-- ==== Sys2Proof/Laws/Procedures.lean ====
section
/-! SUPPORT. What each shared master procedure does when its peer does not stretch the clock (spec/40_engine_master.md
R110-R119, R120): its steps, counted, and the outputs, the ACK and the byte it leaves. -/

namespace Sys2Proof.Machine

/-- The extra steps of `ClockLowGuard()` when it drives SCL Low (R110). -/
def guardSteps (o : Drives) : Nat := if o.scl = .released then 2 else 0

variable (s : State) (rest : List Micro) (a : Byte) (k : Bool) (ds : List Drives)

theorem clockLowGuard_runs (o : Drives) :
    Runs (1 + guardSteps o) (s.busPoint o ds ⟨.clockLowGuard :: rest, a, k⟩)
      (s.busPoint ⟨o.sda, .low⟩ ds ⟨rest, a, k⟩) := by
  obtain ⟨x, y⟩ := o
  cases y
  · exact .step rfl (by simp [Micro.samples]) rfl rfl
  · exact .step rfl (by simp [Micro.samples]) rfl
      (.step rfl (by simp [Micro.samples]) rfl (.step rfl (by simp [Micro.samples]) rfl rfl))

theorem releaseSclAndWait_runs (o d : Drives) (h : d.scl = .released) :
    Runs 2 (s.busPoint o (d :: ds) ⟨releaseSclAndWait ++ rest, a, k⟩)
      (s.busPoint ⟨o.sda, .released⟩ ds ⟨rest, a, k⟩) := by
  obtain ⟨x, y⟩ := d
  subst h
  exact .step rfl (by simp [Micro.samples]) rfl
    (.step rfl (by intro _; exact List.cons_ne_nil _ _) (by simp [runMicro, pollNext, State.levels, State.peerDrive, levelsOf, lineLevel,
      State.busPoint, State.jump, State.setScl, State.drawn]) rfl)

/-- `MStart()` (R114): SDA Low, SCL Released. -/
theorem mStart_runs (o d : Drives) (h : d.scl = .released) :
    Runs 7 (s.busPoint o (d :: ds) ⟨mStartProc ++ rest, a, k⟩)
      (s.busPoint ⟨.low, .released⟩ ds ⟨rest, a, k⟩) := by
  refine Runs.trans (m := 2) (n := 5) (releaseSclAndWait_runs s _ a k ds o d h) ?_
  exact .step rfl (by simp [Micro.samples]) rfl (.step rfl (by simp [Micro.samples]) rfl
    (.step rfl (by simp [Micro.samples]) rfl (.step rfl (by simp [Micro.samples]) rfl
    (.step rfl (by simp [Micro.samples]) rfl rfl))))

/-- `MStop()` (R115): both Released. -/
theorem mStop_runs (o d : Drives) (h : d.scl = .released) :
    Runs (8 + guardSteps o) (s.busPoint o (d :: ds) ⟨mStopProc ++ rest, a, k⟩)
      (s.busPoint ⟨.released, .released⟩ ds ⟨rest, a, k⟩) := by
  rw [show 8 + guardSteps o = (1 + guardSteps o) + (2 + (2 + 3)) by omega]
  refine (clockLowGuard_runs s _ a k (d :: ds) o).trans ?_
  refine Runs.trans (t := s.busPoint ⟨.low, .low⟩ (d :: ds)
    ⟨releaseSclAndWait ++ ([.delay, .setSda .released, .delay] ++ rest), a, k⟩) ?_ ?_
  · exact .step rfl (by simp [Micro.samples]) rfl (.step rfl (by simp [Micro.samples]) rfl rfl)
  · refine (releaseSclAndWait_runs s _ a k ds _ d h).trans ?_
    exact .step rfl (by simp [Micro.samples]) rfl (.step rfl (by simp [Micro.samples]) rfl
      (.step rfl (by simp [Micro.samples]) rfl rfl))

/-- One data bit of `MSend` (R116): SDA holds the bit while the clock is high. -/
theorem sendBit_runs (b : Byte) (i : Nat) (o d : Drives) (h : d.scl = .released) :
    Runs 6 (s.busPoint o (d :: ds) ⟨sendBitProc b i ++ rest, a, k⟩)
      (s.busPoint ⟨bitDrive b i, .low⟩ ds ⟨rest, a, k⟩) := by
  refine Runs.trans (m := 2) (n := 4) (t := s.busPoint ⟨bitDrive b i, o.scl⟩ (d :: ds)
    ⟨releaseSclAndWait ++ ([.delay, .setScl .low] ++ rest), a, k⟩) ?_ ?_
  · exact .step rfl (by simp [Micro.samples]) rfl (.step rfl (by simp [Micro.samples]) rfl rfl)
  · refine Runs.trans (m := 2) (n := 2) (releaseSclAndWait_runs s _ a k ds _ d h) ?_
    exact .step rfl (by simp [Micro.samples]) rfl (.step rfl (by simp [Micro.samples]) rfl rfl)

/-- The data bits of `MSend`, in order: whatever the outputs were, SCL is Low after them. -/
theorem sendBits_runs (b : Byte) (bits : List Nat) (x : Drive) (scls : List Drives)
    (hl : scls.length = bits.length) (h : ∀ d ∈ scls, d.scl = .released) :
    ∃ y, Runs (6 * bits.length) (s.busPoint ⟨x, .low⟩ (scls ++ ds) ⟨bits.flatMap (sendBitProc b) ++ rest, a, k⟩)
      (s.busPoint ⟨y, .low⟩ ds ⟨rest, a, k⟩) := by
  induction bits generalizing x scls with
  | nil =>
    have : scls = [] := by simpa using hl
    subst this
    exact ⟨x, rfl⟩
  | cons i is ih =>
    cases scls with
    | nil => simp at hl
    | cons d scls =>
      obtain ⟨y, hy⟩ := ih (bitDrive b i) scls (by simpa using hl) (fun e he => h e (by simp [he]))
      refine ⟨y, ?_⟩
      rw [show 6 * (i :: is).length = 6 + 6 * is.length by simp; omega, List.flatMap_cons, List.append_assoc]
      exact (sendBit_runs s _ a k (scls ++ ds) b i _ d (h d (by simp))).trans hy

/-- The ninth clock of `MSend` (R116): the ACK is the level of SDA at its sample. -/
theorem ackBit_runs (o d e : Drives) (h : d.scl = .released) :
    Runs 7 (s.busPoint o (d :: e :: ds) ⟨ackBitProc ++ rest, a, k⟩)
      (s.busPoint ⟨.released, .low⟩ ds ⟨rest, a, e.sda == .low⟩) := by
  refine Runs.trans (m := 2) (n := 5) (t := s.busPoint ⟨.released, o.scl⟩ (d :: e :: ds)
    ⟨releaseSclAndWait ++ ([.sampleAck, .delay, .setScl .low] ++ rest), a, k⟩) ?_ ?_
  · exact .step rfl (by simp [Micro.samples]) rfl (.step rfl (by simp [Micro.samples]) rfl rfl)
  · refine Runs.trans (m := 2) (n := 3) (releaseSclAndWait_runs s _ a k (e :: ds) _ d h) ?_
    obtain ⟨x, y⟩ := e
    cases x <;> exact .step rfl (by intro _; exact List.cons_ne_nil _ _) rfl
      (.step rfl (by simp [Micro.samples]) rfl (.step rfl (by simp [Micro.samples]) rfl rfl))

/-- `MSend(b)` (R116, R120): the ACK, and SDA Released with SCL Low. -/
theorem mSend_runs (b : Byte) (o e : Drives) (scls : List Drives) (hl : scls.length = 9)
    (h : ∀ d ∈ scls, d.scl = .released) :
    Runs (56 + guardSteps o) (s.busPoint o (scls ++ e :: ds) ⟨mSendProc b ++ rest, a, k⟩)
      (s.busPoint ⟨.released, .low⟩ ds ⟨rest, a, e.sda == .low⟩) := by
  obtain ⟨bits8, d, rfl⟩ : ∃ l d, scls = l ++ [d] :=
    ⟨scls.dropLast, scls.getLast (by intro hn; simp [hn] at hl), (List.dropLast_append_getLast _).symm⟩
  have h8 : bits8.length = bitsDown.length := by simpa [bitsDown] using hl
  obtain ⟨y, hy⟩ := sendBits_runs s (ackBitProc ++ rest) a k (d :: e :: ds) b bitsDown o.sda bits8 h8
    (fun x hx => h x (by simp [hx]))
  rw [show 56 + guardSteps o = (1 + guardSteps o) + (6 * bitsDown.length + 7) by simp [bitsDown]; omega]
  have e1 : mSendProc b ++ rest =
      .clockLowGuard :: (bitsDown.flatMap (sendBitProc b) ++ (ackBitProc ++ rest)) := by
    simp only [mSendProc, List.append_assoc, List.cons_append, List.nil_append]
  have e2 : bits8 ++ [d] ++ e :: ds = bits8 ++ d :: e :: ds := by simp
  rw [e1, e2]
  exact (clockLowGuard_runs s _ a k _ o).trans (hy.trans (ackBit_runs s rest a k ds ⟨y, .low⟩ d e (h d (by simp))))

/-- One data bit of `MRecv` (R117). -/
theorem recvBit_runs (i : Nat) (o d e : Drives) (ho : o.sda = .released) (h : d.scl = .released) :
    Runs 6 (s.busPoint o (d :: e :: ds) ⟨recvBitProc i ++ rest, a, k⟩)
      (s.busPoint ⟨.released, .low⟩ ds ⟨rest, setBit a i (lineLevel .released e.sda), k⟩) := by
  obtain ⟨x, y⟩ := o
  subst ho
  refine Runs.trans (m := 1) (n := 5) (t := s.busPoint ⟨.released, y⟩ (d :: e :: ds)
    ⟨releaseSclAndWait ++ ([.sampleBit i, .delay, .setScl .low] ++ rest), a, k⟩) ?_ ?_
  · exact .step rfl (by simp [Micro.samples]) rfl rfl
  · refine Runs.trans (m := 2) (n := 3) (releaseSclAndWait_runs s _ a k (e :: ds) _ d h) ?_
    exact .step rfl (by intro _; exact List.cons_ne_nil _ _) rfl
      (.step rfl (by simp [Micro.samples]) rfl (.step rfl (by simp [Micro.samples]) rfl rfl))

/-- The data bits of `MRecv`, in order, from the pairs of samples they take. -/
theorem recvBits_runs (bits : List Nat) (pairs : List (Drives × Drives)) (hl : pairs.length = bits.length)
    (h : ∀ p ∈ pairs, p.1.scl = .released) :
    Runs (6 * bits.length)
      (s.busPoint ⟨.released, .low⟩ (pairs.flatMap (fun p => [p.1, p.2]) ++ ds) ⟨bits.flatMap recvBitProc ++ rest, a, k⟩)
      (s.busPoint ⟨.released, .low⟩ ds
        ⟨rest, (bits.zip pairs).foldl (fun r p => setBit r p.1 (lineLevel .released p.2.2.sda)) a, k⟩) := by
  induction bits generalizing a pairs with
  | nil =>
    have : pairs = [] := by simpa using hl
    subst this
    exact rfl
  | cons i is ih =>
    cases pairs with
    | nil => simp at hl
    | cons p ps =>
      rw [show 6 * (i :: is).length = 6 + 6 * is.length by simp; omega, List.flatMap_cons, List.append_assoc,
        List.flatMap_cons, List.append_assoc]
      exact (recvBit_runs s _ a k _ i ⟨.released, .low⟩ p.1 p.2 rfl (h p (by simp))).trans
        (ih _ ps (by simpa using hl) (fun q hq => h q (by simp [hq])))

/-- Assembling the levels of a byte's bits, most-significant first, gives the byte (spec/20_memory.md R70). -/
theorem assemble_bits (b : Byte) :
    (bitsDown.zip (bitsDown.map fun i => (bitDraw b i, bitDraw b i))).foldl
      (fun r p => setBit r p.1 (lineLevel .released p.2.2.sda)) 0 = b := by
  have key : ∀ i, ∀ r : Byte, setBit r i (lineLevel .released (bitDrive b i)) =
      if b.getLsbD i then r ||| (1#8 <<< i) else r &&& ~~~(1#8 <<< i) := by
    intro i r
    unfold bitDrive
    cases b.getLsbD i <;> rfl
  simp only [bitsDown, List.map_cons, List.map_nil, List.zip_cons_cons, List.zip_nil_right, List.foldl_cons,
    List.foldl_nil, bitDraw, key]
  clear key
  revert b
  decide +kernel

/-- `MRecv()` (R117, R120): the byte the peer presents, and SDA Released with SCL Low. -/
theorem mRecv_runs (b : Byte) (o : Drives) :
    Runs (51 + guardSteps o) (s.busPoint o (senderScript b ++ ds) ⟨mRecvProc ++ rest, a, k⟩)
      (s.busPoint ⟨.released, .low⟩ ds ⟨rest, b, k⟩) := by
  rw [show 51 + guardSteps o = (1 + guardSteps o) + (2 + 6 * bitsDown.length) by simp [bitsDown]; omega]
  have e1 : mRecvProc ++ rest =
      .clockLowGuard :: .setSda .released :: .clearAcc :: (bitsDown.flatMap recvBitProc ++ rest) := by
    simp only [mRecvProc, List.cons_append, List.nil_append]
  rw [e1]
  refine (clockLowGuard_runs s _ a k _ o).trans ?_
  refine Runs.trans (t := s.busPoint ⟨.released, .low⟩ (senderScript b ++ ds)
    ⟨bitsDown.flatMap recvBitProc ++ rest, 0, k⟩) ?_ ?_
  · exact .step rfl (by simp [Micro.samples]) rfl (.step rfl (by simp [Micro.samples]) rfl rfl)
  · have := recvBits_runs s rest 0 k ds bitsDown (bitsDown.map fun i => (bitDraw b i, bitDraw b i)) (by simp)
      (by intro p hp; simp only [List.mem_map] at hp; obtain ⟨i, -, rfl⟩ := hp; rfl)
    rw [assemble_bits, List.flatMap_map] at this
    exact this

/-- `MAckBit(v)` (R118, R119, R120). -/
theorem mAckBit_runs (v : Drive) (o d : Drives) (h : d.scl = .released) :
    Runs (8 + guardSteps o) (s.busPoint o (d :: ds) ⟨mAckBitProc v ++ rest, a, k⟩)
      (s.busPoint ⟨.released, .low⟩ ds ⟨rest, a, k⟩) := by
  rw [show 8 + guardSteps o = (1 + guardSteps o) + (2 + (2 + 3)) by omega]
  refine (clockLowGuard_runs s _ a k (d :: ds) o).trans ?_
  refine Runs.trans (t := s.busPoint ⟨v, .low⟩ (d :: ds)
    ⟨releaseSclAndWait ++ ([.delay, .setScl .low, .setSda .released] ++ rest), a, k⟩) ?_ ?_
  · exact .step rfl (by simp [Micro.samples]) rfl (.step rfl (by simp [Micro.samples]) rfl rfl)
  · refine (releaseSclAndWait_runs s _ a k ds _ d h).trans ?_
    exact .step rfl (by simp [Micro.samples]) rfl (.step rfl (by simp [Micro.samples]) rfl
      (.step rfl (by simp [Micro.samples]) rfl rfl))

end Sys2Proof.Machine
end

