-- ==== Sys2Proof/Machine/System.lean ====
section
/-! DEFINITION. A system of `N_INSTANCES` copies of the block (spec/00_scope.md R7, spec/60_exceptions.md R212): they share no
state, each has its own lines, registers and buffers, and the window base of each tells it from the others
(spec/20_memory.md R79). -/

namespace Sys2Proof.Machine

/-- The copies of the block in a system, and which of them step next, in order: the interleaving is host software (R212;
assumption log 13). -/
structure BlockSystem where
  units : List State
  turns : List Nat
deriving DecidableEq, Repr

/-- A system of `nInstances` copies right after reset (R7: any count ≥ 1). -/
def BlockSystem.reset (nInstances : Nat) : BlockSystem := ⟨(List.range nInstances).map State.resetOn, []⟩

/-- One step of a system: the copy whose turn it is takes a step of its own, and no other changes (R212). -/
def systemStep (p : BlockSystem) : Host.Outcome BlockSystem Fault Refusal :=
  match p.turns with
  | [] => .next p
  | u :: rest =>
    match p.units[u]? with
    | none => .next { p with turns := rest }
    | some s =>
      match step s with
      | .next t => .next ⟨p.units.set u t, rest⟩
      | .fault f => .fault f
      | .refused r => .refused r

/-- The bytes of a host window (spec/20_memory.md R60). -/
def windowSize : Nat := 4096

/-- The offset of an address of the host's own in the window of copy u, where it lies in it (R79). -/
def windowOffset (u a : Nat) : Option Offset :=
  if Config.windowBase u ≤ a ∧ a < Config.windowBase u + windowSize then
    some (BitVec.ofNat 12 (a - Config.windowBase u))
  else none

/-- The copy, of those given, whose window holds an address of the host's own, and the offset there (R79, R212). -/
def windowAt (us : List Nat) (a : Nat) : Option (Nat × Offset) :=
  match us with
  | [] => none
  | u :: rest =>
    match windowOffset u a with
    | some off => some (u, off)
    | none => windowAt rest a

/-- The windows of the first n copies do not overlap: a platform places them so (R79). -/
def windowsApart (n : Nat) : Prop :=
  ∀ u v, u < n → v < n → u ≠ v →
    Config.windowBase u + windowSize ≤ Config.windowBase v ∨ Config.windowBase v + windowSize ≤ Config.windowBase u

/-- An access of the host as it leaves the host, before its address is taken to a window (R61). -/
inductive HostAccess where
  | read (size : Nat)
  | write (size : Nat) (v : Word)
deriving DecidableEq, Repr

/-- The access at an offset of a window. -/
def HostAccess.actAt (acc : HostAccess) (off : Offset) : HostAct :=
  match acc with
  | .read size => .read off size
  | .write size v => .write off size v

/-- `s` with one more act at the end of the host's list. -/
def State.addHostAct (s : State) (turn : HostTurn) : State :=
  { s with env := { s.env with host := s.env.host ++ [turn] } }

/-- The host's access at an address of its own becomes the next act, after those listed, on the copy whose window holds the
address; none where no window does. -/
def BlockSystem.access (p : BlockSystem) (a : Nat) (acc : HostAccess) (quiet : Nat) : Option BlockSystem :=
  match windowAt (List.range p.units.length) a with
  | none => none
  | some (u, off) => some { p with units := p.units.modify u fun s => s.addHostAct ⟨acc.actAt off, quiet⟩ }

end Sys2Proof.Machine
end

