-- ==== Sys2Proof/Laws/System.lean ====
section
/-! SUPPORT. What a step of a system and a host access to it can do (spec/60_exceptions.md R212): one copy of the block, and no
other. -/

namespace Sys2Proof.Machine

@[simp] theorem BlockSystem.reset_length (n : Nat) : (BlockSystem.reset n).units.length = n := by
  simp [BlockSystem.reset]

@[simp] theorem BlockSystem.reset_unit {n u : Nat} (h : u < n) : (BlockSystem.reset n).units[u]? = some (State.resetOn u) := by
  simp [BlockSystem.reset, h]

/-- A step of a system leaves every copy whose turn it is not as it was. -/
theorem systemStep_other {p q : BlockSystem} {u v : Nat} {rest : List Nat} (ht : p.turns = u :: rest) (hv : v ≠ u)
    (h : systemStep p = .next q) : q.units[v]? = p.units[v]? ∧ q.turns = rest := by
  unfold systemStep at h
  rw [ht] at h
  split at h
  · cases h; rename_i h'; cases h'
  · rename_i w r hw
    cases hw
    split at h
    · cases h; exact ⟨rfl, rfl⟩
    · split at h
      · cases h; exact ⟨by simp [Ne.symm hv], rfl⟩
      · cases h
      · cases h

/-- The copy whose turn it is takes its own step. -/
theorem systemStep_own {p : BlockSystem} {u : Nat} {rest : List Nat} {s t : State} (ht : p.turns = u :: rest)
    (hs : p.units[u]? = some s) (h : step s = .next t) : systemStep p = .next ⟨p.units.set u t, rest⟩ := by
  unfold systemStep; rw [ht]; simp only [hs, h]

theorem windowOffset_own (u : Nat) (off : Offset) : windowOffset u (hostAddress u off) = some off := by
  have := off.isLt
  unfold windowOffset hostAddress windowSize
  rw [if_pos (by omega)]
  simp

theorem windowOffset_some {u a : Nat} {off : Offset} (h : windowOffset u a = some off) :
    Config.windowBase u ≤ a ∧ a < Config.windowBase u + windowSize := by
  unfold windowOffset at h
  split_ifs at h with hc
  exact hc

/-- Where the windows do not overlap, an address names one copy and one offset: the window base tells the copies apart. -/
theorem windowAt_hostAddress {n u : Nat} {us : List Nat} (ha : windowsApart n) (hm : u ∈ us) (hu : ∀ v ∈ us, v < n)
    (off : Offset) : windowAt us (hostAddress u off) = some (u, off) := by
  induction us with
  | nil => cases hm
  | cons v vs ih =>
    unfold windowAt
    by_cases hv : v = u
    · subst hv; rw [windowOffset_own]
    · have hm' : u ∈ vs := by simpa [Ne.symm hv] using hm
      have hnone : windowOffset v (hostAddress u off) = none := by
        cases h : windowOffset v (hostAddress u off) with
        | none => rfl
        | some o =>
          exfalso
          have h1 := windowOffset_some h
          have h2 := windowOffset_some (windowOffset_own u off)
          rcases ha u v (hu u hm) (hu v (by simp)) (Ne.symm hv) with h3 | h3 <;> omega
      rw [hnone]
      exact ih hm' fun w hw => hu w (by simp [hw])

/-- A host access reaches the addressed copy and no other. -/
theorem BlockSystem.access_spec {p : BlockSystem} {u : Nat} (ha : windowsApart p.units.length) (hu : u < p.units.length)
    (off : Offset) (acc : HostAccess) (quiet : Nat) :
    p.access (hostAddress u off) acc quiet =
      some { p with units := p.units.modify u fun s => s.addHostAct ⟨acc.actAt off, quiet⟩ } := by
  unfold BlockSystem.access
  rw [windowAt_hostAddress ha (List.mem_range.2 hu) (fun v hv => List.mem_range.1 hv)]

end Sys2Proof.Machine
end

