-- ==== Sys2Proof/Laws/Wire.lean ====
section
/-! SUPPORT. What each shared master procedure drives at its samples when its peer does not stretch the clock
(spec/40_engine_master.md R110-R119), beside its steps in Laws/Procedures.lean. -/

namespace Sys2Proof.Machine

/-! ### One step, and several in a row -/

@[simp] theorem outputsAtSamples_idle (n : Nat) {s : State} (h : s.seq.todo = []) : outputsAtSamples n s = [] := by
  cases n with
  | zero => rfl
  | succ n => unfold outputsAtSamples; rw [h]

/-- A step at a position, then the rest. -/
theorem outputsAtSamples_step {n : Nat} {s u : State} {m : Micro} {rest : List Micro} (h : s.seq.todo = m :: rest)
    (hm : runMicro m (s.jump rest) = .next u) :
    outputsAtSamples (n + 1) s = (if m.samples then [s.out] else []) ++ outputsAtSamples n u := by
  rw [outputsAtSamples, h]
  simp only [controllerStep_cons h, hm]

/-- Some steps, then the rest. -/
theorem outputsAtSamples_trans {m n : Nat} {s t : State} (h : Runs m s t) :
    outputsAtSamples (m + n) s = outputsAtSamples m s ++ outputsAtSamples n t := by
  induction m generalizing s with
  | zero => cases h; simp [outputsAtSamples]
  | succ m ih =>
    obtain ⟨h1, -, v, h3, h4⟩ := h
    rw [show m + 1 + n = (m + n) + 1 by omega]
    cases ht : s.seq.todo with
    | nil => exact absurd ht h1
    | cons x xs =>
      have hx : runMicro x (s.jump xs) = .next v := by rw [← h3, controllerStep_cons ht]
      rw [outputsAtSamples_step ht hx, outputsAtSamples_step ht hx, ih h4, List.append_assoc]

/-! ### The master procedures -/

variable (s : State) (rest : List Micro) (a : Byte) (k : Bool) (ds : List Drives)

theorem clockLowGuard_outputs (o : Drives) :
    outputsAtSamples (1 + guardSteps o) (s.busPoint o ds ⟨.clockLowGuard :: rest, a, k⟩) = [] := by
  obtain ⟨x, y⟩ := o
  cases y <;> rfl

theorem releaseSclAndWait_outputs (o : Drives) :
    outputsAtSamples 2 (s.busPoint o ds ⟨releaseSclAndWait ++ rest, a, k⟩) = [⟨o.sda, .released⟩] := rfl

/-- `MStart()` (R114): its one sample finds SDA as it was. -/
theorem mStart_outputs (o d : Drives) (h : d.scl = .released) :
    outputsAtSamples 7 (s.busPoint o (d :: ds) ⟨mStartProc ++ rest, a, k⟩) = [⟨o.sda, .released⟩] :=
  (outputsAtSamples_trans (m := 2) (n := 5) (releaseSclAndWait_runs s _ a k ds o d h)).trans rfl

/-- `MStop()` (R115): SDA is Low at its one sample. -/
theorem mStop_outputs (o d : Drives) (h : d.scl = .released) :
    outputsAtSamples (8 + guardSteps o) (s.busPoint o (d :: ds) ⟨mStopProc ++ rest, a, k⟩) = [sdaLow] := by
  rw [show 8 + guardSteps o = (1 + guardSteps o) + 7 by omega]
  refine (outputsAtSamples_trans (clockLowGuard_runs s _ a k (d :: ds) o)).trans ?_
  rw [clockLowGuard_outputs, List.nil_append]
  have two : Runs 2 (s.busPoint ⟨o.sda, .low⟩ (d :: ds)
      ⟨.setSda .low :: .delay :: (releaseSclAndWait ++ ([.delay, .setSda .released, .delay] ++ rest)), a, k⟩)
      (s.busPoint ⟨.low, .low⟩ (d :: ds) ⟨releaseSclAndWait ++ ([.delay, .setSda .released, .delay] ++ rest), a, k⟩) :=
    .step rfl (by simp [Micro.samples]) rfl (.step rfl (by simp [Micro.samples]) rfl rfl)
  refine (outputsAtSamples_trans (m := 2) (n := 5) two).trans ?_
  exact (outputsAtSamples_trans (m := 2) (n := 3) (releaseSclAndWait_runs s _ a k ds ⟨.low, .low⟩ d h)).trans rfl

/-- One data bit of `MSend` (R116): the bit. -/
theorem sendBit_outputs (b : Byte) (i : Nat) (o d : Drives) (h : d.scl = .released) :
    outputsAtSamples 6 (s.busPoint o (d :: ds) ⟨sendBitProc b i ++ rest, a, k⟩) = [bitDraw b i] := by
  have two : Runs 2 (s.busPoint o (d :: ds) ⟨sendBitProc b i ++ rest, a, k⟩)
      (s.busPoint ⟨bitDrive b i, o.scl⟩ (d :: ds) ⟨releaseSclAndWait ++ ([.delay, .setScl .low] ++ rest), a, k⟩) :=
    .step rfl (by simp [Micro.samples]) rfl (.step rfl (by simp [Micro.samples]) rfl rfl)
  refine (outputsAtSamples_trans (m := 2) (n := 4) two).trans ?_
  exact (outputsAtSamples_trans (m := 2) (n := 2) (releaseSclAndWait_runs s _ a k ds _ d h)).trans rfl

/-- The data bits of `MSend`, in order. -/
theorem sendBits_outputs (b : Byte) (bits : List Nat) (x : Drive) (scls : List Drives)
    (hl : scls.length = bits.length) (h : ∀ d ∈ scls, d.scl = .released) :
    outputsAtSamples (6 * bits.length)
      (s.busPoint ⟨x, .low⟩ (scls ++ ds) ⟨bits.flatMap (sendBitProc b) ++ rest, a, k⟩) = bits.map (bitDraw b) := by
  induction bits generalizing x scls with
  | nil => rfl
  | cons i is ih =>
    cases scls with
    | nil => simp at hl
    | cons d scls =>
      rw [show 6 * (i :: is).length = 6 + 6 * is.length by simp; omega, List.flatMap_cons, List.append_assoc]
      refine (outputsAtSamples_trans (sendBit_runs s _ a k (scls ++ ds) b i _ d (h d (by simp)))).trans ?_
      rw [ih (bitDrive b i) scls (by simpa using hl) (fun e he => h e (by simp [he]))]
      exact congrArg (· ++ _) (sendBit_outputs s _ a k (scls ++ ds) b i _ d (h d (by simp)))

/-- The ninth clock of `MSend` (R116): SDA is released at both samples. -/
theorem ackBit_outputs (o d e : Drives) (h : d.scl = .released) :
    outputsAtSamples 7 (s.busPoint o (d :: e :: ds) ⟨ackBitProc ++ rest, a, k⟩) = [released, released] := by
  have two : Runs 2 (s.busPoint o (d :: e :: ds) ⟨ackBitProc ++ rest, a, k⟩)
      (s.busPoint ⟨.released, o.scl⟩ (d :: e :: ds) ⟨releaseSclAndWait ++ ([.sampleAck, .delay, .setScl .low] ++ rest), a, k⟩) :=
    .step rfl (by simp [Micro.samples]) rfl (.step rfl (by simp [Micro.samples]) rfl rfl)
  refine (outputsAtSamples_trans (m := 2) (n := 5) two).trans ?_
  exact (outputsAtSamples_trans (m := 2) (n := 3) (releaseSclAndWait_runs s _ a k (e :: ds) _ d h)).trans rfl

/-- `MSend(b)` (R116). -/
theorem mSend_outputs (b : Byte) (o e : Drives) (scls : List Drives) (hl : scls.length = 9)
    (h : ∀ d ∈ scls, d.scl = .released) :
    outputsAtSamples (56 + guardSteps o) (s.busPoint o (scls ++ e :: ds) ⟨mSendProc b ++ rest, a, k⟩) = sentOutputs b := by
  obtain ⟨bits8, d, rfl⟩ : ∃ l d, scls = l ++ [d] :=
    ⟨scls.dropLast, scls.getLast (by intro hn; simp [hn] at hl), (List.dropLast_append_getLast _).symm⟩
  have h8 : bits8.length = bitsDown.length := by simpa [bitsDown] using hl
  have hb : ∀ x ∈ bits8, x.scl = .released := fun x hx => h x (by simp [hx])
  obtain ⟨y, hy⟩ := sendBits_runs s (ackBitProc ++ rest) a k (d :: e :: ds) b bitsDown o.sda bits8 h8 hb
  have e1 : mSendProc b ++ rest =
      .clockLowGuard :: (bitsDown.flatMap (sendBitProc b) ++ (ackBitProc ++ rest)) := by
    simp only [mSendProc, List.append_assoc, List.cons_append, List.nil_append]
  have e2 : bits8 ++ [d] ++ e :: ds = bits8 ++ d :: e :: ds := by simp
  rw [e1, e2, show 56 + guardSteps o = (1 + guardSteps o) + (6 * bitsDown.length + 7) by simp [bitsDown]; omega,
    outputsAtSamples_trans (clockLowGuard_runs s _ a k _ o), clockLowGuard_outputs, List.nil_append,
    outputsAtSamples_trans hy, sendBits_outputs s _ a k (d :: e :: ds) b bitsDown o.sda bits8 h8 hb,
    ackBit_outputs s rest a k ds ⟨y, .low⟩ d e (h d (by simp))]
  rfl

/-- One data bit of `MRecv` (R117): SDA is released at both samples. -/
theorem recvBit_outputs (i : Nat) (o d e : Drives) (ho : o.sda = .released) (h : d.scl = .released) :
    outputsAtSamples 6 (s.busPoint o (d :: e :: ds) ⟨recvBitProc i ++ rest, a, k⟩) = [released, released] := by
  obtain ⟨x, y⟩ := o
  subst ho
  have one : Runs 1 (s.busPoint ⟨.released, y⟩ (d :: e :: ds) ⟨recvBitProc i ++ rest, a, k⟩)
      (s.busPoint ⟨.released, y⟩ (d :: e :: ds) ⟨releaseSclAndWait ++ ([.sampleBit i, .delay, .setScl .low] ++ rest), a, k⟩) :=
    .step rfl (by simp [Micro.samples]) rfl rfl
  refine (outputsAtSamples_trans (m := 1) (n := 5) one).trans ?_
  exact (outputsAtSamples_trans (m := 2) (n := 3) (releaseSclAndWait_runs s _ a k (e :: ds) _ d h)).trans rfl

/-- The data bits of `MRecv`. -/
theorem recvBits_outputs (bits : List Nat) (pairs : List (Drives × Drives)) (hl : pairs.length = bits.length)
    (h : ∀ p ∈ pairs, p.1.scl = .released) :
    outputsAtSamples (6 * bits.length)
      (s.busPoint ⟨.released, .low⟩ (pairs.flatMap (fun p => [p.1, p.2]) ++ ds) ⟨bits.flatMap recvBitProc ++ rest, a, k⟩) =
        List.replicate (2 * bits.length) released := by
  induction bits generalizing a pairs with
  | nil => rfl
  | cons i is ih =>
    cases pairs with
    | nil => simp at hl
    | cons p ps =>
      rw [show 6 * (i :: is).length = 6 + 6 * is.length by simp; omega, List.flatMap_cons, List.append_assoc,
        List.flatMap_cons, List.append_assoc,
        show 2 * (i :: is).length = 2 + 2 * is.length by simp; omega, List.replicate_add]
      refine (outputsAtSamples_trans (recvBit_runs s _ a k _ i ⟨.released, .low⟩ p.1 p.2 rfl (h p (by simp)))).trans ?_
      exact congrArg₂ (· ++ ·) (recvBit_outputs s _ a k _ i ⟨.released, .low⟩ p.1 p.2 rfl (h p (by simp)))
        (ih _ ps (by simpa using hl) (fun q hq => h q (by simp [hq])))

/-- `MRecv()` (R117). -/
theorem mRecv_outputs (b : Byte) (o : Drives) :
    outputsAtSamples (51 + guardSteps o) (s.busPoint o (senderScript b ++ ds) ⟨mRecvProc ++ rest, a, k⟩) =
      List.replicate 16 released := by
  have e1 : mRecvProc ++ rest =
      .clockLowGuard :: .setSda .released :: .clearAcc :: (bitsDown.flatMap recvBitProc ++ rest) := by
    simp only [mRecvProc, List.cons_append, List.nil_append]
  have two : Runs 2 (s.busPoint ⟨o.sda, .low⟩ (senderScript b ++ ds)
      ⟨.setSda .released :: .clearAcc :: (bitsDown.flatMap recvBitProc ++ rest), a, k⟩)
      (s.busPoint ⟨.released, .low⟩ (senderScript b ++ ds) ⟨bitsDown.flatMap recvBitProc ++ rest, 0, k⟩) :=
    .step rfl (by simp [Micro.samples]) rfl (.step rfl (by simp [Micro.samples]) rfl rfl)
  rw [e1, show 51 + guardSteps o = (1 + guardSteps o) + (2 + 6 * bitsDown.length) by simp [bitsDown]; omega,
    outputsAtSamples_trans (clockLowGuard_runs s _ a k _ o), clockLowGuard_outputs, List.nil_append,
    outputsAtSamples_trans two]
  have := recvBits_outputs s rest 0 k ds bitsDown (bitsDown.map fun i => (bitDraw b i, bitDraw b i)) (by simp)
    (by intro p hp; simp only [List.mem_map] at hp; obtain ⟨i, -, rfl⟩ := hp; rfl)
  rw [List.flatMap_map] at this
  exact this

/-- `MAckBit(v)` (R118, R119): SDA is as commanded at its one sample. -/
theorem mAckBit_outputs (v : Drive) (o d : Drives) (h : d.scl = .released) :
    outputsAtSamples (8 + guardSteps o) (s.busPoint o (d :: ds) ⟨mAckBitProc v ++ rest, a, k⟩) = [⟨v, .released⟩] := by
  rw [show 8 + guardSteps o = (1 + guardSteps o) + 7 by omega]
  refine (outputsAtSamples_trans (clockLowGuard_runs s _ a k (d :: ds) o)).trans ?_
  rw [clockLowGuard_outputs, List.nil_append]
  have two : Runs 2 (s.busPoint ⟨o.sda, .low⟩ (d :: ds)
      ⟨.setSda v :: .delay :: (releaseSclAndWait ++ ([.delay, .setScl .low, .setSda .released] ++ rest)), a, k⟩)
      (s.busPoint ⟨v, .low⟩ (d :: ds) ⟨releaseSclAndWait ++ ([.delay, .setScl .low, .setSda .released] ++ rest), a, k⟩) :=
    .step rfl (by simp [Micro.samples]) rfl (.step rfl (by simp [Micro.samples]) rfl rfl)
  refine (outputsAtSamples_trans (m := 2) (n := 5) two).trans ?_
  exact (outputsAtSamples_trans (m := 2) (n := 3) (releaseSclAndWait_runs s _ a k ds ⟨v, .low⟩ d h)).trans rfl

end Sys2Proof.Machine
end

