-- ==== Sys2Proof/Machine/Script.lean ====
section
/-! DEFINITION. Host scripts (spec/30_encoding.md R98-R103): the statements, their text, and the host acts they expand to.
The block never sees a script; it sees the host's accesses. -/

namespace Sys2Proof.Machine

/-- A host statement (R99). A `READ off => v` states the value the rules give; the host does not compare it. -/
inductive HostStatement where
  | write (off : Offset) (v : Word)
  | read (off : Offset) (states : Option Word)
  | command (i : Instr)
  | wait
deriving DecidableEq, Repr

/-- What a statement expands to (R99, R102, R103), with `quiet` controller steps after each of its accesses. -/
def HostStatement.expand (st : HostStatement) (quiet : Nat) : List HostTurn :=
  match st with
  | .write off v => [⟨.write off 4 v, quiet⟩]
  | .read off _ => [⟨.read off 4, quiet⟩]
  | .command i => commandStatement (encode i) quiet
  | .wait => [⟨.wait, quiet⟩]

/-- A host script is straight-line code (R100): its statements' acts in order. -/
def expandScript (script : List HostStatement) (quiet : Nat) : List HostTurn :=
  script.flatMap fun st => st.expand quiet

/-! ### The text of a statement -/

/-- The value of a digit in a base of at most 16. -/
def digitValue (c : Char) : Option Nat :=
  if '0' ≤ c ∧ c ≤ '9' then some (c.toNat - '0'.toNat)
  else if 'a' ≤ c ∧ c ≤ 'f' then some (c.toNat - 'a'.toNat + 10)
  else if 'A' ≤ c ∧ c ≤ 'F' then some (c.toNat - 'A'.toNat + 10)
  else none

/-- The number that digits stand for, after `acc`. -/
def digitsFrom (base : Nat) (acc : Nat) (cs : List Char) : Option Nat :=
  match cs with
  | [] => some acc
  | c :: rest =>
    match digitValue c with
    | some d => if d < base then digitsFrom base (acc * base + d) rest else none
    | none => none

/-- A number, in hex (`0x..`) or decimal (R98). -/
def parseNumber (cs : List Char) : Option Nat :=
  match cs with
  | [] => none
  | '0' :: 'x' :: d :: ds => digitsFrom 16 0 (d :: ds)
  | c :: rest => digitsFrom 10 0 (c :: rest)

/-- A number below a bound. -/
def parseBelow (bound : Nat) (cs : List Char) : Option Nat :=
  (parseNumber cs).filter (· < bound)

/-- The names that may stand for a register's offset (R99; spec/20_memory.md R62). -/
def registerNames : List (String × Offset) :=
  [("CTRL", 0x000), ("BITDELAY", 0x004), ("TIMEOUT", 0x008), ("CMD", 0x00C), ("STATUS", 0x010), ("RXDATA", 0x014),
   ("CHKSUM", 0x018), ("FRAMELEN", 0x01C), ("AUTOMATON", 0x020), ("LINES", 0x024), ("EDIDINFO", 0x028)]

/-- The names of the buffers (R99). -/
def bufferNames : List (String × Buffer) := [("TXBUF[", .tx), ("RXBUF[", .rx), ("EDIDBUF[", .edid)]

/-- `TXBUF[i]` and its like, for an index inside the buffer. -/
def parseBufferName (cs : List Char) (name : String) (b : Buffer) : Option Offset :=
  let n := name.toList.length
  if cs.take n = name.toList ∧ cs.getLast? = some ']' then
    (parseBelow b.size ((cs.drop n).dropLast)).map fun i => BitVec.ofNat 12 (b.addr i)
  else none

/-- An offset: a number, a register's name, or a buffer byte's (R99). -/
def parseOffset (cs : List Char) : Option Offset :=
  match registerNames.find? (fun r => r.1.toList = cs) with
  | some r => some r.2
  | none =>
    match bufferNames.findSome? (fun r => parseBufferName cs r.1 r.2) with
    | some off => some off
    | none => (parseBelow 4096 cs).map (BitVec.ofNat 12)

/-- The commands without an operand, by mnemonic (R92, R98). -/
def plainCommands : List Instr :=
  [.mStart, .mStop, .mRecvByte, .mAck, .mNack, .sGetByte, .ddcRxcheck, .edidFillsum, .edidValidate, .ddcRead, .edidRead]

/-- The commands with an operand, by mnemonic (R92, R98). -/
def operandCommands (imm : Byte) : List Instr :=
  [.mSendByte imm, .sSendToMaster imm, .ddcBuild imm, .lenCheck imm, .ddcWrite imm]

/-- The words of a line, less its comment (R99): `;` begins a comment, and blanks and commas part words. `word` is the
word being read, backwards. -/
def wordsOf (word : List Char) (cs : List Char) : List (List Char) :=
  let done := if word = [] then [] else [word.reverse]
  match cs with
  | [] => done
  | ';' :: _ => done
  | ' ' :: rest => done ++ wordsOf [] rest
  | '\t' :: rest => done ++ wordsOf [] rest
  | '\r' :: rest => done ++ wordsOf [] rest
  | ',' :: rest => done ++ wordsOf [] rest
  | c :: rest => wordsOf (c :: word) rest

/-- The statement that the words of a line make (R98, R99, R102, R103); none is a syntax error. -/
def statementOf (words : List (List Char)) : Option HostStatement :=
  match words with
  | [w] =>
    if w = "WAIT".toList then some .wait
    else (plainCommands.find? fun i => (mnemonic i).toList = w).map .command
  | [w, a] =>
    if w = "READ".toList then (parseOffset a).map fun off => .read off none
    else
      match parseBelow 256 a with
      | some n => ((operandCommands (BitVec.ofNat 8 n)).find? fun i => (mnemonic i).toList = w).map .command
      | none => none
  | [w, a, v] =>
    if w = "WRITE".toList then
      match parseOffset a, parseBelow (2 ^ 32) v with
      | some off, some n => some (.write off (BitVec.ofNat 32 n))
      | _, _ => none
    else none
  | [w, a, arrow, v] =>
    if w = "READ".toList ∧ arrow = "=>".toList then
      match parseOffset a, parseBelow (2 ^ 32) v with
      | some off, some n => some (.read off (some (BitVec.ofNat 32 n)))
      | _, _ => none
    else none
  | _ => none

/-- The statement of a line that holds one (R99); none is a syntax error, or a line without a statement. -/
def parseStatement (line : String) : Option HostStatement := statementOf (wordsOf [] line.toList)

/-- The statements of a line (R99): none on an empty line or one that holds only a comment, else one. -/
def lineStatements (line : List Char) : Option (List HostStatement) :=
  match wordsOf [] line with
  | [] => some []
  | w :: ws => (statementOf (w :: ws)).map fun st => [st]

/-- The lines of a text. `line` is the line being read, backwards. -/
def linesOf (line : List Char) (cs : List Char) : List (List Char) :=
  match cs with
  | [] => [line.reverse]
  | '\n' :: rest => line.reverse :: linesOf [] rest
  | c :: rest => linesOf (c :: line) rest

/-- The statements of the lines of a script, in order; none where a line has a syntax error. -/
def statementsOfLines (lines : List (List Char)) : Option (List HostStatement) :=
  match lines with
  | [] => some []
  | l :: ls =>
    match lineStatements l, statementsOfLines ls with
    | some sts, some rest => some (sts ++ rest)
    | _, _ => none

/-- A host script from its text, one statement a line (R99, R100). -/
def parseScript (text : String) : Option (List HostStatement) := statementsOfLines (linesOf [] text.toList)

end Sys2Proof.Machine
end

