-- ==== Sys2Proof/Tests/Slice0.lean ====
section
/-! SUPPORT. Tests of the model: command words written out from the spec's encoding, words and accesses that the checks refuse,
the small vectors of spec/95_test_vectors.md (named V-… and P… after them), and one witness for every statement with
hypotheses, each clause at a boundary of its range. -/

namespace Sys2Proof.Tests

open Sys2Proof.Machine

/-! ### Small states -/

/-- The block after reset on an idle bus, in a mode. -/
def bench (mode : Mode) : State :=
  { State.reset with
    ctrl := ⟨mode, false, false⟩
    auto := Automaton.fresh ⟨.high, .high⟩
    env := ⟨0, [], 0, [], 0, 0⟩ }

/-- `s`, left alone for `quiet` steps, with a peer that drives `peer`. -/
def onBus (s : State) (quiet : Nat) (peer : List Drives) : State :=
  { s with env := { s.env with peer := peer, quiet := quiet } }

/-- `s` with the host's next act. -/
def hostNext (s : State) (act : HostAct) (quiet : Nat) : State :=
  { s with env := { s.env with host := [⟨act, quiet⟩], quiet := 0 } }

/-- `s` with a command running at its first poll of SCL. -/
def running (s : State) : State :=
  { s with status := { s.status with busy := true }, seq := ⟨[.pollScl 0, .finish .ok], 0, false⟩ }

/-- `s` with bytes stored from byte i of a buffer on. -/
def stored (s : State) (b : Buffer) (i : Nat) (bs : List Byte) : State :=
  match bs with
  | [] => s
  | v :: vs => stored (s.storeByte b i v) b (i + 1) vs

/-- What a test looks at in an outcome. -/
def seen {α : Type} (o : Outcome) (f : State → α) : Option α :=
  match o with
  | .next t => some (f t)
  | .fault _ => none
  | .refused _ => none

/-- The result, the outputs and BUSY. -/
def report (t : State) : Result × Drive × Drive × Bool := (t.status.result, t.out.sda, t.out.scl, t.status.busy)

/-! ### WellFormed: each check refuses an ill-formed word -/

theorem test_wellFormed_reserved_opcode : opcodeListed 0x00000016 = false ∧ legalWord 0x00000016 = false := by decide
theorem test_wellFormed_reserved_bits : reservedClear 0x00010010 = false ∧ legalWord 0x80000030 = false := by decide
theorem test_wellFormed_stray_operand : operandExpected 0x00000110 = false ∧ legalWord 0x0000FF42 = false := by decide
theorem test_wellFormed_legal : legalWord 0x0000FF30 = true ∧ legalWord 0x00000042 = true := by decide
theorem test_access_misaligned : accessAdmitted 0x102 4 = false := by decide
theorem test_access_size : accessAdmitted 0x010 1 = false ∧ accessAdmitted 0x010 4 = true := by decide

/-! ### Decode: every row's word written out (spec/30_encoding.md R92, R98; V-C1, V-C2) -/

theorem test_decode_mStart : decode 0x00000010 = .ok .mStart := by rfl
theorem test_decode_mStop : decode 0x00000011 = .ok .mStop := by rfl
theorem test_decode_mSendByte : decode 0x0000FF12 = .ok (.mSendByte 0xFF) := by rfl
theorem test_decode_mRecvByte : decode 0x00000013 = .ok .mRecvByte := by rfl
theorem test_decode_mAck : decode 0x00000014 = .ok .mAck := by rfl
theorem test_decode_mNack : decode 0x00000015 = .ok .mNack := by rfl
theorem test_decode_sGetByte : decode 0x00000020 = .ok .sGetByte := by rfl
theorem test_decode_sSendToMaster : decode 0x0000FF21 = .ok (.sSendToMaster 0xFF) := by rfl
theorem test_decode_ddcBuild : decode 0x00002330 = .ok (.ddcBuild 35) := by rfl
theorem test_decode_ddcRxcheck : decode 0x00000031 = .ok .ddcRxcheck := by rfl
theorem test_decode_lenCheck : decode 0x00008332 = .ok (.lenCheck 0x83) := by rfl
theorem test_decode_edidFillsum : decode 0x00000033 = .ok .edidFillsum := by rfl
theorem test_decode_edidValidate : decode 0x00000034 = .ok .edidValidate := by rfl
theorem test_decode_ddcWrite : decode 0x00000340 = .ok (.ddcWrite 3) := by rfl
theorem test_decode_ddcRead : decode 0x00000041 = .ok .ddcRead := by rfl
theorem test_decode_edidRead : decode 0x00000042 = .ok .edidRead := by rfl
theorem test_decode_reserved : decode 0x00000043 = .error (.reservedOpcode 0x43) := by rfl
theorem test_decode_bit16 : decode 0x00010012 = .error .reservedBits := by rfl
theorem test_decode_stray : decode 0x0000FF42 = .error .strayOperand := by rfl
theorem test_encode_example : encode (.mSendByte 0xA1) = 0x0000A112 := by decide

/-! ### Master commands (V-M1 … V-M12) -/

/-- V-M1. -/
theorem test_mStart_idle : seen (exec .mStart (onBus (bench .master) 8 (quietClocks 1))) report =
    some (.ok, .low, .released, false) := by decide

/-- V-M5 with TIMEOUT 0: one sample, then BUS_TIMEOUT. -/
theorem test_mStart_timeout :
    seen (exec .mStart (onBus { bench .master with timeout := 0 } 8 [sclLow, released])) (fun t => (report t, t.env.peer)) =
      some ((.busTimeout, .released, .released, false), [released]) := by decide

/-- V-M8: directly after M_START. -/
theorem test_mStop_after_start :
    seen (exec .mStop (onBus ((bench .master).withOut .low .released) 11 (quietClocks 1))) report =
      some (.ok, .released, .released, false) := by decide +kernel

/-- V-M2. -/
theorem test_mSendByte_acked :
    seen (exec (.mSendByte 0x6E) (onBus ((bench .master).withOut .low .released) 59 (receiverScript true))) report =
      some (.ok, .released, .low, false) := by decide +kernel

/-- V-M3. -/
theorem test_mSendByte_no_peer :
    seen (exec (.mSendByte 0x6E) (onBus ((bench .master).withOut .low .released) 59 (receiverScript false))) report =
      some (.noack, .released, .low, false) := by decide +kernel

/-- V-M4. -/
theorem test_mRecvByte_0x83 :
    seen (exec .mRecvByte (onBus ((bench .master).withOut .released .low) 54 (senderScript 0x83)))
      (fun t => (report t, t.rxData)) = some ((.ok, .released, .low, false), ⟨0x83, false⟩) := by decide +kernel

/-- V-M11. -/
theorem test_mAck_pulse :
    seen (exec .mAck (onBus ((bench .master).withOut .released .low) 9 (quietClocks 1))) report =
      some (.ok, .released, .low, false) := by decide

/-- V-M12: SDA stays Released while the clock is high. -/
theorem test_mNack_pulse :
    seen (exec .mNack (onBus ((bench .master).withOut .released .low) 5 (quietClocks 1))) (·.out) =
      some ⟨.released, .released⟩ := by decide

/-! ### Slave commands (V-S1 … V-S14) -/

/-- V-S1. -/
theorem test_sGetByte_0xA1 :
    seen (exec .sGetByte (onBus (bench .slave) 136 (masterStart ++ masterByte 0xA1)))
      (fun t => (report t, t.rxData, automatonWord t.auto)) =
        some ((.ok, .released, .released, false), ⟨0xA1, true⟩, 0x00000080) := by decide +kernel

/-- V-S7: both lines change in one sample pair, which is no START. -/
theorem test_sGetByte_both_change :
    seen (exec .sGetByte (onBus (bench .slave) 7 [⟨.low, .low⟩, ⟨.low, .released⟩])) (fun t => (t.auto.st, t.status.busy)) =
      some (.waitStart, true) := by decide

/-- R11, R130: the sample has been drawn, and AUTOMATON shows the old `prev` for one step more. -/
theorem test_sample_then_prev :
    [3, 4].map (fun q => seen (exec .sGetByte (onBus (bench .slave) q [sdaLow]))
      (fun t => (t.env.peer.length, t.auto.prev.sda))) = [some (0, .high), some (0, .low)] := by decide

/-- V-S9, from the end state of V-S8: the master NACKs. -/
theorem test_sSendToMaster_nack :
    seen (exec (.sSendToMaster 0xFF) (onBus (((bench .slave).withOut .released .low).withAuto
      ⟨.clockAvailable, 8, 0, false, ⟨.low, .low⟩⟩) 85 (masterReads .released)))
      (fun t => (report t, automatonWord t.auto)) =
        some ((.noack, .released, .released, false), 0x00010080) := by decide +kernel

/-- V-S14: the block's own drive of bit 7 makes a START. -/
theorem test_sSendToMaster_own_start :
    seen (exec (.sSendToMaster 0x00) (onBus (bench .slave) 11 [released])) (fun t => (report t, t.auto.st)) =
      some ((.unexpectedStart, .released, .released, false), .start) := by decide

/-- R115, V-M8: the guard's two steps come first, and SDA rises in the step that follows the wait after SCL is High. -/
theorem test_mStop_sda_rises :
    [8, 9].map (fun q => seen (exec .mStop (onBus (bench .master) q (quietClocks 1))) (·.out)) =
      [some ⟨.low, .released⟩, some ⟨.released, .released⟩] := by decide

/-! ### Codec commands (V-D1 … V-D9, V-E1 … V-E4) -/

/-- V-D1, around the ends of the Valid range. -/
theorem test_lenCheck_ends :
    [0x24, 0x80, 0x82, 0x83, 0xA3, 0xA4].map (fun l => seen (exec (.lenCheck l) (onBus (bench .slave) 2 []))
      (fun t => (t.status.result, t.frameLen))) =
      [some (.invalidLength, 0), some (.nullMessage, 0), some (.invalidLength, 0), some (.ok, 3), some (.ok, 35),
        some (.invalidLength, 0)] := by decide

/-- V-D2. -/
theorem test_ddcBuild_example :
    seen (exec (.ddcBuild 3) (onBus (stored (bench .master) .tx 3 [0xF3, 0x00, 0x00]) 8 [])) (·.mem) =
      some (stored (bench .master) .tx 0 [0x6E, 0x51, 0x83, 0xF3, 0x00, 0x00, 0x4F]).mem := by decide

/-- V-D5: the null frame. -/
theorem test_ddcBuild_null :
    seen (exec (.ddcBuild 0) (onBus (bench .slave) 8 [])) (fun t => (t.chksum, t.frameLen)) = some (0xBF, 0) := by decide

/-- V-D7, with RXBUF[0] unmarked. -/
theorem test_ddcRxcheck_valid :
    seen (exec .ddcRxcheck (onBus (stored (bench .master) .rx 1 [0x83, 0xE3, 0x00, 0x00, 0x5E]) 5 []))
      (fun t => (t.status.result, t.chksum, t.frameLen)) = some (.ok, 0x5E, 3) := by decide

/-- V-D8. -/
theorem test_ddcRxcheck_bad :
    seen (exec .ddcRxcheck (onBus (stored (bench .master) .rx 1 [0x83, 0xE3, 0x00, 0x00, 0x5F]) 5 []))
      (fun t => (t.status.result, t.chksum, t.frameLen)) = some (.invalidChecksum, 0x5E, 3) := by decide

/-- V-D10 with no peer: START 6E(N) STOP. -/
theorem test_ddcWrite_no_peer :
    seen (exec (.ddcWrite 0) (onBus (bench .master) 100 (quietClocks 1 ++ receiverScript false ++ quietClocks 1)))
      (fun t => (report t, t.chksum)) = some ((.noack, .released, .released, false), 0xBF) := by decide +kernel

/-- V-D11: a null message. -/
theorem test_ddcRead_null :
    seen (exec .ddcRead (onBus (bench .master) 400 (readScript [0x6E, 0x80] ++ quietClocks 1)))
      (fun t => (report t, t.mem)) =
        some ((.nullMessage, .released, .released, false), (stored (bench .master) .rx 0 [0x6E, 0x80]).mem) := by
  decide +kernel

/-- V-D11 on SDA: 6F, the source byte ACKed, the length byte NACKed, STOP. -/
theorem test_ddcRead_null_wire :
    (seen (exec .ddcRead (onBus (bench .master) 0 (readScript [0x6E, 0x80] ++ quietClocks 1)))
      fun t => outputsAtSamples 400 t) =
      some (quietClocks 1 ++ sentOutputs 0x6F ++ (quietClocks 16 ++ [sdaLow]) ++ quietClocks 17 ++ [sdaLow]) := by
  decide +kernel

/-- The record E of spec/95_test_vectors.md without its last byte. -/
def edidBody : List Byte := edidHeader ++ List.replicate 119 0

/-- V-E1. -/
theorem test_edidFillsum_example :
    seen (exec .edidFillsum (onBus (stored (bench .master) .edid 0 edidBody) 4 [])) (fun t => (t.status.result, t.chksum)) =
      some (.ok, 0x06) := by decide +kernel

/-- V-E3: one byte off. -/
theorem test_edidValidate_checksum :
    seen (exec .edidValidate (onBus (stored (bench .master) .edid 0 (edidBody ++ [0x07])) 3 []))
      (fun t => (t.status.result, t.chksum)) = some (.invalidChecksum, 0x01) := by decide +kernel

/-- V-E4: the header is tested first. -/
theorem test_edidValidate_header :
    seen (exec .edidValidate (onBus (stored (bench .slave) .edid 0 (List.replicate 128 0)) 3 []))
      (fun t => (t.status.result, t.chksum)) = some (.headerNotFound, 0x00) := by decide +kernel

/-- R11, R181 (2): the eight bytes of the header are there after one step of the resynchronisation. -/
theorem test_edidRead_header_in_one_step :
    seen (controllerStep ((bench .master).jump edidResyncProc)) (fun t => (t.mem, t.seq.todo.length + 1)) =
      some ((stored (bench .master) .edid 0 edidHeader).mem, edidResyncProc.length) := by decide +kernel

/-- V-E9: START A1(N) STOP. -/
theorem test_edidRead_no_device :
    seen (exec .edidRead (onBus (bench .master) 100 (quietClocks 1 ++ receiverScript false ++ quietClocks 1)))
      (fun t => (report t, edidInfoWord t.edid)) = some ((.noack, .released, .released, false), 0x000000FF) := by
  decide +kernel

/-! ### The host window and reset (V-C3 … V-C6, V-R1, V-R3) -/

/-- V-C3: encoding is checked before mode, mode before the operand. -/
theorem test_check_order :
    [0x00010010, 0x00002440].map (fun w => seen (step (hostNext (bench .slave) (.write cmdOffset 4 w) 0))
      (·.status.result)) = [some .illegalCommand, some .modeError] := by decide

/-- V-C4: the dropped word leaves CMD and BUSY. -/
theorem test_dropped :
    seen (step (hostNext (running (bench .master)) (.write cmdOffset 4 0x10) 1)) (fun t => (t.cmd, statusWord t.status)) =
      some (0, 0x3) := by decide

/-- V-R1: AUTOMATON reads 0x00030080 after a reset on an idle bus. -/
theorem test_reset_automaton :
    seen (step (onBus (hostNext (running (bench .slave)) .reset 0) 0 (quietClocks 1)))
      (fun t => (automatonWord t.auto, statusWord t.status, t.ctrl.mode)) = some (0x00030080, 0, .master) := by decide

/-- V-S12: clearing STRETCH releases the clock and leaves the automaton. -/
theorem test_stretch_cleared :
    seen (step (hostNext { (bench .slave).withOut .released .low with ctrl := ⟨.slave, true, true⟩ } (.write 0 4 3) 0))
      (fun t => (t.out.scl, ctrlWord t.ctrl)) = some (.released, 3) := by decide

/-- A command that waits for a peer's draw goes on in a later step, by a free draw. -/
theorem test_free_draw :
    seen (step (hostNext (bench .master) (.write cmdOffset 4 0x10) 8)) (fun t => (t.status.busy, t.env.quiet, t.seq.todo.length)) =
      some (true, 7, 7) := by decide

/-! ### Host scripts (R98-R103; P1, P2, P7) -/

theorem test_script_write : parseStatement "WRITE TXBUF[3], 0xF3 ; offset 0x10C" = some (.write 0x10C 0xF3) := by
  decide +kernel
theorem test_script_command : parseStatement "M_SEND_BYTE 0x6E" = some (.command (.mSendByte 0x6E)) := by decide +kernel
theorem test_script_operand_range : parseStatement "M_SEND_BYTE 256" = none := by decide +kernel
theorem test_script_read : parseStatement "READ STATUS => 0x00000072" = some (.read 0x010 (some 0x72)) := by
  decide +kernel
theorem test_script_expand : HostStatement.expand (.command .edidRead) 9 =
    [⟨.write 0x00C 4 0x00000042, 9⟩, ⟨.wait, 9⟩] := by decide

/-- From P3: a line that holds only a comment is no statement and no error. -/
theorem test_script_comment_line :
    parseScript ";   ... one WRITE\nWRITE EDIDBUF[126], 0x00 ; offset 0x5F8\nEDID_FILLSUM\n" =
      some [.write 0x5F8 0, .command .edidFillsum] := by decide +kernel
theorem test_script_syntax_error : parseScript "WAIT\nM_STOP 1\n" = none := by decide +kernel

/-! ### Systems of copies (R7, R212) -/

/-- Two copies: the turn of the second writes its BITDELAY and leaves the first. -/
theorem test_system_two_copies :
    (match systemStep ⟨[bench .master, hostNext (bench .slave) (.write 0x004 4 9) 0], [1]⟩ with
      | .next q => q.units.map (·.bitDelay)
      | .fault _ => []
      | .refused _ => []) = [5, 9] := by decide
theorem test_system_reset : (BlockSystem.reset 3).units.map (·.env.unit) = [0, 1, 2] := by decide

/-! ### Witnesses: states and operands that meet each statement's hypotheses, clause by clause -/

/-- A state holds what was stored in it, as its reads show. -/
theorem holds_of_read {s : State} {b : Buffer} {i n : Nat} {bs : List Byte} (h : s.readBytes b i n = .ok bs) :
    s.holds b i bs := (State.holds_of_readBytes h).2

theorem witness_IllegalWordOnlyReports :
    (bench .master).idle ∧
      (hostNext (bench .master) (.write cmdOffset 4 0x00010010) 3).hostDue (.write cmdOffset 4 0x00010010) 3 [] ∧
      legalWord 0x00010010 = false := ⟨rfl, ⟨rfl, by decide⟩, by decide⟩

theorem witness_StepRunsTheDecodedCommand :
    (bench .slave).idle ∧ (hostNext (bench .slave) (.write cmdOffset 4 0x20) 9).hostDue (.write cmdOffset 4 0x20) 9 [] ∧
      decode 0x20 = .ok .sGetByte := ⟨rfl, ⟨rfl, by decide⟩, rfl⟩

theorem witness_RunningCommandGoesOn :
    (∃ t, runController 1 (onBus (running (bench .master)) 0 [sclLow, released]) = .next t ∧ t.env.quiet = 0 ∧
      t.seq.todo ≠ []) ∧
    (let s := onBus (running (bench .master)) 0 [released]
     s.status.busy = true ∧ s.env.host = [] ∧ s.seq.todo ≠ [] ∧ s.needsDraw = false) ∧
    (let s := hostNext (running (bench .master)) .wait 0
     (s.setQuiet 1).status.busy = true ∧ 0 < (s.setQuiet 1).env.quiet ∧ (s.setQuiet 1).needsDraw = true) :=
  ⟨⟨_, rfl, rfl, by decide⟩, by decide, by decide⟩

theorem witness_CommandWriteWhileBusyIsDropped :
    (running (bench .master)).status.busy = true ∧
      (hostNext (running (bench .master)) (.write cmdOffset 4 0x42) 1).hostDue (.write cmdOffset 4 0x42) 1 [] :=
  ⟨rfl, rfl, fun _ => rfl⟩

theorem witness_IgnoredWrites_busy :
    (running (bench .master)).status.busy = true ∧
      (hostNext (running (bench .master)) (.write 0x000 4 1) 2).hostDue (.write 0x000 4 1) 2 [] ∧
      (hostNext (running (bench .master)) (.write 0x10C 4 0x55) 2).hostDue (.write 0x10C 4 0x55) 2 [] :=
  ⟨rfl, ⟨rfl, fun _ => rfl⟩, ⟨rfl, fun _ => rfl⟩⟩

theorem witness_IgnoredWrites_idle :
    [0x010, 0x0FC, 0x1A0, 0x1FC, 0x2A0, 0x3FC, 0x600, 0xFFC].all (fun off : Offset =>
      decide (off.toNat % 4 = 0 ∧ off ≠ cmdOffset ∧
        (0x010 ≤ off.toNat ∧ off.toNat ≤ 0x0FC ∨ 0x1A0 ≤ off.toNat ∧ off.toNat ≤ 0x1FC ∨
          0x2A0 ≤ off.toNat ∧ off.toNat ≤ 0x3FC ∨ 0x600 ≤ off.toNat))) = true ∧
    (bench .slave).status.busy = false ∧
    ∀ off : Offset, (hostNext (bench .slave) (.write off 4 7) 2).hostDue (.write off 4 7) 2 [] :=
  ⟨by decide, rfl, fun _ => ⟨rfl, by intro h; cases h⟩⟩

theorem witness_BufferWords_marked :
    39 < Buffer.tx.size ∧
      (hostNext (stored (bench .slave) .tx 39 [7]) (.read 0x19C 4) 0).hostDue (.read (BitVec.ofNat 12 (Buffer.tx.addr 39)) 4) 0
        [] ∧ Memory.read (stored (bench .slave) .tx 39 [7]).mem (Buffer.tx.addr 39) = some 7 :=
  ⟨by decide, ⟨rfl, by decide⟩, rfl⟩

theorem witness_BufferWords_unmarked :
    127 < Buffer.edid.size ∧
      (hostNext (bench .slave) (.read 0x5FC 4) 0).hostDue (.read (BitVec.ofNat 12 (Buffer.edid.addr 127)) 4) 0 [] ∧
      Memory.read (bench .slave).mem (Buffer.edid.addr 127) = none := ⟨by decide, ⟨rfl, by decide⟩, rfl⟩

theorem witness_BufferWords_write :
    0 < Buffer.rx.size ∧ (bench .slave).idle ∧
      (hostNext (bench .slave) (.write 0x200 4 0xFFFFFF12) 0).hostDue
        (.write (BitVec.ofNat 12 (Buffer.rx.addr 0)) 4 0xFFFFFF12) 0 [] := ⟨by decide, rfl, ⟨rfl, by decide⟩⟩

theorem witness_ReadsHaveNoSideEffect :
    [0x000, 0x024, 0x600, 0xFFC].all (fun off : Offset => decide (off.toNat % 4 = 0)) = true ∧
      (∀ off ∈ [(0x000 : Offset), 0x024, 0x600, 0xFFC],
        (hostNext (bench .master) (.read off 4) 5).hostDue (.read off 4) 5 [] ∧
          ∀ (b : Buffer) (i : Nat), i < b.size → off.toNat = b.addr i → Memory.read (bench .master).mem (b.addr i) ≠ none) ∧
      (hostNext (stored (bench .slave) .tx 39 [7]) (.read 0x19C 4) 5).hostDue (.read 0x19C 4) 5 [] ∧
      ∀ (b : Buffer) (i : Nat), i < b.size → (0x19C : Offset).toNat = b.addr i →
        Memory.read (stored (bench .slave) .tx 39 [7]).mem (b.addr i) ≠ none := by
  refine ⟨by decide, ?_, ⟨rfl, by decide⟩, ?_⟩
  · intro off ho
    refine ⟨⟨rfl, by intro h; cases h⟩, ?_⟩
    intro b i hi ha
    simp only [List.mem_cons, List.not_mem_nil, or_false] at ho
    rcases ho with rfl | rfl | rfl | rfl <;> cases b <;> simp [Buffer.addr, Buffer.base, Buffer.size] at ha hi <;> omega
  · intro b i _ ha
    rw [← ha]
    decide

theorem witness_OtherAccessesAreRefused :
    ((0x102 : Offset).toNat % 4 ≠ 0 ∧ (hostNext (bench .master) (.write 0x102 4 0) 0).hostDue (.write 0x102 4 0) 0 []) ∧
      (hostNext (bench .master) (.read 0x010 1) 0).hostDue (.read 0x010 1) 0 [] :=
  ⟨⟨by decide, rfl, by decide⟩, rfl, by decide⟩

theorem witness_RegisterReads :
    (∀ off : Offset, (hostNext (bench .master) (.read off 4) 0).hostDue (.read off 4) 0 []) ∧
      [0x000, 0x004, 0x008, 0x00C, 0x010, 0x014, 0x018, 0x01C, 0x02C, 0x0FC, 0x1A0, 0x1FC, 0x2A0, 0x3FC, 0x600, 0xFFC].all
        (fun off : Offset => decide (off.toNat % 4 = 0 ∧ (off.toNat ≤ 0x01C ∨ 0x02C ≤ off.toNat ∧ off.toNat ≤ 0x0FC ∨
          0x1A0 ≤ off.toNat ∧ off.toNat ≤ 0x1FC ∨ 0x2A0 ≤ off.toNat ∧ off.toNat ≤ 0x3FC ∨ 0x600 ≤ off.toNat))) = true :=
  ⟨fun _ => ⟨rfl, by intro h; cases h⟩, by decide⟩

theorem witness_ViewReads :
    (bench .master).auto.count ≤ 8 ∧ (bench .master).edid.cursor.all (· ≤ 127) = true ∧
      ∀ off ∈ [(0x020 : Offset), 0x024, 0x028],
        (onBus (hostNext (bench .master) (.read off 4) 0) 0 [sdaLow]).hostDue (.read off 4) 0 [] :=
  ⟨by decide, by decide, fun _ _ => ⟨rfl, by intro h; cases h⟩⟩

/-- MODE changes; STRETCH is cleared with SCL held; B2B alone changes; nothing changes. -/
theorem witness_CtrlWriteSideEffects :
    ([(bench .master, 1), ({ (bench .slave).withOut .released .low with ctrl := ⟨.slave, true, true⟩ }, 3),
        (bench .slave, 3), (bench .slave, 1)].map fun p =>
      seen (step (onBus (hostNext p.1 (.write 0 4 p.2) 0) 0 [released])) (fun t => (t.ctrl, t.out.scl))) =
      [some (⟨.slave, false, false⟩, .released), some (⟨.slave, true, false⟩, .released),
        some (⟨.slave, true, false⟩, .released), some (⟨.slave, false, false⟩, .released)] ∧
    (onBus (hostNext (bench .slave) (.write 0 4 1) 0) 0 [released]).hostDue (.write 0x000 4 1) 0 [] :=
  ⟨by decide, rfl, by decide⟩

theorem witness_ParameterWrites :
    (bench .slave).idle ∧ (hostNext (bench .slave) (.write 0x004 4 0x1FFFF) 0).hostDue (.write 0x004 4 0x1FFFF) 0 [] ∧
      (hostNext (bench .slave) (.write 0x008 4 0) 0).hostDue (.write 0x008 4 0) 0 [] :=
  ⟨rfl, ⟨rfl, by decide⟩, ⟨rfl, by decide⟩⟩

theorem witness_WaitPollsUntilIdle :
    ((hostNext (bench .master) .wait 0).hostDue .wait 0 [] ∧ (bench .master).idle) ∧
      (hostNext (running (bench .master)) .wait 0).hostDue .wait 0 [] ∧ ¬ (running (bench .master)).idle :=
  ⟨⟨⟨rfl, by decide⟩, rfl⟩, ⟨rfl, fun _ => rfl⟩, by unfold State.idle; decide⟩

theorem witness_ResetInputResetsEverything :
    (onBus (hostNext (running (bench .slave)) .reset 4) 0 [sdaLow]).hostDue .reset 4 [] ∧
      (onBus (hostNext (running (bench .slave)) .reset 4) 0 [sdaLow]).env.peer = [sdaLow] := ⟨⟨rfl, fun _ => rfl⟩, rfl⟩

theorem witness_ModeCheck :
    neededMode .sGetByte = some (if (bench .master).ctrl.mode = .master then .slave else .master) ∧
      neededMode .mStart = some (if (bench .slave).ctrl.mode = .master then .slave else .master) ∧
      seen (exec (.lenCheck 0x83) (onBus (bench .slave) 2 [])) (·.status.busy) = some false ∧
      neededMode (.lenCheck 0x83) = none ∧
      seen (exec .mStart (onBus (bench .master) 8 [released])) (·.status.busy) = some false ∧
      neededMode .mStart = some (bench .master).ctrl.mode := by decide

theorem witness_MStartCompletes :
    ∀ q ∈ [4, 5, 6, 7, 8], (onBus (bench .master) q [sdaLow, sclLow]).ctrl.mode = .master ∧
      (onBus (bench .master) q [sdaLow, sclLow]).env.peer = sdaLow :: [sclLow] ∧ sdaLow.scl = .released ∧
      ((onBus (bench .master) q [sdaLow, sclLow]).env.quiet ∈ [4, 5] ∨
        (onBus (bench .master) q [sdaLow, sclLow]).env.quiet ∈ [6, 7] ∨
        8 ≤ (onBus (bench .master) q [sdaLow, sclLow]).env.quiet) := by decide

/-- With SCL Released and with SCL Low before the command. -/
theorem witness_MStopCompletes :
    ∀ p ∈ [(Drive.released, 2), (.low, 0)], ∀ q ∈ [5 + p.2, 6 + p.2, 7 + p.2, 8 + p.2, 11],
      let s := onBus ((bench .master).withOut .low p.1) q [released]
      s.ctrl.mode = .master ∧ s.env.peer = released :: [] ∧ released.scl = .released ∧
        (if s.out.scl = .released then 2 else 0) = p.2 ∧
        (s.env.quiet ∈ [5 + p.2, 6 + p.2] ∨ s.env.quiet ∈ [7 + p.2, 8 + p.2] ∨ 11 ≤ s.env.quiet) := by decide

theorem witness_MSendByteCompletes (ack : Drives) :
    (onBus (bench .master) 59 (quietClocks 9 ++ [ack])).undisturbed 59 (quietClocks 9 ++ [ack]) [] ∧
      (quietClocks 9).length = 9 ∧ ∀ d ∈ quietClocks 9, d.scl = .released := ⟨⟨Nat.le_refl _, rfl⟩, rfl, by decide⟩

/-- The first and the last bit, from SCL Released and from SCL Low, at the ends of each range of steps. -/
theorem witness_MSendByteShowsEachBit :
    ∀ p ∈ [(Drive.released, 2), (.low, 0)], ∀ j ∈ [0, 7], ∀ q ∈ [2, 3, 4, 6, 7],
      let s := onBus ((bench .master).withOut .low p.1) (q + (6 * j + p.2)) (quietClocks (j + 1) ++ [])
      s.ctrl.mode = .master ∧ j < 8 ∧ (quietClocks (j + 1)).length = j + 1 ∧ (quietClocks (j + 1)).all (·.scl == .released) ∧
        s.env.peer = quietClocks (j + 1) ++ [] ∧ (if s.out.scl = .released then 2 else 0) = p.2 ∧
        s.env.quiet = q + (6 * j + p.2) := by decide +kernel

theorem witness_MRecvByteCompletes :
    (onBus (bench .master) 56 (senderScript 0x83 ++ [])).undisturbed 56 (senderScript 0x83) [] := ⟨by decide, rfl⟩

theorem witness_MAckAndMNackComplete :
    (∀ i ∈ [Instr.mAck, Instr.mNack], i ∈ [Instr.mAck, Instr.mNack]) ∧
      (onBus (bench .master) 11 [sdaLow]).undisturbed 11 [sdaLow] [] ∧ sdaLow.scl = .released :=
  ⟨fun _ h => h, ⟨by decide, rfl⟩, rfl⟩

theorem witness_AckBitOnTheWire :
    ∀ p ∈ [(Drive.released, 2), (.low, 0)], ∀ q ∈ [2, 4, 6, 7, 8],
      let s := onBus ((bench .master).withOut .released p.1) (q + p.2) [released]
      s.ctrl.mode = .master ∧ s.env.peer = released :: [] ∧ released.scl = .released ∧ s.env.quiet = q + p.2 ∧
        (if s.out.scl = .released then 2 else 0) = p.2 ∧
        (Instr.mNack, Drive.released) ∈ [(Instr.mAck, Drive.low), (.mNack, .released)] := by decide

/-- The bound met exactly: TIMEOUT 2 with two Low samples, from the first poll and from the third with none left. -/
theorem witness_StretchingOnlyDelays :
    (let s := { bench .master with timeout := 2 }
     (∀ e ∈ [sclLow, sclLow], e.scl = .low) ∧ released.scl = .released ∧ s.ctrl.mode = .master ∧
       [sclLow, sclLow].length ≤ s.timeout.toNat ∧ Instr.mRecvByte ∈ [.mStart, .mStop, .mSendByte 0, .mRecvByte, .mAck, .mNack]) ∧
    (let s := running { bench .master with timeout := 2 }
     s.seq.todo = .pollScl 0 :: [.finish .ok] ∧ s.out.scl = .released ∧ 0 + [sclLow, sclLow].length ≤ s.timeout.toNat) ∧
    (let s := (running { bench .master with timeout := 2 }).jump [.pollScl 2, .finish .ok]
     s.seq.todo = .pollScl 2 :: [.finish .ok] ∧ s.out.scl = .released ∧ 2 + ([] : List Drives).length ≤ s.timeout.toNat) := by
  decide

theorem witness_HeldClockTimesOut :
    (∀ e ∈ [sclLow], e.scl = .low) ∧ [sclLow].length = ({ bench .master with timeout := 0 } : State).timeout.toNat + 1 ∧
      (onBus { bench .master with timeout := 0 } 14 [sclLow]).undisturbed (2 * [sclLow].length + 12) [sclLow] [] :=
  ⟨by decide, by decide, by decide, rfl⟩

theorem witness_HeldClockTimesOut_any :
    (running { bench .master with timeout := 0 }).seq.todo =
        .pollScl (running { bench .master with timeout := 0 }).timeout.toNat :: [.finish .ok] ∧
      (running { bench .master with timeout := 0 }).out.scl = .released ∧
      (onBus (running { bench .master with timeout := 0 }) 0 [sclLow]).env.peer = sclLow :: [] ∧ sclLow.scl = .low :=
  ⟨rfl, rfl, rfl, rfl⟩

theorem witness_MasterCommandsIgnoreTheAutomaton :
    neededMode .edidRead = some .master ∧ neededMode (.ddcWrite 36) = some .master := by decide

/-- Every command answers a next state somewhere: here where it is accepted, the host's next act being due. -/
theorem witness_CommandFrame :
    [Instr.mStart, .mStop, .mSendByte 0, .mRecvByte, .mAck, .mNack, .sGetByte, .sSendToMaster 0, .ddcBuild 0, .ddcRxcheck,
        .lenCheck 0, .edidFillsum, .edidValidate, .ddcWrite 0, .ddcRead, .edidRead].all (fun i =>
      (seen (exec i (bench .master)) (·.rxData)).isSome && (seen (exec i (bench .slave)) (·.rxData)).isSome) = true := by
  decide +kernel

theorem witness_SGetByteAfterStart :
    (bench .slave).auto.prev = ⟨.high, .high⟩ ∧ (bench .slave).out.sda = .released ∧
      (onBus (bench .slave) 150 (masterStart ++ masterByte 0xA1 ++ [])).undisturbed 150 (masterStart ++ masterByte 0xA1) [] :=
  ⟨rfl, rfl, by decide, rfl⟩

theorem witness_SGetByteBackToBack :
    let s := onBus (((bench .slave).withOut .released .low).withAuto ⟨.clockAvailable, 8, 0, false, ⟨.low, .low⟩⟩) 150
      (masterByte 0x3C ++ [])
    s.ctrl.mode = .slave ∧ s.auto.st = .clockAvailable ∧ s.auto.count = 8 ∧ s.auto.prev.scl = .low ∧
      s.out.sda = .released ∧ s.undisturbed 150 (masterByte 0x3C) [] := ⟨rfl, rfl, rfl, rfl, rfl, by decide, rfl⟩

theorem witness_ConditionsInSGetByte :
    (let s := onBus ((bench .slave).withAuto ⟨.ackDone, 0, 5, true, ⟨.high, .high⟩⟩) 8 [sdaLow]
     s.auto.prev = ⟨.high, .high⟩ ∧ s.env.peer = sdaLow :: [] ∧ s.env.quiet = 8) ∧
    (let s := onBus ((bench .slave).withAuto ⟨.data, 3, 5, true, ⟨.low, .high⟩⟩) 9 [released]
     s.auto.prev = ⟨.low, .high⟩ ∧ s.out.sda = .released ∧ s.auto.st ≠ .waitStart ∧ s.env.quiet = 9) ∧
    (let s := onBus ((bench .slave).withAuto ⟨.waitStart, 8, 0, false, ⟨.low, .high⟩⟩) 4 [released]
     s.auto.prev = ⟨.low, .high⟩ ∧ s.out.sda = .released ∧ s.auto.st = .waitStart ∧ s.env.quiet = 4) := by decide

/-- One state for each row, with the sample that takes it, one that no row lists, and one between the sample and `prev`. -/
theorem witness_AutomatonTransitions :
    ∀ c ∈ [(SlaveState.start, 8, Level.high, sclLow, 5), (.clockAvailable, 8, .low, sdaLow, 7),
        (.clockAvailable, 1, .low, released, 7), (.data, 1, .high, sclLow, 5), (.data, 0, .high, sclLow, 6),
        (.ack, 0, .low, released, 5), (.ackDone, 0, .high, sclLow, 13), (.data, 0, .low, released, 4),
        (.waitStart, 8, .high, sclLow, 4), (.waitStart, 8, .high, sclLow, 3)],
      let s := onBus ((bench .slave).withAuto ⟨c.1, c.2.1, 0, true, ⟨.high, c.2.2.1⟩⟩) c.2.2.2.2 [c.2.2.2.1]
      let cur := levelsOf ⟨s.out.sda, .released⟩ c.2.2.2.1
      s.ctrl.mode = .slave ∧ s.env.peer = c.2.2.2.1 :: [] ∧
        ¬ (s.auto.prev.scl = .high ∧ cur.scl = .high ∧ s.auto.prev.sda ≠ cur.sda) ∧ s.auto.prev.scl = c.2.2.1 ∧
        (c.2.2.1 = .high → cur.scl = .low) ∧ (c.2.2.1 = .low → cur.scl = .high) := by decide

theorem witness_SSendToMasterCompletes (ninth : Drive) :
    let s := onBus (((bench .slave).withOut .released .low).withAuto ⟨.clockAvailable, 8, 0, false, ⟨.low, .low⟩⟩) 100
      (masterReads ninth ++ [])
    s.ctrl.mode = .slave ∧ s.auto.prev.scl = .low ∧ s.undisturbed 100 (masterReads ninth) [] :=
  ⟨rfl, rfl, Nat.le_refl _, rfl⟩

/-- The first and the last bit, from SCL Released and from a stretch; then the steps at the end of the stretch. -/
theorem witness_SSendToMasterShowsEachBit :
    (∀ p ∈ [(Drive.low, 2), (.released, 0)], ∀ j ∈ [0, 7],
      let s := onBus (((bench .slave).withOut .released p.1).withAuto ⟨.clockAvailable, 8, 0, false, ⟨.low, .low⟩⟩)
        (8 * j + 5 + p.2) ((List.replicate j [released, sclLow]).flatten ++ released :: [])
      s.ctrl.mode = .slave ∧ s.auto.prev.scl = .low ∧ j < 8 ∧ s.env.quiet = 8 * j + 5 + (if s.out.scl = .low then 2 else 0)) ∧
    ∀ q ∈ [1, 2, 3, 4, 5],
      let s := onBus ((bench .slave).withOut .released .low) q []
      s.ctrl.mode = .slave ∧ s.out.scl = .low ∧ s.env.quiet = q := by decide

theorem witness_UnexpectedConditions :
    (let s := onBus (bench .slave) 12 [released]
     s.out.scl = .released ∧ s.auto.prev = ⟨.high, .high⟩ ∧ (0x00 : Byte).getLsbD 7 = false) ∧
    (let s := onBus ((bench .slave).withAuto ⟨.waitStart, 8, 0, false, ⟨.low, .high⟩⟩) 12 [released]
     s.out.scl = .released ∧ s.auto.prev = ⟨.low, .high⟩ ∧ (0x80 : Byte).getLsbD 7 = true) ∧
    (onBus (bench .slave) 12 [released]).undisturbed 12 [released] [] := ⟨by decide, by decide, by decide, rfl⟩

/-- A START, a STOP, the awaited edge and none of them, at a sample in the middle of the command. -/
theorem witness_UnexpectedConditions_any :
    ∀ c ∈ [((⟨.high, .high⟩ : Levels), sdaLow), (⟨.low, .high⟩, released), (⟨.high, .low⟩, released), (⟨.high, .high⟩, released)],
      let s := (onBus ((bench .slave).withAuto ⟨.data, 3, 5, true, c.1⟩) 0 [c.2]).jump [.waitSample .rising, .latchAck]
      let cur := levelsOf s.out c.2
      s.seq.todo = .waitSample .rising :: [.latchAck] ∧ Event.rising ∈ [Event.rising, .falling] ∧ s.env.peer = c.2 :: [] ∧
        (c.2 = sdaLow → s.auto.prev = ⟨.high, .high⟩ ∧ cur = ⟨.low, .high⟩) ∧
        (c.1 = ⟨.low, .high⟩ → s.auto.prev = ⟨.low, .high⟩ ∧ cur = ⟨.high, .high⟩) ∧
        (c.1 = ⟨.high, .low⟩ → s.auto.prev.scl = .low ∧ cur.scl = .high) := by decide

theorem witness_SGetByteWaitsOnAnIdleBus :
    (bench .slave).auto.prev = ⟨.high, .high⟩ ∧ (bench .slave).out.sda = .released ∧
      (onBus (bench .slave) 11 (quietClocks 3 ++ [])).env.peer = quietClocks 3 ++ [] ∧ 11 ≤ 3 * 3 + 2 := by decide

theorem witness_LenCheckClassifies : 2 ≤ (onBus (bench .slave) 2 []).env.quiet := by decide

theorem witness_DdcBuildBuildsTheFrame :
    (List.replicate 35 (0 : Byte)).length ≤ 35 ∧
      (onBus (stored (bench .master) .tx 3 (List.replicate 35 0)) 8 []).holds .tx 3 (List.replicate 35 0) :=
  ⟨by decide, holds_of_read (n := 35) (by decide +kernel)⟩

theorem witness_TransmitLengthBound :
    35 < (36 : Byte).toNat ∧ 1 ≤ (onBus (bench .master) 1 []).env.quiet ∧ (bench .master).ctrl.mode = .master := by decide

/-- The payload byte of the shortest and the last of the longest frame. -/
theorem witness_UnmarkedOperandFaults :
    (∀ p ∈ [((1 : Byte), []), (35, List.replicate 34 (0 : Byte))],
      let s := onBus (stored (bench .master) .tx 3 p.2) 5 []
      p.1.toNat ≤ 35 ∧ p.2.length < p.1.toNat ∧ s.holds .tx 3 p.2 ∧
        Memory.read s.mem (Buffer.tx.addr (3 + p.2.length)) = none ∧ s.ctrl.mode = .master ∧ 5 ≤ s.env.quiet) ∧
    Memory.read (bench .slave).mem (Buffer.rx.addr 1) = none := by
  refine ⟨?_, by decide⟩
  intro p hp
  simp only [List.mem_cons, List.not_mem_nil, or_false] at hp
  rcases hp with rfl | rfl
  · exact ⟨by decide, by decide, holds_of_read (n := 0) (by decide), by decide, rfl, by decide⟩
  · exact ⟨by decide, by decide, holds_of_read (n := 34) (by decide +kernel), by decide +kernel, by decide +kernel,
      by decide +kernel⟩

/-- A frame's first payload byte, and its checksum. -/
theorem witness_UnmarkedOperandFaults_rxcheck :
    ∀ bs ∈ [[], [(1 : Byte), 2, 3]],
      let s := onBus (stored (bench .slave) .rx 1 (0x83 :: bs)) 5 []
      3 ≤ 3 ∧ bs.length ≤ 3 ∧ s.holds .rx 1 ((0x80 ||| BitVec.ofNat 8 3) :: bs) ∧
        Memory.read s.mem (Buffer.rx.addr (2 + bs.length)) = none := by
  intro bs hb
  simp only [List.mem_cons, List.not_mem_nil, or_false] at hb
  rcases hb with rfl | rfl
  · exact ⟨by decide, by decide, holds_of_read (n := 1) (by decide), by decide⟩
  · exact ⟨by decide, by decide, holds_of_read (n := 4) (by decide), by decide⟩

/-- Byte 0 for both commands, and byte 127 for EDID_VALIDATE. -/
theorem witness_UnmarkedOperandFaults_edid :
    (let s := onBus (bench .slave) 5 []
     s.holds .edid 0 [] ∧ Memory.read s.mem (Buffer.edid.addr ([] : List Byte).length) = none) ∧
    (let s := onBus (stored (bench .slave) .edid 0 edidBody) 5 []
     s.holds .edid 0 edidBody ∧ edidBody.length = 127 ∧ Memory.read s.mem (Buffer.edid.addr edidBody.length) = none) :=
  ⟨⟨holds_of_read (n := 0) (by decide), by decide⟩,
   ⟨holds_of_read (n := 127) (by decide +kernel), by decide +kernel, by decide +kernel⟩⟩

theorem witness_DdcRxcheckChecksTheFrame :
    3 ≤ [0xE3, 0x00, (0x00 : Byte)].length ∧
      (onBus (stored (bench .slave) .rx 1 [0x83, 0xE3, 0x00, 0x00, 0x5E]) 5 []).holds .rx 1
        ((0x80 ||| BitVec.ofNat 8 [0xE3, 0x00, (0x00 : Byte)].length) :: [0xE3, 0x00, 0x00] ++ [0x5E]) :=
  ⟨by decide, holds_of_read (n := 5) (by decide)⟩

theorem witness_DdcRxcheckStopsAtTheLength :
    ∀ l ∈ [0x80, 0x82, 0xA4], (onBus (stored (bench .slave) .rx 1 [l]) 3 []).holds .rx 1 [l] ∧
      ¬ (0x83 ≤ l.toNat ∧ l.toNat ≤ 0xA3) :=
  fun l hl => ⟨holds_of_read (n := 1) (by revert l; decide), by revert l; decide⟩

theorem witness_DdcWriteSendsTheFrame :
    let p := quietClocks 1 ++ (List.replicate (4 + 0) (receiverScript true)).flatten ++ quietClocks 1
    (bench .master).ctrl.mode = .master ∧ ([] : List Byte).length ≤ 35 ∧ (onBus (bench .master) 4000 (p ++ [])).holds .tx 3 [] ∧
      (onBus (bench .master) 4000 (p ++ [])).undisturbed 4000 p [] :=
  ⟨rfl, by decide, by intro k v h; simp at h, by unfold onBus; simp, rfl⟩

theorem witness_DdcWriteStopsAtANack :
    ∀ j ∈ [0, 3],
      let p := quietClocks 1 ++ (List.replicate j (receiverScript true)).flatten ++ receiverScript false ++ quietClocks 1
      (onBus (bench .master) 4000 (p ++ [])).holds .tx 3 [] ∧ j < 4 + ([] : List Byte).length ∧
        (onBus (bench .master) 4000 (p ++ [])).undisturbed 4000 p [] := by
  intro j hj
  exact ⟨by intro k v h; simp at h, by revert j; decide, by unfold onBus; simp, rfl⟩

theorem witness_DdcReadReceivesAFrame :
    let p := readScript [0x6E, 0x83, 0xE3, 0x00, 0x00, 0x5E] ++ quietClocks 1
    3 ≤ [0xE3, 0x00, (0x00 : Byte)].length ∧ (0x80 ||| BitVec.ofNat 8 [0xE3, 0x00, (0x00 : Byte)].length) = (0x83 : Byte) ∧
      (onBus (bench .master) 4000 (p ++ [])).undisturbed 4000 p [] := ⟨by decide, by decide, by unfold onBus; simp, rfl⟩

theorem witness_DdcReadStopsAtTheLength :
    (¬ (0x83 ≤ (0x82 : Byte).toNat ∧ (0x82 : Byte).toNat ≤ 0xA3)) ∧
      (onBus (bench .master) 4000 (readScript [0x6E, 0x82] ++ quietClocks 1 ++ [])).undisturbed 4000
        (readScript [0x6E, 0x82] ++ quietClocks 1) [] := ⟨by decide, by unfold onBus; simp, rfl⟩

theorem witness_ReadsWithNoDevice :
    let p := quietClocks 1 ++ receiverScript false ++ quietClocks 1
    (onBus (bench .master) 100 (p ++ [])).undisturbed 100 p [] := ⟨by decide, rfl⟩

/-- A record without the header, as a first pass. -/
theorem noHeaderIn_replicate : noHeaderIn (List.replicate 128 (0x5A : Byte)) := ⟨by decide +kernel, by decide +kernel⟩

/-- No failed pass, and one. -/
theorem atMostOneFailed_ends : ∀ failed ∈ [[], [List.replicate 128 (0x5A : Byte)]], atMostOneFailed failed := by
  intro f hf
  simp only [List.mem_cons, List.not_mem_nil, or_false] at hf
  rcases hf with rfl | rfl
  · exact ⟨by decide, by intro bs h; cases h⟩
  · exact ⟨by decide, by intro bs h; rw [List.mem_singleton.1 h]; exact noHeaderIn_replicate⟩

theorem witness_ReadsWithNoDevice_second_pass :
    let p := failedScript [List.replicate 128 (0x5A : Byte)] ++ quietClocks 1 ++ receiverScript false ++ quietClocks 1
    noHeaderIn (List.replicate 128 (0x5A : Byte)) ∧ (onBus (bench .master) 40000 (p ++ [])).undisturbed 40000 p [] :=
  ⟨noHeaderIn_replicate, by unfold onBus; simp, rfl⟩

/-- The shortest and the longest stream before the header, on the first pass and on the second. -/
theorem witness_ReadsWithNoDevice_resync :
    ∀ failed ∈ [[], [List.replicate 128 (0x5A : Byte)]], ∀ g ∈ [[(0x11 : Byte)], List.replicate 120 0x5A],
      let p := failedScript failed ++ readScript (g ++ edidHeader) ++ quietClocks 1 ++ receiverScript false ++ quietClocks 1
      atMostOneFailed failed ∧ 1 ≤ g.length ∧ g.length ≤ 120 ∧
        (∀ j, j < g.length → ((g ++ edidHeader).drop j).take 8 ≠ edidHeader) ∧
        (onBus (bench .master) 40000 (p ++ [])).undisturbed 40000 p [] := by
  intro failed hf g hg
  refine ⟨atMostOneFailed_ends failed hf, ?_, ?_, ?_, by unfold onBus; simp, rfl⟩ <;> clear hf <;> revert g <;> decide +kernel

theorem witness_EdidFillsumWritesTheChecksum :
    edidBody.length = 127 ∧ (onBus (stored (bench .master) .edid 0 edidBody) 4 []).holds .edid 0 edidBody :=
  ⟨by decide +kernel, holds_of_read (n := 127) (by decide +kernel)⟩

theorem witness_EdidValidateChecks :
    (edidBody ++ [0x06]).length = 128 ∧
      (onBus (stored (bench .slave) .edid 0 (edidBody ++ [0x06])) 3 []).holds .edid 0 (edidBody ++ [0x06]) :=
  ⟨by decide +kernel, holds_of_read (n := 128) (by decide +kernel)⟩

theorem witness_FillsumThenValidateIsOk :
    edidBody.length = 127 ∧ edidBody.take 8 = [0x00, 0xFF, 0xFF, 0xFF, 0xFF, 0xFF, 0xFF, 0x00] ∧
      (onBus (stored (bench .master) .edid 0 edidBody) 4 []).holds .edid 0 edidBody :=
  ⟨by decide +kernel, by decide +kernel, holds_of_read (n := 127) (by decide +kernel)⟩

theorem witness_EdidReadHeaderAtStart :
    ∀ failed ∈ [[], [List.replicate 128 (0x5A : Byte)]],
      let p := failedScript failed ++ readScript (edidBody ++ [0x06]) ++ quietClocks 1
      atMostOneFailed failed ∧ (edidBody ++ [0x06]).length = 128 ∧ (edidBody ++ [0x06]).take 8 = edidHeader ∧
        (onBus (bench .master) 40000 (p ++ [])).undisturbed 40000 p [] :=
  fun failed hf => ⟨atMostOneFailed_ends failed hf, by decide +kernel, by decide +kernel, by unfold onBus; simp, rfl⟩

/-- The shortest and the longest stream before the header, on the first pass and on the second. -/
theorem witness_EdidReadResynchronises :
    ∀ failed ∈ [[], [List.replicate 128 (0x5A : Byte)]], ∀ g ∈ [[(0x11 : Byte)], List.replicate 120 0x5A],
      let p := failedScript failed ++ readScript (g ++ edidHeader) ++ readScript (List.replicate 120 0) ++ quietClocks 1
      atMostOneFailed failed ∧ 1 ≤ g.length ∧ g.length ≤ 120 ∧ (List.replicate 120 (0 : Byte)).length = 120 ∧
        (∀ j, j < g.length → ((g ++ edidHeader).drop j).take 8 ≠ edidHeader) ∧
        (onBus (bench .master) 40000 (p ++ [])).undisturbed 40000 p [] := by
  intro failed hf g hg
  refine ⟨atMostOneFailed_ends failed hf, ?_, ?_, by decide +kernel, ?_, by unfold onBus; simp, rfl⟩ <;> clear hf <;>
    revert g <;> decide +kernel

theorem witness_EdidReadFailsAfterTwoPasses :
    let bs := List.replicate 128 (0x5A : Byte)
    let p := failedScript [bs] ++ readScript bs ++ quietClocks 1
    noHeaderIn bs ∧ (onBus (bench .master) 40000 (p ++ [])).undisturbed 40000 p [] :=
  ⟨noHeaderIn_replicate, by unfold onBus; simp, rfl⟩

/-- An idle state and one in the middle of a command, both with a next state. -/
theorem witness_StepKeepsTheInvariant :
    (∃ t, (onBus (stored (bench .master) .edid 127 [1]) 0 []).Inv ∧
      step (onBus (stored (bench .master) .edid 127 [1]) 0 []) = .next t) ∧
    ∃ t, (onBus (running (bench .master)) 2 [sclLow]).Inv ∧ step (onBus (running (bench .master)) 2 [sclLow]) = .next t :=
  ⟨⟨_, ⟨by decide, by decide, by decide, by decide, by decide, by decide, by decide, by decide, by decide, by decide⟩, rfl⟩,
   ⟨_, ⟨by decide, by decide, by decide, by decide, by decide, by decide, by decide, by decide, by decide, by decide⟩, rfl⟩⟩

theorem witness_MasterCommandsFinish (n : Nat) :
    neededMode .ddcRead = some .master ∧ n ≤ (onBus (bench .master) n (quietClocks n)).env.quiet ∧
      n ≤ (onBus (bench .master) n (quietClocks n)).env.peer.length := by
  refine ⟨rfl, ?_, ?_⟩ <;> simp [onBus, quietClocks]

/-- A fair schedule: after each step of the master, seven of the slave. -/
def lockstep (n : Nat) : List JoinedTurn := (List.replicate n (.master :: List.replicate 7 .slave)).flatten

theorem witness_JoinedRoundTrip :
    ((bench .master).idle ∧ (bench .master).ctrl.mode = .master ∧ (bench .slave).ctrl.mode = .slave ∧
      (bench .slave).ctrl.b2b = false ∧ (bench .master).out = ⟨.released, .released⟩ ∧
      (bench .slave).out = ⟨.released, .released⟩ ∧ (bench .slave).auto.st = .waitStart ∧
      (bench .slave).auto.prev = ⟨.high, .high⟩) ∧
    (∀ t ∈ lockstep 8 ++ lockstep 59, t = .master ∨ t = .slave) ∧ (lockstep 8).count .master = 8 ∧
      (lockstep 59).count .master = 59 ∧
      seen (exec .sGetByte ((bench .slave).setQuiet 0)) (fun b1 => fairSchedule true
        (.command .mStart :: lockstep 8 ++ .command (.mSendByte 0xA1) :: lockstep 59) (bench .master, b1)) = some true :=
  ⟨⟨rfl, by decide⟩, by decide +kernel, by decide +kernel, by decide +kernel, by decide +kernel⟩

/-- R66 in a joined system: the second command is dropped, and DROPPED shows it. -/
theorem test_joined_dropped :
    (match joinedRun [.command .mStart, .master, .command .mStop] (bench .master, bench .slave) with
      | .next q => some (q.1.cmd, q.1.status)
      | .fault _ => none
      | .refused _ => none) = some (0x10, ⟨true, true, .ok⟩) := by decide

/-- R45, R69 in a joined system: DDC_WRITE 1 with TXBUF[3] unmarked is the model fault, when it comes to the byte. -/
theorem test_joined_fault :
    (match joinedRun (.command (.ddcWrite 1) :: List.replicate 6 .master) (bench .master, bench .slave) with
      | .next _ => none
      | .fault f => some f
      | .refused _ => none) = some (.commandReadUnmarked 0x10C) := by decide

/-- A schedule in which the slave sleeps while the master moves both lines is not fair (R242). -/
theorem test_unfair_schedule :
    fairSchedule true (.command .mStart :: List.replicate 8 .master ++ .command (.mSendByte 0) :: List.replicate 3 .master)
      (bench .master, bench .slave) = false := by decide +kernel

end Sys2Proof.Tests
end

section
/-! SUPPORT and CERTIFICATE. The steps of a running command say nothing of where a step of the machine ends (assumption log
4): what a controller step makes of a listed draw and of the count of steps left to the host's next act. -/

namespace Sys2Proof.Machine

/-! ### A free draw and a listed one -/

/-- `s` with its next free draw listed as the peer's whole script (assumption log 1). -/
def State.withFreeDrawListed (s : State) : State :=
  { s with env := { s.env with peer := [Config.peerDrive s.env.unit s.env.draws], draws := s.env.draws + 1 } }

theorem State.withFreeDrawListed_drawn {s : State} (h : s.env.peer = []) : s.withFreeDrawListed.drawn = s.drawn := by
  rw [s.drawn_peer_nil h, s.withFreeDrawListed.drawn_peer_cons rfl]
  simp [State.withFreeDrawListed, h]

theorem State.withFreeDrawListed_levels {s : State} (h : s.env.peer = []) : s.withFreeDrawListed.levels = s.levels := by
  unfold State.levels State.peerDrive
  rw [h]
  rfl

/-- A step that samples sees the peer's drive and the draw alone, so it does not tell a listed draw from a free one. -/
theorem runMicro_withFreeDrawListed {m : Micro} {s : State} (hm : m.samples = true) (h : s.env.peer = []) :
    runMicro m s.withFreeDrawListed = runMicro m s := by
  have hd := State.withFreeDrawListed_drawn h
  have hl := State.withFreeDrawListed_levels h
  cases m
  case pollScl k => simp only [runMicro, hd, hl]
  case sampleAck => simp only [runMicro, hd, hl]
  case sampleBit i => simp only [runMicro, hd, hl]; rfl
  case getSample => simp only [runMicro, State.slaveSample, hd, hl]; rfl
  case waitSample e => simp only [runMicro, State.slaveSample, hd, hl]; rfl
  all_goals cases hm

theorem State.needsDraw_cons {s : State} {m : Micro} {rest : List Micro} (h : s.seq.todo = m :: rest) :
    s.needsDraw = (m.samples && s.env.peer.isEmpty) := by
  unfold State.needsDraw; rw [h]

theorem State.withFreeDrawListed_needsDraw (s : State) : s.withFreeDrawListed.needsDraw = false := by
  cases ht : s.seq.todo with
  | nil => unfold State.needsDraw; rw [show s.withFreeDrawListed.seq.todo = [] from ht]
  | cons m rest => rw [State.needsDraw_cons (s := s.withFreeDrawListed) ht]; exact Bool.and_false _

theorem controllerStep_withFreeDrawListed {s : State} (h : s.needsDraw = true) :
    controllerStep s.withFreeDrawListed = controllerStep s := by
  cases ht : s.seq.todo with
  | nil => simp [State.needsDraw, ht] at h
  | cons m rest =>
    simp only [State.needsDraw_cons ht, Bool.and_eq_true, List.isEmpty_iff] at h
    obtain ⟨hm, hp⟩ := h
    rw [controllerStep_cons ht, controllerStep_cons (s := s.withFreeDrawListed) ht]
    exact runMicro_withFreeDrawListed (s := s.jump rest) hm hp

/-! ### The controller's turn -/

/-- At least one step, with a drive listed for it, and then those left up to the host's next act. -/
theorem controllerTurn_eq_runController {s : State} (ht : s.seq.todo ≠ []) (hd : s.needsDraw = false) :
    controllerTurn s = runController (max 1 s.env.quiet) s := by
  obtain ⟨k, hk⟩ : ∃ k, max 1 s.env.quiet = k + 1 := ⟨max 1 s.env.quiet - 1, by omega⟩
  have hk' : s.env.quiet - 1 = k := by omega
  unfold controllerTurn
  rw [hk', hk]
  exact (runController_succ k ht hd).symm

/-- The turn that takes a free draw is the turn that finds that draw listed. -/
theorem controllerTurn_withFreeDrawListed {s : State} (h : s.needsDraw = true) :
    controllerTurn s.withFreeDrawListed = controllerTurn s := by
  unfold controllerTurn
  rw [controllerStep_withFreeDrawListed h]
  rfl

/-! ### The steps left to the host's next act -/

theorem State.readByte_congr {s t : State} (h : t.mem = s.mem) (b : Buffer) (i : Nat) :
    t.readByte b i = s.readByte b i := by
  unfold State.readByte; rw [h]

theorem State.readBytes_congr {s t : State} (h : t.mem = s.mem) (b : Buffer) (i n : Nat) :
    t.readBytes b i n = s.readBytes b i n := by
  induction n generalizing i with
  | zero => rfl
  | succ n ih => simp only [State.readBytes, State.readByte_congr h, ih]

@[simp] theorem State.setQuiet_readBytes (s : State) (q : Nat) (b : Buffer) (i n : Nat) :
    (s.setQuiet q).readBytes b i n = s.readBytes b i n :=
  State.readBytes_congr (s.setQuiet_mem q) b i n

theorem State.setQuiet_drawn (s : State) (q : Nat) : (s.setQuiet q).drawn = s.drawn.setQuiet q := by
  cases hp : s.env.peer with
  | nil => rw [s.drawn_peer_nil hp, (s.setQuiet q).drawn_peer_nil hp]; rfl
  | cons d ds => rw [s.drawn_peer_cons hp, (s.setQuiet q).drawn_peer_cons hp]; rfl

theorem State.setQuiet_ite (p : Prop) [Decidable p] (t u : State) (q : Nat) :
    (if p then t else u).setQuiet q = if p then t.setQuiet q else u.setQuiet q := apply_ite (State.setQuiet · q) p t u

/-- An outcome with the steps left to the host's next act taken away. -/
def quieted (o : Outcome) : Outcome :=
  match o with
  | .next t => .next (t.setQuiet 0)
  | .fault f => .fault f
  | .refused r => .refused r

theorem quieted_next (t : State) : quieted (.next t) = .next (t.setQuiet 0) := rfl

theorem quieted_withByte (r : Except Fault Byte) (k : Byte → State) :
    quieted (withByte r k) = withByte r fun v => (k v).setQuiet 0 := by
  cases r <;> rfl

theorem quieted_withTest (r : Except Fault Bool) (k : Bool → State) :
    quieted (withTest r k) = withTest r fun b => (k b).setQuiet 0 := by
  cases r <;> rfl

theorem pollNext_setQuiet (k : Nat) (l : Level) (s : State) :
    pollNext k l (s.setQuiet 0) = (pollNext k l s).setQuiet 0 := by
  cases l with
  | high => rfl
  | low => rw [pollNext, pollNext, State.setQuiet_ite]; rfl

theorem applyStretch_setQuiet (s : State) : applyStretch (s.setQuiet 0) = (applyStretch s).setQuiet 0 := by
  unfold applyStretch; rw [State.setQuiet_ite]; rfl

theorem edidVerdict_setQuiet (h : Bool) (s : State) :
    edidVerdict h (s.setQuiet 0) = (edidVerdict h s).setQuiet 0 := by
  unfold edidVerdict; rw [State.setQuiet_ite, State.setQuiet_ite]; rfl

/-- No step of the sequencer looks at how many steps are left to the host's next act. -/
theorem runMicro_setQuiet (m : Micro) (s : State) : runMicro m (s.setQuiet 0) = quieted (runMicro m s) := by
  cases m <;> simp only [runMicro]
  -- tests of the lines
  case clockLowGuard => rw [quieted_next, State.setQuiet_ite]; rfl
  case releaseStretch => rw [quieted_next, State.setQuiet_ite]; rfl
  case releaseStretchDelayed => rw [quieted_next, State.setQuiet_ite]; rfl
  case applyStretch => rw [applyStretch_setQuiet]; rfl
  -- samples
  case pollScl => rw [State.setQuiet_drawn, pollNext_setQuiet]; rfl
  case sampleAck => rw [State.setQuiet_drawn]; rfl
  case sampleBit => rw [State.setQuiet_drawn]; rfl
  case getSample => simp only [State.slaveSample, State.setQuiet_drawn]; rfl
  case waitSample => simp only [State.slaveSample, State.setQuiet_drawn]; rfl
  -- reads of the buffers
  case txsum => simp only [quieted_withByte, State.txsum, State.setQuiet_readBytes]; rfl
  case rxsum => simp only [quieted_withByte, State.rxsum, State.setQuiet_readBytes]; rfl
  case edidsum => simp only [quieted_withByte, State.edidsum, State.setQuiet_readBytes]; rfl
  case edidTotal => simp only [quieted_withByte, State.edidTotal, State.setQuiet_readBytes]; rfl
  case sendTx => rw [quieted_withByte]; rfl
  case rxcheckLength => rw [quieted_withByte]; rfl
  case rxVerdict => rw [quieted_withByte]; rfl
  case edidVerdict =>
    simp only [quieted_withTest, State.edidHeaderAtStart, State.setQuiet_readBytes, edidVerdict_setQuiet]
  case edidMatch =>
    simp only [State.headerAt, State.setQuiet_readBytes, State.setQuiet_edid]
    split
    · rfl
    · rw [quieted_withTest]; rfl
  all_goals rfl

theorem controllerStep_setQuiet (s : State) : controllerStep (s.setQuiet 0) = quieted (controllerStep s) := by
  cases ht : s.seq.todo with
  | nil => rw [controllerStep_idle ht, controllerStep_idle (s := s.setQuiet 0) ht]; rfl
  | cons m rest =>
    rw [controllerStep_cons ht, controllerStep_cons (s := s.setQuiet 0) ht]
    exact runMicro_setQuiet m (s.jump rest)

/-- The controller counts its steps itself: what `quiet` held before them does not matter. -/
theorem runController_setQuiet (n : Nat) (s : State) : runController n (s.setQuiet 0) = runController n s := by
  induction n generalizing s with
  | zero => rfl
  | succ n ih =>
    by_cases ht : s.seq.todo = []
    · simp only [runController, State.setQuiet_seq, ht, if_true]; rfl
    · have hd' : (s.setQuiet 0).needsDraw = s.needsDraw := rfl
      cases hd : s.needsDraw with
      | true => simp only [runController, State.setQuiet_seq, ht, hd, hd', if_true, if_false]; rfl
      | false =>
        rw [runController_succ n ht hd, runController_succ (s := s.setQuiet 0) n ht (hd'.trans hd),
          controllerStep_setQuiet]
        cases controllerStep s with
        | next t => exact ih t
        | fault f => rfl
        | refused r => rfl

/-! ### Steps in two parts -/

/-- Steps that were stopped only by the host's next act being due, and go on with n more. -/
theorem runController_add {m : Nat} {s t : State} (n : Nat) (h : runController m s = .next t) (hq : t.env.quiet = 0)
    (ht : t.seq.todo ≠ []) : runController (m + n) s = runController n t := by
  induction m generalizing s with
  | zero =>
    cases h
    rw [Nat.zero_add, runController_setQuiet]
  | succ m ih =>
    rw [runController] at h
    split_ifs at h with hi hd
    · cases h; exact absurd hi ht
    · cases h; cases hq
    · rw [show m + 1 + n = (m + n) + 1 by omega, runController_succ _ hi (by simpa using hd)]
      cases hc : controllerStep s with
      | next u => rw [hc] at h; exact ih h
      | fault f => rw [hc] at h; cases h
      | refused r => rw [hc] at h; cases h

/-- While a command runs and the host's next act is not due, it is the controller's turn. -/
theorem step_eq_controllerTurn {s : State} (hb : s.status.busy = true) (hq : 0 < s.env.quiet ∨ s.env.host = []) :
    step s = controllerTurn s := by
  refine step_of_controllerDue ?_
  simpa [controllerDue, hb] using hq

/-- Settles O6: the controller's turn is its steps up to the host's next act, with a free draw listed first where one is
needed; and the steps of one turn and then of the next add up. -/
theorem runningCommandGoesOn : Obligations.RunningCommandGoesOn := by
  refine ⟨fun s hb hq ht => ⟨fun hd => ?_, fun hd => ?_⟩, fun s t m n h hq ht => runController_add n h hq ht⟩
  · rw [step_eq_controllerTurn hb hq, controllerTurn_eq_runController ht hd]
  · calc step s = controllerTurn s := step_eq_controllerTurn hb hq
      _ = controllerTurn s.withFreeDrawListed := (controllerTurn_withFreeDrawListed hd).symm
      _ = runController (max 1 s.env.quiet) s.withFreeDrawListed :=
        controllerTurn_eq_runController ht s.withFreeDrawListed_needsDraw

end Sys2Proof.Machine
end

section
/-! SUPPORT and CERTIFICATE. The transition table of the slave automaton (spec/41_engine_slave.md R134, R135) along the steps
of S_GET_BYTE. -/

namespace Sys2Proof.Machine

/-! ### Events and conditions of a sample pair -/

@[simp] theorem lineEvent_eq_falling_iff (previous current : Level) :
    lineEvent previous current = .falling ↔ previous = .high ∧ current = .low := by
  cases previous <;> cases current <;> decide

@[simp] theorem lineEvent_eq_rising_iff (previous current : Level) :
    lineEvent previous current = .rising ↔ previous = .low ∧ current = .high := by
  cases previous <;> cases current <;> decide

@[simp] theorem lineEvent_eq_high_iff (previous current : Level) :
    lineEvent previous current = .high ↔ previous = .high ∧ current = .high := by
  cases previous <;> cases current <;> decide

/-- A START is SDA falling with SCL High in both samples (R131). -/
theorem isStart_iff (previous current : Levels) : isStart previous current = true ↔
    (previous.sda = .high ∧ current.sda = .low) ∧ previous.scl = .high ∧ current.scl = .high := by
  simp [isStart]

/-- A STOP is SDA rising with SCL High in both samples (R131). -/
theorem isStop_iff (previous current : Levels) : isStop previous current = true ↔
    (previous.sda = .low ∧ current.sda = .high) ∧ previous.scl = .high ∧ current.scl = .high := by
  simp [isStop]

/-- A sample pair with no change of SDA while SCL is High is neither condition. -/
theorem no_condition {previous current : Levels}
    (h : ¬ (previous.scl = .high ∧ current.scl = .high ∧ previous.sda ≠ current.sda)) :
    isStart previous current = false ∧ isStop previous current = false := by
  constructor
  · rw [Bool.eq_false_iff, Ne, isStart_iff]
    rintro ⟨⟨hp, hc⟩, hsp, hsc⟩
    exact h ⟨hsp, hsc, by simp [hp, hc]⟩
  · rw [Bool.eq_false_iff, Ne, isStop_iff]
    rintro ⟨⟨hp, hc⟩, hsp, hsc⟩
    exact h ⟨hsp, hsc, by simp [hp, hc]⟩

/-! ### The row that a sample takes -/

section Row
variable {a : Automaton} {cur : Levels}
  (hc : ¬ (a.prev.scl = .high ∧ cur.scl = .high ∧ a.prev.sda ≠ cur.sda))
include hc

/-- Without a START or a STOP, S_GET_BYTE goes on with the row's actions and its loop (R140). -/
theorem getByteNext_of_row {actions : List Micro}
    (h : automatonRow a.st (lineEvent a.prev.scl cur.scl) a.count cur.sda = some actions) :
    getByteNext a cur = actions ++ getLoop := by
  obtain ⟨h1, h2⟩ := no_condition hc
  simp only [getByteNext, h1, h2, h, Bool.false_and, Bool.false_eq_true, if_false]

/-- Without a START or a STOP, the falling clock in AckDone completes the byte (R135). -/
theorem getByteNext_of_completion (hs : a.st = .ackDone) (hf : a.prev.scl = .high ∧ cur.scl = .low) :
    getByteNext a cur = byteCompletion := by
  obtain ⟨h1, h2⟩ := no_condition hc
  simp only [getByteNext, h1, h2, hs, (lineEvent_eq_falling_iff _ _).2 hf, automatonRow, Bool.false_and,
    Bool.false_eq_true, if_false]

end Row

/-- A combination that the table does not list has no actions (R134). -/
theorem automatonRow_unlisted {st : SlaveState} {e : Event} (count : Nat) (sda : Level)
    (hf : e = .falling → st ∈ [.waitStart, .clockAvailable, .ack])
    (hr : e = .rising → st ∈ [.waitStart, .start, .data, .ackDone]) : automatonRow st e count sda = some [] := by
  cases e with
  | low => cases st <;> rfl
  | high => cases st <;> rfl
  | rising =>
    have := hr rfl
    fin_cases this <;> rfl
  | falling =>
    have := hf rfl
    fin_cases this <;> rfl

/-- The bit written is the sampled level, and every other bit stands. -/
theorem setBit_getLsbD (v : Byte) (i k : Nat) (l : Level) (hk : k < 8) :
    (setBit v i l).getLsbD k = if k = i then decide (l = .high) else v.getLsbD k := by
  by_cases h : k = i
  · subst h
    cases l <;> simp [setBit, hk]
  · cases l <;> simp [setBit, h, hk] <;> omega

/-! ### The steps of S_GET_BYTE -/

variable (s : State) (todo : List Micro) (peer : List Drives)

/-- S_GET_BYTE in its own mode, from its first position (R140). -/
theorem exec_sGetByte (hm : s.ctrl.mode = .slave) :
    exec .sGetByte s = runController s.env.quiet (s.runningAt (.releaseStretch :: getLoop) s.env.peer) := by
  show runCommand (some .slave) ([.releaseStretch] ++ getLoop) s = _
  rw [runCommand_allowed (by simp [modeAllows, hm]), ← runController_setQuiet]
  rfl

/-- A step that takes no sample, then the rest. -/
theorem Runs.unsampled {n : Nat} {s t u : State} {m : Micro} {rest : List Micro} (h : s.seq.todo = m :: rest)
    (hd : m.samples = false) (hm : runMicro m (s.jump rest) = .next u) (g : Runs n u t) : Runs (n + 1) s t :=
  .step h (by simp [hd]) hm g

/-- The steps up to the sample (R130, R138): SCL is released, and the automaton is as it was. -/
theorem sGetByte_samples (d : Drives) :
    Runs 3 (s.runningAt (.releaseStretch :: getLoop) (d :: peer))
      ((s.withOut s.out.sda .released).runningAt
        (.setPrev (levelsOf ⟨s.out.sda, .released⟩ d) :: getByteNext s.auto (levelsOf ⟨s.out.sda, .released⟩ d)) peer) := by
  have release : runMicro .releaseStretch (s.runningAt getLoop (d :: peer)) =
      .next ((s.withOut s.out.sda .released).runningAt getLoop (d :: peer)) := by
    obtain ⟨⟨sda, scl⟩, _⟩ := s
    cases scl <;> rfl
  exact .unsampled rfl rfl release (.unsampled rfl rfl rfl (.step rfl (by simp [State.runningAt]) rfl rfl))

/-- `ApplyStretch()` (R137): SCL is driven Low where STRETCH is 1 and the automaton stands in ClockAvailable. -/
theorem applyStretch_runningAt :
    applyStretch (s.runningAt todo peer) = (s.withOut s.out.sda
      (if s.ctrl.stretch ∧ s.auto.st = .clockAvailable then .low else s.out.scl)).runningAt todo peer := by
  have hiff : (s.ctrl.stretch && s.auto.st == .clockAvailable) = true ↔
      s.ctrl.stretch = true ∧ s.auto.st = .clockAvailable := by simp
  simp only [← hiff]
  unfold applyStretch
  show (if (s.ctrl.stretch && s.auto.st == .clockAvailable) = true then _ else _) = _
  split <;> rfl

/-- The end of a slave command, with its stretch (R137). -/
theorem applyStretch_finish_runs (code : Result) :
    Runs 2 (s.runningAt [.applyStretch, .finish code] peer)
      ((s.withOut s.out.sda (if s.ctrl.stretch ∧ s.auto.st = .clockAvailable then .low else s.out.scl)).finishedWith
        code peer) :=
  .unsampled rfl rfl (congrArg Host.Outcome.next (applyStretch_runningAt s [.finish code] peer)) (.unsampled rfl rfl rfl rfl)

/-- Byte completion (R135). -/
theorem byteCompletion_runs :
    Runs 9 (s.runningAt byteCompletion peer)
      (({ s with
        rxData := ⟨s.auto.shreg, s.auto.first⟩
        auto := ⟨if s.ctrl.b2b then .clockAvailable else .waitStart, 8, 0, false, s.auto.prev⟩ }.withOut .released
          (if s.ctrl.b2b ∧ s.ctrl.stretch then .low else s.out.scl)).finishedWith .ok peer) := by
  have hb : (s.ctrl.stretch = true ∧ (if s.ctrl.b2b then SlaveState.clockAvailable else .waitStart) = .clockAvailable) ↔
      s.ctrl.b2b = true ∧ s.ctrl.stretch = true := by
    cases s.ctrl.b2b <;> simp
  simp only [← hb]
  refine Runs.trans (m := 7) (n := 2) ?_ (applyStretch_finish_runs
    ({ s with
      rxData := ⟨s.auto.shreg, s.auto.first⟩
      auto := ⟨if s.ctrl.b2b then .clockAvailable else .waitStart, 8, 0, false, s.auto.prev⟩ }.withOut .released s.out.scl)
    peer .ok)
  exact .unsampled rfl rfl rfl (.unsampled rfl rfl rfl (.unsampled rfl rfl rfl (.unsampled rfl rfl rfl
    (.unsampled rfl rfl rfl (.unsampled rfl rfl rfl (.unsampled rfl rfl rfl rfl))))))

section Sample
variable {s : State} {d : Drives} {rest : List Drives} (hm : s.ctrl.mode = .slave) (hp : s.env.peer = d :: rest)
include hm hp

/-- After three steps the sample is taken and `prev` still to be written: the host reads the old automaton. -/
theorem exec_sGetByte_sampled (hq : s.env.quiet = 3) :
    exec .sGetByte s = .next ((s.withOut s.out.sda .released).runningAt
      (.setPrev (levelsOf ⟨s.out.sda, .released⟩ d) :: getByteNext s.auto (levelsOf ⟨s.out.sda, .released⟩ d)) rest) := by
  rw [exec_sGetByte s hm, hp, runController_of_runs (sGetByte_samples s rest d) (by omega), hq]
  rfl

/-- The fourth step writes `prev`; the row that the sample chose comes after it. -/
theorem exec_sGetByte_row (hq : 4 ≤ s.env.quiet) :
    let cur := levelsOf ⟨s.out.sda, .released⟩ d
    exec .sGetByte s = runController (s.env.quiet - 4) (((s.withOut s.out.sda .released).withAuto
      { s.auto with prev := cur }).runningAt (getByteNext s.auto cur) rest) := by
  intro cur
  rw [exec_sGetByte s hm, hp]
  exact runController_of_runs (Runs.trans (n := 1) (sGetByte_samples s rest d) (.unsampled rfl rfl rfl rfl)) hq

/-- A row's actions, and the loop again when the host's next act is due. -/
theorem exec_sGetByte_goesOn {n : Nat} {u : State} {actions : List Micro} {cur : Levels} {st : SlaveState}
    {e : Event} (hcur : cur = levelsOf ⟨s.out.sda, .released⟩ d)
    (hc : ¬ (s.auto.prev.scl = .high ∧ cur.scl = .high ∧ s.auto.prev.sda ≠ cur.sda))
    (hst : s.auto.st = st) (he : lineEvent s.auto.prev.scl cur.scl = e)
    (hrow : automatonRow st e s.auto.count cur.sda = some actions)
    (hr : Runs n (((s.withOut s.out.sda .released).withAuto { s.auto with prev := cur }).runningAt
      (actions ++ getLoop) rest) (u.runningAt getLoop rest)) (hq : s.env.quiet = 4 + n) :
    exec .sGetByte s = .next (u.runningAt getLoop rest) := by
  subst hcur hst he
  rw [exec_sGetByte_row hm hp (by omega), getByteNext_of_row hc hrow, runController_of_runs hr (by omega),
    show s.env.quiet - 4 - n = 0 by omega]
  rfl

end Sample

/-- Settles O35, row by row: the sample chooses the row, `prev` takes it, and then come the row's own actions. -/
theorem automatonTransitions : Obligations.AutomatonTransitions := by
  intro s d rest p cur falls rises goesOn hm hp hc
  have falling (h : falls) : lineEvent p.scl cur.scl = .falling := (lineEvent_eq_falling_iff _ _).2 h
  have rising (h : rises) : lineEvent p.scl cur.scl = .rising := (lineEvent_eq_rising_iff _ _).2 h
  refine ⟨?start, ?clockAvailable, ?dataBit, ?dataByte, ?ack, ?ackDone, ?unlisted, ?sampled⟩
  case start =>
    intro hst hf hq
    exact exec_sGetByte_goesOn (n := 1) hm hp rfl hc hst (falling hf) rfl (.unsampled rfl rfl rfl rfl) hq
  case clockAvailable =>
    intro hst hr hcount hq
    refine ⟨setBit s.auto.shreg (s.auto.count - 1) cur.sda, fun k hk => setBit_getLsbD _ _ k _ hk, ?_⟩
    exact exec_sGetByte_goesOn (n := 3) hm hp rfl hc hst (rising hr) rfl
      (.unsampled rfl rfl rfl (.unsampled rfl rfl rfl (.unsampled rfl rfl rfl rfl))) hq
  case dataBit =>
    intro hst hf hcount hq
    exact exec_sGetByte_goesOn (n := 1) hm hp rfl hc hst (falling hf) (if_neg hcount) (.unsampled rfl rfl rfl rfl) hq
  case dataByte =>
    intro hst hf hcount hq
    exact exec_sGetByte_goesOn (n := 2) hm hp rfl hc hst (falling hf) (if_pos hcount)
      (.unsampled rfl rfl rfl (.unsampled rfl rfl rfl rfl)) hq
  case ack =>
    intro hst hr hq
    exact exec_sGetByte_goesOn (n := 1) hm hp rfl hc hst (rising hr) rfl (.unsampled rfl rfl rfl rfl) hq
  case ackDone =>
    intro hst hf hq
    rw [exec_sGetByte_row hm hp (by omega), getByteNext_of_completion hc hst hf,
      runController_of_runs (byteCompletion_runs _ rest) (by omega)]
    exact runController_idle _ rfl rfl
  case unlisted =>
    intro hf hr hq
    exact exec_sGetByte_goesOn (n := 0) hm hp rfl hc rfl rfl
      (automatonRow_unlisted _ _ (fun h => hf ((lineEvent_eq_falling_iff _ _).1 h))
      fun h => hr ((lineEvent_eq_rising_iff _ _).1 h)) rfl hq
  case sampled =>
    intro hq
    exact ⟨_, exec_sGetByte_sampled hm hp hq, rfl, rfl, rfl⟩

end Sys2Proof.Machine
end

section
/-! SUPPORT and CERTIFICATE. The invariant of a reachable state (spec/10_state.md R34, R39, R40, R46; spec/20_memory.md R69;
spec/43_codec_edid.md R184; spec/60_exceptions.md R203): every program of a command keeps to it, so every step does. -/

namespace Sys2Proof.Machine

/-! ### The two halves of the invariant -/

/-- The half of the invariant that speaks of the registers, the buffers and the automaton. -/
structure State.DataInv (s : State) : Prop where
  memoryForm : Memory.wf s.mem = true
  memoryBuffers : ∀ cell ∈ s.mem, bufferOffset cell.1 = true
  frameLenBound : s.frameLen.toNat ≤ 35
  countBound : s.auto.count ≤ 8
  cursorBound : s.edid.cursor.all (· ≤ 127) = true

/-- What makes a list of steps a position, in a mode and with a cursor. -/
structure PositionOk (mode : Mode) (cursor : Option Nat) (todo : List Micro) : Prop where
  closes : todo.getLast?.all Micro.closes = true
  bounds : ∀ m ∈ todo, m.inBounds = true
  cursorKept : cursorInBounds cursor todo = true
  ownMode : ∀ m ∈ todo, m.role.all (· = mode) = true

theorem State.Inv.data {s : State} (h : s.Inv) : s.DataInv :=
  ⟨h.memoryForm, h.memoryBuffers, h.frameLenBound, h.countBound, h.cursorBound⟩

/-- The half that speaks of the position a state is at (R40, R69, R184, R203). -/
structure PositionInv (s : State) : Prop where
  cursorBound : s.edid.cursor.all (· ≤ 127) = true
  busyPosition : s.status.busy = true ↔ s.seq.todo ≠ []
  position : PositionOk s.ctrl.mode s.edid.cursor s.seq.todo

theorem State.Inv.position {s : State} (h : s.Inv) : PositionInv s :=
  ⟨h.cursorBound, h.busyPosition, h.positionCloses, h.positionBounds, h.positionCursor, h.positionMode⟩

theorem State.Inv.of_halves {s : State} (d : s.DataInv) (p : PositionInv s) : s.Inv :=
  ⟨d.memoryForm, d.memoryBuffers, d.frameLenBound, d.countBound, d.cursorBound, p.busyPosition, p.position.closes,
    p.position.bounds, p.position.cursorKept, p.position.ownMode⟩

/-- An idle state stands at no position. -/
theorem PositionInv.of_idle {s : State} (hc : s.edid.cursor.all (· ≤ 127) = true) (hb : s.status.busy = false)
    (ht : s.seq.todo = []) : PositionInv s :=
  ⟨hc, by simp [hb, ht], by rw [ht]; exact ⟨rfl, by simp, rfl, by simp⟩⟩

/-- `t` has the buffers, FRAMELEN, `count` and the cursor of `s`. -/
def sameBounded (s t : State) : Prop :=
  t.mem = s.mem ∧ t.frameLen = s.frameLen ∧ t.auto.count = s.auto.count ∧ t.edid.cursor = s.edid.cursor

theorem State.DataInv.congr {s t : State} (d : s.DataInv) (h : sameBounded s t) : t.DataInv := by
  obtain ⟨hm, hf, hc, he⟩ := h
  exact ⟨hm ▸ d.memoryForm, hm ▸ d.memoryBuffers, hf ▸ d.frameLenBound, hc ▸ d.countBound, he ▸ d.cursorBound⟩

theorem sameBounded_drawn (s : State) : sameBounded s s.drawn := by simp [sameBounded]

theorem State.DataInv.write {s : State} (d : s.DataInv) {a : Nat} (ha : bufferOffset a = true) (v : Byte) :
    State.DataInv { s with mem := Memory.write s.mem a v } where
  memoryForm := Memory.wf_write a v d.memoryForm
  memoryBuffers cell hc := by
    rcases Memory.mem_write hc with rfl | h
    · exact ha
    · exact d.memoryBuffers cell h
  frameLenBound := d.frameLenBound
  countBound := d.countBound
  cursorBound := d.cursorBound

theorem State.DataInv.storeByte {s : State} (d : s.DataInv) {b : Buffer} {i : Nat} (h : i < b.size) (v : Byte) :
    (s.storeByte b i v).DataInv := d.write (Buffer.addr_bufferOffset h) v

theorem State.DataInv.storeAll {s : State} (d : s.DataInv) {b : Buffer} {i : Nat} {bs : List Byte}
    (h : i + bs.length ≤ b.size) : (s.storeAll b i bs).DataInv := by
  induction bs generalizing s i with
  | nil => exact d
  | cons v vs ih =>
    simp only [List.length_cons] at h
    exact ih (d.storeByte (by omega) v) (by omega)

/-- An idle state has the invariant where its data are bounded. -/
theorem State.Inv.of_idle {s : State} (d : s.DataInv) (hb : s.status.busy = false) (ht : s.seq.todo = []) : s.Inv :=
  .of_halves d (.of_idle d.cursorBound hb ht)

theorem State.DataInv.finish {s : State} (d : s.DataInv) (r : Result) : (s.finish r).Inv :=
  .of_idle (d.congr ⟨rfl, rfl, rfl, rfl⟩) rfl rfl

/-! ### Programs that fit at a position -/

/-- A step that leaves the cursor and does not store at it. -/
def Micro.cursorFree : Micro → Bool
  | .setCursor _ => false
  | .edidStore => false
  | .edidAdvance => false
  | _ => true

/-- A step that may stand at any position of a command of this mode. -/
def Micro.fits (mode : Mode) (m : Micro) : Bool := m.inBounds && m.role.all (· = mode) && m.cursorFree

theorem Micro.fits_iff (mode : Mode) (m : Micro) :
    m.fits mode = true ↔ m.inBounds = true ∧ m.role.all (· = mode) = true ∧ m.cursorFree = true := by
  simp only [Micro.fits, Bool.and_eq_true, and_assoc]

theorem cursorInBounds_cons_of_cursorFree {m : Micro} (h : m.cursorFree = true) (c : Option Nat) (rest : List Micro) :
    cursorInBounds c (m :: rest) = cursorInBounds c rest := by
  cases m
  case setCursor => cases h
  case edidStore => cases h
  case edidAdvance => cases h
  all_goals rfl

theorem getLast?_cons_of_ne_nil {m : Micro} {rest : List Micro} (h : rest ≠ []) :
    (m :: rest).getLast? = rest.getLast? := by
  obtain ⟨n, ns, rfl⟩ := List.exists_cons_of_ne_nil h
  exact List.getLast?_cons_cons

/-- A fitting step in front of a position. -/
theorem PositionOk.cons {mode : Mode} {c : Option Nat} {m : Micro} {rest : List Micro} (hm : m.fits mode = true)
    (h : PositionOk mode c rest) (hr : rest ≠ []) : PositionOk mode c (m :: rest) := by
  obtain ⟨hb, ho, hc⟩ := (m.fits_iff mode).1 hm
  exact ⟨by rw [getLast?_cons_of_ne_nil hr]; exact h.closes, List.forall_mem_cons.2 ⟨hb, h.bounds⟩,
    by rw [cursorInBounds_cons_of_cursorFree hc]; exact h.cursorKept, List.forall_mem_cons.2 ⟨ho, h.ownMode⟩⟩

/-- A fitting program in front of a position. -/
theorem PositionOk.append {mode : Mode} {c : Option Nat} {ms rest : List Micro} (hm : ms.all (Micro.fits mode) = true)
    (h : PositionOk mode c rest) (hr : rest ≠ []) : PositionOk mode c (ms ++ rest) := by
  induction ms with
  | nil => exact h
  | cons m ms ih =>
    simp only [List.all_cons, Bool.and_eq_true] at hm
    exact .cons hm.1 (ih hm.2) (by simp [hr])

/-- A single step that closes. -/
theorem PositionOk.single {mode : Mode} {m : Micro} (c : Option Nat) (hm : m.fits mode = true) (hc : m.closes = true) :
    PositionOk mode c [m] := by
  obtain ⟨hb, ho, hf⟩ := (m.fits_iff mode).1 hm
  exact ⟨hc, by simpa using hb, by rw [cursorInBounds_cons_of_cursorFree hf]; rfl, by simpa using ho⟩

/-- A fitting program that ends in a closing step. -/
theorem PositionOk.closed {mode : Mode} {ms : List Micro} {m : Micro} (c : Option Nat)
    (hm : ms.all (Micro.fits mode) = true) (hl : m.fits mode = true) (hc : m.closes = true) :
    PositionOk mode c (ms ++ [m]) := .append hm (.single c hl hc) (by simp)


theorem PositionOk.setCursor {mode : Mode} {d : Option Nat} {rest : List Micro} (c : Option Nat)
    (hd : d.all (· ≤ 127) = true) (h : PositionOk mode d rest) (hr : rest ≠ []) :
    PositionOk mode c (.setCursor d :: rest) :=
  ⟨by rw [getLast?_cons_of_ne_nil hr]; exact h.closes, List.forall_mem_cons.2 ⟨rfl, h.bounds⟩,
    by rw [cursorInBounds, hd, h.cursorKept]; rfl, List.forall_mem_cons.2 ⟨rfl, h.ownMode⟩⟩

/-- The master procedures fit at a position of a master command. -/
theorem mStartProc_fits : mStartProc.all (Micro.fits .master) = true := rfl
theorem mStopProc_fits : mStopProc.all (Micro.fits .master) = true := rfl
theorem mSendProc_fits (b : Byte) : (mSendProc b).all (Micro.fits .master) = true := rfl
theorem mRecvProc_fits : mRecvProc.all (Micro.fits .master) = true := rfl
theorem mAckBitProc_fits (v : Drive) : (mAckBitProc v).all (Micro.fits .master) = true := rfl

theorem all_flatMap_of_forall {α β : Type} {xs : List α} {f : α → List β} {p : β → Bool}
    (h : ∀ x ∈ xs, (f x).all p = true) : (xs.flatMap f).all p = true := by
  rw [List.all_flatMap, List.all_eq_true]
  exact h

/-- A Valid length byte carries 3..35 (spec/42_codec_ddcci.md R152). -/
theorem classify_valid {l : Byte} {n : Nat} (h : classify l = .valid n) : lenMin ≤ n ∧ n ≤ lenMax := by
  unfold classify at h
  split_ifs at h with h1 h2
  cases h
  exact h2.2

/-! ### What the commands go on with -/

theorem getByteNext_ok (c : Option Nat) (a : Automaton) (cur : Levels) :
    PositionOk .slave c (getByteNext a cur) := by
  have loop {ms : List Micro} (h : ms.all (Micro.fits .slave) = true) : PositionOk .slave c (ms ++ getLoop) :=
    .append h (.closed (ms := [.delay]) c rfl rfl rfl) (by simp [getLoop])
  unfold getByteNext
  split
  · exact loop rfl
  split
  · exact loop rfl
  split
  · rename_i actions h
    refine loop ?_
    unfold automatonRow at h
    split at h
    case h_4 => split_ifs at h <;> (cases h; rfl)
    case h_6 => cases h
    all_goals cases h; rfl
  · exact .closed (ms := byteCompletion.dropLast) c rfl rfl rfl

theorem getByteNext_ne_nil (a : Automaton) (cur : Levels) : getByteNext a cur ≠ [] := by
  unfold getByteNext
  split
  · simp [startActions]
  split
  · simp [stopActions]
  split <;> simp [getLoop, byteCompletion]

theorem waitClockNext_ok {c : Option Nat} (e : Event) (p cur : Levels) {rest : List Micro}
    (h : PositionOk .slave c rest) (hr : rest ≠ []) :
    PositionOk .slave c (waitClockNext e p cur rest) ∧ waitClockNext e p cur rest ≠ [] := by
  unfold waitClockNext
  split
  · exact ⟨.closed (ms := .setSda .released :: startActions) c rfl rfl rfl, by simp⟩
  split
  · exact ⟨.closed c rfl rfl rfl, by simp⟩
  split
  · exact ⟨h, hr⟩
  · exact ⟨.append (ms := waitClock e) rfl h hr, by simp [hr]⟩

theorem sendToMasterEndNext_ok (c : Option Nat) (acked : Bool) : PositionOk .slave c (sendToMasterEndNext acked) := by
  cases acked
  · exact .closed (ms := [.setSt .waitStart]) c rfl rfl rfl
  · exact .closed (ms := [.setSt .clockAvailable, .applyStretch]) c rfl rfl rfl

theorem stopIfNackNext_ok {c : Option Nat} (acked : Bool) {rest : List Micro} (h : PositionOk .master c rest)
    (hr : rest ≠ []) : PositionOk .master c (stopIfNackNext acked rest) ∧ stopIfNackNext acked rest ≠ [] := by
  cases acked
  · exact ⟨.closed c mStopProc_fits rfl rfl, by simp [stopIfNackNext]⟩
  · exact ⟨h, hr⟩

/-- Writes of FRAMELEN fit where the length is one of R34. -/
theorem setFrameLen_fits (mode : Mode) {n : Nat} (h : n ≤ 35) : Micro.fits mode (.setFrameLen n) = true := by
  simp [Micro.fits, Micro.inBounds, Micro.role, Micro.cursorFree, h]

/-- Stores fit where the index is inside the buffer. -/
theorem storeAcc_fits (mode : Mode) {b : Buffer} {i : Nat} (h : i < b.size) :
    Micro.fits mode (.storeAcc b i) = true := by
  simp [Micro.fits, Micro.inBounds, Micro.role, Micro.cursorFree, h]

theorem rxcheckNext_ok (mode : Mode) (c : Option Nat) (l : Byte) :
    PositionOk mode c (rxcheckNext (classify l)) := by
  cases h : classify l with
  | null => exact .closed (ms := [.setFrameLen 0]) c (by cases mode <;> rfl) rfl rfl
  | invalid => exact .closed (ms := [.setFrameLen 0]) c (by cases mode <;> rfl) rfl rfl
  | valid n =>
    refine .closed (ms := [.rxsum n, .chksumFromAcc, .setFrameLen n]) c ?_ rfl rfl
    simp only [List.all_cons, setFrameLen_fits mode (classify_valid h).2]
    rfl

theorem readPayloadByte_fits {j : Nat} (h : 2 + j < 40) : (readPayloadByte j).all (Micro.fits .master) = true := by
  simp only [readPayloadByte, List.all_append, mRecvProc_fits, mAckBitProc_fits, List.all_cons, List.all_nil,
    storeAcc_fits .master (b := .rx) h, Bool.and_self]

theorem readLengthNext_ok (c : Option Nat) (l : Byte) : PositionOk .master c (readLengthNext (classify l)) := by
  cases h : classify l with
  | null =>
    exact .closed (mode := .master) (m := .finish .nullMessage) (ms := mAckBitProc .released ++ mStopProc ++ [.setFrameLen 0]) c rfl rfl rfl
  | invalid =>
    exact .closed (mode := .master) (m := .finish .invalidLength) (ms := mAckBitProc .released ++ mStopProc ++ [.setFrameLen 0]) c rfl rfl rfl
  | valid n =>
    have hn : n ≤ 35 := (classify_valid h).2
    have payload : ((List.range n).flatMap readPayloadByte).all (Micro.fits .master) = true :=
      all_flatMap_of_forall fun j hj => readPayloadByte_fits (by rw [List.mem_range] at hj; omega)
    have checksum : Micro.fits .master (.storeAcc .rx (2 + n)) = true := storeAcc_fits .master (by simp [Buffer.size]; omega)
    have checks : PositionOk .master c [.rxsum n, .chksumFromAcc, .setFrameLen n, .rxVerdict n] :=
      .closed (ms := [.rxsum n, .chksumFromAcc, .setFrameLen n]) c
        (by simp only [List.all_cons, setFrameLen_fits .master hn]; rfl) rfl rfl
    refine .append ?_ checks (by simp)
    simp only [List.all_append, mAckBitProc_fits, payload, mRecvProc_fits, checksum, mStopProc_fits, List.all_cons,
      List.all_nil, Bool.and_self]

theorem edidPassProc_ok (c : Option Nat) : PositionOk .master c edidPassProc :=
  .setCursor c rfl (.closed (ms := [.setValidated false, .setResynced false] ++ mStartProc ++ mSendProc edidR ++ [.stopIfNack])
    none rfl rfl rfl) (by simp)

theorem edidResyncProc_ok (c : Option Nat) : PositionOk .master c edidResyncProc :=
  .append (ms := storeHeaderProc) rfl (.setCursor c rfl (.closed (ms := [.setValidated true, .setResynced true] ++
    mAckBitProc .released ++ mStartProc ++ mSendProc edidR ++ [.stopIfNack]) (some 7) rfl rfl rfl) (by simp)) (by simp)

theorem edidWhileNext_ok {c : Option Nat} (h : c.all (· ≤ 127) = true) : PositionOk .master c (edidWhileNext c) := by
  unfold edidWhileNext
  split
  · exact .closed c mStopProc_fits rfl rfl
  · rename_i hc
    have hn : nextIndex c ≤ 127 := by
      cases c with
      | none => simp [nextIndex]
      | some k => simp only [Option.all_some, decide_eq_true_eq] at h; simp only [Option.some.injEq] at hc; simp [nextIndex]; omega
    refine .append mRecvProc_fits ⟨rfl, by simp [Micro.inBounds], ?_, by simp [Micro.role]⟩ (by simp)
    simp [cursorInBounds, hn]

theorem edidMatchNext_ok (matched : Bool) (k : Nat) (c : Option Nat) :
    PositionOk .master c (edidMatchNext matched k) := by
  unfold edidMatchNext
  split_ifs
  · exact .closed (ms := [.setValidated true, .edidAckByte]) c rfl rfl rfl
  · exact edidResyncProc_ok c
  · exact .closed (ms := [.edidAckByte]) c rfl rfl rfl

theorem edidAckNext_fits (c : Option Nat) : (edidAckNext c).all (Micro.fits .master) = true := by
  unfold edidAckNext; split <;> exact mAckBitProc_fits _

theorem edidPassEndNext_ok (validated pass : Bool) (c : Option Nat) :
    PositionOk .master c (edidPassEndNext validated pass) := by
  unfold edidPassEndNext
  split_ifs
  · exact .single c rfl rfl
  · exact .single c rfl rfl
  · exact .append (ms := [.setPass true]) rfl (edidPassProc_ok c) (by simp [edidPassProc])

/-! ### One step -/

/-- A state whose next step `m` has been taken off the position. -/
structure AtStep (m : Micro) (u : State) : Prop where
  cursorBound : u.edid.cursor.all (· ≤ 127) = true
  busy : u.status.busy = true
  bounds : m.inBounds = true
  ownMode : m.role.all (· = u.ctrl.mode) = true
  cursor : cursorInBounds u.edid.cursor (m :: u.seq.todo) = true
  restBounds : ∀ n ∈ u.seq.todo, n.inBounds = true
  restMode : ∀ n ∈ u.seq.todo, n.role.all (· = u.ctrl.mode) = true
  restCloses : m.closes = false → u.seq.todo ≠ [] ∧ u.seq.todo.getLast?.all Micro.closes = true

theorem PositionInv.atStep {s : State} {m : Micro} {rest : List Micro} (h : PositionInv s) (ht : s.seq.todo = m :: rest) :
    AtStep m (s.jump rest) := by
  obtain ⟨bound, busy, closes, bounds, cursor, ownMode⟩ := h
  rw [ht] at closes bounds cursor ownMode
  refine ⟨bound, busy.2 (by simp [ht]), bounds m (by simp), ownMode m (by simp), cursor,
    fun n hn => bounds n (by simpa using .inr hn), fun n hn => ownMode n (by simpa using .inr hn), fun hc => ?_⟩
  have hr : rest ≠ [] := by
    rintro rfl
    simp [hc] at closes
  exact ⟨hr, by rwa [getLast?_cons_of_ne_nil hr] at closes⟩

section AtStep
variable {m : Micro} {u t : State} (h : AtStep m u)
include h

/-- What is left of the command, after a step that does not close it and leaves the cursor at `c`. -/
theorem AtStep.rest (hc : m.closes = false) {c : Option Nat} (hk : cursorInBounds c u.seq.todo = true) :
    PositionOk u.ctrl.mode c u.seq.todo := ⟨(h.restCloses hc).2, h.restBounds, hk, h.restMode⟩

theorem AtStep.restSame (hc : m.closes = false) (hf : m.cursorFree = true) :
    PositionOk u.ctrl.mode u.edid.cursor u.seq.todo :=
  h.rest hc (by rw [← cursorInBounds_cons_of_cursorFree hf]; exact h.cursor)

/-- The command goes on with a position of its mode. -/
theorem AtStep.goesOn (hc : t.edid.cursor.all (· ≤ 127) = true) (hx : t.ctrl = u.ctrl)
    (hb : t.status.busy = u.status.busy) (hr : t.seq.todo ≠ []) (p : PositionOk u.ctrl.mode t.edid.cursor t.seq.todo) :
    PositionInv t :=
  ⟨hc, by simp [hb, h.busy, hr], by rw [hx]; exact p⟩

/-- The step goes on with `ms` and leaves the cursor. -/
theorem AtStep.jumps {ms : List Micro} (hx : t.ctrl = u.ctrl) (hb : t.status.busy = u.status.busy)
    (ht : t.seq.todo = ms) (hr : ms ≠ []) (he : t.edid.cursor = u.edid.cursor)
    (p : PositionOk u.ctrl.mode u.edid.cursor ms) : PositionInv t :=
  h.goesOn (by rw [he]; exact h.cursorBound) hx hb (by rw [ht]; exact hr) (by rw [ht, he]; exact p)

/-- The step leaves the position's rest and the cursor. -/
theorem AtStep.plain (hc : m.closes = false) (hk : cursorInBounds u.edid.cursor u.seq.todo = true)
    (hx : t.ctrl = u.ctrl) (hb : t.status.busy = u.status.busy) (ht : t.seq.todo = u.seq.todo)
    (he : t.edid.cursor = u.edid.cursor) : PositionInv t :=
  h.jumps hx hb ht (h.restCloses hc).1 he (h.rest hc hk)

/-- The step puts a program of the mode in front of the rest. -/
theorem AtStep.pushes {ms : List Micro} (hc : m.closes = false) (hf : m.cursorFree = true)
    (hm : ms.all (Micro.fits u.ctrl.mode) = true) : PositionInv (u.push ms) :=
  h.jumps rfl rfl rfl (by simp [(h.restCloses hc).1]) rfl (.append hm (h.restSame hc hf) (h.restCloses hc).1)

theorem AtStep.mode_eq {r : Mode} (hr : m.role = some r) : u.ctrl.mode = r := by
  have := h.ownMode
  simp only [hr, Option.all_some, decide_eq_true_eq] at this
  exact this.symm

end AtStep

/-- A poll goes on, polls again, or aborts (spec/40_engine_master.md R111, R112). -/
theorem pollNext_positionInv {k : Nat} {u : State} (h : AtStep (.pollScl k) u) (l : Level) :
    PositionInv (pollNext k l u.drawn) := by
  have hm : u.ctrl.mode = .master := h.mode_eq rfl
  have hp : PositionOk u.ctrl.mode u.edid.cursor u.seq.todo := h.restSame rfl rfl
  have hr : u.seq.todo ≠ [] := (h.restCloses rfl).1
  cases l with
  | high => exact h.plain rfl h.cursor (by simp [pollNext]) (by simp [pollNext]) (by simp [pollNext]) (by simp [pollNext])
  | low =>
    unfold pollNext
    dsimp only
    split_ifs
    · exact h.jumps (ms := [.setSda .released, .finish .busTimeout]) (by simp) (by simp) (by simp) (by simp)
        (by simp) (.closed (ms := [.setSda .released]) _ (by rw [hm]; rfl) (by rw [hm]; rfl) rfl)
    · exact h.jumps (ms := [.delay, .pollScl (k + 1)] ++ u.seq.todo) (by simp) (by simp) (by simp) (by simp)
        (by simp) (.append (by rw [hm]; rfl) hp hr)

theorem AtStep.finish {m : Micro} {u : State} (h : AtStep m u) (r : Result) : PositionInv (u.finish r) :=
  .of_idle h.cursorBound rfl rfl

theorem edidVerdict_positionInv {m : Micro} {u : State} (h : AtStep m u) (b : Bool) : PositionInv (edidVerdict b u) := by
  unfold edidVerdict; split_ifs <;> exact h.finish _

/-- A sample of `SlaveStep()`, then `prev <- cur` and the program it chose. -/
theorem slaveSample_positionInv {m : Micro} {u : State} (h : AtStep m u) (hm : u.ctrl.mode = .slave) {next : List Micro}
    (p : PositionOk .slave u.edid.cursor next) (hn : next ≠ []) : PositionInv (u.slaveSample next) := by
  refine h.jumps (ms := .setPrev u.levels :: next) (by simp [State.slaveSample]) (by simp [State.slaveSample])
    (by simp [State.slaveSample]) (by simp) (by simp [State.slaveSample]) ?_
  rw [hm]
  exact .cons rfl p hn

/-- Every step of the sequencer leaves a position of the command's mode, or ends it. -/
theorem runMicro_positionInv {m : Micro} {u t : State} (h : AtStep m u) (hm : runMicro m u = .next t) : PositionInv t := by
  cases m <;> simp only [runMicro] at hm
  -- tests, and steps that choose how the command goes on
  case clockLowGuard =>
    cases hm
    split_ifs
    · exact h.pushes rfl rfl (by rw [h.mode_eq rfl]; rfl)
    · exact h.plain rfl h.cursor rfl rfl rfl rfl
  case releaseStretch =>
    cases hm; split_ifs <;> exact h.plain rfl h.cursor rfl rfl rfl rfl
  case releaseStretchDelayed =>
    cases hm
    split_ifs
    · exact h.pushes rfl rfl (by rw [h.mode_eq rfl]; rfl)
    · exact h.plain rfl h.cursor rfl rfl rfl rfl
  case applyStretch =>
    cases hm; unfold applyStretch; split_ifs <;> exact h.plain rfl h.cursor rfl rfl rfl rfl
  case pollScl k => cases hm; exact pollNext_positionInv h _
  case sampleAck => cases hm; exact h.plain rfl h.cursor (by simp) (by simp) (by simp) (by simp)
  case sampleBit => cases hm; exact h.plain rfl h.cursor (by simp) (by simp) (by simp) (by simp)
  case getSample =>
    cases hm
    exact slaveSample_positionInv h (h.mode_eq rfl) (getByteNext_ok _ _ _) (getByteNext_ne_nil _ _)
  case waitSample e =>
    cases hm
    have hr : PositionOk .slave u.edid.cursor u.seq.todo := h.mode_eq rfl ▸ h.restSame rfl rfl
    obtain ⟨hp, hn⟩ := waitClockNext_ok e u.auto.prev u.levels hr (h.restCloses rfl).1
    exact slaveSample_positionInv h (h.mode_eq rfl) hp hn
  case sendToMasterEnd =>
    cases hm
    exact h.jumps rfl rfl rfl (by unfold sendToMasterEndNext; split <;> simp) rfl
      (by rw [h.mode_eq rfl]; exact sendToMasterEndNext_ok _ _)
  case sendTx j =>
    obtain ⟨v, -, rfl⟩ := withByte_next hm
    exact h.pushes rfl rfl (by rw [h.mode_eq rfl]; exact mSendProc_fits v)
  case stopIfNack =>
    cases hm
    have hr : PositionOk .master u.edid.cursor u.seq.todo := h.mode_eq rfl ▸ h.restSame rfl rfl
    obtain ⟨hp, hn⟩ := stopIfNackNext_ok u.seq.ack hr (h.restCloses rfl).1
    exact h.jumps rfl rfl rfl hn rfl (by rw [h.mode_eq rfl]; exact hp)
  case rxcheckLength =>
    obtain ⟨v, -, rfl⟩ := withByte_next hm
    exact h.jumps rfl rfl rfl (by unfold rxcheckNext; split <;> simp) rfl (rxcheckNext_ok _ _ _)
  case readLength =>
    cases hm
    exact h.jumps rfl rfl rfl (by unfold readLengthNext; split <;> simp) rfl
      (by rw [h.mode_eq rfl]; exact readLengthNext_ok _ _)
  case edidWhile =>
    cases hm
    exact h.jumps rfl rfl rfl (by unfold edidWhileNext; split <;> simp [edidByteProc]) rfl
      (by rw [h.mode_eq rfl]; exact edidWhileNext_ok h.cursorBound)
  case edidMatch =>
    have next (b : Bool) (k : Nat) : PositionInv (u.jump (edidMatchNext b k)) :=
      h.jumps rfl rfl rfl (by unfold edidMatchNext; split_ifs <;> simp [edidResyncProc, storeHeaderProc]) rfl
        (by rw [h.mode_eq rfl]; exact edidMatchNext_ok _ _ _)
    split_ifs at hm
    · cases hm; exact next _ _
    · obtain ⟨b, -, rfl⟩ := withTest_next hm; exact next _ _
  case edidAckByte => cases hm; exact h.pushes rfl rfl (by rw [h.mode_eq rfl]; exact edidAckNext_fits _)
  case edidPassEnd =>
    cases hm
    exact h.jumps rfl rfl rfl (by unfold edidPassEndNext; split_ifs <;> simp) rfl
      (by rw [h.mode_eq rfl]; exact edidPassEndNext_ok _ _ _)
  -- ends
  case finish r => cases hm; exact h.finish r
  case finishAck => cases hm; exact h.finish _
  case rxVerdict n => obtain ⟨v, -, rfl⟩ := withByte_next hm; exact h.finish _
  case edidVerdict => obtain ⟨b, -, rfl⟩ := withTest_next hm; exact edidVerdict_positionInv h b
  -- the cursor
  case setCursor c =>
    cases hm
    obtain ⟨hc, hk⟩ := (Bool.and_eq_true _ _).mp h.cursor
    exact h.goesOn hc rfl rfl (h.restCloses rfl).1 (h.rest rfl hk)
  case edidStore =>
    cases hm
    obtain ⟨-, hk⟩ := (Bool.and_eq_true _ _).mp h.cursor
    exact h.plain rfl hk rfl rfl rfl rfl
  case edidAdvance =>
    cases hm
    obtain ⟨hc, hk⟩ := (Bool.and_eq_true _ _).mp h.cursor
    exact h.goesOn hc rfl rfl (h.restCloses rfl).1 (h.rest rfl hk)
  -- sums of buffer bytes
  case txsum => obtain ⟨v, -, rfl⟩ := withByte_next hm; exact h.plain rfl h.cursor rfl rfl rfl rfl
  case rxsum => obtain ⟨v, -, rfl⟩ := withByte_next hm; exact h.plain rfl h.cursor rfl rfl rfl rfl
  case edidsum => obtain ⟨v, -, rfl⟩ := withByte_next hm; exact h.plain rfl h.cursor rfl rfl rfl rfl
  case edidTotal => obtain ⟨v, -, rfl⟩ := withByte_next hm; exact h.plain rfl h.cursor rfl rfl rfl rfl
  -- every other step leaves the rest of the position
  all_goals cases hm; exact h.plain rfl h.cursor rfl rfl rfl rfl

/-- Every step of the sequencer leaves `t` with the bounded data of `u`, or stores inside the bounds. -/
theorem runMicro_dataInv {m : Micro} {u t : State} (h : AtStep m u) (d : u.DataInv) (hm : runMicro m u = .next t) :
    t.DataInv := by
  have bound : t.edid.cursor.all (· ≤ 127) = true := (runMicro_positionInv h hm).cursorBound
  cases m <;> simp only [runMicro] at hm
  -- stores and bounded registers
  case setCount n =>
    cases hm
    exact ⟨d.memoryForm, d.memoryBuffers, d.frameLenBound, by simpa [Micro.inBounds] using h.bounds, bound⟩
  case decCount =>
    cases hm
    exact ⟨d.memoryForm, d.memoryBuffers, d.frameLenBound, (Nat.sub_le _ _).trans d.countBound, bound⟩
  case setFrameLen n =>
    cases hm
    have hn : n ≤ 35 := by simpa [Micro.inBounds] using h.bounds
    exact ⟨d.memoryForm, d.memoryBuffers, (Nat.mod_le _ _).trans hn, d.countBound, bound⟩
  case store b i v => cases hm; exact d.storeByte (by simpa [Micro.inBounds] using h.bounds) v
  case storeAll b i bs => cases hm; exact d.storeAll (by simpa [Micro.inBounds] using h.bounds)
  case storeAcc b i => cases hm; exact d.storeByte (by simpa [Micro.inBounds] using h.bounds) _
  case edidStore =>
    cases hm
    obtain ⟨hc, -⟩ := (Bool.and_eq_true _ _).mp h.cursor
    exact d.storeByte (b := .edid) (Nat.lt_succ_of_le (of_decide_eq_true hc)) _
  case setCursor => cases hm; exact ⟨d.memoryForm, d.memoryBuffers, d.frameLenBound, d.countBound, bound⟩
  case edidAdvance => cases hm; exact ⟨d.memoryForm, d.memoryBuffers, d.frameLenBound, d.countBound, bound⟩
  -- tests and samples
  case clockLowGuard => cases hm; split_ifs <;> exact d.congr ⟨rfl, rfl, rfl, rfl⟩
  case releaseStretch => cases hm; split_ifs <;> exact d.congr ⟨rfl, rfl, rfl, rfl⟩
  case releaseStretchDelayed => cases hm; split_ifs <;> exact d.congr ⟨rfl, rfl, rfl, rfl⟩
  case applyStretch => cases hm; unfold applyStretch; split_ifs <;> exact d.congr ⟨rfl, rfl, rfl, rfl⟩
  case pollScl k =>
    cases hm
    have dd := d.congr (sameBounded_drawn u)
    unfold pollNext
    split
    · exact dd
    · split_ifs <;> exact dd.congr ⟨rfl, rfl, rfl, rfl⟩
  case sampleAck => cases hm; exact d.congr (by simp [sameBounded])
  case sampleBit => cases hm; exact d.congr (by simp [sameBounded])
  case getSample => cases hm; exact d.congr (by simp [sameBounded, State.slaveSample])
  case waitSample => cases hm; exact d.congr (by simp [sameBounded, State.slaveSample])
  case edidMatch =>
    split_ifs at hm
    · cases hm; exact d.congr ⟨rfl, rfl, rfl, rfl⟩
    · obtain ⟨b, -, rfl⟩ := withTest_next hm; exact d.congr ⟨rfl, rfl, rfl, rfl⟩
  case edidVerdict =>
    obtain ⟨b, -, rfl⟩ := withTest_next hm
    unfold edidVerdict
    split_ifs <;> exact d.congr ⟨rfl, rfl, rfl, rfl⟩
  -- steps that read a byte or a sum
  case txsum => obtain ⟨v, -, rfl⟩ := withByte_next hm; exact d.congr ⟨rfl, rfl, rfl, rfl⟩
  case rxsum => obtain ⟨v, -, rfl⟩ := withByte_next hm; exact d.congr ⟨rfl, rfl, rfl, rfl⟩
  case sendTx => obtain ⟨v, -, rfl⟩ := withByte_next hm; exact d.congr ⟨rfl, rfl, rfl, rfl⟩
  case rxcheckLength => obtain ⟨v, -, rfl⟩ := withByte_next hm; exact d.congr ⟨rfl, rfl, rfl, rfl⟩
  case rxVerdict => obtain ⟨v, -, rfl⟩ := withByte_next hm; exact d.congr ⟨rfl, rfl, rfl, rfl⟩
  case edidsum => obtain ⟨v, -, rfl⟩ := withByte_next hm; exact d.congr ⟨rfl, rfl, rfl, rfl⟩
  case edidTotal => obtain ⟨v, -, rfl⟩ := withByte_next hm; exact d.congr ⟨rfl, rfl, rfl, rfl⟩
  -- every other step changes none of it
  all_goals cases hm; exact d.congr ⟨rfl, rfl, rfl, rfl⟩

/-! ### Several steps, and the acts of the host -/

theorem controllerStep_positionInv {s t : State} (h : PositionInv s) (hc : controllerStep s = .next t) : PositionInv t := by
  cases ht : s.seq.todo with
  | nil => rw [controllerStep_idle ht] at hc; cases hc; exact h
  | cons m rest => rw [controllerStep_cons ht] at hc; exact runMicro_positionInv (h.atStep ht) hc

theorem controllerStep_inv {s t : State} (h : s.Inv) (hc : controllerStep s = .next t) : t.Inv := by
  cases ht : s.seq.todo with
  | nil => rw [controllerStep_idle ht] at hc; cases hc; exact h
  | cons m rest =>
    rw [controllerStep_cons ht] at hc
    have at' := h.position.atStep ht
    exact .of_halves (runMicro_dataInv at' (h.data.congr ⟨rfl, rfl, rfl, rfl⟩) hc) (runMicro_positionInv at' hc)

/-- What the controller's steps keep, and the host's distance does not matter to, holds however far it gets. -/
theorem runController_keeps {I : State → Prop} (quiet : ∀ s q, I s → I (s.setQuiet q))
    (one : ∀ s t, I s → s.seq.todo ≠ [] → controllerStep s = .next t → I t) {n : Nat} {s t : State} (h : I s)
    (hr : runController n s = .next t) : I t := by
  induction n generalizing s with
  | zero => cases hr; exact quiet s 0 h
  | succ n ih =>
    rw [runController] at hr
    split_ifs at hr with hi hd
    · cases hr; exact quiet s _ h
    · cases hr; exact quiet s _ h
    · cases hc : controllerStep s with
      | next u => rw [hc] at hr; exact ih (one s u h hi hc) hr
      | fault f => rw [hc] at hr; cases hr
      | refused r => rw [hc] at hr; cases hr

theorem State.Inv.setQuiet {s : State} (h : s.Inv) (q : Nat) : (s.setQuiet q).Inv :=
  .of_halves (h.data.congr ⟨rfl, rfl, rfl, rfl⟩) ⟨h.cursorBound, h.busyPosition, h.position.position⟩

theorem runController_inv {n : Nat} {s t : State} (h : s.Inv) (hr : runController n s = .next t) : t.Inv :=
  runController_keeps (fun _ q h => h.setQuiet q) (fun _ _ h _ hc => controllerStep_inv h hc) h hr

theorem controllerTurn_inv {s t : State} (h : s.Inv) (hc : controllerTurn s = .next t) : t.Inv := by
  unfold controllerTurn at hc
  split at hc
  · rename_i u hu
    exact runController_inv (controllerStep_inv h hu) hc
  · cases hc
  · cases hc

/-! ### Commands as programs -/

/-- The program a command starts with, after its mode check (spec/30_encoding.md R96). -/
def commandProgram : Instr → List Micro
  | .mStart => mStartProc ++ [.finish .ok]
  | .mStop => mStopProc ++ [.finish .ok]
  | .mSendByte b => mSendProc b ++ [.finishAck]
  | .mRecvByte => mRecvProc ++ [.rxByteFromAcc, .rxFirst false, .finish .ok]
  | .mAck => mAckBitProc .low ++ [.finish .ok]
  | .mNack => mAckBitProc .released ++ [.finish .ok]
  | .sGetByte => [.releaseStretch] ++ getLoop
  | .sSendToMaster b => sendToMasterProc b
  | .ddcBuild n => ifLengthAllowed (payloadLength n) (ddcBuildProc (payloadLength n) ++ [.finish .ok])
  | .ddcRxcheck => [.rxcheckLength]
  | .lenCheck l => lenCheckProc (classify l)
  | .edidFillsum => [.edidsum, .storeAcc .edid 127, .chksumFromAcc, .finish .ok]
  | .edidValidate => [.edidTotal, .chksumFromAcc, .edidVerdict]
  | .ddcWrite n => ifLengthAllowed (payloadLength n)
      (ddcBuildProc (payloadLength n) ++ mStartProc ++ ddcSendProc (payloadLength n) ++ mStopProc ++ [.finish .ok])
  | .ddcRead => mStartProc ++ mSendProc ddcDestR ++ [.stopIfNack] ++ mRecvProc ++ [.storeAcc .rx 0] ++ mAckBitProc .low
      ++ mRecvProc ++ [.storeAcc .rx 1, .readLength]
  | .edidRead => [.setPass false] ++ edidPassProc

/-- A command is its program, in the mode it needs. -/
theorem exec_eq_runCommand (i : Instr) (s : State) : exec i s = runCommand (neededMode i) (commandProgram i) s := by
  cases i <;> rfl

theorem modeAllows_iff (need : Option Mode) (s : State) : modeAllows need s = true ↔ need.all (· = s.ctrl.mode) = true := by
  cases need with
  | none => simp [modeAllows]
  | some m => simpa [modeAllows] using eq_comm

theorem ddcBuildProc_fits (mode : Mode) {n : Nat} (h : n ≤ 35) :
    (ddcBuildProc n).all (Micro.fits mode) = true := by
  have hi : Micro.fits mode (.storeAcc .tx (3 + n)) = true := storeAcc_fits mode (by simp [Buffer.size]; omega)
  refine List.all_eq_true.2 ?_
  simp only [ddcBuildProc, List.forall_mem_cons]
  exact ⟨by cases mode <;> rfl, by cases mode <;> rfl, by cases mode <;> rfl, by cases mode <;> rfl, hi,
    by cases mode <;> rfl, setFrameLen_fits mode h, by simp⟩

theorem ddcSendProc_fits (n : Nat) : (ddcSendProc n).all (Micro.fits .master) = true :=
  all_flatMap_of_forall fun _ _ => rfl

/-- The operand check guards a body that fits for the lengths it allows. -/
theorem ifLengthAllowed_ok {mode : Mode} {c : Option Nat} {n : Nat} {body : List Micro}
    (h : n ≤ 35 → PositionOk mode c body) : PositionOk mode c (ifLengthAllowed n body) := by
  unfold ifLengthAllowed txLenMax
  split_ifs with hn
  · exact .single c (by cases mode <;> rfl) rfl
  · exact h (by omega)

theorem lenCheckProc_ok (mode : Mode) (c : Option Nat) (l : Byte) : PositionOk mode c (lenCheckProc (classify l)) := by
  cases h : classify l with
  | null => exact .closed (ms := [.setFrameLen 0]) c (by cases mode <;> rfl) rfl rfl
  | invalid => exact .closed (ms := [.setFrameLen 0]) c (by cases mode <;> rfl) rfl rfl
  | valid n =>
    exact .closed (ms := [.setFrameLen n]) c (by simp only [List.all_cons, setFrameLen_fits mode (classify_valid h).2]; rfl)
      rfl rfl

/-- Every command's program is a position of the mode it needs. -/
theorem commandProgram_ok (i : Instr) {mode : Mode} (c : Option Nat) (h : (neededMode i).all (· = mode) = true) :
    PositionOk mode c (commandProgram i) := by
  cases i
  case sGetByte =>
    obtain rfl : Mode.slave = mode := of_decide_eq_true h
    exact .closed (ms := [.releaseStretch, .delay]) c rfl rfl rfl
  case sSendToMaster b =>
    obtain rfl : Mode.slave = mode := of_decide_eq_true h
    exact .closed (ms := (sendToMasterProc b).dropLast) (m := .sendToMasterEnd) c rfl rfl rfl
  case ddcBuild n =>
    exact ifLengthAllowed_ok fun hn => .closed c (ddcBuildProc_fits mode hn) (by cases mode <;> rfl) rfl
  case ddcRxcheck => exact .single c (by cases mode <;> rfl) rfl
  case lenCheck l => exact lenCheckProc_ok mode c l
  case edidFillsum =>
    exact .closed (ms := [.edidsum, .storeAcc .edid 127, .chksumFromAcc]) c (by cases mode <;> rfl) (by cases mode <;> rfl) rfl
  case edidValidate =>
    exact .closed (ms := [.edidTotal, .chksumFromAcc]) c (by cases mode <;> rfl) (by cases mode <;> rfl) rfl
  all_goals obtain rfl : Mode.master = mode := of_decide_eq_true h
  case mStart => exact .closed c mStartProc_fits rfl rfl
  case mStop => exact .closed c mStopProc_fits rfl rfl
  case mSendByte b => exact .closed c (mSendProc_fits b) rfl rfl
  case mRecvByte => exact .closed (mode := .master) (ms := mRecvProc ++ [.rxByteFromAcc, .rxFirst false]) (m := .finish .ok) c rfl rfl rfl
  case mAck => exact .closed c (mAckBitProc_fits _) rfl rfl
  case mNack => exact .closed c (mAckBitProc_fits _) rfl rfl
  case ddcWrite n =>
    refine ifLengthAllowed_ok fun hn => .closed c ?_ rfl rfl
    simp only [List.all_append, ddcBuildProc_fits .master hn, mStartProc_fits, ddcSendProc_fits, mStopProc_fits, Bool.and_self]
  case ddcRead =>
    refine .append ?_ (.closed (ms := [.storeAcc .rx 1]) c rfl rfl rfl) (by simp)
    simp only [List.all_append, mStartProc_fits, mSendProc_fits, mRecvProc_fits, mAckBitProc_fits, List.all_cons, List.all_nil,
      storeAcc_fits .master (b := .rx) (show 0 < 40 by decide), Bool.and_self]
    rfl
  case edidRead => exact .append (ms := [.setPass false]) rfl (edidPassProc_ok c) (by simp [edidPassProc])

theorem commandProgram_ne_nil (i : Instr) : commandProgram i ≠ [] := by
  cases i
  case ddcBuild => simp only [commandProgram, ifLengthAllowed]; split <;> simp
  case ddcWrite => simp only [commandProgram, ifLengthAllowed]; split <;> simp
  case lenCheck => simp only [commandProgram, lenCheckProc]; split <;> simp
  all_goals simp [commandProgram, mRecvProc, sendToMasterProc, getLoop]

/-- A command that starts on bounded data keeps the invariant, wherever the host interrupts it. -/
theorem exec_inv {i : Instr} {s t : State} (d : s.DataInv) (h : exec i s = .next t) : t.Inv := by
  rw [exec_eq_runCommand] at h
  cases hm : modeAllows (neededMode i) s with
  | false => rw [runCommand_wrongMode hm] at h; cases h; exact d.finish _
  | true =>
    rw [runCommand_allowed hm] at h
    have started : (s.start (commandProgram i)).Inv :=
      .of_halves (d.congr ⟨rfl, rfl, rfl, rfl⟩) ⟨d.cursorBound, by simp [commandProgram_ne_nil i],
        commandProgram_ok i _ ((modeAllows_iff _ s).1 hm)⟩
    exact runController_inv started h

/-! ### The acts of the host -/

/-- The invariant does not speak of what the host does, nor of DROPPED. -/
theorem State.Inv.congr_env {s t : State} (h : s.Inv) (hd : sameBounded s t) (hx : t.ctrl = s.ctrl)
    (hb : t.status.busy = s.status.busy) (hq : t.seq = s.seq) : t.Inv :=
  .of_halves (h.data.congr hd) ⟨(h.data.congr hd).cursorBound, by rw [hb, hq]; exact h.busyPosition,
    by rw [hx, hq, hd.2.2.2]; exact h.position.position⟩

theorem hostRead_inv {off : Offset} {s t : State} (h : s.Inv) (hr : hostRead off s = .next t) : t.Inv := by
  rcases hostRead_spec off s with ⟨v, hv⟩ | ⟨v, hv⟩ | ⟨a, hf, -⟩
  · rw [hv] at hr; cases hr; exact h.congr_env ⟨rfl, rfl, rfl, rfl⟩ rfl rfl rfl
  · rw [hv] at hr; cases hr; exact h.congr_env (by simp [sameBounded]) (by simp) (by simp) (by simp)
  · rw [hf] at hr; cases hr

theorem State.DataInv.newSession {s : State} (d : s.DataInv) : s.newSession.DataInv :=
  ⟨by simpa [State.newSession] using d.1, by simpa [State.newSession] using d.2, by simpa [State.newSession] using d.3,
    le_refl 8, by simpa [State.newSession] using d.5⟩

theorem State.DataInv.endStretch {s : State} (d : s.DataInv) (b : Bool) : (s.endStretch b).DataInv := by
  unfold State.endStretch; split_ifs <;> exact d.congr ⟨rfl, rfl, rfl, rfl⟩

theorem State.DataInv.writeCtrl {s : State} (d : s.DataInv) (v : Word) : (writeCtrl v s).DataInv := by
  unfold Machine.writeCtrl
  dsimp only
  split_ifs
  · exact d
  · exact (d.endStretch _).congr ⟨rfl, rfl, rfl, rfl⟩
  · exact (d.newSession.endStretch _).congr ⟨rfl, rfl, rfl, rfl⟩

theorem windowEntry_bufferByte {off : Offset} {a : Nat} (h : windowEntry off = .bufferByte a) : bufferOffset a = true := by
  unfold windowEntry at h
  split at h
  case h_12 => split_ifs at h with hb; cases h; exact hb
  all_goals cases h

theorem State.DataInv.idleWrite {s : State} (d : s.DataInv) (off : Offset) (v : Word) : (idleWrite off v s).DataInv := by
  unfold Machine.idleWrite
  split
  case h_1 => exact d.writeCtrl v
  case h_12 a ha => exact d.write (windowEntry_bufferByte ha) _
  all_goals exact d.congr ⟨rfl, rfl, rfl, rfl⟩

theorem hostWrite_inv {off : Offset} {v : Word} {q : Nat} {s t : State} (h : s.Inv)
    (hw : hostWrite off v q s = .next t) : t.Inv := by
  unfold hostWrite at hw
  split_ifs at hw with hb hc
  · cases hw
    rw [busyWrite_spec]
    exact h.congr_env ⟨rfl, rfl, rfl, rfl⟩ rfl rfl rfl
  · have latched : ((s.setQuiet q).latchCommand v).DataInv := h.data.congr ⟨rfl, rfl, rfl, rfl⟩
    unfold acceptCommand at hw
    split at hw
    · exact exec_inv latched hw
    · cases hw; exact latched.finish _
  · cases hw
    obtain ⟨-, hs, -, -, -, -, hq⟩ := idleWrite_frame off v s
    have ht : s.seq.todo = [] := by
      by_contra hne
      exact hb (h.busyPosition.2 hne)
    refine .of_idle ((h.data.idleWrite off v).congr ⟨rfl, rfl, rfl, rfl⟩) ?_ ?_
    · simpa [State.afterAct, hs] using hb
    · simp [State.afterAct, hq, ht]

/-- The state right after reset is idle, with nothing marked and every bounded field inside its bound. -/
theorem State.reset_dataInv : State.reset.DataInv := by
  refine ⟨State.reset_memory_wf, ?_, ?_, ?_, rfl⟩
  · simp [State.reset, State.resetOn]
  · simp [State.reset, State.resetOn]
  · exact le_refl 8

/-- Settles O57. -/
theorem resetHasTheInvariant : Obligations.ResetHasTheInvariant := .of_idle State.reset_dataInv rfl rfl

theorem State.platformReset_inv (s : State) : s.platformReset.Inv := by
  have d := State.reset_dataInv
  refine .of_idle ⟨?_, ?_, ?_, le_refl 8, ?_⟩ ?_ ?_
  · simpa [State.platformReset] using d.1
  · simpa [State.platformReset] using d.2
  · simpa [State.platformReset] using d.3
  · simpa [State.platformReset] using d.5
  · simp [State.platformReset, State.reset, State.resetOn]
  · simp [State.platformReset, State.reset, State.resetOn, Sequencer.none]

theorem hostTurn_inv {turn : HostTurn} {rest : List HostTurn} {s t : State} (h : s.Inv)
    (ht : hostTurn turn rest s = .next t) : t.Inv := by
  have taken : (s.hostTaken rest).Inv := h.congr_env ⟨rfl, rfl, rfl, rfl⟩ rfl rfl rfl
  unfold hostTurn at ht
  split at ht
  · split_ifs at ht
    split at ht
    · rename_i u hu
      cases ht
      exact (hostRead_inv taken hu).congr_env ⟨rfl, rfl, rfl, rfl⟩ rfl rfl rfl
    · cases ht
    · cases ht
  · split_ifs at ht
    exact hostWrite_inv taken ht
  · split_ifs at ht <;> cases ht <;> exact h.congr_env ⟨rfl, rfl, rfl, rfl⟩ rfl rfl rfl
  · cases ht; exact State.platformReset_inv _

/-- Settles O58: whichever turn a step is, the controller's or the host's, it keeps the invariant. -/
theorem stepKeepsTheInvariant : Obligations.StepKeepsTheInvariant := by
  intro s t h hs
  unfold step machineStep at hs
  split_ifs at hs
  · exact controllerTurn_inv h hs
  · split at hs
    · cases hs; exact h
    · exact hostTurn_inv h hs

end Sys2Proof.Machine
end

section
/-! SUPPORT and CERTIFICATE. The host window (spec/20_memory.md R60-R67): what each act of the host does to an idle block and
to a running one, and the words the registers and views read as (spec/10_state.md R26-R38, R48). -/

namespace Sys2Proof.Machine

/-! ### The window map -/

/-- Beyond the registers and outside the buffers the window is reserved (R62). -/
theorem windowEntry_reserved {off : Offset} (h : 0x02C ≤ off.toNat) (hb : bufferOffset off.toNat = false) :
    windowEntry off = .reserved := by
  unfold windowEntry
  split
  case h_12 => rw [hb]; rfl
  all_goals exact absurd h (by decide)

theorem windowEntry_eq_lines {off : Offset} (h : windowEntry off = .lines) : off = 0x024 := by
  unfold windowEntry at h
  split at h
  case h_10 => rfl
  case h_12 => split_ifs at h
  all_goals cases h

theorem windowEntry_eq_bufferByte {off : Offset} {a : Nat} (h : windowEntry off = .bufferByte a) :
    a = off.toNat ∧ bufferOffset off.toNat = true := by
  unfold windowEntry at h
  split at h
  case h_12 =>
    split_ifs at h with hb
    cases h
    exact ⟨rfl, hb⟩
  all_goals cases h

/-- Every offset of a buffer word is that of a byte of some buffer. -/
theorem exists_addr_of_bufferOffset {a : Nat} (h : bufferOffset a = true) : ∃ (b : Buffer) (i : Nat), i < b.size ∧ a = b.addr i := by
  obtain ⟨h4, h | h | h⟩ := (bufferOffset_iff a).1 h
  · exact ⟨.tx, (a - 0x100) / 4, by simp only [Buffer.size]; omega, by simp only [Buffer.addr, Buffer.base]; omega⟩
  · exact ⟨.rx, (a - 0x200) / 4, by simp only [Buffer.size]; omega, by simp only [Buffer.addr, Buffer.base]; omega⟩
  · exact ⟨.edid, (a - 0x400) / 4, by simp only [Buffer.size]; omega, by simp only [Buffer.addr, Buffer.base]; omega⟩

/-! ### Reads -/

/-- The word a read of an entry returns; 0 stands for an unmarked byte, whose read is the model fault (R45). -/
def entryWord (e : WindowEntry) (s : State) : Word :=
  match e with
  | .ctrl => ctrlWord s.ctrl
  | .bitDelay => fieldAt s.bitDelay 0
  | .timeout => fieldAt s.timeout 0
  | .cmd => s.cmd
  | .status => statusWord s.status
  | .rxData => rxDataWord s.rxData
  | .chksum => fieldAt s.chksum 0
  | .frameLen => fieldAt s.frameLen 0
  | .automaton => automatonWord s.auto
  | .lines => linesWord s.levels s.out
  | .edidInfo => edidInfoWord s.edid
  | .bufferByte a => (Memory.read s.mem a).elim 0 (fieldAt · 0)
  | .reserved => 0

/-- A read other than of LINES or of an unmarked byte returns the entry's word and touches nothing else (R64). -/
theorem hostRead_word {off : Offset} {s : State} (hl : off ≠ 0x024)
    (hm : ∀ a, windowEntry off = .bufferByte a → Memory.read s.mem a ≠ none) :
    hostRead off s = .next (s.setRdata (entryWord (windowEntry off) s)) := by
  unfold hostRead
  split <;> rename_i he
  case h_10 => exact absurd (windowEntry_eq_lines he) hl
  case h_12 a =>
    obtain ⟨v, hv⟩ := Option.ne_none_iff_exists'.1 (hm a he)
    simp only [hv, he, entryWord, Option.elim]
  all_goals rw [he]; rfl

/-- A read of LINES takes a sample (R36). -/
theorem hostRead_lines (s : State) : hostRead 0x024 s = .next (s.drawn.setRdata (entryWord .lines s)) := rfl

/-- The step of an admitted read (R61). -/
theorem step_read {s t : State} {off : Offset} {q : Nat} {rest : List HostTurn} (h : s.hostDue (.read off 4) q rest)
    (ha : off.toNat % 4 = 0) (hr : hostRead off (s.hostTaken rest) = .next t) : step s = .next (t.afterAct q) := by
  have hadm : accessAdmitted off 4 = true := by simp [accessAdmitted, ha]
  rw [step_of_hostDue h]
  simp only [hostTurn, hadm, if_true, hr]

/-- The step of a read that takes no sample. -/
theorem step_read_word {s : State} {off : Offset} {q : Nat} {rest : List HostTurn} (h : s.hostDue (.read off 4) q rest)
    (ha : off.toNat % 4 = 0) (hl : off ≠ 0x024)
    (hm : ∀ a, windowEntry off = .bufferByte a → Memory.read s.mem a ≠ none) :
    step s = .next (((s.hostTaken rest).setRdata (entryWord (windowEntry off) (s.hostTaken rest))).afterAct q) :=
  step_read h ha (hostRead_word hl hm)

theorem State.drawn_env_peer (s : State) : s.drawn.env.peer = s.env.peer.tail := by
  unfold State.drawn; split <;> rename_i h <;> simp [h]

/-- A draw touches the two other agents' part of the state alone. -/
theorem State.drawn_eq (s : State) : s.drawn = { s with env := s.drawn.env } := by
  unfold State.drawn; split <;> rfl

/-- Settles O10. -/
theorem readsHaveNoSideEffect : Obligations.ReadsHaveNoSideEffect := by
  intro s off q rest h ha hm
  by_cases hl : off = 0x024
  · subst hl
    refine ⟨_, step_read h ha (hostRead_lines _), ?_, ?_, fun hn => absurd rfl hn, fun _ => ?_⟩
    · rw [(s.hostTaken rest).drawn_eq]; rfl
    · exact (s.hostTaken rest).drawn_env_host
    · exact (s.hostTaken rest).drawn_env_peer
  · have marked : ∀ a, windowEntry off = .bufferByte a → Memory.read s.mem a ≠ none := by
      intro a he
      obtain ⟨rfl, hb⟩ := windowEntry_eq_bufferByte he
      obtain ⟨b, i, hi, hbi⟩ := exists_addr_of_bufferOffset hb
      rw [hbi]
      exact hm b i hi hbi
    exact ⟨_, step_read_word h ha hl marked, rfl, rfl, fun _ => ⟨rfl, rfl⟩, fun he => absurd he hl⟩

/-! ### Words from fields -/

/-- `a` reads as the number `n`, in its lowest `k` bits. -/
def ReadsAs (a : Word) (n k : Nat) : Prop := a.toNat = n ∧ n < 2 ^ k

/-- A field that fits in the word reads as its own number, shifted. -/
theorem fieldAt_toNat {w : Nat} (v : BitVec w) {i : Nat} (h : i + w ≤ 32) :
    (fieldAt v i).toNat = v.toNat * 2 ^ i ∧ v.toNat * 2 ^ i + 2 ^ i ≤ 2 ^ (i + w) := by
  have hv : v.toNat * 2 ^ i + 2 ^ i ≤ 2 ^ (i + w) := by
    calc v.toNat * 2 ^ i + 2 ^ i = (v.toNat + 1) * 2 ^ i := (Nat.succ_mul _ _).symm
      _ ≤ 2 ^ w * 2 ^ i := Nat.mul_le_mul_right _ v.isLt
      _ = 2 ^ (i + w) := by rw [← Nat.pow_add, Nat.add_comm]
  have h32 : 2 ^ (i + w) ≤ 2 ^ 32 := Nat.pow_le_pow_right (by decide) h
  have hw : v.toNat < 2 ^ 32 := v.isLt.trans_le (Nat.pow_le_pow_right (by decide) (by omega))
  have hi : 0 < 2 ^ i := Nat.two_pow_pos i
  refine ⟨?_, hv⟩
  rw [fieldAt, BitVec.toNat_shiftLeft, BitVec.toNat_setWidth, Nat.mod_eq_of_lt hw, Nat.shiftLeft_eq,
    Nat.mod_eq_of_lt (by omega)]

theorem readsAs_field {w : Nat} (v : BitVec w) (h : w ≤ 32) : ReadsAs (fieldAt v 0) v.toNat w :=
  ⟨by simpa using (fieldAt_toNat v (i := 0) (by omega)).1, v.isLt⟩

/-- A field above the bits in use adds its number. -/
theorem ReadsAs.field {w k n : Nat} {a : Word} (h : ReadsAs a n k) (v : BitVec w) {i : Nat} (hk : k ≤ i) (hi : i + w ≤ 32) :
    ReadsAs (a ||| fieldAt v i) (n + v.toNat * 2 ^ i) (i + w) := by
  obtain ⟨rfl, hn⟩ := h
  obtain ⟨hv, hb⟩ := fieldAt_toNat v hi
  have ha : a.toNat < 2 ^ i := hn.trans_le (Nat.pow_le_pow_right (by decide) hk)
  refine ⟨?_, by omega⟩
  rw [BitVec.toNat_or, hv, Nat.or_comm, Nat.mul_comm, ← Nat.two_pow_add_eq_or_of_lt ha, Nat.add_comm]

/-- A flag above the bits in use adds its bit. -/
theorem ReadsAs.flag {k n : Nat} {a : Word} (h : ReadsAs a n k) (b : Bool) {i : Nat} (hk : k ≤ i) (hi : i < 32) :
    ReadsAs (a ||| flagAt b i) (n + if b then 2 ^ i else 0) (i + 1) := by
  have hf : ReadsAs (a ||| flagAt b i) _ _ := h.field (BitVec.ofBool b) hk (by omega)
  cases b <;> simpa using hf

/-! ### The registers' words -/

theorem ctrlWord_toNat (c : Ctrl) : (ctrlWord c).toNat =
    (if c.mode = .slave then 1 else 0) + (if c.b2b then 2 else 0) + if c.stretch then 4 else 0 := by
  obtain ⟨mode, b2b, stretch⟩ := c
  cases mode <;> cases b2b <;> cases stretch <;> rfl

theorem statusWord_toNat (x : Status) : (statusWord x).toNat =
    (if x.busy then 1 else 0) + (if x.dropped then 2 else 0) + 16 * x.result.code.toNat := by
  obtain ⟨busy, dropped, result⟩ := x
  cases busy <;> cases dropped <;> cases result <;> rfl

theorem rxDataWord_toNat (x : RxData) : (rxDataWord x).toNat = x.byte.toNat + if x.first then 256 else 0 :=
  ((readsAs_field x.byte (by decide)).flag x.first (by decide) (by decide)).1

theorem linesWord_toNat (block peer : Drives) : (linesWord (levelsOf block peer) block).toNat =
    (if block.sda = .released ∧ peer.sda = .released then 1 else 0) +
      (if block.scl = .released ∧ peer.scl = .released then 2 else 0) +
      (if block.sda = .released then 4 else 0) + if block.scl = .released then 8 else 0 := by
  obtain ⟨x, y⟩ := block
  obtain ⟨z, w⟩ := peer
  cases x <;> cases y <;> cases z <;> cases w <;> rfl

theorem Level.toBool_iff (l : Level) : l.toBool = true ↔ l = .high := by cases l <;> decide

theorem automatonWord_toNat (a : Automaton) (hc : a.count ≤ 8) : (automatonWord a).toNat =
    a.st.code.toNat + 16 * a.count + 256 * a.shreg.toNat + (if a.prev.sda = .high then 65536 else 0) +
      (if a.prev.scl = .high then 131072 else 0) + if a.first then 262144 else 0 := by
  have hn : (BitVec.ofNat 4 a.count).toNat = a.count := by rw [BitVec.toNat_ofNat, Nat.mod_eq_of_lt (by omega)]
  have h := (((((readsAs_field a.st.code (by decide)).field (BitVec.ofNat 4 a.count) (i := 4) (by decide) (by decide)).field
    a.shreg (i := 8) (by decide) (by decide)).flag a.prev.sda.toBool (i := 16) (by decide) (by decide)).flag
    a.prev.scl.toBool (i := 17) (by decide) (by decide)).flag a.first (i := 18) (by decide) (by decide)
  simp only [hn, Level.toBool_iff] at h
  rw [Nat.mul_comm 16, Nat.mul_comm 256]
  exact h.1

/-- EDIDINFO shows no cursor as 255 (R37). -/
theorem cursorField_toNat {c : Option Nat} (h : c.all (· ≤ 127) = true) : (cursorField c).toNat = c.getD 255 := by
  cases c with
  | none => rfl
  | some i =>
    have hi : i ≤ 127 := by simpa using h
    rw [cursorField, BitVec.toNat_ofNat, Nat.mod_eq_of_lt (by omega)]
    rfl

theorem edidInfoWord_toNat (e : EdidVars) (h : e.cursor.all (· ≤ 127) = true) : (edidInfoWord e).toNat =
    e.cursor.getD 255 + (if e.validated then 256 else 0) + (if e.resynced then 512 else 0) +
      if e.pass then 1024 else 0 := by
  have h' := (((readsAs_field (cursorField e.cursor) (by decide)).flag e.validated (i := 8) (by decide) (by decide)).flag
    e.resynced (i := 9) (by decide) (by decide)).flag e.pass (i := 10) (by decide) (by decide)
  rw [cursorField_toNat h] at h'
  exact h'.1

/-- Settles O12: the one word of each entry, field by field. -/
theorem registerReads : Obligations.RegisterReads := by
  intro s off q rest h ha hrange
  have hl : off ≠ 0x024 := by rintro rfl; simp at hrange
  have hb : bufferOffset off.toNat = false := by rw [Bool.eq_false_iff, Ne, bufferOffset_iff]; omega
  have marked : ∀ a, windowEntry off = .bufferByte a → Memory.read s.mem a ≠ none := by
    intro a he
    exact absurd (windowEntry_eq_bufferByte he).2 (by simp [hb])
  refine ⟨_, step_read_word h ha hl marked, ?ctrl, ?bitDelay, ?timeout, ?cmd, ?status, ?rxData, ?chksum, ?frameLen, ?reserved⟩
  case ctrl => rintro rfl; exact ctrlWord_toNat s.ctrl
  case bitDelay => rintro rfl; exact (readsAs_field s.bitDelay (by decide)).1
  case timeout => rintro rfl; exact (readsAs_field s.timeout (by decide)).1
  case cmd => rintro rfl; rfl
  case status =>
    rintro rfl
    refine (statusWord_toNat s.status).trans ?_
    cases s.status.result <;> rfl
  case rxData => rintro rfl; exact rxDataWord_toNat s.rxData
  case chksum => rintro rfl; exact (readsAs_field s.chksum (by decide)).1
  case frameLen => rintro rfl; exact (readsAs_field s.frameLen (by decide)).1
  case reserved => intro ho; rw [windowEntry_reserved ho hb]; rfl

/-- Settles O13: each view's word, and the sample of LINES. -/
theorem viewReads : Obligations.ViewReads := by
  intro s off q rest h hcount hcursor hoff
  simp only [List.mem_cons, List.not_mem_nil, or_false] at hoff
  rcases hoff with rfl | rfl | rfl
  case inl =>
    refine ⟨_, step_read_word h rfl (by decide) (fun a he => nomatch he), fun _ => ?_, fun he => ?_, fun he => ?_⟩
    · refine (automatonWord_toNat s.auto hcount).trans ?_
      cases s.auto.st <;> rfl
    · exact absurd he (by decide)
    · exact absurd he (by decide)
  case inr.inl =>
    refine ⟨_, step_read h rfl (hostRead_lines _), fun he => ?_, fun _ => linesWord_toNat s.out s.peerDrive, fun he => ?_⟩
    · exact absurd he (by decide)
    · exact absurd he (by decide)
  case inr.inr =>
    refine ⟨_, step_read_word h rfl (by decide) (fun a he => nomatch he), fun he => ?_, fun he => ?_, fun _ => ?_⟩
    · exact absurd he (by decide)
    · exact absurd he (by decide)
    · exact edidInfoWord_toNat s.edid hcursor

/-! ### Writes -/

/-- The step of a write that an idle block accepts, other than to CMD (R62, R63). -/
theorem step_idleWrite {s : State} {off : Offset} {v : Word} {q : Nat} {rest : List HostTurn} (hi : s.idle)
    (h : s.hostDue (.write off 4 v) q rest) (ha : off.toNat % 4 = 0) (hc : windowEntry off ≠ .cmd) :
    step s = .next ((idleWrite off v (s.hostTaken rest)).setQuiet 0) := by
  have hadm : accessAdmitted off 4 = true := by simp [accessAdmitted, ha]
  have hb : (s.hostTaken rest).status.busy = false := hi
  obtain ⟨-, hs, -⟩ := idleWrite_frame off v (s.hostTaken rest)
  rw [step_of_hostDue h]
  simp only [hostTurn, hadm, hostWrite, hb, hc, State.afterAct, hs, if_true, if_false, Bool.false_eq_true]

/-- The step of a CMD write that an idle block accepts (R30). -/
theorem step_acceptCommand {s : State} {w : Word} {q : Nat} {rest : List HostTurn} (hi : s.idle)
    (h : s.hostDue (.write cmdOffset 4 w) q rest) :
    step s = acceptCommand w ((s.hostTaken rest).setQuiet q) := by
  have hb : (s.hostTaken rest).status.busy = false := hi
  have hc : windowEntry cmdOffset = .cmd := rfl
  rw [step_of_hostDue h]
  show hostWrite cmdOffset w q (s.hostTaken rest) = _
  simp only [hostWrite, hb, hc, if_true, if_false, Bool.false_eq_true]

/-- Settles O5. -/
theorem stepRunsTheDecodedCommand : Obligations.StepRunsTheDecodedCommand := by
  intro s w i q rest hi h hd
  rw [step_acceptCommand hi h, acceptCommand, hd]
  rfl

/-- Settles O15. -/
theorem parameterWrites : Obligations.ParameterWrites := by
  intro s v q rest hi
  have low : v.extractLsb' 0 16 = v.setWidth 16 := (BitVec.setWidth_eq_extractLsb' (by decide)).symm
  rw [low]
  exact ⟨fun h => step_idleWrite hi h (by decide) (by decide), fun h => step_idleWrite hi h (by decide) (by decide)⟩

/-- A change of MODE: the session starts anew with its sample (R27 (1)). -/
theorem newSession_endStretch {s : State} {d : Drives} {ds : List Drives} (hp : s.env.peer = d :: ds) (b : Bool) :
    s.newSession.endStretch b = { s.withOut .released .released with
      auto := ⟨.waitStart, 8, 0, false, levelsOf ⟨.released, .released⟩ d⟩
      env := { s.env with peer := ds } } := by
  have hp' : ((s.setSda .released).setScl .released).env.peer = d :: ds := hp
  have hn : s.newSession = { s.withOut .released .released with
      auto := ⟨.waitStart, 8, 0, false, levelsOf ⟨.released, .released⟩ d⟩
      env := { s.env with peer := ds } } := by
    unfold State.newSession
    dsimp only
    rw [State.levels_cons _ hp', State.drawn_peer_cons _ hp']
    rfl
  rw [State.endStretch, hn]
  simp

/-- STRETCH 0 leaves SCL Released, and STRETCH 1 leaves it as it was (R27 (2)). -/
theorem endStretch_eq (s : State) (b : Bool) :
    s.endStretch b = s.withOut s.out.sda (if b then s.out.scl else .released) := by
  unfold State.endStretch
  cases b with
  | true => rfl
  | false =>
    cases hs : s.out.scl with
    | low => rfl
    | released =>
      show s = _
      rw [show (if false = true then Drive.released else .released) = s.out.scl by simp [hs]]
      rfl

section WriteCtrl
variable {s : State} {v : Word}

theorem writeCtrl_unchanged (h : ctrlOfWord v = s.ctrl) : writeCtrl v s = s := if_pos h

theorem writeCtrl_sameMode (h : ctrlOfWord v ≠ s.ctrl) (hm : (ctrlOfWord v).mode = s.ctrl.mode) :
    writeCtrl v s = { s.endStretch (ctrlOfWord v).stretch with ctrl := ctrlOfWord v } := by
  simp only [writeCtrl, h, hm, if_true, if_false]

theorem writeCtrl_newMode (h : ctrlOfWord v ≠ s.ctrl) (hm : (ctrlOfWord v).mode ≠ s.ctrl.mode) :
    writeCtrl v s = { s.newSession.endStretch (ctrlOfWord v).stretch with ctrl := ctrlOfWord v } := by
  simp only [writeCtrl, h, hm, if_false]

end WriteCtrl

/-- Settles O14: no field changes, or MODE stands, or MODE changes. -/
theorem ctrlWriteSideEffects : Obligations.CtrlWriteSideEffects := by
  intro s v q rest d ds hi h hp
  have hs : step s = .next ((writeCtrl v (s.hostTaken rest)).setQuiet 0) := step_idleWrite hi h rfl (fun he => nomatch he)
  refine ⟨_, hs, ?_⟩
  by_cases hc : ctrlOfWord v = s.ctrl
  · rw [writeCtrl_unchanged (s := s.hostTaken rest) hc]
    exact ⟨hc.symm, fun hm => absurd rfl hm, fun _ hm => absurd rfl hm, fun _ => rfl⟩
  by_cases hm : (ctrlOfWord v).mode = s.ctrl.mode
  · rw [writeCtrl_sameMode (s := s.hostTaken rest) hc hm, endStretch_eq]
    exact ⟨rfl, fun hn => absurd hm hn, fun _ _ => rfl, fun he => absurd he hc⟩
  · rw [writeCtrl_newMode (s := s.hostTaken rest) hc hm, newSession_endStretch (s := s.hostTaken rest) hp]
    exact ⟨rfl, fun _ => rfl, fun hn => absurd hn hm, fun he => absurd he hc⟩

/-! ### Reset and samples -/

/-- Settles O17. -/
theorem resetValues : Obligations.ResetValues :=
  ⟨rfl, rfl, rfl, rfl, rfl, rfl, rfl, rfl, rfl, rfl, rfl, rfl, fun _ => rfl⟩

/-- Settles O18. -/
theorem resetInputResetsEverything : Obligations.ResetInputResetsEverything := by
  intro s q rest d ds h hp
  have hp' : ({ State.reset with env := (s.hostTaken rest).env } : State).env.peer = d :: ds := hp
  rw [step_of_hostDue h]
  show Host.Outcome.next (s.hostTaken rest).platformReset = _
  unfold State.platformReset
  dsimp only
  rw [State.levels_cons _ hp', State.drawn_peer_cons _ hp']
  rfl

/-- A line reads High exactly when both of its drivers release it (R22). -/
theorem lineLevel_eq_high_iff (block peer : Drive) :
    lineLevel block peer = .high ↔ block = .released ∧ peer = .released := by
  cases block <;> cases peer <;> decide

/-- Settles O20. -/
theorem sampleIsWiredAnd : Obligations.SampleIsWiredAnd := fun s =>
  ⟨lineLevel_eq_high_iff _ _, lineLevel_eq_high_iff _ _, s.drawn_eq⟩

end Sys2Proof.Machine
end

section
/-! SUPPORT and CERTIFICATE. M_RECV_BYTE (spec/40_engine_master.md R117) and the codec commands that use no bus
(spec/42_codec_ddcci.md R155, R157; spec/43_codec_edid.md R177, R178), with the model fault of an unmarked byte
(spec/10_state.md R45). -/

namespace Sys2Proof.Machine

/-! ### Commands from their first position -/

/-- `s` with a command running. -/
def State.begun (s : State) : State := { s with status := { s.status with busy := true } }

/-- The first position of a command is a point of its run. -/
theorem State.start_eq_busPoint (s : State) (program : List Micro) :
    s.start program = s.begun.busPoint s.out s.env.peer ⟨program, 0, false⟩ := rfl

/-- A command in its mode whose steps end in `finish`. -/
theorem exec_of_runs {i : Instr} {s t : State} {n : Nat} (hm : modeAllows (neededMode i) s = true)
    (hr : Runs n (s.start (commandProgram i)) t) (hq : n ≤ s.env.quiet) (hi : t.seq.todo = []) (h0 : t.env.quiet = 0) :
    exec i s = .next t := by
  rw [exec_eq_runCommand]
  exact runCommand_of_runs hm hr hq hi h0

/-- Steps that end at a model fault, if the host leaves the controller that long. -/
theorem runController_of_runs_fault {n q : Nat} {s t : State} {m : Micro} {rest : List Micro} {f : Fault}
    (h : Runs n s t) (ht : t.seq.todo = m :: rest) (hm : m.samples = false) (hf : runMicro m (t.jump rest) = .fault f)
    (hq : n < q) : runController q s = .fault f := by
  obtain ⟨p, hp⟩ : ∃ p, q - n = p + 1 := ⟨q - n - 1, by omega⟩
  have hd : t.needsDraw = false := by rw [State.needsDraw_cons ht, hm]; rfl
  rw [runController_of_runs h hq.le, hp, runController_succ p (by simp [ht]) hd, controllerStep_cons ht, hf]

/-- A command in its mode whose steps end at a model fault. -/
theorem exec_of_runs_fault {i : Instr} {s t : State} {n : Nat} {m : Micro} {rest : List Micro} {f : Fault}
    (ha : modeAllows (neededMode i) s = true) (hr : Runs n (s.start (commandProgram i)) t) (ht : t.seq.todo = m :: rest)
    (hm : m.samples = false) (hf : runMicro m (t.jump rest) = .fault f) (hq : n < s.env.quiet) : exec i s = .fault f := by
  rw [exec_eq_runCommand, runCommand_allowed ha]
  exact runController_of_runs_fault hr ht hm hf hq

/-- Settles O25. -/
theorem mRecvByteCompletes : Obligations.MRecvByteCompletes := by
  intro s b rest hm ⟨hq, hp⟩
  have received := mRecv_runs s.begun [.rxByteFromAcc, .rxFirst false, .finish .ok] 0 false rest b s.out
  have ended : Runs 3 (s.begun.busPoint ⟨.released, .low⟩ rest ⟨[.rxByteFromAcc, .rxFirst false, .finish .ok], b, false⟩)
      (({ s with rxData := ⟨b, false⟩ }.withOut .released .low).finishedWith .ok rest) :=
    .unsampled rfl rfl rfl (.unsampled rfl rfl rfl (.unsampled rfl rfl rfl rfl))
  have steps : guardSteps s.out ≤ 2 := by unfold guardSteps; split <;> omega
  refine exec_of_runs (by simp [modeAllows, neededMode, hm]) ?_ (n := 51 + guardSteps s.out + 3) (by omega) rfl rfl
  rw [State.start_eq_busPoint, hp]
  exact received.trans ended

/-! ### What a buffer holds -/

theorem State.holds_nil (s : State) (b : Buffer) (i : Nat) : s.holds b i [] := by
  intro k v hk; simp at hk

theorem State.holds_cons_iff {s : State} {b : Buffer} {i : Nat} {v : Byte} {bs : List Byte} :
    s.holds b i (v :: bs) ↔ Memory.read s.mem (b.addr i) = some v ∧ s.holds b (i + 1) bs := by
  constructor
  · intro h
    refine ⟨by simpa using h 0 v rfl, fun k w hk => ?_⟩
    have := h (k + 1) w (by simpa using hk)
    rwa [show i + (k + 1) = i + 1 + k by omega] at this
  · rintro ⟨h0, hs⟩ k w hk
    cases k with
    | zero => simp only [List.getElem?_cons_zero, Option.some.injEq] at hk; subst hk; simpa using h0
    | succ k =>
      have := hs k w (by simpa using hk)
      rwa [show i + 1 + k = i + (k + 1) by omega] at this

/-- What a buffer holds depends on the memory alone. -/
theorem State.holds.congr {s t : State} {b : Buffer} {i : Nat} {bs : List Byte} (h : s.holds b i bs) (hm : t.mem = s.mem) :
    t.holds b i bs := by
  intro k v hk; rw [hm]; exact h k v hk

/-- A store outside the range leaves what the range holds. -/
theorem State.holds.storeByte {s : State} {b : Buffer} {i j : Nat} {bs : List Byte} (h : s.holds b i bs) (v : Byte)
    (hj : j < i ∨ i + bs.length ≤ j) : (s.storeByte b j v).holds b i bs := by
  intro k w hk
  obtain ⟨hl, -⟩ := List.getElem?_eq_some_iff.1 hk
  rw [State.storeByte_mem, Memory.read_write_other v (by simp; omega)]
  exact h k w hk

/-- A store just after what a buffer holds lengthens it. -/
theorem State.holds.snoc {s : State} {b : Buffer} {i : Nat} {bs : List Byte} (h : s.holds b i bs) (v : Byte) :
    (s.storeByte b (i + bs.length) v).holds b i (bs ++ [v]) :=
  State.holds_append.2 ⟨h.storeByte v (.inr le_rfl), State.holds_cons_iff.2 ⟨by simp, State.holds_nil _ _ _⟩⟩

/-- Reading a range stops at its first unmarked byte (R45). -/
theorem State.readBytes_unmarked {s : State} {b : Buffer} {n i : Nat} {bs : List Byte} (h : s.holds b i bs)
    (hn : Memory.read s.mem (b.addr (i + bs.length)) = none) (hl : bs.length < n) :
    s.readBytes b i n = .error (.commandReadUnmarked (b.addr (i + bs.length))) := by
  induction bs generalizing i n with
  | nil =>
    obtain ⟨n, rfl⟩ : ∃ k, n = k + 1 := ⟨n - 1, by simp at hl; omega⟩
    rw [State.readBytes, (s.readByte_error_iff b i _).2 ⟨hn, rfl⟩]
    rfl
  | cons v vs ih =>
    obtain ⟨n, rfl⟩ : ∃ k, n = k + 1 := ⟨n - 1, by simp at hl; omega⟩
    obtain ⟨h0, hs⟩ := State.holds_cons_iff.1 h
    have e : i + (v :: vs).length = i + 1 + vs.length := by simp; omega
    rw [e] at hn ⊢
    simp only [State.readBytes, (s.readByte_ok_iff b i v).2 h0, ih hs hn (by simpa using hl)]

theorem sameOutside.refl (s : State) (b : Buffer) (i n : Nat) : sameOutside s s b i n := fun _ _ => rfl

/-- A store inside the range changes nothing outside it. -/
theorem sameOutside.storeByte {s t : State} {b : Buffer} {i n j : Nat} (h : sameOutside s t b i n) (v : Byte) (hi : i ≤ j)
    (hj : j < i + n) : sameOutside s (t.storeByte b j v) b i n := by
  intro a ha
  have := ha (j - i) (by omega)
  rw [show i + (j - i) = j by omega] at this
  rw [State.storeByte_mem, Memory.read_write_other v this]
  exact h a ha

/-! ### Steps that read the buffers -/

theorem withByte_ok {r : Except Fault Byte} {v : Byte} (h : r = .ok v) (k : Byte → State) : withByte r k = .next (k v) := by
  rw [h]; rfl

theorem withByte_error {r : Except Fault Byte} {f : Fault} (h : r = .error f) (k : Byte → State) : withByte r k = .fault f := by
  rw [h]; rfl

section Reads
variable {s t : State} {n : Nat} {v : Byte} {f : Fault} (hm : t.mem = s.mem)
include hm

/-- What a step reads of the buffers depends on the memory alone. -/
theorem runMicro_txsum (h : s.txsum n = .ok v) : runMicro (.txsum n) t = .next (t.setAcc v) := by
  rw [runMicro, State.txsum, State.readBytes_congr hm]
  exact withByte_ok h _

theorem runMicro_txsum_fault (h : s.txsum n = .error f) : runMicro (.txsum n) t = .fault f := by
  rw [runMicro, State.txsum, State.readBytes_congr hm]
  exact withByte_error h _

theorem runMicro_rxsum (h : s.rxsum n = .ok v) : runMicro (.rxsum n) t = .next (t.setAcc v) := by
  rw [runMicro, State.rxsum, State.readBytes_congr hm]
  exact withByte_ok h _

theorem runMicro_rxsum_fault (h : s.rxsum n = .error f) : runMicro (.rxsum n) t = .fault f := by
  rw [runMicro, State.rxsum, State.readBytes_congr hm]
  exact withByte_error h _

theorem runMicro_edidsum (h : s.edidsum = .ok v) : runMicro .edidsum t = .next (t.setAcc v) := by
  rw [runMicro, State.edidsum, State.readBytes_congr hm]
  exact withByte_ok h _

theorem runMicro_edidsum_fault (h : s.edidsum = .error f) : runMicro .edidsum t = .fault f := by
  rw [runMicro, State.edidsum, State.readBytes_congr hm]
  exact withByte_error h _

theorem runMicro_edidTotal (h : s.edidTotal = .ok v) : runMicro .edidTotal t = .next (t.setAcc v) := by
  rw [runMicro, State.edidTotal, State.readBytes_congr hm]
  exact withByte_ok h _

theorem runMicro_edidTotal_fault (h : s.edidTotal = .error f) : runMicro .edidTotal t = .fault f := by
  rw [runMicro, State.edidTotal, State.readBytes_congr hm]
  exact withByte_error h _

theorem runMicro_edidVerdict {b : Bool} (h : s.edidHeaderAtStart = .ok b) :
    runMicro .edidVerdict t = .next (edidVerdict b t) := by
  rw [runMicro, State.edidHeaderAtStart, State.readBytes_congr hm]
  exact congrArg (withTest · fun h => edidVerdict h t) h

end Reads

section ReadSteps
variable {s : State} {n : Nat} {v : Byte} (rest : List Micro) (a : Byte) (k : Bool) (o : Drives) (ds : List Drives)

theorem txsum_runs (h : s.txsum n = .ok v) :
    Runs 1 (s.busPoint o ds ⟨.txsum n :: rest, a, k⟩) (s.busPoint o ds ⟨rest, v, k⟩) :=
  .unsampled rfl rfl (runMicro_txsum (s := s) rfl h) rfl

theorem rxsum_runs (h : s.rxsum n = .ok v) :
    Runs 1 (s.busPoint o ds ⟨.rxsum n :: rest, a, k⟩) (s.busPoint o ds ⟨rest, v, k⟩) :=
  .unsampled rfl rfl (runMicro_rxsum (s := s) rfl h) rfl

theorem edidsum_runs (h : s.edidsum = .ok v) :
    Runs 1 (s.busPoint o ds ⟨.edidsum :: rest, a, k⟩) (s.busPoint o ds ⟨rest, v, k⟩) :=
  .unsampled rfl rfl (runMicro_edidsum (s := s) rfl h) rfl

theorem edidTotal_runs (h : s.edidTotal = .ok v) :
    Runs 1 (s.busPoint o ds ⟨.edidTotal :: rest, a, k⟩) (s.busPoint o ds ⟨rest, v, k⟩) :=
  .unsampled rfl rfl (runMicro_edidTotal (s := s) rfl h) rfl

/-- `CHKSUM <- s; FRAMELEN <- n` (R157, R161). -/
theorem chksumFrameLen_runs :
    Runs 2 (s.busPoint o ds ⟨.chksumFromAcc :: .setFrameLen n :: rest, a, k⟩)
      (State.busPoint { s with chksum := a, frameLen := BitVec.ofNat 6 n } o ds ⟨rest, a, k⟩) :=
  .unsampled rfl rfl rfl (.unsampled rfl rfl rfl rfl)

end ReadSteps

/-! ### DDC_BUILD -/

/-- The bytes of a transmitted frame before its checksum (spec/42_codec_ddcci.md R153). -/
def frameBody (payload : List Byte) : List Byte := [0x6E, 0x51, 0x80 ||| BitVec.ofNat 8 payload.length] ++ payload

@[simp] theorem frameBody_length (payload : List Byte) : (frameBody payload).length = 3 + payload.length := by
  simp [frameBody]; omega

/-- `s` with the three bytes before the payload stored (R155). -/
def State.framed (s : State) (n : Nat) : State :=
  ((s.storeByte .tx 0 ddcDestW).storeByte .tx 1 ddcSrc).storeByte .tx 2 (txLengthByte n)

theorem State.framed_holds {s : State} {payload : List Byte} (h : s.holds .tx 3 payload) :
    (s.framed payload.length).holds .tx 0 (frameBody payload) := by
  have stored : (s.framed payload.length).holds .tx 3 payload :=
    ((h.storeByte _ (.inl (by decide))).storeByte _ (.inl (by decide))).storeByte _ (.inl (by decide))
  refine State.holds_append.2 ⟨?_, stored⟩
  exact (((State.holds_nil _ _ _).snoc ddcDestW).snoc ddcSrc).snoc (txLengthByte payload.length)

theorem State.framed_sameOutside (s : State) (n : Nat) : sameOutside s (s.framed n) .tx 0 (4 + n) :=
  (((sameOutside.refl s _ _ _).storeByte _ (by omega) (by omega)).storeByte _ (by omega) (by omega)).storeByte _ (by omega)
    (by omega)

/-- The steps of `DDCBuild(n)` before its sum. -/
theorem framed_runs (s : State) (n : Nat) (rest : List Micro) (a : Byte) (k : Bool) (o : Drives) (ds : List Drives) :
    Runs 3 (s.busPoint o ds ⟨ddcBuildProc n ++ rest, a, k⟩)
      ((s.framed n).busPoint o ds
        ⟨.txsum n :: .storeAcc .tx (3 + n) :: .chksumFromAcc :: .setFrameLen n :: rest, a, k⟩) :=
  .unsampled rfl rfl rfl (.unsampled rfl rfl rfl (.unsampled rfl rfl rfl rfl))

/-- `s` with the frame of `payload` in TXBUF, CHKSUM and FRAMELEN (R155). -/
def State.built (s : State) (payload : List Byte) : State :=
  { (s.framed payload.length).storeByte .tx (3 + payload.length) (xorBytes 0 (frameBody payload)) with
    chksum := xorBytes 0 (frameBody payload)
    frameLen := BitVec.ofNat 6 payload.length }

theorem State.built_holds {s : State} {payload : List Byte} (h : s.holds .tx 3 payload) :
    (s.built payload).holds .tx 0 (builtFrame payload) := by
  have := (State.framed_holds h).snoc (xorBytes 0 (frameBody payload))
  rw [frameBody_length, Nat.zero_add] at this
  exact this.congr rfl

theorem State.built_sameOutside (s : State) (payload : List Byte) :
    sameOutside s (s.built payload) .tx 0 (4 + payload.length) :=
  (s.framed_sameOutside payload.length).storeByte _ (by omega) (by omega)

/-- `DDCBuild(n)` over a marked payload (R155). -/
theorem ddcBuild_runs {s : State} {payload : List Byte} (h : s.holds .tx 3 payload) (rest : List Micro) (a : Byte) (k : Bool)
    (o : Drives) (ds : List Drives) :
    Runs 7 (s.busPoint o ds ⟨ddcBuildProc payload.length ++ rest, a, k⟩)
      ((s.built payload).busPoint o ds ⟨rest, xorBytes 0 (frameBody payload), k⟩) := by
  have sum := State.txsum_ok (frameBody_length payload) (State.framed_holds h)
  have stored : Runs 1 ((s.framed payload.length).busPoint o ds ⟨.storeAcc .tx (3 + payload.length) :: .chksumFromAcc ::
      .setFrameLen payload.length :: rest, xorBytes 0 (frameBody payload), k⟩)
      (((s.framed payload.length).storeByte .tx (3 + payload.length) (xorBytes 0 (frameBody payload))).busPoint o ds
        ⟨.chksumFromAcc :: .setFrameLen payload.length :: rest, xorBytes 0 (frameBody payload), k⟩) := .unsampled rfl rfl rfl rfl
  exact (framed_runs s payload.length rest a k o ds).trans ((txsum_runs _ a k o ds sum).trans
    (stored.trans (chksumFrameLen_runs rest _ k o ds)))

/-- The program of DDC_BUILD, for a length it allows. -/
theorem commandProgram_ddcBuild {n : Byte} (h : n.toNat ≤ 35) :
    commandProgram (.ddcBuild n) = ddcBuildProc n.toNat ++ [.finish .ok] := by
  simp only [commandProgram, ifLengthAllowed, payloadLength, txLenMax, show ¬ n.toNat > 35 by omega, if_false]

/-- The program of DDC_WRITE, for a length it allows. -/
theorem commandProgram_ddcWrite {n : Byte} (h : n.toNat ≤ 35) :
    commandProgram (.ddcWrite n) =
      ddcBuildProc n.toNat ++ (mStartProc ++ ddcSendProc n.toNat ++ mStopProc ++ [.finish .ok]) := by
  simp only [commandProgram, ifLengthAllowed, payloadLength, txLenMax, show ¬ n.toNat > 35 by omega, if_false,
    List.append_assoc]

/-- A payload length as the operand of a command. -/
theorem toNat_ofNat_of_le {n : Nat} (h : n ≤ 35) : (BitVec.ofNat 8 n).toNat = n := by
  rw [BitVec.toNat_ofNat, Nat.mod_eq_of_lt (by omega)]

/-- Settles O41. -/
theorem ddcBuildBuildsTheFrame : Obligations.DdcBuildBuildsTheFrame := by
  intro s payload hl h hq
  refine ⟨(s.built payload).mem, ?_, (State.built_holds h).congr rfl, fun a ha => s.built_sameOutside payload a ha⟩
  have program := commandProgram_ddcBuild (n := BitVec.ofNat 8 payload.length) (by rw [toNat_ofNat_of_le hl]; exact hl)
  rw [toNat_ofNat_of_le hl] at program
  refine exec_of_runs (n := 8) rfl ?_ hq rfl rfl
  rw [program, State.start_eq_busPoint]
  have built := ddcBuild_runs (s := s.begun) h [.finish .ok] 0 false s.out s.env.peer
  have ended : Runs 1 ((s.begun.built payload).busPoint s.out s.env.peer ⟨[.finish .ok], xorBytes 0 (frameBody payload), false⟩)
      ((s.built payload).finishedWith .ok s.env.peer) := .unsampled rfl rfl rfl rfl
  exact built.trans ended

/-! ### The model fault of an unmarked byte -/

/-- A length byte of R155 is classified as its length (R152). -/
theorem classify_txLengthByte {n : Nat} (h3 : 3 ≤ n) (h35 : n ≤ 35) : classify (0x80 ||| BitVec.ofNat 8 n) = .valid n := by
  interval_cases n <;> rfl

/-- `DDCBuild(n)` stops at the first unmarked payload byte (R45). -/
theorem txsum_unmarked {s : State} {n : Nat} {bs : List Byte} (hl : bs.length < n) (h : s.holds .tx 3 bs)
    (hn : Memory.read s.mem (Buffer.tx.addr (3 + bs.length)) = none) :
    (s.framed n).txsum n = .error (.commandReadUnmarked (Buffer.tx.addr (3 + bs.length))) := by
  have held : (s.framed n).holds .tx 0 ([ddcDestW, ddcSrc, txLengthByte n] ++ bs) := by
    refine State.holds_append.2 ⟨(((State.holds_nil _ _ _).snoc ddcDestW).snoc ddcSrc).snoc (txLengthByte n), ?_⟩
    exact ((h.storeByte _ (.inl (by decide))).storeByte _ (.inl (by decide))).storeByte _ (.inl (by decide))
  have unmarked : Memory.read (s.framed n).mem (Buffer.tx.addr (3 + bs.length)) = none := by
    simp only [State.framed, State.storeByte_mem]
    rw [Memory.read_write_other _ (by simp; omega), Memory.read_write_other _ (by simp; omega),
      Memory.read_write_other _ (by simp)]
    exact hn
  have e : 0 + ([ddcDestW, ddcSrc, txLengthByte n] ++ bs).length = 3 + bs.length := by simp; omega
  have := State.readBytes_unmarked (n := 3 + n) held (by rw [e]; exact unmarked) (by simp; omega)
  rw [State.txsum, this, e]
  rfl

section Unmarked
variable {s : State} {bs : List Byte}

/-- A command that builds a frame first stops at the first unmarked payload byte (R45, R69). -/
theorem ddcBuild_unmarked {i : Instr} {n : Nat} {rest : List Micro} (hi : commandProgram i = ddcBuildProc n ++ rest)
    (ha : modeAllows (neededMode i) s = true) (hq : 5 ≤ s.env.quiet) (hl : bs.length < n) (h : s.holds .tx 3 bs)
    (hn : Memory.read s.mem (Buffer.tx.addr (3 + bs.length)) = none) :
    exec i s = .fault (.commandReadUnmarked (Buffer.tx.addr (3 + bs.length))) := by
  refine exec_of_runs_fault ha (n := 3) (t := (s.begun.framed n).busPoint s.out s.env.peer
    ⟨.txsum n :: .storeAcc .tx (3 + n) :: .chksumFromAcc :: .setFrameLen n :: rest, 0, false⟩) ?_ rfl rfl ?_ (by omega)
  · rw [hi, State.start_eq_busPoint]
    exact framed_runs s.begun n rest 0 false s.out s.env.peer
  · exact runMicro_txsum_fault (s := s.begun.framed n) rfl (txsum_unmarked (s := s.begun) hl (h.congr rfl) hn)

theorem ddcRxcheck_noLength (hq : 5 ≤ s.env.quiet) (hn : Memory.read s.mem (Buffer.rx.addr 1) = none) :
    exec .ddcRxcheck s = .fault (.commandReadUnmarked (Buffer.rx.addr 1)) := by
  exact exec_of_runs_fault rfl (n := 0) rfl rfl rfl (withByte_error ((State.readByte_error_iff _ _ _ _).2 ⟨hn, rfl⟩) _)
    (by omega)

/-- The first step of DDC_RXCHECK, over a marked Valid length byte (R157). -/
theorem ddcRxcheck_valid_runs {n : Nat} (h3 : 3 ≤ n) (h35 : n ≤ 35)
    (h : Memory.read s.mem (Buffer.rx.addr 1) = some (0x80 ||| BitVec.ofNat 8 n)) :
    Runs 1 (s.start (commandProgram .ddcRxcheck))
      (s.begun.busPoint s.out s.env.peer ⟨[.rxsum n, .chksumFromAcc, .setFrameLen n, .rxVerdict n], 0, false⟩) := by
  refine .unsampled rfl rfl (withByte_ok ((State.readByte_ok_iff _ _ _ _).2 h) _) ?_
  rw [classify_txLengthByte h3 h35]
  rfl

theorem ddcRxcheck_unmarked {n : Nat} (h3 : 3 ≤ n) (h35 : n ≤ 35) (hq : 5 ≤ s.env.quiet) (hl : bs.length ≤ n)
    (h : s.holds .rx 1 ((0x80 ||| BitVec.ofNat 8 n) :: bs))
    (hn : Memory.read s.mem (Buffer.rx.addr (2 + bs.length)) = none) :
    exec .ddcRxcheck s = .fault (.commandReadUnmarked (Buffer.rx.addr (2 + bs.length))) := by
  have first := ddcRxcheck_valid_runs h3 h35 (State.holds_cons_iff.1 h).1
  have e : 1 + ((0x80 ||| BitVec.ofNat 8 n) :: bs).length = 2 + bs.length := by simp; omega
  rcases hl.lt_or_eq with hlt | rfl
  · have sum : s.rxsum n = .error (.commandReadUnmarked (Buffer.rx.addr (2 + bs.length))) := by
      have := State.readBytes_unmarked (n := 1 + n) h (by rw [e]; exact hn) (by simp; omega)
      rw [State.rxsum, this, e]
      rfl
    exact exec_of_runs_fault rfl first rfl rfl (runMicro_rxsum_fault (s := s) rfl sum) (by omega)
  · have sum : s.begun.rxsum bs.length = .ok (xorBytes rxSeed ((0x80 ||| BitVec.ofNat 8 bs.length) :: bs)) :=
      State.rxsum_ok (by simp; omega) (h.congr rfl)
    have summed := first.trans ((rxsum_runs _ 0 false s.out s.env.peer sum).trans (chksumFrameLen_runs _ _ false s.out s.env.peer))
    exact exec_of_runs_fault rfl summed rfl rfl (withByte_error ((State.readByte_error_iff _ _ _ _).2 ⟨hn, rfl⟩) _) (by omega)

/-- EDID_FILLSUM and EDID_VALIDATE read from byte 0 on, and stop at the first unmarked byte (R45, R69). -/
theorem edid_unmarked {n : Nat} (h : s.holds .edid 0 bs) (hn : Memory.read s.mem (Buffer.edid.addr bs.length) = none)
    (hl : bs.length < n) : s.readBytes .edid 0 n = .error (.commandReadUnmarked (Buffer.edid.addr bs.length)) := by
  have := State.readBytes_unmarked (i := 0) h (by simpa using hn) hl
  rwa [Nat.zero_add] at this

end Unmarked

/-- Settles O43, command by command. -/
theorem unmarkedOperandFaults : Obligations.UnmarkedOperandFaults := by
  intro s bs hq
  refine ⟨fun n hn hl h hu => ⟨?_, fun hm => ?_⟩, ddcRxcheck_noLength hq, fun n h3 h35 hl h hu =>
    ddcRxcheck_unmarked h3 h35 hq hl h hu, fun h hu => ⟨fun hl => ?_, fun hl => ?_⟩⟩
  · exact ddcBuild_unmarked (commandProgram_ddcBuild hn) rfl hq hl h hu
  · exact ddcBuild_unmarked (commandProgram_ddcWrite hn) (by simp [modeAllows, neededMode, hm]) hq hl h hu
  · have sum : s.edidsum = .error (.commandReadUnmarked (Buffer.edid.addr bs.length)) := by
      rw [State.edidsum, edid_unmarked h hu hl]
      rfl
    exact exec_of_runs_fault rfl (n := 0) (t := s.start (commandProgram .edidFillsum)) rfl rfl rfl
      (runMicro_edidsum_fault (s := s) rfl sum) (by omega)
  · have total : s.edidTotal = .error (.commandReadUnmarked (Buffer.edid.addr bs.length)) := by
      rw [State.edidTotal, edidLen, edid_unmarked h hu hl]
      rfl
    exact exec_of_runs_fault rfl (n := 0) (t := s.start (commandProgram .edidValidate)) rfl rfl rfl
      (runMicro_edidTotal_fault (s := s) rfl total) (by omega)

/-! ### EDID_FILLSUM, then EDID_VALIDATE -/

/-- Bytes 0..126 and their checksum sum to 0 modulo 256 (spec/43_codec_edid.md R176). -/
theorem sumBytes_edidChecksum (bs : List Byte) : sumBytes (bs ++ [edidChecksum bs]) % 256 = 0 := by
  have hc : (edidChecksum bs).toNat = (256 - sumBytes bs % 256) % 256 := by
    rw [edidChecksum, BitVec.toNat_ofNat, Nat.mod_eq_of_lt (by omega)]
  have hs : sumBytes (bs ++ [edidChecksum bs]) = sumBytes bs + (edidChecksum bs).toNat := by simp [sumBytes]
  omega

/-- EDID_FILLSUM over 127 marked bytes (R177). -/
theorem exec_edidFillsum {s : State} {bs : List Byte} (hl : bs.length = 127) (h : s.holds .edid 0 bs)
    (hq : 4 ≤ s.env.quiet) :
    exec .edidFillsum s = .next (State.finishedWith
      { s.storeByte .edid 127 (edidChecksum bs) with chksum := edidChecksum bs } .ok s.env.peer) := by
  have summed := edidsum_runs (s := s.begun) [.storeAcc .edid 127, .chksumFromAcc, .finish .ok] 0 false s.out s.env.peer
    (State.edidsum_ok hl (h.congr rfl))
  have ended : Runs 3 (s.begun.busPoint s.out s.env.peer ⟨[.storeAcc .edid 127, .chksumFromAcc, .finish .ok],
      edidChecksum bs, false⟩) (State.finishedWith
        { s.storeByte .edid 127 (edidChecksum bs) with chksum := edidChecksum bs } .ok s.env.peer) :=
    .unsampled rfl rfl rfl (.unsampled rfl rfl rfl (.unsampled rfl rfl rfl rfl))
  exact exec_of_runs rfl (summed.trans ended) hq rfl rfl

/-- EDID_VALIDATE over 128 marked bytes with the header whose sum is 0 modulo 256 (R178). -/
theorem exec_edidValidate_ok {s : State} {bs : List Byte} (hl : bs.length = 128) (h : s.holds .edid 0 bs)
    (hh : bs.take 8 = edidHeader) (hsum : sumBytes bs % 256 = 0) (hq : 3 ≤ s.env.quiet) :
    exec .edidValidate s = .next ({ s with chksum := 0 }.finishedWith .ok s.env.peer) := by
  have total : s.begun.edidTotal = .ok 0 := by
    rw [State.edidTotal_ok (s := s.begun) hl (h.congr rfl), hsum]
    rfl
  have header : s.edidHeaderAtStart = .ok true := by
    rw [← List.take_append_drop 8 bs, hh] at h
    exact State.edidHeaderAtStart_ok rfl (State.holds_append.1 h).1
  have summed := edidTotal_runs [.chksumFromAcc, .edidVerdict] 0 false s.out s.env.peer total
  have stored : Runs 1 (s.begun.busPoint s.out s.env.peer ⟨[.chksumFromAcc, .edidVerdict], 0, false⟩)
      (State.busPoint { s.begun with chksum := 0 } s.out s.env.peer ⟨[.edidVerdict], 0, false⟩) := .unsampled rfl rfl rfl rfl
  have verdict := runMicro_edidVerdict (s := s)
    (t := State.busPoint { s.begun with chksum := 0 } s.out s.env.peer ⟨[], 0, false⟩) rfl header
  have ended : Runs 1 (State.busPoint { s.begun with chksum := 0 } s.out s.env.peer ⟨[.edidVerdict], 0, false⟩)
      (State.finishedWith { s with chksum := 0 } .ok s.env.peer) := .unsampled rfl rfl verdict rfl
  exact exec_of_runs rfl (summed.trans (stored.trans ended)) hq rfl rfl

/-- Settles O53. -/
theorem fillsumThenValidateIsOk : Obligations.FillsumThenValidateIsOk := by
  intro s bs hl h hq hh
  refine ⟨_, _, exec_edidFillsum hl h hq, exec_edidValidate_ok (bs := bs ++ [edidChecksum bs]) (by simp [hl]) ?_ ?_
    (sumBytes_edidChecksum bs) le_rfl, rfl, rfl⟩
  · have := h.snoc (edidChecksum bs)
    rw [hl] at this
    exact this.congr rfl
  · rw [List.take_append_of_le_length (by omega)]
    exact hh

end Sys2Proof.Machine
end

section
/-! SUPPORT and CERTIFICATE. DDC_READ (spec/42_codec_ddcci.md R161) from a peer that does not stretch the clock: its steps and
what the block drives at its samples, procedure by procedure. -/

namespace Sys2Proof.Machine

/-! ### Steps with what they drive -/

/-- n controller steps make `t` of `s`, and the block drives `outs` at their samples. -/
def Transfers (n : Nat) (s t : State) (outs : List Drives) : Prop := Runs n s t ∧ outputsAtSamples n s = outs

theorem Transfers.trans {m n : Nat} {s t u : State} {xs ys : List Drives} (h : Transfers m s t xs) (g : Transfers n t u ys) :
    Transfers (m + n) s u (xs ++ ys) :=
  ⟨h.1.trans g.1, by rw [outputsAtSamples_trans h.1, h.2, g.2]⟩

/-- One step that takes no sample. -/
theorem Transfers.unsampled {s t : State} {m : Micro} {rest : List Micro} (h : s.seq.todo = m :: rest)
    (hd : m.samples = false) (hm : runMicro m (s.jump rest) = .next t) : Transfers 1 s t [] :=
  ⟨.unsampled h hd hm rfl, by rw [outputsAtSamples_step (n := 0) h hm, hd]; rfl⟩

/-- One step, known from its run, that takes no sample. -/
theorem Transfers.of_one {s t : State} {m : Micro} {rest : List Micro} (h : s.seq.todo = m :: rest)
    (hd : m.samples = false) (hr : Runs 1 s t) : Transfers 1 s t [] := by
  obtain ⟨-, -, u, hu, rfl⟩ := hr
  exact .unsampled h hd (by rw [← hu, controllerStep_cons h])

/-- Once the command has ended, the block takes no further sample. -/
theorem Transfers.outputs {m n : Nat} {s t : State} {outs : List Drives} (h : Transfers m s t outs) (hn : m ≤ n)
    (ht : t.seq.todo = []) : outputsAtSamples n s = outs := by
  obtain ⟨k, rfl⟩ := Nat.exists_eq_add_of_le hn
  rw [outputsAtSamples_trans h.1, h.2, outputsAtSamples_idle k ht, List.append_nil]

/-- What a command drives, from where it is accepted. -/
theorem drives_of_transfers {i : Instr} {s t : State} {m n : Nat} {outs : List Drives}
    (ha : modeAllows (neededMode i) s = true)
    (h : Transfers m ((s.setQuiet 0).begun.busPoint s.out s.env.peer ⟨commandProgram i, 0, false⟩) t outs) (hn : m ≤ n)
    (ht : t.seq.todo = []) : s.drives i n outs := by
  refine ⟨_, ?_, h.outputs hn ht⟩
  rw [exec_eq_runCommand, runCommand_allowed (s := s.setQuiet 0) ha]
  rfl

/-! ### The procedures -/

variable (s : State) (rest : List Micro) (a : Byte) (k : Bool) (ds : List Drives)

/-- START, from any outputs (R114). -/
theorem mStart_transfers (o d : Drives) (h : d.scl = .released) :
    Transfers 7 (s.busPoint o (d :: ds) ⟨mStartProc ++ rest, a, k⟩) (s.busPoint ⟨.low, .released⟩ ds ⟨rest, a, k⟩)
      [⟨o.sda, .released⟩] :=
  ⟨mStart_runs s rest a k ds o d h, mStart_outputs s rest a k ds o d h⟩

/-- STOP, with SCL Low before it (R115). -/
theorem mStop_transfers (x : Drive) (d : Drives) (h : d.scl = .released) :
    Transfers 8 (s.busPoint ⟨x, .low⟩ (d :: ds) ⟨mStopProc ++ rest, a, k⟩)
      (s.busPoint ⟨.released, .released⟩ ds ⟨rest, a, k⟩) stopOutputs :=
  ⟨mStop_runs s rest a k ds ⟨x, .low⟩ d h, mStop_outputs s rest a k ds ⟨x, .low⟩ d h⟩

/-- A byte sent to a peer that acknowledges it or not, without stretching (R116). -/
theorem mSend_transfers (b : Byte) (o : Drives) (acks : Bool) :
    Transfers (56 + guardSteps o) (s.busPoint o (receiverScript acks ++ ds) ⟨mSendProc b ++ rest, a, k⟩)
      (s.busPoint ⟨.released, .low⟩ ds ⟨rest, a, acks⟩) (sentOutputs b) := by
  have hs : receiverScript acks ++ ds =
      (quietClocks 8 ++ [if acks then sdaLow else released]) ++ (if acks then sdaLow else released) :: ds := by
    simp [receiverScript, List.replicate]
  have hd : ∀ d ∈ quietClocks 8 ++ [if acks then sdaLow else released], d.scl = .released := by cases acks <;> decide
  have hk : ((if acks then sdaLow else released).sda == .low) = acks := by cases acks <;> rfl
  rw [hs]
  have steps := mSend_runs s rest a k ds b o (if acks then sdaLow else released) _ (by simp [quietClocks]) hd
  rw [hk] at steps
  exact ⟨steps, mSend_outputs s rest a k ds b o _ _ (by simp [quietClocks]) hd⟩

/-- A byte received into `acc`, with SCL Low before it (R117). -/
theorem mRecv_transfers (b : Byte) (x : Drive) :
    Transfers 51 (s.busPoint ⟨x, .low⟩ (senderScript b ++ ds) ⟨mRecvProc ++ rest, a, k⟩)
      (s.busPoint ⟨.released, .low⟩ ds ⟨rest, b, k⟩) (List.replicate 16 released) :=
  ⟨mRecv_runs s rest a k ds b ⟨x, .low⟩, mRecv_outputs s rest a k ds b ⟨x, .low⟩⟩

/-- The block's ACK or NACK, with SCL Low before it (R118, R119). -/
theorem mAckBit_transfers (v x : Drive) (d : Drives) (h : d.scl = .released) :
    Transfers 8 (s.busPoint ⟨x, .low⟩ (d :: ds) ⟨mAckBitProc v ++ rest, a, k⟩)
      (s.busPoint ⟨.released, .low⟩ ds ⟨rest, a, k⟩) [⟨v, .released⟩] :=
  ⟨mAckBit_runs s rest a k ds v ⟨x, .low⟩ d h, mAckBit_outputs s rest a k ds v ⟨x, .low⟩ d h⟩

/-- A byte received and stored in RXBUF. -/
theorem storeReceived_transfers (b : Byte) (i : Nat) :
    Transfers 52 (s.busPoint ⟨.released, .low⟩ (senderScript b ++ ds) ⟨mRecvProc ++ .storeAcc .rx i :: rest, a, k⟩)
      ((s.storeByte .rx i b).busPoint ⟨.released, .low⟩ ds ⟨rest, b, k⟩) (List.replicate 16 released) :=
  (mRecv_transfers s (.storeAcc .rx i :: rest) a k ds b .released).trans (n := 1) (ys := []) (.unsampled rfl rfl rfl)

/-- A byte received, stored in RXBUF and ACKed or NACKed (R161). -/
theorem readByte_transfers (b : Byte) (i : Nat) (v : Drive) :
    Transfers 60 (s.busPoint ⟨.released, .low⟩ (byteScript b ++ ds)
        ⟨mRecvProc ++ .storeAcc .rx i :: (mAckBitProc v ++ rest), a, k⟩)
      ((s.storeByte .rx i b).busPoint ⟨.released, .low⟩ ds ⟨rest, b, k⟩) (receivedOutputs v) := by
  have hs : byteScript b ++ ds = senderScript b ++ released :: ds := by simp [byteScript, quietClocks]
  rw [hs]
  exact (storeReceived_transfers s _ a k (released :: ds) b i).trans
    (mAckBit_transfers (s.storeByte .rx i b) rest b k ds v .released released rfl)

theorem State.storeAll_cons (b : Buffer) (i : Nat) (v : Byte) (vs : List Byte) :
    s.storeAll b i (v :: vs) = (s.storeByte b i v).storeAll b (i + 1) vs := rfl

theorem State.storeAll_append (b : Buffer) (i : Nat) (xs ys : List Byte) :
    s.storeAll b i (xs ++ ys) = (s.storeAll b i xs).storeAll b (i + xs.length) ys := by
  induction xs generalizing s i with
  | nil => rfl
  | cons x xs ih =>
    rw [List.cons_append, State.storeAll_cons, State.storeAll_cons, ih, List.length_cons,
      show i + 1 + xs.length = i + (xs.length + 1) by omega]

/-- The payload bytes, each stored and ACKed (R161). -/
theorem readPayload_transfers (payload : List Byte) (j : Nat) : ∃ a', Transfers (60 * payload.length)
    (s.busPoint ⟨.released, .low⟩ (bytesScript payload ++ ds)
      ⟨(List.range' j payload.length).flatMap readPayloadByte ++ rest, a, k⟩)
    ((s.storeAll .rx (2 + j) payload).busPoint ⟨.released, .low⟩ ds ⟨rest, a', k⟩)
    (List.replicate payload.length (receivedOutputs .low)).flatten := by
  induction payload generalizing s a j with
  | nil => exact ⟨a, rfl, rfl⟩
  | cons b bs ih =>
    obtain ⟨a', h⟩ := ih (s.storeByte .rx (2 + j) b) b (j + 1)
    rw [show 2 + (j + 1) = 2 + j + 1 by omega] at h
    refine ⟨a', ?_⟩
    have hb := readByte_transfers s ((List.range' (j + 1) bs.length).flatMap readPayloadByte ++ rest) a k
      (bytesScript bs ++ ds) b (2 + j) .low
    have := hb.trans h
    rw [show 60 + 60 * bs.length = 60 * (b :: bs).length by simp; omega] at this
    rw [State.storeAll_cons]
    simpa [bytesScript, List.range'_succ, readPayloadByte, List.replicate_succ] using this

/-! ### DDC_READ of a frame -/

/-- The address byte and the START before it, acknowledged (R161). -/
theorem readAddress_transfers (o : Drives) :
    Transfers 66 (s.busPoint o (quietClocks 1 ++ receiverScript true ++ ds)
        ⟨mStartProc ++ (mSendProc ddcDestR ++ .stopIfNack :: rest), a, k⟩)
      (s.busPoint ⟨.released, .low⟩ ds ⟨rest, a, true⟩) ([⟨o.sda, .released⟩] ++ sentOutputs 0x6F) := by
  have start := mStart_transfers s (mSendProc ddcDestR ++ .stopIfNack :: rest) a k (receiverScript true ++ ds) o released rfl
  have send := mSend_transfers s (.stopIfNack :: rest) a k ds ddcDestR ⟨.low, .released⟩ true
  have goOn : Transfers 1 (s.busPoint ⟨.released, .low⟩ ds ⟨.stopIfNack :: rest, a, true⟩)
      (s.busPoint ⟨.released, .low⟩ ds ⟨rest, a, true⟩) [] := .unsampled rfl rfl rfl
  have := (start.trans send).trans goOn
  rw [List.append_nil] at this
  exact this

/-- `DDC_READ` from its first position up to the ACK of the length byte: the source and the length byte are stored (R161). -/
theorem readHead_transfers (o : Drives) (source l : Byte) :
    Transfers 179 (s.busPoint o (quietClocks 1 ++ receiverScript true ++ (byteScript source ++ (senderScript l ++ ds)))
        ⟨commandProgram .ddcRead, a, k⟩)
      ((s.storeAll .rx 0 [source, l]).busPoint ⟨.released, .low⟩ ds ⟨readLengthNext (classify l), l, true⟩)
      ([⟨o.sda, .released⟩] ++ sentOutputs 0x6F ++ receivedOutputs .low ++ List.replicate 16 released) := by
  have program : commandProgram .ddcRead = mStartProc ++ (mSendProc ddcDestR ++ .stopIfNack ::
      (mRecvProc ++ .storeAcc .rx 0 :: (mAckBitProc .low ++ (mRecvProc ++ .storeAcc .rx 1 :: [.readLength])))) := by
    simp only [commandProgram, List.append_assoc, List.cons_append, List.nil_append]
  have address := readAddress_transfers s (mRecvProc ++ .storeAcc .rx 0 :: (mAckBitProc .low ++ (mRecvProc ++
    .storeAcc .rx 1 :: [.readLength]))) a k (byteScript source ++ (senderScript l ++ ds)) o
  have first := readByte_transfers s (mRecvProc ++ .storeAcc .rx 1 :: [.readLength]) a true (senderScript l ++ ds) source 0 .low
  have second := storeReceived_transfers (s.storeByte .rx 0 source) [.readLength] source true ds l 1
  have goOn : Transfers 1 ((s.storeAll .rx 0 [source, l]).busPoint ⟨.released, .low⟩ ds ⟨[.readLength], l, true⟩)
      ((s.storeAll .rx 0 [source, l]).busPoint ⟨.released, .low⟩ ds ⟨readLengthNext (classify l), l, true⟩) [] :=
    .unsampled rfl rfl rfl
  have := ((address.trans first).trans second).trans goOn
  rw [List.append_nil] at this
  rw [program]
  exact this

/-- The rest of `DDC_READ` after a Valid length byte: the ACK, the payload and the checksum byte, the last byte NACKed, and
STOP (R161). -/
theorem readRest_transfers (payload : List Byte) (c : Byte) : ∃ a', Transfers (8 + 60 * payload.length + 60 + 8)
    (s.busPoint ⟨.released, .low⟩ (released :: (bytesScript payload ++ (byteScript c ++ released :: ds)))
      ⟨readLengthNext (.valid payload.length), a, k⟩)
    (((s.storeAll .rx 2 payload).storeByte .rx (2 + payload.length) c).busPoint ⟨.released, .released⟩ ds
      ⟨[.rxsum payload.length, .chksumFromAcc, .setFrameLen payload.length, .rxVerdict payload.length], a', k⟩)
    ([⟨.low, .released⟩] ++ (List.replicate payload.length (receivedOutputs .low)).flatten ++ receivedOutputs .released ++
      stopOutputs) := by
  obtain ⟨checks, hchecks⟩ : ∃ ms : List Micro, ms =
    [.rxsum payload.length, .chksumFromAcc, .setFrameLen payload.length, .rxVerdict payload.length] := ⟨_, rfl⟩
  have program : readLengthNext (.valid payload.length) = mAckBitProc .low ++
      ((List.range' 0 payload.length).flatMap readPayloadByte ++ (mRecvProc ++ .storeAcc .rx (2 + payload.length) ::
        (mAckBitProc .released ++ (mStopProc ++ checks)))) := by
    simp only [readLengthNext, hchecks, List.append_assoc, List.cons_append, List.nil_append, List.range_eq_range']
  have ack := mAckBit_transfers s ((List.range' 0 payload.length).flatMap readPayloadByte ++ (mRecvProc ++
    .storeAcc .rx (2 + payload.length) :: (mAckBitProc .released ++ (mStopProc ++ checks)))) a k
    (bytesScript payload ++ (byteScript c ++ released :: ds)) .low .released released rfl
  obtain ⟨a', bytes⟩ := readPayload_transfers s (mRecvProc ++ .storeAcc .rx (2 + payload.length) ::
    (mAckBitProc .released ++ (mStopProc ++ checks))) a k (byteScript c ++ released :: ds) payload 0
  have last := readByte_transfers (s.storeAll .rx 2 payload) (mStopProc ++ checks) a' k (released :: ds) c
    (2 + payload.length) .released
  have stop := mStop_transfers ((s.storeAll .rx 2 payload).storeByte .rx (2 + payload.length) c) checks c k ds .released
    released rfl
  rw [program, ← hchecks]
  exact ⟨c, ((ack.trans bytes).trans last).trans stop⟩

/-- The verdict on the stored frame (R157, R161). -/
theorem rxVerdict_transfers {n : Nat} {frame : List Byte} {c : Byte} (hl : frame.length = 1 + n)
    (h : s.holds .rx 1 (frame ++ [c])) (o : Drives) :
    Transfers 4 (s.busPoint o ds ⟨[.rxsum n, .chksumFromAcc, .setFrameLen n, .rxVerdict n], a, k⟩)
      (({ s with chksum := xorBytes rxSeed frame, frameLen := BitVec.ofNat 6 n }.withOut o.sda o.scl).finishedWith
        (if xorBytes rxSeed frame = c then .ok else .invalidChecksum) ds) [] := by
  obtain ⟨held, stored⟩ := State.holds_append.1 h
  rw [hl] at stored
  have hc : Memory.read s.mem (Buffer.rx.addr (2 + n)) = some c := by
    rw [show 2 + n = 1 + (1 + n) by omega]; exact (State.holds_cons_iff.1 stored).1
  have sum : Transfers 1 _ _ [] := .of_one rfl rfl
    (rxsum_runs [.chksumFromAcc, .setFrameLen n, .rxVerdict n] a k o ds (State.rxsum_ok hl held))
  have chksum : Transfers 1 (s.busPoint o ds ⟨[.chksumFromAcc, .setFrameLen n, .rxVerdict n], xorBytes rxSeed frame, k⟩)
      (State.busPoint { s with chksum := xorBytes rxSeed frame } o ds ⟨[.setFrameLen n, .rxVerdict n], xorBytes rxSeed frame, k⟩)
      [] := .unsampled rfl rfl rfl
  have length : Transfers 1
      (State.busPoint { s with chksum := xorBytes rxSeed frame } o ds ⟨[.setFrameLen n, .rxVerdict n], xorBytes rxSeed frame, k⟩)
      (State.busPoint { s with chksum := xorBytes rxSeed frame, frameLen := BitVec.ofNat 6 n } o ds
        ⟨[.rxVerdict n], xorBytes rxSeed frame, k⟩) [] := .unsampled rfl rfl rfl
  have verdict : Transfers 1 (State.busPoint { s with chksum := xorBytes rxSeed frame, frameLen := BitVec.ofNat 6 n } o ds
      ⟨[.rxVerdict n], xorBytes rxSeed frame, k⟩)
      (({ s with chksum := xorBytes rxSeed frame, frameLen := BitVec.ofNat 6 n }.withOut o.sda o.scl).finishedWith
        (if xorBytes rxSeed frame = c then .ok else .invalidChecksum) ds) [] :=
    .unsampled rfl rfl (withByte_ok ((State.readByte_ok_iff _ _ _ _).2 hc) _)
  exact sum.trans (chksum.trans (length.trans verdict))

/-- `s` after a DDC_READ of this reply, `rest` being what is left of the peer's script. -/
def State.readFrame (s : State) (source l : Byte) (payload : List Byte) (c : Byte) (rest : List Drives) : State :=
  ({ s.storeAll .rx 0 (source :: l :: payload ++ [c]) with
    chksum := xorBytes rxSeed (l :: payload)
    frameLen := BitVec.ofNat 6 payload.length }.withOut .released .released).finishedWith
      (if xorBytes rxSeed (l :: payload) = c then .ok else .invalidChecksum) rest

/-- DDC_READ of a reply with a Valid length byte, from its first position to its end (R161). -/
theorem ddcRead_transfers (o : Drives) {source l c : Byte} {payload : List Byte} (hl : classify l = .valid payload.length) :
    ∃ n, n ≤ 259 + 60 * payload.length ∧
      Transfers n (s.begun.busPoint o (readScript (source :: l :: payload ++ [c]) ++ quietClocks 1 ++ ds)
          ⟨commandProgram .ddcRead, 0, false⟩) (s.readFrame source l payload c ds)
        ([⟨o.sda, .released⟩] ++ sentOutputs 0x6F ++ receivedLastNacked (3 + payload.length) ++ stopOutputs) := by
  have head := readHead_transfers s.begun 0 false (released :: (bytesScript payload ++ (byteScript c ++ released :: ds))) o source l
  rw [hl] at head
  obtain ⟨a', tail⟩ := readRest_transfers (s.begun.storeAll .rx 0 [source, l]) l true ds payload c
  have stored : ((s.begun.storeAll .rx 0 [source, l]).storeAll .rx 2 payload).storeByte .rx (2 + payload.length) c =
      s.begun.storeAll .rx 0 (source :: l :: payload ++ [c]) := by
    rw [show source :: l :: payload ++ [c] = ([source, l] ++ payload) ++ [c] from rfl, State.storeAll_append,
      State.storeAll_append]
    simp only [List.length_append, List.length_cons, List.length_nil, Nat.zero_add, Nat.reduceAdd]
    rfl
  rw [stored] at tail
  have held := (State.storeAll_spec s.begun .rx 0 (source :: l :: payload ++ [c])).1
  have verdict := rxVerdict_transfers (s.begun.storeAll .rx 0 (source :: l :: payload ++ [c])) a' true ds
    (n := payload.length) (frame := l :: payload) (by simp; omega) (State.holds_cons_iff.1 held).2 ⟨.released, .released⟩
  have whole : Transfers _ _ (s.readFrame source l payload c ds) _ := (head.trans tail).trans verdict
  rw [List.append_nil] at whole
  refine ⟨179 + (8 + 60 * payload.length + 60 + 8) + 4, by omega, ?_⟩
  have script : readScript (source :: l :: payload ++ [c]) ++ quietClocks 1 ++ ds =
      quietClocks 1 ++ receiverScript true ++ (byteScript source ++ (senderScript l ++ released ::
        (bytesScript payload ++ (byteScript c ++ released :: ds)))) := by
    simp [readScript, bytesScript, byteScript, quietClocks]
  have driven : receivedLastNacked (3 + payload.length) = receivedOutputs .low ++ (List.replicate 16 released ++
      ([⟨.low, .released⟩] ++ ((List.replicate payload.length (receivedOutputs .low)).flatten ++ receivedOutputs .released))) := by
    rw [receivedLastNacked, show 3 + payload.length - 1 = payload.length + 1 + 1 by omega, List.replicate_succ,
      List.replicate_succ]
    simp only [List.flatten_cons, receivedOutputs, List.append_assoc]
  rw [script, driven]
  simpa only [List.append_assoc] using whole

/-- Settles O48. -/
theorem ddcReadReceivesAFrame : Obligations.DdcReadReceivesAFrame := by
  intro s source payload c rest hm h3 h35 len x ⟨hq, hp⟩
  have allowed : modeAllows (neededMode .ddcRead) s = true := by simp [modeAllows, neededMode, hm]
  have hl : classify len = .valid payload.length := classify_txLengthByte h3 h35
  obtain ⟨held, outside⟩ := State.storeAll_spec s .rx 0 (source :: len :: payload ++ [c])
  constructor
  · obtain ⟨n, hn, run, -⟩ := ddcRead_transfers s rest s.out (source := source) (c := c) hl
    refine ⟨(s.storeAll .rx 0 (source :: len :: payload ++ [c])).mem, ?_, held.congr rfl, fun a ha => outside a ?_⟩
    · refine exec_of_runs allowed (n := n) ?_ (by omega) rfl rfl
      rw [State.start_eq_busPoint, hp]
      exact run
    · intro i hi
      exact ha i (by simp at hi; omega)
  · obtain ⟨n, hn, run⟩ := ddcRead_transfers (s.setQuiet 0) rest s.out (source := source) (c := c) hl
    rw [← hp] at run
    exact drives_of_transfers allowed run (by omega) rfl

end Sys2Proof.Machine
end

section
/-! SUPPORT and CERTIFICATE. What each command leaves alone (spec/60_exceptions.md R205, and the "Registers written" of each
command): what a step may write, itself or by what it goes on with, and that a run writes nothing else. -/

namespace Sys2Proof.Machine

/-! ### What a step may write -/

/-- A part of the state that a command writes or leaves alone. -/
inductive Element where
  /-- `sda_out`, `scl_out`. -/
  | out
  /-- The peer's script and the count of free draws: what a sample uses up. -/
  | samples
  /-- The slave automaton. -/
  | auto
  | rxData
  | chksum
  | frameLen
  /-- The EDID-read variables. -/
  | edid
  /-- The whole memory. -/
  | mem
  /-- The byte at an offset, with its mark. -/
  | byteAt (a : Nat)
  /-- The number of the copy. -/
  | unit

/-- The element is the same in `t` as in `s`. -/
def sameElement (e : Element) (s t : State) : Prop :=
  match e with
  | .out => t.out = s.out
  | .samples => (t.env.peer, t.env.draws) = (s.env.peer, s.env.draws)
  | .auto => t.auto = s.auto
  | .rxData => t.rxData = s.rxData
  | .chksum => t.chksum = s.chksum
  | .frameLen => t.frameLen = s.frameLen
  | .edid => t.edid = s.edid
  | .mem => t.mem = s.mem
  | .byteAt a => Memory.read t.mem a = Memory.read s.mem a
  | .unit => t.env.unit = s.env.unit

theorem sameElement.refl (e : Element) (s : State) : sameElement e s s := by
  cases e <;> rfl

theorem sameElement.trans {e : Element} {s t u : State} (h : sameElement e s t) (g : sameElement e t u) :
    sameElement e s u := by
  cases e <;> exact Eq.trans g h

/-- The element is a byte of the run i .. i+n-1 of a buffer, or the memory that holds it. -/
def Element.inRun (e : Element) (b : Buffer) (i n : Nat) : Prop := e = .mem ∨ ∃ k, k < n ∧ e = .byteAt (b.addr (i + k))

/-- What the transfers on the bus write. -/
def Element.onBus (e : Element) : Prop := e = .out ∨ e = .samples

/-- What EDID_READ writes. -/
def Element.ofEdidRead (e : Element) : Prop := e.onBus ∨ e = .edid ∨ e.inRun .edid 0 128

/-- What a step may write, itself or by what it goes on with. -/
def Micro.mayWrite (m : Micro) (e : Element) : Prop :=
  match m with
  | .setSda _ => e = .out
  | .setScl _ => e = .out
  | .delay => False
  | .clockLowGuard => e = .out
  | .pollScl _ => e.onBus
  | .sampleAck => e = .samples
  | .clearAcc => False
  | .sampleBit _ => e = .samples
  | .rxByteFromAcc => e = .rxData
  | .rxFirst _ => e = .rxData
  | .releaseStretch => e = .out
  | .releaseStretchDelayed => e = .out
  | .getSample => e.onBus ∨ e = .auto ∨ e = .rxData
  | .waitSample _ => e.onBus ∨ e = .auto
  | .setPrev _ => e = .auto
  | .latchAck => False
  | .setSt _ => e = .auto
  | .setCount _ => e = .auto
  | .setShreg _ => e = .auto
  | .setFirst _ => e = .auto
  | .shiftIn _ => e = .auto
  | .decCount => e = .auto
  | .rxByteFromShreg => e = .rxData
  | .rxFirstFromFirst => e = .rxData
  | .setStAfterByte => e = .auto
  | .applyStretch => e = .out
  | .sendToMasterEnd => e = .out ∨ e = .auto
  | .store b i _ => e.inRun b i 1
  | .storeAll b i bs => e.inRun b i bs.length
  | .storeAcc b i => e.inRun b i 1
  | .txsum _ => False
  | .rxsum _ => False
  | .chksumFromAcc => e = .chksum
  | .setFrameLen _ => e = .frameLen
  | .sendTx _ => e.onBus
  | .rxcheckLength => e = .chksum ∨ e = .frameLen
  | .readLength => e.onBus ∨ e = .chksum ∨ e = .frameLen ∨ e.inRun .rx 0 38
  | .rxVerdict _ => False
  | .edidsum => False
  | .edidTotal => False
  | .edidVerdict => False
  | .setPass _ => e = .edid
  | .setCursor _ => e = .edid
  | .setValidated _ => e = .edid
  | .setResynced _ => e = .edid
  | .edidWhile => e.ofEdidRead
  | .edidStore => e = .edid ∨ e.inRun .edid 0 128
  | .edidAdvance => e = .edid
  | .edidMatch => e.ofEdidRead
  | .edidAckByte => e.onBus
  | .edidPassEnd => e.ofEdidRead
  | .stopIfNack => e.onBus
  | .finish _ => False
  | .finishAck => False

/-- What a program may write. -/
def mayWrite (ms : List Micro) (e : Element) : Prop := ∃ m ∈ ms, m.mayWrite e

@[simp] theorem mayWrite_nil (e : Element) : ¬ mayWrite [] e := by simp [mayWrite]

@[simp] theorem mayWrite_cons (m : Micro) (ms : List Micro) (e : Element) :
    mayWrite (m :: ms) e ↔ m.mayWrite e ∨ mayWrite ms e := by simp [mayWrite]

@[simp] theorem mayWrite_append (ms ns : List Micro) (e : Element) :
    mayWrite (ms ++ ns) e ↔ mayWrite ms e ∨ mayWrite ns e := by simp [mayWrite, or_and_right, exists_or]

theorem mayWrite_flatMap {α : Type} {xs : List α} {f : α → List Micro} {e : Element} (h : mayWrite (xs.flatMap f) e) :
    ∃ x ∈ xs, mayWrite (f x) e := by
  obtain ⟨m, hm, he⟩ := h
  obtain ⟨x, hx, hm⟩ := List.mem_flatMap.1 hm
  exact ⟨x, hx, m, hm, he⟩

/-! ### What the procedures may write -/

section Procedures
variable {e : Element}

theorem mStartProc_mayWrite (h : mayWrite mStartProc e) : e.onBus := by
  simp [mStartProc, releaseSclAndWait, Micro.mayWrite, Element.onBus] at h ⊢; tauto

theorem mStopProc_mayWrite (h : mayWrite mStopProc e) : e.onBus := by
  simp [mStopProc, releaseSclAndWait, Micro.mayWrite, Element.onBus] at h ⊢; tauto

theorem mSendProc_mayWrite {b : Byte} (h : mayWrite (mSendProc b) e) : e.onBus := by
  simp [mSendProc, bitsDown, sendBitProc, ackBitProc, releaseSclAndWait, Micro.mayWrite, Element.onBus] at h ⊢; tauto

theorem mRecvProc_mayWrite (h : mayWrite mRecvProc e) : e.onBus := by
  simp [mRecvProc, bitsDown, recvBitProc, releaseSclAndWait, Micro.mayWrite, Element.onBus] at h ⊢; tauto

theorem mAckBitProc_mayWrite {v : Drive} (h : mayWrite (mAckBitProc v) e) : e.onBus := by
  simp [mAckBitProc, releaseSclAndWait, Micro.mayWrite, Element.onBus] at h ⊢; tauto

theorem Element.inRun_mono {b : Buffer} {i n j k : Nat} (h : e.inRun b i n) (hj : j ≤ i) (hk : i + n ≤ j + k) :
    e.inRun b j k := by
  rcases h with h | ⟨l, hl, h⟩
  · exact .inl h
  · exact .inr ⟨i + l - j, by omega, by rw [h]; congr 2; omega⟩

theorem edidPassProc_mayWrite (h : mayWrite edidPassProc e) : e.ofEdidRead := by
  simp only [edidPassProc, List.cons_append, List.nil_append, List.append_assoc, mayWrite_cons, mayWrite_append,
    mayWrite_nil, Micro.mayWrite, or_false] at h
  rcases h with h | h | h | h | h | h | h
  · exact .inr (.inl h)
  · exact .inr (.inl h)
  · exact .inr (.inl h)
  · exact .inl (mStartProc_mayWrite h)
  · exact .inl (mSendProc_mayWrite h)
  · exact .inl h
  · exact h

theorem edidResyncProc_mayWrite (h : mayWrite edidResyncProc e) : e.ofEdidRead := by
  simp only [edidResyncProc, storeHeaderProc, List.cons_append, List.nil_append, List.append_assoc, mayWrite_cons,
    mayWrite_append, mayWrite_nil, Micro.mayWrite, or_false] at h
  rcases h with h | h | h | h | h | h | h | h | h
  · exact .inr (.inr (Element.inRun_mono h (le_refl 0) (by decide)))
  · exact .inr (.inl h)
  · exact .inr (.inl h)
  · exact .inr (.inl h)
  · exact .inl (mAckBitProc_mayWrite h)
  · exact .inl (mStartProc_mayWrite h)
  · exact .inl (mSendProc_mayWrite h)
  · exact .inl h
  · exact h

theorem edidWhileNext_mayWrite {c : Option Nat} (h : mayWrite (edidWhileNext c) e) : e.ofEdidRead := by
  unfold edidWhileNext at h
  split at h
  · simp only [mayWrite_append, mayWrite_cons, mayWrite_nil, Micro.mayWrite, or_false] at h
    rcases h with h | h
    · exact .inl (mStopProc_mayWrite h)
    · exact h
  · simp only [edidByteProc, mayWrite_append, mayWrite_cons, mayWrite_nil, Micro.mayWrite, or_false] at h
    rcases h with h | h | h | h
    · exact .inl (mRecvProc_mayWrite h)
    · exact .inr h
    · exact .inr (.inl h)
    · exact h

theorem edidMatchNext_mayWrite {matched : Bool} {c : Nat} (h : mayWrite (edidMatchNext matched c) e) : e.ofEdidRead := by
  unfold edidMatchNext at h
  split_ifs at h
  · simp only [mayWrite_cons, mayWrite_nil, Micro.mayWrite, or_false] at h
    rcases h with h | h | h
    · exact .inr (.inl h)
    · exact .inl h
    · exact h
  · exact edidResyncProc_mayWrite h
  · simp only [mayWrite_cons, mayWrite_nil, Micro.mayWrite, or_false] at h
    rcases h with h | h
    · exact .inl h
    · exact h

theorem edidPassEndNext_mayWrite {validated pass : Bool} (h : mayWrite (edidPassEndNext validated pass) e) :
    e.ofEdidRead := by
  unfold edidPassEndNext at h
  split_ifs at h
  · simp [Micro.mayWrite] at h
  · simp [Micro.mayWrite] at h
  · simp only [List.cons_append, List.nil_append, mayWrite_cons, Micro.mayWrite] at h
    rcases h with h | h
    · exact .inr (.inl h)
    · exact edidPassProc_mayWrite h

theorem edidAckNext_mayWrite {c : Option Nat} (h : mayWrite (edidAckNext c) e) : e.onBus := by
  unfold edidAckNext at h
  split at h <;> exact mAckBitProc_mayWrite h

theorem readLengthNext_mayWrite {l : Byte} (h : mayWrite (readLengthNext (classify l)) e) :
    e.onBus ∨ e = .chksum ∨ e = .frameLen ∨ e.inRun .rx 0 38 := by
  cases hc : classify l with
  | null =>
    simp only [hc, readLengthNext, List.append_assoc, mayWrite_append, mayWrite_cons, mayWrite_nil, Micro.mayWrite,
      or_false] at h
    rcases h with h | h | h
    · exact .inl (mAckBitProc_mayWrite h)
    · exact .inl (mStopProc_mayWrite h)
    · exact .inr (.inr (.inl h))
  | invalid =>
    simp only [hc, readLengthNext, List.append_assoc, mayWrite_append, mayWrite_cons, mayWrite_nil, Micro.mayWrite,
      or_false] at h
    rcases h with h | h | h
    · exact .inl (mAckBitProc_mayWrite h)
    · exact .inl (mStopProc_mayWrite h)
    · exact .inr (.inr (.inl h))
  | valid n =>
    have hn : n ≤ 35 := (classify_valid hc).2
    simp only [hc, readLengthNext, List.append_assoc, mayWrite_append, mayWrite_cons, mayWrite_nil, Micro.mayWrite,
      or_false, false_or] at h
    rcases h with h | h | h | h | h | h | h | h
    · exact .inl (mAckBitProc_mayWrite h)
    · obtain ⟨j, hj, h⟩ := mayWrite_flatMap h
      rw [List.mem_range] at hj
      simp only [readPayloadByte, List.append_assoc, mayWrite_append, mayWrite_cons, mayWrite_nil, Micro.mayWrite,
        or_false] at h
      rcases h with h | h | h
      · exact .inl (mRecvProc_mayWrite h)
      · exact .inr (.inr (.inr (Element.inRun_mono h (by omega) (by omega))))
      · exact .inl (mAckBitProc_mayWrite h)
    · exact .inl (mRecvProc_mayWrite h)
    · exact .inr (.inr (.inr (Element.inRun_mono h (by omega) (by omega))))
    · exact .inl (mAckBitProc_mayWrite h)
    · exact .inl (mStopProc_mayWrite h)
    · exact .inr (.inl h)
    · exact .inr (.inr (.inl h))

theorem rxcheckNext_mayWrite {c : LengthClass} (h : mayWrite (rxcheckNext c) e) : e = .chksum ∨ e = .frameLen := by
  cases c <;> simp [rxcheckNext, Micro.mayWrite] at h <;> tauto

theorem getByteNext_mayWrite {a : Automaton} {cur : Levels} (h : mayWrite (getByteNext a cur) e) :
    e.onBus ∨ e = .auto ∨ e = .rxData := by
  have loop (g : mayWrite getLoop e) : e.onBus ∨ e = .auto ∨ e = .rxData := by
    simpa [getLoop, Micro.mayWrite] using g
  unfold getByteNext at h
  split at h
  · rw [mayWrite_append] at h
    exact h.elim (fun g => .inr (.inl (by simpa [startActions, Micro.mayWrite] using g))) loop
  split at h
  · rw [mayWrite_append] at h
    exact h.elim (fun g => by simp [stopActions, Micro.mayWrite, Element.onBus] at g ⊢; tauto) loop
  split at h
  · rename_i actions hr
    rw [mayWrite_append] at h
    refine h.elim (fun g => ?_) loop
    unfold automatonRow at hr
    split at hr
    case h_4 => split_ifs at hr <;> (cases hr; simp [Micro.mayWrite, Element.onBus] at g ⊢; tauto)
    case h_6 => cases hr
    all_goals cases hr; simp [Micro.mayWrite] at g
    all_goals exact .inr (.inl g)
  · simp [byteCompletion, Micro.mayWrite, Element.onBus] at h ⊢; tauto

theorem waitClockNext_mayWrite {x : Event} {p cur : Levels} {rest : List Micro}
    (h : mayWrite (waitClockNext x p cur rest) e) : (e.onBus ∨ e = .auto) ∨ mayWrite rest e := by
  unfold waitClockNext at h
  split at h
  · simp [startActions, Micro.mayWrite, Element.onBus] at h ⊢; tauto
  split at h
  · simp [stopActions, Micro.mayWrite, Element.onBus] at h ⊢; tauto
  split at h
  · exact .inr h
  · rw [mayWrite_append] at h
    exact h.imp_left fun g => by simpa [waitClock, Micro.mayWrite] using g

theorem sendToMasterEndNext_mayWrite {acked : Bool} (h : mayWrite (sendToMasterEndNext acked) e) :
    e = .out ∨ e = .auto := by
  cases acked <;> simp [sendToMasterEndNext, Micro.mayWrite] at h <;> tauto

theorem stopIfNackNext_mayWrite {acked : Bool} {rest : List Micro} (h : mayWrite (stopIfNackNext acked rest) e) :
    e.onBus ∨ mayWrite rest e := by
  cases acked
  · simp only [stopIfNackNext, Bool.false_eq_true, if_false, mayWrite_append, mayWrite_cons, mayWrite_nil, Micro.mayWrite,
      or_false] at h
    exact .inl (mStopProc_mayWrite h)
  · exact .inr h

end Procedures

/-! ### One step -/

/-- What a step goes on with writes nothing that the step, or what was left, may not write. -/
theorem runMicro_mayWrite {m : Micro} {s t : State} {e : Element} (h : runMicro m s = .next t) (he : mayWrite t.seq.todo e) :
    m.mayWrite e ∨ mayWrite s.seq.todo e := by
  cases m <;> simp only [runMicro] at h
  case clockLowGuard =>
    cases h
    split_ifs at he
    · exact .imp_left (fun g => by simpa [Micro.mayWrite] using g) ((mayWrite_append _ _ _).1 he)
    · exact .inr he
  case pollScl k =>
    cases h
    unfold pollNext at he
    split at he
    · exact .inr (by simpa using he)
    · split_ifs at he
      · exact .inl (.inl (by simpa [Micro.mayWrite] using he))
      · simp [Micro.mayWrite] at he
        exact he
  case releaseStretch => cases h; split_ifs at he <;> exact .inr he
  case releaseStretchDelayed =>
    cases h
    split_ifs at he
    · exact .imp_left (fun g => by simpa [Micro.mayWrite] using g) ((mayWrite_append _ _ _).1 he)
    · exact .inr he
  case applyStretch => cases h; unfold applyStretch at he; split_ifs at he <;> exact .inr he
  case sampleAck => cases h; exact .inr (by simpa using he)
  case sampleBit => cases h; exact .inr (by simpa using he)
  case getSample =>
    cases h
    rw [(State.slaveSample_spec _ _).2.2.2, mayWrite_cons] at he
    exact .inl (he.elim (fun g => .inr (.inl g)) getByteNext_mayWrite)
  case waitSample =>
    cases h
    rw [(State.slaveSample_spec _ _).2.2.2, mayWrite_cons] at he
    exact he.elim (fun g => .inl (.inr g)) waitClockNext_mayWrite
  case sendToMasterEnd => cases h; exact .inl (sendToMasterEndNext_mayWrite he)
  case sendTx => obtain ⟨v, -, rfl⟩ := withByte_next h; exact ((mayWrite_append _ _ _).1 he).imp_left mSendProc_mayWrite
  case rxcheckLength => obtain ⟨v, -, rfl⟩ := withByte_next h; exact .inl (rxcheckNext_mayWrite he)
  case readLength => cases h; exact .inl (readLengthNext_mayWrite he)
  case edidWhile => cases h; exact .inl (edidWhileNext_mayWrite he)
  case edidMatch =>
    split_ifs at h
    · cases h; exact .inl (edidMatchNext_mayWrite (matched := false) (c := s.edid.cursor.getD 0) he)
    · obtain ⟨b, -, rfl⟩ := withTest_next h; exact .inl (edidMatchNext_mayWrite he)
  case edidAckByte => cases h; exact ((mayWrite_append _ _ _).1 he).imp_left edidAckNext_mayWrite
  case edidPassEnd => cases h; exact .inl (edidPassEndNext_mayWrite he)
  case stopIfNack => cases h; exact stopIfNackNext_mayWrite he
  -- ends
  case finish => cases h; exact absurd he (mayWrite_nil e)
  case finishAck => cases h; exact absurd he (mayWrite_nil e)
  case rxVerdict => obtain ⟨v, -, rfl⟩ := withByte_next h; exact absurd he (mayWrite_nil e)
  case edidVerdict =>
    obtain ⟨b, -, rfl⟩ := withTest_next h
    unfold edidVerdict at he
    split_ifs at he <;> exact absurd he (mayWrite_nil e)
  -- sums
  case txsum => obtain ⟨v, -, rfl⟩ := withByte_next h; exact .inr he
  case rxsum => obtain ⟨v, -, rfl⟩ := withByte_next h; exact .inr he
  case edidsum => obtain ⟨v, -, rfl⟩ := withByte_next h; exact .inr he
  case edidTotal => obtain ⟨v, -, rfl⟩ := withByte_next h; exact .inr he
  -- every other step goes on with what was left
  all_goals cases h; exact .inr he

section Writes
variable {e : Element} {s : State}

/-- The updates a step is made of, each with the elements it can change. -/
theorem sameElement_seq (q : Sequencer) : sameElement e s { s with seq := q } := by
  cases e <;> rfl

theorem sameElement_out (o : Drives) (h : e ≠ .out) : sameElement e s { s with out := o } := by
  cases e
  case out => exact absurd rfl h
  all_goals rfl

theorem sameElement_auto (a : Automaton) (h : e ≠ .auto) : sameElement e s { s with auto := a } := by
  cases e
  case auto => exact absurd rfl h
  all_goals rfl

theorem sameElement_rxData (x : RxData) (h : e ≠ .rxData) : sameElement e s { s with rxData := x } := by
  cases e
  case rxData => exact absurd rfl h
  all_goals rfl

theorem sameElement_chksum (v : Byte) (h : e ≠ .chksum) : sameElement e s { s with chksum := v } := by
  cases e
  case chksum => exact absurd rfl h
  all_goals rfl

theorem sameElement_frameLen (n : BitVec 6) (h : e ≠ .frameLen) : sameElement e s { s with frameLen := n } := by
  cases e
  case frameLen => exact absurd rfl h
  all_goals rfl

theorem sameElement_edid (x : EdidVars) (h : e ≠ .edid) : sameElement e s { s with edid := x } := by
  cases e
  case edid => exact absurd rfl h
  all_goals rfl

theorem sameElement_finish (r : Result) : sameElement e s (s.finish r) := by
  cases e <;> rfl

theorem sameElement_drawn (h : e ≠ .samples) : sameElement e s s.drawn := by
  cases e
  case samples => exact absurd rfl h
  case unit => unfold State.drawn; split <;> rfl
  case byteAt => exact congrArg (Memory.read · _) s.drawn_mem
  all_goals simp [sameElement]

theorem sameElement_storeAll {b : Buffer} {i : Nat} {bs : List Byte} (h : ¬ e.inRun b i bs.length) :
    sameElement e s (s.storeAll b i bs) := by
  cases e
  case mem => exact absurd (.inl rfl) h
  case byteAt a => exact Memory.read_writeAll_other fun k hk ha => h (.inr ⟨k, hk, by rw [ha]⟩)
  all_goals rfl

theorem sameElement_storeByte {b : Buffer} {i : Nat} (v : Byte) (h : ¬ e.inRun b i 1) :
    sameElement e s (s.storeByte b i v) := sameElement_storeAll (bs := [v]) h

end Writes

/-- A step leaves every element that it may not write; the byte EDID_READ stores at its cursor is one of EDIDBUF. -/
theorem runMicro_sameElement {m : Micro} {s t : State} {e : Element} (h : runMicro m s = .next t) (he : ¬ m.mayWrite e)
    (hc : m = .edidStore → nextIndex s.edid.cursor ≤ 127) : sameElement e s t := by
  cases m <;> simp only [runMicro] at h
  -- the outputs and samples
  case setSda => cases h; exact sameElement_out _ he
  case setScl => cases h; exact sameElement_out _ he
  case clockLowGuard => cases h; split_ifs <;> [exact sameElement_seq _; exact .refl e s]
  case releaseStretch => cases h; split_ifs <;> [exact sameElement_out _ he; exact .refl e s]
  case releaseStretchDelayed => cases h; split_ifs <;> [exact sameElement_seq _; exact .refl e s]
  case applyStretch => cases h; unfold applyStretch; split_ifs <;> [exact sameElement_out _ he; exact .refl e s]
  case pollScl =>
    cases h
    have drawn : sameElement e s s.drawn := sameElement_drawn fun g => he (.inr g)
    unfold pollNext
    split
    · exact drawn
    · split_ifs <;> exact drawn.trans (sameElement_seq _)
  case sampleAck => cases h; exact (sameElement_drawn he).trans (sameElement_seq _)
  case sampleBit => cases h; exact (sameElement_drawn he).trans (sameElement_seq _)
  case getSample => cases h; exact (sameElement_drawn fun g => he (.inl (.inr g))).trans (sameElement_seq _)
  case waitSample => cases h; exact (sameElement_drawn fun g => he (.inl (.inr g))).trans (sameElement_seq _)
  -- the automaton
  case setPrev => cases h; exact sameElement_auto _ he
  case setSt => cases h; exact sameElement_auto _ he
  case setCount => cases h; exact sameElement_auto _ he
  case setShreg => cases h; exact sameElement_auto _ he
  case setFirst => cases h; exact sameElement_auto _ he
  case shiftIn => cases h; exact sameElement_auto _ he
  case decCount => cases h; exact sameElement_auto _ he
  case setStAfterByte => cases h; exact sameElement_auto _ he
  -- the registers and the EDID variables
  case rxByteFromAcc => cases h; exact sameElement_rxData _ he
  case rxFirst => cases h; exact sameElement_rxData _ he
  case rxByteFromShreg => cases h; exact sameElement_rxData _ he
  case rxFirstFromFirst => cases h; exact sameElement_rxData _ he
  case chksumFromAcc => cases h; exact sameElement_chksum _ he
  case setFrameLen => cases h; exact sameElement_frameLen _ he
  case setPass => cases h; exact sameElement_edid _ he
  case setCursor => cases h; exact sameElement_edid _ he
  case setValidated => cases h; exact sameElement_edid _ he
  case setResynced => cases h; exact sameElement_edid _ he
  case edidAdvance => cases h; exact sameElement_edid _ he
  -- the buffers
  case store => cases h; exact sameElement_storeByte _ he
  case storeAll => cases h; exact sameElement_storeAll he
  case storeAcc => cases h; exact sameElement_storeByte _ he
  case edidStore =>
    cases h
    exact sameElement_storeByte _ fun g => he (.inr (Element.inRun_mono g (Nat.zero_le _) (by have := hc rfl; omega)))
  -- ends
  case finish => cases h; exact sameElement_finish _
  case finishAck => cases h; exact sameElement_finish _
  case rxVerdict => obtain ⟨v, -, rfl⟩ := withByte_next h; exact sameElement_finish _
  case edidVerdict =>
    obtain ⟨b, -, rfl⟩ := withTest_next h
    unfold edidVerdict
    split_ifs <;> exact sameElement_finish _
  -- reads and tests change the position and the byte at hand alone
  case txsum => obtain ⟨v, -, rfl⟩ := withByte_next h; exact sameElement_seq _
  case rxsum => obtain ⟨v, -, rfl⟩ := withByte_next h; exact sameElement_seq _
  case edidsum => obtain ⟨v, -, rfl⟩ := withByte_next h; exact sameElement_seq _
  case edidTotal => obtain ⟨v, -, rfl⟩ := withByte_next h; exact sameElement_seq _
  case sendTx => obtain ⟨v, -, rfl⟩ := withByte_next h; exact sameElement_seq _
  case rxcheckLength => obtain ⟨v, -, rfl⟩ := withByte_next h; exact sameElement_seq _
  case edidMatch =>
    split_ifs at h
    · cases h; exact sameElement_seq _
    · obtain ⟨b, -, rfl⟩ := withTest_next h; exact sameElement_seq _
  all_goals cases h; exact sameElement_seq _

/-! ### A run, and a command -/

theorem PositionInv.setQuiet {s : State} (h : PositionInv s) (q : Nat) : PositionInv (s.setQuiet q) :=
  ⟨h.cursorBound, h.busyPosition, h.position⟩

/-- A run that stores at the cursor does so at a position of the invariant; others need none (R184). -/
def cursorSafe (s : State) : Prop := ¬ mayWrite s.seq.todo .edid ∨ PositionInv s

theorem cursorSafe.step {s t : State} (h : cursorSafe s) (hc : controllerStep s = .next t) : cursorSafe t := by
  refine h.imp (fun hn he => hn ?_) fun hp => controllerStep_positionInv hp hc
  cases ht : s.seq.todo with
  | nil => rw [controllerStep_idle ht] at hc; cases hc; exact ht ▸ he
  | cons m rest =>
    rw [controllerStep_cons ht] at hc
    exact (mayWrite_cons _ _ _).2 (runMicro_mayWrite hc he)

/-- Where a safe run stores at the cursor, it is inside EDIDBUF. -/
theorem cursorSafe.index {s : State} (h : cursorSafe s) {rest : List Micro} (ht : s.seq.todo = .edidStore :: rest) :
    nextIndex s.edid.cursor ≤ 127 := by
  rcases h with hn | hp
  · exact absurd (ht ▸ ⟨.edidStore, List.mem_cons_self, .inl rfl⟩) hn
  · have := hp.position.cursorKept
    rw [ht] at this
    exact of_decide_eq_true ((Bool.and_eq_true _ _).mp this).1

/-- However far the controller gets, it leaves what the position may not write. -/
theorem runController_sameElement {n : Nat} {s t : State} {e : Element} (h : runController n s = .next t)
    (he : ¬ mayWrite s.seq.todo e) (hs : cursorSafe s) : sameElement e s t := by
  refine (runController_keeps (I := fun u => sameElement e s u ∧ ¬ mayWrite u.seq.todo e ∧ cursorSafe u) ?_ ?_
    ⟨.refl e s, he, hs⟩ h).1
  · rintro u q ⟨hu, hw, hk⟩
    exact ⟨hu.trans (by cases e <;> rfl), hw, hk.imp id (·.setQuiet q)⟩
  · rintro u v ⟨hu, hw, hk⟩ hn hc
    obtain ⟨m, rest, ht⟩ := List.exists_cons_of_ne_nil hn
    have hstep := hc
    rw [controllerStep_cons ht] at hstep
    rw [ht, mayWrite_cons, not_or] at hw
    refine ⟨hu.trans ((sameElement_seq _).trans (runMicro_sameElement hstep hw.1 ?_)), fun g => ?_, hk.step hc⟩
    · rintro rfl
      exact hk.index ht
    · exact (runMicro_mayWrite hstep g).elim hw.1 hw.2

/-- What a command may write. -/
def Instr.mayWrite (i : Instr) (e : Element) : Prop :=
  match i with
  | .mStart => e.onBus
  | .mStop => e.onBus
  | .mSendByte _ => e.onBus
  | .mRecvByte => e.onBus ∨ e = .rxData
  | .mAck => e.onBus
  | .mNack => e.onBus
  | .sGetByte => e.onBus ∨ e = .auto ∨ e = .rxData
  | .sSendToMaster _ => e.onBus ∨ e = .auto
  | .ddcBuild n => e.inRun .tx 0 3 ∨ e.inRun .tx (3 + n.toNat) 1 ∨ e = .chksum ∨ e = .frameLen
  | .ddcRxcheck => e = .chksum ∨ e = .frameLen
  | .lenCheck _ => e = .frameLen
  | .edidFillsum => e.inRun .edid 127 1 ∨ e = .chksum
  | .edidValidate => e = .chksum
  | .ddcWrite n => (e.inRun .tx 0 3 ∨ e.inRun .tx (3 + n.toNat) 1 ∨ e = .chksum ∨ e = .frameLen) ∨ e.onBus
  | .ddcRead => e.onBus ∨ e = .chksum ∨ e = .frameLen ∨ e.inRun .rx 0 38
  | .edidRead => e.ofEdidRead

theorem ddcBuildProc_mayWrite {n : Nat} {e : Element} (h : mayWrite (ddcBuildProc n) e) :
    e.inRun .tx 0 3 ∨ e.inRun .tx (3 + n) 1 ∨ e = .chksum ∨ e = .frameLen := by
  simp only [ddcBuildProc, mayWrite_cons, mayWrite_nil, Micro.mayWrite, or_false, false_or] at h
  rcases h with h | h | h | h
  · exact .inl (Element.inRun_mono h (by omega) (by omega))
  · exact .inl (Element.inRun_mono h (by omega) (by omega))
  · exact .inl (Element.inRun_mono h (by omega) (by omega))
  · exact .inr h

theorem ifLengthAllowed_mayWrite {n : Nat} {body : List Micro} {e : Element} (h : mayWrite (ifLengthAllowed n body) e) :
    mayWrite body e := by
  unfold ifLengthAllowed at h
  split_ifs at h
  · simp [Micro.mayWrite] at h
  · exact h

/-- A command's program writes what its "Registers written" name. -/
theorem commandProgram_mayWrite {i : Instr} {e : Element} (h : mayWrite (commandProgram i) e) : Instr.mayWrite i e := by
  have ends {ms : List Micro} {m : Micro} (hm : ¬ m.mayWrite e) (g : mayWrite (ms ++ [m]) e) : mayWrite ms e := by
    simpa [hm] using g
  cases i
  case mStart => exact mStartProc_mayWrite (ends id h)
  case mStop => exact mStopProc_mayWrite (ends id h)
  case mSendByte => exact mSendProc_mayWrite (ends id h)
  case mRecvByte =>
    simp only [commandProgram, mayWrite_append, mayWrite_cons, mayWrite_nil, Micro.mayWrite, or_false, or_self] at h
    exact h.imp_left mRecvProc_mayWrite
  case mAck => exact mAckBitProc_mayWrite (ends id h)
  case mNack => exact mAckBitProc_mayWrite (ends id h)
  case sGetByte => simp [commandProgram, getLoop, Micro.mayWrite, Instr.mayWrite, Element.onBus] at h ⊢; tauto
  case sSendToMaster =>
    simp [commandProgram, sendToMasterProc, bitsDown, sendToMasterBit, waitClock, Micro.mayWrite, Instr.mayWrite,
      Element.onBus] at h ⊢
    tauto
  case ddcBuild => exact ddcBuildProc_mayWrite (ends id (ifLengthAllowed_mayWrite h))
  case ddcRxcheck => simpa [commandProgram, Micro.mayWrite, Instr.mayWrite] using h
  case lenCheck l =>
    simp only [commandProgram, lenCheckProc] at h
    split at h <;> exact (by simpa [Micro.mayWrite, Instr.mayWrite] using h)
  case edidFillsum => simpa [commandProgram, Micro.mayWrite, Instr.mayWrite] using h
  case edidValidate => simpa [commandProgram, Micro.mayWrite, Instr.mayWrite] using h
  case ddcWrite =>
    have h := ends id (ifLengthAllowed_mayWrite h)
    simp only [mayWrite_append] at h
    rcases h with ((h | h) | h) | h
    · exact .inl (ddcBuildProc_mayWrite h)
    · exact .inr (mStartProc_mayWrite h)
    · obtain ⟨j, -, h⟩ := mayWrite_flatMap h
      exact .inr (by simpa [Micro.mayWrite] using h)
    · exact .inr (mStopProc_mayWrite h)
  case ddcRead =>
    simp only [commandProgram, List.append_assoc, List.cons_append, List.nil_append, mayWrite_append, mayWrite_cons,
      mayWrite_nil, Micro.mayWrite, or_false] at h
    rcases h with h | h | h | h | h | h | h | h | h
    · exact .inl (mStartProc_mayWrite h)
    · exact .inl (mSendProc_mayWrite h)
    · exact .inl h
    · exact .inl (mRecvProc_mayWrite h)
    · exact .inr (.inr (.inr (Element.inRun_mono h (by omega) (by omega))))
    · exact .inl (mAckBitProc_mayWrite h)
    · exact .inl (mRecvProc_mayWrite h)
    · exact .inr (.inr (.inr (Element.inRun_mono h (by omega) (by omega))))
    · exact h
  case edidRead =>
    simp only [commandProgram, List.cons_append, List.nil_append, mayWrite_cons, Micro.mayWrite] at h
    exact h.elim (fun g => .inr (.inl g)) edidPassProc_mayWrite

/-- The first two steps of EDID_READ write `pass` and clear the cursor (R180): from then on its position is safe. -/
theorem edidRead_runs (s : State) :
    Runs 2 (s.start (commandProgram .edidRead))
      { s.start (edidPassProc.drop 1) with edid := { s.edid with pass := false, cursor := none } } :=
  .unsampled rfl rfl rfl (.unsampled rfl rfl rfl rfl)

theorem edidRead_sameElement {q : Nat} {s t : State} {e : Element} (hm : s.ctrl.mode = .master)
    (h : runController q (s.start (commandProgram .edidRead)) = .next t) (he : ¬ e.ofEdidRead) :
    sameElement e (s.start (commandProgram .edidRead)) t := by
  have hedid : e ≠ .edid := fun g => he (.inr (.inl g))
  have quiet (u : State) (q : Nat) : sameElement e u (u.setQuiet q) := by cases e <;> rfl
  have two := edidRead_runs s
  obtain rfl | rfl | hq : q = 0 ∨ q = 1 ∨ 2 ≤ q := by omega
  · cases h; exact quiet _ 0
  · have one : Runs 1 (s.start (commandProgram .edidRead))
        { s.start edidPassProc with edid := { s.edid with pass := false } } := .unsampled rfl rfl rfl rfl
    rw [runController_of_runs one le_rfl] at h
    cases h
    exact ((sameElement_edid { s.edid with pass := false } hedid).trans (sameElement_seq _)).trans (quiet _ 0)
  · rw [runController_of_runs two hq] at h
    have safe : PositionInv { s.start (edidPassProc.drop 1) with edid := { s.edid with pass := false, cursor := none } } :=
      ⟨rfl, by simp [edidPassProc], hm ▸ .closed (ms := [.setValidated false, .setResynced false] ++ mStartProc ++
        mSendProc edidR ++ [.stopIfNack]) none rfl rfl rfl⟩
    have hw : ¬ mayWrite (edidPassProc.drop 1) e := fun g =>
      he (edidPassProc_mayWrite ((mayWrite_cons (.setCursor none) _ _).2 (.inr g)))
    refine sameElement.trans ?_ (runController_sameElement h hw (.inr safe))
    exact (sameElement_edid { s.edid with pass := false, cursor := none } hedid).trans (sameElement_seq _)

/-- A command leaves what it may not write, wherever the host interrupts it. -/
theorem exec_sameElement {i : Instr} {s t : State} {e : Element} (h : exec i s = .next t) (he : ¬ Instr.mayWrite i e) :
    sameElement e s t := by
  have started : sameElement e s (s.start (commandProgram i)) := by cases e <;> rfl
  rw [exec_eq_runCommand] at h
  cases hm : modeAllows (neededMode i) s with
  | false => rw [runCommand_wrongMode hm] at h; cases h; exact sameElement_finish _
  | true =>
    rw [runCommand_allowed hm] at h
    by_cases hi : i = .edidRead
    · subst hi
      exact started.trans (edidRead_sameElement (by simpa [modeAllows, neededMode] using hm) h he)
    · refine started.trans (runController_sameElement h (fun g => he (commandProgram_mayWrite g)) (.inl fun g => ?_))
      have := commandProgram_mayWrite g
      cases i
      case edidRead => exact hi rfl
      all_goals simp [Instr.mayWrite, Element.onBus, Element.inRun] at this

@[simp] theorem Element.byteAt_inRun {a : Nat} {b : Buffer} {i n : Nat} :
    (Element.byteAt a).inRun b i n ↔ ∃ k, k < n ∧ a = b.addr (i + k) := by simp [Element.inRun]

/-- A command that writes one run of a buffer leaves every other byte. -/
theorem exec_sameOutside {i : Instr} {s t : State} {b : Buffer} {j n : Nat} (h : exec i s = .next t)
    (hw : ∀ a, Instr.mayWrite i (.byteAt a) → (Element.byteAt a).inRun b j n) : sameOutside s t b j n := by
  intro a ha
  refine exec_sameElement (e := .byteAt a) h fun g => ?_
  obtain ⟨k, hk, rfl⟩ := Element.byteAt_inRun.1 (hw a g)
  exact ha k hk rfl

theorem ddcBuild_mayWrite_byteAt {n a : Nat}
    (h : (Element.byteAt a).inRun .tx 0 3 ∨ (Element.byteAt a).inRun .tx (3 + n) 1) :
    a ∈ [0x100, 0x104, 0x108, 0x10C + 4 * n] := by
  simp only [Element.byteAt_inRun, Buffer.addr, Buffer.base] at h
  simp only [List.mem_cons, List.not_mem_nil, or_false]
  obtain ⟨k, hk, rfl⟩ | ⟨k, hk, rfl⟩ := h <;> omega

/-! ### The commands that write an element -/

section Writers
variable {i : Instr}

theorem not_mayWrite_unit : ¬ Instr.mayWrite i .unit := by
  cases i <;> simp [Instr.mayWrite, Element.onBus, Element.ofEdidRead, Element.inRun]

theorem not_mayWrite_onBus {e : Element} (hi : neededMode i = none) (he : e.onBus) : ¬ Instr.mayWrite i e := by
  obtain rfl | rfl := he <;> cases i <;> simp [Instr.mayWrite, Element.inRun, neededMode] at hi ⊢

theorem mayWrite_auto (h : Instr.mayWrite i .auto) : neededMode i = some .slave := by
  cases i <;> simp [Instr.mayWrite, Element.onBus, Element.ofEdidRead, Element.inRun, neededMode] at h ⊢

theorem mayWrite_rxData (h : Instr.mayWrite i .rxData) : i = .mRecvByte ∨ i = .sGetByte := by
  cases i <;> simp [Instr.mayWrite, Element.onBus, Element.ofEdidRead, Element.inRun] at h ⊢

theorem mayWrite_edid (h : Instr.mayWrite i .edid) : i = .edidRead := by
  cases i <;> simp [Instr.mayWrite, Element.onBus, Element.inRun] at h ⊢

theorem mayWrite_chksum (h : Instr.mayWrite i .chksum) :
    (∃ n, i = .ddcBuild n ∨ i = .ddcWrite n) ∨ i ∈ [.ddcRxcheck, .ddcRead, .edidFillsum, .edidValidate] := by
  cases i <;> simp [Instr.mayWrite, Element.onBus, Element.ofEdidRead, Element.inRun] at h ⊢

theorem mayWrite_frameLen (h : Instr.mayWrite i .frameLen) :
    (∃ n, i = .ddcBuild n ∨ i = .ddcWrite n ∨ i = .lenCheck n) ∨ i ∈ [.ddcRxcheck, .ddcRead] := by
  cases i <;> simp [Instr.mayWrite, Element.onBus, Element.ofEdidRead, Element.inRun] at h ⊢

theorem mayWrite_mem (h : Instr.mayWrite i .mem) :
    (∃ n, i = .ddcBuild n ∨ i = .ddcWrite n) ∨ i ∈ [.ddcRead, .edidFillsum, .edidRead] := by
  cases i <;> simp [Instr.mayWrite, Element.onBus] at h ⊢

end Writers

/-- Settles O31: the controller leaves CTRL, BITDELAY, TIMEOUT, CMD and DROPPED in every step, and of the rest it writes
what the command's program, and what its steps go on with, may write. -/
theorem commandFrame : Obligations.CommandFrame := by
  unfold Obligations.CommandFrame
  intro s t i h
  have keeps (e : Element) (he : ¬ Instr.mayWrite i e) : sameElement e s t := exec_sameElement h he
  obtain ⟨hctrl, hdelay, htimeout, hcmd, hdropped, hhost, hrdata⟩ := runCommand_sameFixedPart (exec_eq_runCommand i s ▸ h)
  refine ⟨⟨hctrl, hdelay, htimeout, hcmd, hdropped⟩, ⟨keeps .unit not_mayWrite_unit, hhost, hrdata⟩,
    fun hi => ⟨keeps .out (not_mayWrite_onBus hi (.inl rfl)), Prod.mk.inj (keeps .samples (not_mayWrite_onBus hi (.inr rfl)))⟩,
    fun hi => keeps .auto fun g => hi (mayWrite_auto g),
    fun hr hg => keeps .rxData fun g => (mayWrite_rxData g).elim hr hg,
    fun hi => keeps .edid fun g => hi (mayWrite_edid g),
    fun hd hi => keeps .chksum fun g => (mayWrite_chksum g).elim (fun ⟨n, g⟩ => g.elim (hd n).1 (hd n).2) hi,
    fun hd hi => keeps .frameLen fun g => (mayWrite_frameLen g).elim
      (fun ⟨n, g⟩ => g.elim (hd n).1 fun g => g.elim (hd n).2.1 (hd n).2.2) hi,
    fun n hi a ha => keeps (.byteAt a) fun g => ha (ddcBuild_mayWrite_byteAt ?_), ?_, ?_, ?_,
    fun hd hi => keeps .mem fun g => (mayWrite_mem g).elim (fun ⟨n, g⟩ => g.elim (hd n).1 (hd n).2) hi⟩
  · rcases hi with rfl | rfl <;> simpa [Instr.mayWrite, Element.onBus] using g
  · rintro rfl
    exact exec_sameOutside h fun a g => by simpa [Instr.mayWrite, Element.onBus] using g
  · rintro rfl
    exact exec_sameOutside h fun a g => by simpa [Instr.mayWrite] using g
  · rintro rfl
    exact exec_sameOutside h fun a g => by simpa [Instr.mayWrite, Element.ofEdidRead, Element.onBus] using g

end Sys2Proof.Machine
end

section
/-! SUPPORT and CERTIFICATE. Every master command and codec bus command ends (spec/60_exceptions.md R245): the sequencer's
steps that wait are bounded by TIMEOUT (spec/40_engine_master.md R111), the loops by their indices, and EDID_READ resynchronises
at most once in a pass and passes at most twice (spec/43_codec_edid.md R180-R182). -/

namespace Sys2Proof.Machine

/-! ### Commands that end -/

/-- Within n controller steps the command has finished, whatever the samples are. -/
inductive Ends : Nat → State → Prop
  | finished {n : Nat} {s : State} (ht : s.seq.todo = []) (hb : s.status.busy = false) : Ends n s
  | step {n : Nat} {s t : State} {m : Micro} {rest : List Micro} (ht : s.seq.todo = m :: rest)
      (hm : runMicro m (s.jump rest) = .next t) (h : Ends n t) : Ends (n + 1) s

theorem Ends.mono {m n : Nat} {s : State} (h : Ends m s) (hn : m ≤ n) : Ends n s := by
  induction h generalizing n with
  | finished ht hb => exact .finished ht hb
  | step ht hm _ ih =>
    obtain ⟨n, rfl⟩ : ∃ k, n = k + 1 := ⟨n - 1, by omega⟩
    exact .step ht hm (ih (by omega))

/-- A step takes at most one drive from the peer's script. -/
theorem runMicro_peer {m : Micro} {s t : State} (h : runMicro m s = .next t) :
    t.env.peer = s.env.peer ∨ t.env.peer = s.env.peer.tail := by
  have drawn := s.drawn_env_peer
  cases m <;> simp only [runMicro] at h
  case pollScl k =>
    cases h
    refine .inr (Eq.trans ?_ drawn)
    unfold pollNext
    split
    · rfl
    · split_ifs <;> rfl
  case sampleAck => cases h; exact .inr drawn
  case sampleBit => cases h; exact .inr drawn
  case getSample => cases h; exact .inr drawn
  case waitSample => cases h; exact .inr drawn
  case clockLowGuard => cases h; split_ifs <;> exact .inl rfl
  case releaseStretch => cases h; split_ifs <;> exact .inl rfl
  case releaseStretchDelayed => cases h; split_ifs <;> exact .inl rfl
  case applyStretch => cases h; unfold applyStretch; split_ifs <;> exact .inl rfl
  case txsum => obtain ⟨v, -, rfl⟩ := withByte_next h; exact .inl rfl
  case rxsum => obtain ⟨v, -, rfl⟩ := withByte_next h; exact .inl rfl
  case sendTx => obtain ⟨v, -, rfl⟩ := withByte_next h; exact .inl rfl
  case rxcheckLength => obtain ⟨v, -, rfl⟩ := withByte_next h; exact .inl rfl
  case rxVerdict => obtain ⟨v, -, rfl⟩ := withByte_next h; exact .inl rfl
  case edidsum => obtain ⟨v, -, rfl⟩ := withByte_next h; exact .inl rfl
  case edidTotal => obtain ⟨v, -, rfl⟩ := withByte_next h; exact .inl rfl
  case edidVerdict => obtain ⟨b, -, rfl⟩ := withTest_next h; unfold edidVerdict; split_ifs <;> exact .inl rfl
  case edidMatch =>
    split_ifs at h
    · cases h; exact .inl rfl
    · obtain ⟨b, -, rfl⟩ := withTest_next h; exact .inl rfl
  all_goals cases h; exact .inl rfl

/-- A command that ends is finished once it has its steps and its samples. -/
theorem Ends.runController {n q : Nat} {s : State} (h : Ends n s) (hq : n ≤ q) (hp : n ≤ s.env.peer.length) :
    ∃ t, runController q s = .next t ∧ t.status.busy = false := by
  induction h generalizing q with
  | @finished n s ht hb =>
    refine ⟨s.setQuiet 0, ?_, hb⟩
    cases q with
    | zero => rfl
    | succ q => simp [Machine.runController, ht]
  | @step n s t m rest ht hm _ ih =>
    obtain ⟨q, rfl⟩ : ∃ k, q = k + 1 := ⟨q - 1, by omega⟩
    have listed : s.needsDraw = false := by
      rw [State.needsDraw_cons ht]
      cases hd : s.env.peer with
      | nil => simp [hd] at hp
      | cons => simp
    rw [runController_succ q (by simp [ht]) listed, controllerStep_cons ht, hm]
    refine ih (by omega) ?_
    rcases runMicro_peer hm with he | he <;> rw [he]
    · simp only [State.jump_env]; omega
    · simp only [State.jump_env, List.length_tail]; omega

/-! ### Transfers on the bus -/

/-- Byte i of a buffer carries its written mark (R45). -/
def State.marked (s : State) (b : Buffer) (i : Nat) : Prop := Memory.read s.mem (b.addr i) ≠ none

theorem State.marked.storeByte {s : State} {b c : Buffer} {i j : Nat} (h : s.marked b i) (v : Byte) :
    (s.storeByte c j v).marked b i := by
  unfold State.marked at h ⊢
  rw [State.storeByte_mem, Memory.read_write]
  split_ifs
  · simp
  · exact h

theorem State.storeByte_marked (s : State) (b : Buffer) (i : Nat) (v : Byte) : (s.storeByte b i v).marked b i := by
  simp [State.marked]

theorem State.readByte_marked {s : State} {b : Buffer} {i : Nat} (h : s.marked b i) : ∃ v, s.readByte b i = .ok v := by
  obtain ⟨v, hv⟩ := Option.ne_none_iff_exists'.1 h
  exact ⟨v, (s.readByte_ok_iff b i v).2 hv⟩

/-- A run of marked bytes is read. -/
theorem State.readBytes_marked {s : State} {b : Buffer} {i n : Nat} (h : ∀ k, k < n → s.marked b (i + k)) :
    ∃ bs, s.readBytes b i n = .ok bs := by
  cases hr : s.readBytes b i n with
  | ok bs => exact ⟨bs, rfl⟩
  | error f =>
    obtain ⟨k, hk, hu, -⟩ := State.readBytes_error hr
    exact absurd hu (h k hk)

/-- A step of the transfers on the bus, or one that keeps what they received. -/
def Micro.transfers : Micro → Bool
  | .setSda _ => true
  | .setScl _ => true
  | .delay => true
  | .clockLowGuard => true
  | .pollScl k => k == 0
  | .sampleAck => true
  | .clearAcc => true
  | .sampleBit _ => true
  | .rxByteFromAcc => true
  | .rxFirst _ => true
  | .store _ _ _ => true
  | .storeAcc _ _ => true
  | .chksumFromAcc => true
  | .setFrameLen _ => true
  | _ => false

/-- The step stores byte i of the buffer. -/
def Micro.storesAt (b : Buffer) (i : Nat) : Micro → Prop
  | .store c j _ => c = b ∧ j = i
  | .storeAcc c j => c = b ∧ j = i
  | _ => False

/-- What transfers keep: the EDID variables and every mark; the bytes they store are marked. -/
structure Kept (ms : List Micro) (s t : State) : Prop where
  edid : t.edid = s.edid
  marks : ∀ b i, s.marked b i → t.marked b i
  stored : ∀ b i m, m ∈ ms → m.storesAt b i → t.marked b i

theorem Kept.refl (s : State) : Kept [] s s := ⟨rfl, fun _ _ h => h, fun _ _ _ h => absurd h (by simp)⟩

theorem Kept.trans {ms ns : List Micro} {s t u : State} (h : Kept ms s t) (g : Kept ns t u) : Kept (ms ++ ns) s u where
  edid := g.edid.trans h.edid
  marks b i hm := g.marks b i (h.marks b i hm)
  stored b i k hk hs := by
    rcases List.mem_append.1 hk with hk | hk
    · exact g.marks b i (h.stored b i k hk hs)
    · exact g.stored b i k hk hs

theorem Kept.of_mem_eq {m : Micro} {s t : State} (he : t.edid = s.edid) (hm : t.mem = s.mem)
    (hs : ∀ b i, ¬ m.storesAt b i) : Kept [m] s t :=
  ⟨he, fun b i h => by rw [State.marked, hm]; exact h, fun b i k hk hk' => absurd hk' (by simp_all)⟩

theorem Kept.of_storeByte {m : Micro} {s t : State} {b : Buffer} {i : Nat} {v : Byte} (h : t = s.storeByte b i v)
    (hs : ∀ c j, m.storesAt c j → b = c ∧ i = j) : Kept [m] s t := by
  subst h
  refine ⟨rfl, fun c j hm => hm.storeByte v, fun c j k hk hk' => ?_⟩
  obtain ⟨rfl, rfl⟩ := hs c j (by simp_all)
  exact s.storeByte_marked b i v

/-- One transfer step that neither waits nor sets SCL Low first goes on with what is left. -/
theorem runMicro_transfers {m : Micro} {s : State} (hm : m.transfers = true) (hp : ∀ k, m ≠ .pollScl k)
    (hg : m ≠ .clockLowGuard) : ∃ t, runMicro m s = .next t ∧ Kept [m] s t ∧ t.seq.todo = s.seq.todo := by
  have sampled (f : State → State) (he : (f s.drawn).edid = s.drawn.edid)
      (hmem : (f s.drawn).mem = s.drawn.mem) (hs : ∀ b i, ¬ m.storesAt b i) : Kept [m] s (f s.drawn) :=
    .of_mem_eq (by simp [he]) (by simp [hmem]) hs
  cases m <;> try cases hm
  case pollScl k => exact absurd rfl (hp k)
  case clockLowGuard => exact absurd rfl hg
  case sampleAck =>
    exact ⟨_, rfl, sampled (·.setAck (s.levels.sda == .low)) rfl rfl fun _ _ h => h, by simp⟩
  case sampleBit i =>
    exact ⟨_, rfl, sampled (·.setAcc (setBit s.seq.acc i s.levels.sda)) rfl rfl fun _ _ h => h, by simp⟩
  case store => exact ⟨_, rfl, .of_storeByte rfl fun _ _ h => h, rfl⟩
  case storeAcc => exact ⟨_, rfl, .of_storeByte rfl fun _ _ h => h, rfl⟩
  all_goals exact ⟨_, rfl, .of_mem_eq rfl rfl fun _ _ h => h, rfl⟩

/-- The most steps one step of a transfer comes to: a wait for SCL has its `Delay()` and its sample at each of the polls
0 .. TIMEOUT, and an abort two steps more (R111, R112). -/
def pollBound : Nat := 2 * 65536 + 2

section Transfers
variable {n : Nat} {rest : List Micro}

theorem Ends.finish {s : State} {r : Result} (ht : s.seq.todo = .finish r :: rest) : Ends (n + 1) s :=
  .step ht rfl (.finished rfl rfl)

theorem Ends.finishAck {s : State} (ht : s.seq.todo = .finishAck :: rest) : Ends (n + 1) s :=
  .step ht rfl (.finished rfl rfl)

theorem Ends.abort {s : State} (ht : s.seq.todo = [.setSda .released, .finish .busTimeout]) : Ends (n + 2) s :=
  .step ht rfl (.finish rfl)

/-- `ReleaseSCLAndWait()` polls at most TIMEOUT + 1 times (R111). -/
theorem Ends.poll {s : State} {k d : Nat} (hk : k + d = s.timeout.toNat) (ht : s.seq.todo = .pollScl k :: rest)
    (h : ∀ t : State, t.edid = s.edid → t.mem = s.mem → t.seq.todo = rest → Ends n t) :
    Ends (n + 2 * d + 3) s := by
  have high (hl : (s.jump rest).levels.scl = .high) : Ends n (pollNext k (s.jump rest).levels.scl (s.jump rest).drawn) := by
    rw [hl]
    exact h _ (by simp [pollNext]) (by simp [pollNext]) (by simp [pollNext])
  refine .step (n := n + 2 * d + 2) ht rfl ?_
  cases hl : (s.jump rest).levels.scl with
  | high => rw [← hl]; exact (high hl).mono (by omega)
  | low =>
    rw [pollNext]
    split_ifs with hb
    · exact .abort rfl
    · rw [State.drawn_timeout, State.jump_timeout] at hb
      obtain ⟨e, rfl⟩ : ∃ e, d = e + 1 := ⟨d - 1, by omega⟩
      refine .step (n := n + 2 * e + 3) rfl rfl (Ends.poll (k := k + 1) (d := e) ?_ ?_ fun t h1 h2 h3 => ?_)
      · simp [State.push]; omega
      · simp [State.push]
      · exact h t (by simpa [State.push] using h1) (by simpa [State.push] using h2) h3
termination_by d

/-- Transfers come to an end, and then what is left goes on. -/
theorem Ends.transfers {ms : List Micro} {s : State} (hms : ms.all Micro.transfers = true) (ht : s.seq.todo = ms ++ rest)
    (h : ∀ t, Kept ms s t → t.seq.todo = rest → Ends n t) : Ends (n + pollBound * ms.length) s := by
  induction ms generalizing s with
  | nil => exact h s (.refl s) ht
  | cons m ms ih =>
    rw [List.all_cons, Bool.and_eq_true] at hms
    have next {t : State} (hk : Kept [m] s t) (ht : t.seq.todo = ms ++ rest) : Ends (n + pollBound * ms.length) t :=
      ih hms.2 ht fun u hu => h u (hk.trans hu)
    have bound : n + pollBound * (m :: ms).length = n + pollBound * ms.length + pollBound := by
      rw [List.length_cons, Nat.mul_succ]; omega
    rw [bound]
    by_cases hp : ∃ k, m = .pollScl k
    · obtain ⟨k, rfl⟩ := hp
      obtain rfl : k = 0 := by simpa [Micro.transfers] using hms.1
      refine (Ends.poll (d := s.timeout.toNat) (by omega) ht fun t h1 h2 hr =>
        next (.of_mem_eq h1 h2 fun _ _ h => h) hr).mono ?_
      have := s.timeout.isLt
      unfold pollBound
      omega
    by_cases hg : m = .clockLowGuard
    · subst hg
      refine (Ends.step (n := n + pollBound * ms.length + 2) ht rfl ?_).mono (by unfold pollBound; omega)
      have goesOn {t : State} (h1 : t.edid = s.edid) (h2 : t.mem = s.mem)
          (h3 : t.seq.todo = ms ++ rest) : Ends (n + pollBound * ms.length) t := next (.of_mem_eq h1 h2 fun _ _ h => h) h3
      split_ifs
      · exact .step rfl rfl (.step rfl rfl (goesOn rfl rfl rfl))
      · exact Ends.mono (goesOn rfl rfl rfl) (Nat.le_add_right _ _)
    · obtain ⟨t, hr, hk, hs⟩ := runMicro_transfers (s := s.jump (ms ++ rest)) hms.1 (by simpa using hp) hg
      exact (Ends.step ht hr (next ⟨hk.edid, hk.marks, hk.stored⟩ hs)).mono (by unfold pollBound; omega)

/-- `if not MSend(…)` goes on, or stops the bus and finishes (R160, R161, R180). -/
theorem Ends.stopIfNack {s : State} (ht : s.seq.todo = .stopIfNack :: rest) (h : Ends n (s.jump rest)) :
    Ends (n + pollBound * 9) s := by
  refine (Ends.step (n := n + pollBound * 8 + 1) ht rfl ?_).mono (by unfold pollBound; omega)
  cases ha : s.seq.ack with
  | true => exact Ends.mono (by simpa [stopIfNackNext, ha] using h) (by omega)
  | false =>
    refine (Ends.transfers (n := 1) (ms := mStopProc) (rest := [.finish .noack]) rfl ?_ fun t _ ht => .finish ht).mono ?_
    · simp [stopIfNackNext, ha]
    · rw [show mStopProc.length = 8 from rfl]; omega

/-- START and an address byte, at whose NACK the command stops (R114, R116). -/
theorem Ends.address {s : State} {b : Byte} (ht : s.seq.todo = mStartProc ++ mSendProc b ++ .stopIfNack :: rest)
    (h : ∀ t, Kept [] s t → t.seq.todo = rest → Ends n t) : Ends (n + pollBound * 72) s := by
  have sends : (mStartProc ++ mSendProc b).all Micro.transfers = true := rfl
  refine (Ends.transfers sends ht fun t hk ht => .stopIfNack ht (h (t.jump rest) ?_ rfl)).mono ?_
  · exact ⟨hk.edid, hk.marks, fun _ _ _ h => absurd h (by simp)⟩
  · rw [show (mStartProc ++ mSendProc b).length = 63 from rfl]; omega

end Transfers

/-! ### The commands -/

/-- A command that is one transfer and a `finish`. -/
theorem Ends.transfer {ms : List Micro} {r : Result} {s : State} (hms : ms.all Micro.transfers = true)
    (ht : s.seq.todo = ms ++ [.finish r]) : Ends (1 + pollBound * ms.length) s :=
  .transfers hms ht fun _ _ ht => .finish ht

/-! #### DDC_WRITE -/

/-- The bytes of a marked frame, each of which may be refused (R160). -/
theorem Ends.sendFrame {n : Nat} {rest : List Micro} {js : List Nat} {s : State} (hm : ∀ j ∈ js, s.marked .tx j)
    (ht : s.seq.todo = (js.flatMap fun j => [.sendTx j, .stopIfNack]) ++ rest)
    (h : ∀ t, t.seq.todo = rest → Ends n t) : Ends (n + pollBound * (70 * js.length)) s := by
  induction js generalizing s with
  | nil => exact h s ht
  | cons j js ih =>
    obtain ⟨v, hv⟩ := State.readByte_marked (hm j (by simp))
    have next : s.seq.todo = .sendTx j :: .stopIfNack :: ((js.flatMap fun j => [.sendTx j, .stopIfNack]) ++ rest) := ht
    refine (Ends.step next (withByte_ok hv _) (Ends.transfers (ms := mSendProc v) rfl rfl fun t hk ht =>
      Ends.stopIfNack ht (ih (fun k hj => ?_) rfl))).mono ?_
    · exact hk.marks .tx k (hm k (by simp [hj]))
    · rw [show (mSendProc v).length = 56 from rfl, List.length_cons]
      unfold pollBound
      omega

/-- DDC_WRITE over a marked payload (R155, R160). -/
theorem ddcWrite_ends {n : Nat} (hn : n ≤ 35) {s : State} (hm : ∀ k, k < n → s.marked .tx (3 + k))
    (ht : s.seq.todo = ddcBuildProc n ++ (mStartProc ++ ddcSendProc n ++ mStopProc ++ [.finish .ok])) :
    Ends (pollBound * 4000) s := by
  have framed (t : State) (hk : Kept [.store .tx 0 ddcDestW, .store .tx 1 ddcSrc, .store .tx 2 (txLengthByte n)] s t) :
      ∀ k, k < 3 + n → t.marked .tx k := by
    intro k hn
    obtain rfl | rfl | rfl | hk3 : k = 0 ∨ k = 1 ∨ k = 2 ∨ 3 ≤ k := by omega
    · exact hk.stored .tx 0 (.store .tx 0 ddcDestW) (by simp) ⟨rfl, rfl⟩
    · exact hk.stored .tx 1 (.store .tx 1 ddcSrc) (by simp) ⟨rfl, rfl⟩
    · exact hk.stored .tx 2 (.store .tx 2 (txLengthByte n)) (by simp) ⟨rfl, rfl⟩
    · obtain ⟨l, rfl⟩ := Nat.exists_eq_add_of_le hk3
      exact hk.marks .tx (3 + l) (hm l (by omega))
  refine (Ends.transfers (n := pollBound * 3950)
    (ms := [.store .tx 0 ddcDestW, .store .tx 1 ddcSrc, .store .tx 2 (txLengthByte n)]) rfl ht fun t hk ht => ?_).mono
    (show pollBound * 3950 + pollBound * 3 ≤ pollBound * 4000 by decide)
  obtain ⟨bs, hbs⟩ := State.readBytes_marked (s := t) (b := .tx) (i := 0) (n := 3 + n) (by simpa using framed t hk)
  have sum : t.txsum n = .ok (xorBytes 0 bs) := by rw [State.txsum, hbs]; rfl
  refine (Ends.step ht (runMicro_txsum (s := t) rfl sum) (Ends.transfers (n := pollBound * 3900)
    (ms := [.storeAcc .tx (3 + n), .chksumFromAcc, .setFrameLen n] ++ mStartProc) rfl rfl fun u hu ht => ?_)).mono ?_
  · have marked : ∀ j ∈ List.range (4 + n), u.marked .tx j := by
      intro j hj
      rw [List.mem_range] at hj
      rcases Nat.lt_or_ge j (3 + n) with hj' | hj'
      · exact hu.marks .tx j (framed t hk j hj')
      · obtain rfl : j = 3 + n := by omega
        exact hu.stored .tx (3 + n) (.storeAcc .tx (3 + n)) (by simp) ⟨rfl, rfl⟩
    refine (Ends.sendFrame (n := pollBound * 9) (rest := mStopProc ++ [.finish .ok]) marked
      (by simpa [ddcSendProc] using ht) fun v hv => (Ends.transfer (ms := mStopProc) rfl hv).mono ?_).mono ?_
    · rw [show mStopProc.length = 8 from rfl]; unfold pollBound; omega
    · rw [List.length_range]; unfold pollBound; omega
  · rw [show (([.storeAcc .tx (3 + n), .chksumFromAcc, .setFrameLen n] : List Micro) ++ mStartProc).length = 10 from rfl]
    unfold pollBound; omega

/-! #### DDC_READ -/

theorem Ends.rxVerdict {n k : Nat} {rest : List Micro} {s : State} (hm : s.marked .rx (2 + n))
    (ht : s.seq.todo = .rxVerdict n :: rest) : Ends (k + 1) s := by
  obtain ⟨c, hc⟩ := State.readByte_marked hm
  exact .step ht (withByte_ok (r := (s.jump rest).readByte .rx (2 + n)) hc _) (.finished rfl rfl)

/-- The end of DDC_READ over a marked frame (R154, R161). -/
theorem Ends.rxChecked {n : Nat} {s : State} (hm : ∀ k, k < 2 + n → s.marked .rx (1 + k))
    (ht : s.seq.todo = [.rxsum n, .chksumFromAcc, .setFrameLen n, .rxVerdict n]) : Ends (pollBound * 3) s := by
  obtain ⟨bs, hbs⟩ := State.readBytes_marked (s := s) (b := .rx) (i := 1) (n := 1 + n) fun k hk => hm k (by omega)
  have sum : s.rxsum n = .ok (xorBytes rxSeed bs) := by rw [State.rxsum, hbs]; rfl
  have last : s.marked .rx (2 + n) := by
    have := hm (1 + n) (by omega)
    rwa [show 1 + (1 + n) = 2 + n by omega] at this
  refine (Ends.step ht (runMicro_rxsum (s := s) rfl sum) (Ends.transfers (n := 1) (ms := [.chksumFromAcc, .setFrameLen n])
    rfl rfl fun t hk ht => .rxVerdict (hk.marks .rx (2 + n) last) ht)).mono ?_
  exact show 1 + pollBound * 2 + 1 ≤ pollBound * 3 by decide

/-- DDC_READ after its length byte, when that is Valid (R161). -/
theorem readValid_ends {n : Nat} (hn : n ≤ 35) {s : State} (hm : s.marked .rx 1)
    (ht : s.seq.todo = readLengthNext (.valid n)) : Ends (pollBound * 3000) s := by
  have body : (mAckBitProc .low ++ (List.range n).flatMap readPayloadByte ++ mRecvProc ++ [Micro.storeAcc .rx (2 + n)]
      ++ mAckBitProc .released ++ mStopProc).all Micro.transfers = true := by
    simp only [List.all_append, Bool.and_eq_true, List.all_flatMap]
    exact ⟨⟨⟨⟨⟨rfl, List.all_eq_true.2 fun _ _ => rfl⟩, rfl⟩, rfl⟩, rfl⟩, rfl⟩
  refine (Ends.transfers (n := pollBound * 3) body ht fun t hk ht => ?_).mono ?_
  · have marked : ∀ k, k < 2 + n → t.marked .rx (1 + k) := by
      intro k hkn
      obtain rfl | ⟨j, rfl⟩ : k = 0 ∨ ∃ j, k = j + 1 := by cases k <;> simp
      · exact hk.marks .rx 1 hm
      · refine hk.stored .rx _ (.storeAcc .rx (2 + j)) ?_ ⟨rfl, by omega⟩
        rcases Nat.lt_or_ge j n with hj | hj
        · have : Micro.storeAcc .rx (2 + j) ∈ (List.range n).flatMap readPayloadByte :=
            List.mem_flatMap.2 ⟨j, List.mem_range.2 hj, by simp [readPayloadByte]⟩
          simp [this]
        · obtain rfl : j = n := by omega
          simp
    exact .rxChecked marked ht
  · have : ((List.range n).flatMap readPayloadByte).length = 60 * n := by
      simp [List.length_flatMap, show ∀ j, (readPayloadByte j).length = 60 from fun _ => rfl, Nat.mul_comm]
    simp only [List.length_append, this, show ∀ v, (mAckBitProc v).length = 8 from fun _ => rfl,
      show mRecvProc.length = 51 from rfl, show mStopProc.length = 8 from rfl, List.length_singleton]
    unfold pollBound
    omega

/-- DDC_READ after its length byte (R161). -/
theorem readLength_ends {l : Byte} {s : State} (hm : s.marked .rx 1) (ht : s.seq.todo = readLengthNext (classify l)) :
    Ends (pollBound * 3000) s := by
  have short {r : Result} (ht : s.seq.todo = mAckBitProc .released ++ mStopProc ++ [.setFrameLen 0, .finish r]) :
      Ends (pollBound * 3000) s := by
    refine (Ends.transfer (ms := mAckBitProc .released ++ mStopProc ++ [.setFrameLen 0]) rfl ht).mono ?_
    decide
  cases hc : classify l with
  | null => exact short (hc ▸ ht)
  | invalid => exact short (hc ▸ ht)
  | valid n => exact readValid_ends (classify_valid hc).2 hm (hc ▸ ht)

theorem ddcRead_ends {s : State} (ht : s.seq.todo = commandProgram .ddcRead) : Ends (pollBound * 4000) s := by
  have head : (mRecvProc ++ [Micro.storeAcc .rx 0] ++ mAckBitProc .low ++ mRecvProc ++ [Micro.storeAcc .rx 1]).all
      Micro.transfers = true := rfl
  refine (Ends.address (n := pollBound * 3800) ht fun t _ ht => (Ends.transfers (n := pollBound * 3001) head ht
    fun u hu ht => ?_).mono ?_).mono ?_
  · refine (Ends.step ht rfl (readLength_ends (l := u.seq.acc) ?_ rfl)).mono ?_
    · exact hu.stored .rx 1 (.storeAcc .rx 1) (by simp) ⟨rfl, rfl⟩
    · unfold pollBound; omega
  · decide
  · unfold pollBound; omega

/-! #### EDID_READ -/

/-- The bytes that EDID_READ has received in this pass are marked, and its cursor is at the last of them (R180). -/
structure Received (s : State) (i : Nat) : Prop where
  cursor : nextIndex s.edid.cursor = i
  marks : ∀ k, k < i → s.marked .edid k

theorem Received.kept {ms : List Micro} {s t : State} {i : Nat} (h : Received s i) (hk : Kept ms s t) : Received t i :=
  ⟨by rw [hk.edid]; exact h.cursor, fun k hi => hk.marks .edid k (h.marks k hi)⟩

theorem Received.congr {s t : State} {i : Nat} (h : Received s i) (hc : t.edid.cursor = s.edid.cursor) (hm : t.mem = s.mem) :
    Received t i := ⟨by rw [hc]; exact h.cursor, fun k hi => by rw [State.marked, hm]; exact h.marks k hi⟩

/-- The header test reads received bytes only (R179). -/
theorem Received.headerAt {s : State} {i : Nat} (h : Received s (i + 1)) : ∃ b, s.headerAt i = .ok b := by
  rcases Nat.lt_or_ge i 7 with hi | hi
  · exact ⟨false, State.headerAt_early hi⟩
  · obtain ⟨bs, hbs⟩ := State.readBytes_marked (s := s) (b := .edid) (i := i - 7) (n := 8)
      fun k hk => h.marks (i - 7 + k) (by omega)
    exact ⟨bs == edidHeader, by rw [State.headerAt, if_pos hi, hbs]; rfl⟩

section EdidRead
variable {n i : Nat} {s : State}

/-- The header is looked for in a pass that has not found it (R180). -/
theorem runMicro_edidMatch {rest : List Micro} {b : Bool} (hv : s.edid.validated = false) (hc : s.edid.cursor = some i)
    (hb : s.headerAt i = .ok b) : runMicro .edidMatch (s.jump rest) = .next (s.jump (edidMatchNext b i)) := by
  have hb : (s.jump rest).headerAt i = .ok b := hb
  simp [runMicro, hv, hc, hb, withTest]

theorem runMicro_edidMatch_validated {rest : List Micro} (hv : s.edid.validated = true) :
    runMicro .edidMatch (s.jump rest) = .next (s.jump [.edidAckByte, .edidWhile]) := by
  simp [runMicro, hv, edidMatchNext]

/-- The loop receives one byte more (R180). -/
theorem Ends.edidByte (hi : i < 128) (hr : Received s i) (ht : s.seq.todo = [.edidWhile])
    (h : ∀ t, t.edid = { s.edid with cursor := some i } → Received t (i + 1) → t.seq.todo = [.edidMatch] → Ends n t) :
    Ends (n + pollBound * 52) s := by
  have loops : edidWhileNext s.edid.cursor = edidByteProc := by
    refine if_neg fun hc => ?_
    have := hr.cursor
    rw [hc, nextIndex] at this
    omega
  refine (Ends.step ht (t := s.jump edidByteProc) ?_
    (Ends.transfers (n := n + 2) (ms := mRecvProc) rfl rfl fun t hk ht => ?_)).mono ?_
  · exact congrArg (fun ms => Host.Outcome.next (s.jump ms)) loops
  · have received := hr.kept (t := t) (ms := mRecvProc) ⟨hk.edid, hk.marks, hk.stored⟩
    refine .step ht rfl (.step rfl rfl (h _ ?_ ⟨?_, fun k hki => ?_⟩ rfl))
    · change { t.edid with cursor := some (nextIndex t.edid.cursor) } = _
      rw [received.cursor, hk.edid]
      rfl
    · change nextIndex (some (nextIndex t.edid.cursor)) = i + 1
      rw [received.cursor]
      rfl
    · change (t.storeByte .edid (nextIndex t.edid.cursor) t.seq.acc).marked .edid k
      rw [received.cursor]
      obtain hki | rfl := Nat.lt_succ_iff_lt_or_eq.1 hki
      · exact (received.marks k hki).storeByte _
      · exact t.storeByte_marked _ _ _
  · rw [show mRecvProc.length = 51 from rfl]; unfold pollBound; omega

/-- The loop ends after byte 127 (R180). -/
theorem Ends.edidLoopEnd (hr : Received s 128) (ht : s.seq.todo = [.edidWhile])
    (h : ∀ t, t.edid = s.edid → t.seq.todo = [.edidPassEnd] → Ends n t) : Ends (n + pollBound * 9) s := by
  have stops : edidWhileNext s.edid.cursor = mStopProc ++ [.edidPassEnd] := by
    refine if_pos ?_
    have := hr.cursor
    cases hc : s.edid.cursor with
    | none => rw [hc, nextIndex] at this; omega
    | some c => rw [hc, nextIndex] at this; rw [show c = 127 by omega]
  refine (Ends.step ht (congrArg (fun ms => Host.Outcome.next (s.jump ms)) stops) (Ends.transfers (n := n) (ms := mStopProc)
    rfl rfl fun t hk ht => h t hk.edid ht)).mono ?_
  rw [show mStopProc.length = 8 from rfl]; unfold pollBound; omega

/-- The byte at the cursor is acknowledged, and the loop goes on (R180). -/
theorem Ends.edidAckByte (ht : s.seq.todo = [.edidAckByte, .edidWhile])
    (h : ∀ t, Kept [] s t → t.seq.todo = [.edidWhile] → Ends n t) : Ends (n + pollBound * 9) s := by
  have acks (v : Drive) : Ends (n + pollBound * 8) (s.jump (mAckBitProc v ++ [.edidWhile])) :=
    .transfers (ms := mAckBitProc v) rfl rfl fun t hk ht => h t ⟨hk.edid, hk.marks, fun _ _ _ h => absurd h (by simp)⟩ ht
  have goesOn : Ends (n + pollBound * 8) (s.jump (edidAckNext s.edid.cursor ++ [.edidWhile])) := by
    unfold edidAckNext
    split <;> exact acks _
  exact (Ends.step ht rfl goesOn).mono (by unfold pollBound; omega)

/-- A validated pass receives its other bytes, and the command is OK (R180). -/
theorem Ends.edidValidated {d : Nat} (hd : i + d = 128) (hv : s.edid.validated = true) (hr : Received s i)
    (ht : s.seq.todo = [.edidWhile]) : Ends (pollBound * (10 + 70 * d)) s := by
  induction d generalizing s i with
  | zero =>
    obtain rfl : i = 128 := by omega
    refine (Ends.edidLoopEnd (n := 2) hr ht fun t he ht => ?_).mono (by decide)
    refine .step ht rfl (.finish (r := .ok) (rest := []) ?_)
    simp [edidPassEndNext, he, hv]
  | succ d ih =>
    refine (Ends.edidByte (n := pollBound * (10 + 70 * d) + pollBound * 9 + 1) (by omega) hr ht fun t he hr ht => ?_).mono
      (by unfold pollBound; omega)
    have valid : t.edid.validated = true := by rw [he]; exact hv
    refine .step ht (runMicro_edidMatch_validated valid) (.edidAckByte rfl fun u hk ht => ih (i := i + 1) (by omega) ?_ ?_ ht)
    · rw [hk.edid]; exact valid
    · exact hr.kept ⟨hk.edid, hk.marks, hk.stored⟩

/-- After its stores, resynchronisation goes on with a validated pass (R181). -/
theorem Ends.edidRestart (hv : s.edid.validated = true) (hr : Received s 8) (ht : s.seq.todo = edidResyncProc.drop 4) :
    Ends (pollBound * 8990) s := by
  refine (Ends.transfers (n := pollBound * 8930) (ms := mAckBitProc .released) rfl ht fun t hk ht =>
    (Ends.address (n := pollBound * 8500) ht fun u hu ht => ?_).mono (by decide)).mono ?_
  · refine (Ends.edidValidated (d := 120) rfl ?_ ((hr.kept hk).kept hu) ht).mono (by decide)
    rw [hu.edid, hk.edid]
    exact hv
  · exact show pollBound * 8930 + pollBound * 8 ≤ pollBound * 8990 by decide

/-- Resynchronisation, at any cursor (R181): the header is stored, and the rest of a validated pass follows. -/
theorem Ends.edidResync (ht : s.seq.todo = edidResyncProc) : Ends (pollBound * 9000) s := by
  have header (k : Nat) (hk : k < 8) : (s.storeAll .edid 0 edidHeader).marked .edid k := by
    obtain ⟨v, hv⟩ : ∃ v, edidHeader[k]? = some v := ⟨edidHeader[k], List.getElem?_eq_getElem hk⟩
    have := (s.storeAll_spec .edid 0 edidHeader).1 k v hv
    rw [Nat.zero_add] at this
    exact Option.ne_none_iff_exists'.2 ⟨v, this⟩
  have positioned (t : State) (ht : t.seq.todo = edidResyncProc.drop 1) (hm : ∀ k, k < 8 → t.marked .edid k) :
      Ends (pollBound * 8990 + 3) t :=
    .step ht rfl (.step rfl rfl (.step rfl rfl (.edidRestart rfl ⟨rfl, hm⟩ rfl)))
  exact (Ends.step ht rfl (positioned _ rfl header)).mono (by decide)

/-- A pass that has not found the header yet comes to its end, or finds it on the way (R180, R181). -/
theorem Ends.edidUnvalidated {d : Nat} (hd : i + d = 128) (hv : s.edid.validated = false) (hr : Received s i)
    (ht : s.seq.todo = [.edidWhile])
    (h : ∀ t, t.edid.validated = false → t.edid.pass = s.edid.pass → t.seq.todo = [.edidPassEnd] → Ends n t) :
    Ends (n + pollBound * (9000 + 70 * d)) s := by
  induction d generalizing s i with
  | zero =>
    obtain rfl : i = 128 := by omega
    exact (Ends.edidLoopEnd (n := n) hr ht fun t he ht => h t (he ▸ hv) (by rw [he]) ht).mono (by unfold pollBound; omega)
  | succ d ih =>
    refine (Ends.edidByte (n := n + pollBound * (9000 + 70 * d) + pollBound * 9 + 2) (by omega) hr ht
      fun t he hr ht => ?_).mono (by unfold pollBound; omega)
    have invalid : t.edid.validated = false := by rw [he]; exact hv
    obtain ⟨b, hb⟩ := hr.headerAt
    refine .step ht (runMicro_edidMatch invalid (by rw [he]) hb) ?_
    unfold edidMatchNext
    split_ifs
    · -- the header is at the start of the record
      refine Ends.mono (.step rfl rfl (.edidAckByte rfl fun u hk ht =>
        .edidValidated (i := i + 1) (d := d) (by omega) ?_ ?_ ht)) ?_
      · exact congrArg EdidVars.validated hk.edid
      · refine Received.kept (s := { t with edid := { t.edid with validated := true } }) (hr.congr rfl rfl)
          ⟨hk.edid, hk.marks, hk.stored⟩
      · unfold pollBound; omega
    · exact (Ends.edidResync rfl).mono (by unfold pollBound; omega)
    · refine Ends.mono (.edidAckByte rfl fun u hk ht => ih (i := i + 1) (by omega) ?_ ?_ ht fun v hv hp => h v hv ?_)
        (m := n + pollBound * (9000 + 70 * d) + pollBound * 9) (by omega)
      · rw [hk.edid]; exact invalid
      · exact hr.kept ⟨hk.edid, hk.marks, hk.stored⟩
      · rw [hp, hk.edid]; exact (congrArg EdidVars.pass he :)

/-- One pass of EDID_READ, which finds the header or comes to its end (R180). -/
theorem Ends.edidPass (ht : s.seq.todo = edidPassProc)
    (h : ∀ t, t.edid.validated = false → t.edid.pass = s.edid.pass → t.seq.todo = [.edidPassEnd] → Ends n t) :
    Ends (n + pollBound * 20000) s := by
  have rest : Ends (n + pollBound * 19000)
      (({ s with edid := ⟨none, false, false, s.edid.pass⟩ }).jump (edidPassProc.drop 3)) := by
    refine (Ends.address (n := n + pollBound * 18000) rfl fun t hk ht => ?_).mono (by unfold pollBound; omega)
    refine (Ends.edidUnvalidated (i := 0) (d := 128) rfl ?_ ⟨?_, by simp⟩ ht fun u hu hp => h u hu ?_).mono
      (by unfold pollBound; omega)
    · rw [hk.edid]; rfl
    · rw [hk.edid]; rfl
    · rw [hp, hk.edid]; rfl
  exact (Ends.step ht rfl (.step rfl rfl (.step rfl rfl rest))).mono (by unfold pollBound; omega)

/-- EDID_READ passes at most twice (R180, R182). -/
theorem edidRead_ends (ht : s.seq.todo = commandProgram .edidRead) : Ends (pollBound * 50000) s := by
  refine (Ends.step ht rfl (Ends.edidPass (n := pollBound * 25000) rfl fun t hv hp ht => ?_)).mono (by decide)
  have retries : edidPassEndNext t.edid.validated t.edid.pass = .setPass true :: edidPassProc := by
    rw [hv, hp]; rfl
  refine (Ends.step ht (congrArg (fun ms => Host.Outcome.next (t.jump ms)) retries) (.step rfl rfl
    (Ends.edidPass (n := 2) rfl fun u hv hp ht => ?_))).mono (by decide)
  have fails : edidPassEndNext u.edid.validated u.edid.pass = [.finish .headerNotFound] := by rw [hv, hp]; rfl
  exact .step ht (congrArg (fun ms => Host.Outcome.next (u.jump ms)) fails) (.finish rfl)

end EdidRead

/-- Every command of the master, over a marked payload where it is DDC_WRITE, ends (R245). -/
theorem commandProgram_ends {i : Instr} {s : State} (hi : neededMode i = some .master)
    (hm : ∀ n, i = .ddcWrite n → n.toNat ≤ 35 → ∀ k, k < n.toNat → s.marked .tx (3 + k))
    (ht : s.seq.todo = commandProgram i) : Ends (pollBound * 50000) s := by
  have most {n : Nat} (h : Ends n s) (hn : n ≤ pollBound * 50000 := by decide) : Ends (pollBound * 50000) s := h.mono hn
  cases i <;> try cases hi
  case mStart => exact most (.transfer (ms := mStartProc) rfl ht)
  case mStop => exact most (.transfer (ms := mStopProc) rfl ht)
  case mSendByte b =>
    exact most (.transfers (n := 1) (ms := mSendProc b) rfl ht fun _ _ ht => .finishAck ht)
      (show 1 + pollBound * 56 ≤ _ by decide)
  case mRecvByte => exact most (.transfer (ms := mRecvProc ++ [.rxByteFromAcc, .rxFirst false]) rfl ht)
  case mAck => exact most (.transfer (ms := mAckBitProc .low) rfl ht)
  case mNack => exact most (.transfer (ms := mAckBitProc .released) rfl ht)
  case ddcWrite n =>
    by_cases hn : n.toNat ≤ 35
    · rw [commandProgram_ddcWrite hn] at ht
      exact most (ddcWrite_ends hn (hm n rfl hn) ht)
    · have : commandProgram (.ddcWrite n) = [.finish .invalidLength] := if_pos (by simpa [txLenMax, payloadLength] using hn)
      exact most (.finish (n := 0) (ht.trans this))
  case ddcRead => exact most (ddcRead_ends ht)
  case edidRead => exact edidRead_ends ht

/-- A run of bytes is marked, or has a first unmarked one. -/
theorem marked_or_first_unmarked (s : State) (b : Buffer) (i n : Nat) : (∀ k, k < n → s.marked b (i + k)) ∨
    ∃ bs : List Byte, bs.length < n ∧ s.holds b i bs ∧ Memory.read s.mem (b.addr (i + bs.length)) = none := by
  induction n with
  | zero => exact .inl (by simp)
  | succ n ih =>
    rcases ih with h | ⟨bs, hl, h⟩
    · by_cases hn : s.marked b (i + n)
      · refine .inl fun k hk => ?_
        obtain hk | rfl := Nat.lt_succ_iff_lt_or_eq.1 hk
        exacts [h k hk, hn]
      · obtain ⟨bs, hbs⟩ := State.readBytes_marked h
        obtain ⟨hl, hh⟩ := State.holds_of_readBytes hbs
        exact .inr ⟨bs, by omega, hh, by rw [hl]; exact not_not.1 hn⟩
    · exact .inr ⟨bs, by omega, h⟩

/-- Settles O59: a command over marked bytes ends within a bound of its own, and DDC_WRITE stops at the first unmarked byte of
its payload. -/
theorem masterCommandsFinish : Obligations.MasterCommandsFinish := by
  unfold Obligations.MasterCommandsFinish
  refine ⟨pollBound * 50000, fun i s hi hq hp => ?_⟩
  rw [exec_eq_runCommand, hi]
  cases hm : modeAllows (some .master) s with
  | false => exact .inl ⟨_, runCommand_wrongMode hm, rfl⟩
  | true =>
    have ends (marked : ∀ n, i = .ddcWrite n → n.toNat ≤ 35 → ∀ k, k < n.toNat → s.marked .tx (3 + k)) :
        ∃ t, runCommand (some .master) (commandProgram i) s = .next t ∧ t.status.busy = false := by
      rw [runCommand_allowed hm]
      exact (commandProgram_ends (s := s.start (commandProgram i)) hi marked rfl).runController hq hp
    by_cases hw : ∃ n, i = .ddcWrite n ∧ n.toNat ≤ 35
    · obtain ⟨n, rfl, hn⟩ := hw
      rcases marked_or_first_unmarked s .tx 3 n.toNat with h | ⟨bs, hl, hh, hu⟩
      · exact .inl (ends fun m he _ => by cases he; exact h)
      · refine .inr ⟨n, bs.length, rfl, hn, hl, hu, ?_⟩
        have := ddcBuild_unmarked (commandProgram_ddcWrite hn) (hi ▸ hm) (le_trans (by decide) hq) hl hh hu
        rwa [exec_eq_runCommand, hi] at this
    · exact .inl (ends fun n he hn => absurd ⟨n, he, hn⟩ hw)

end Sys2Proof.Machine
end

section
/-! SUPPORT and CERTIFICATE. A byte sent by a master block reaches a slave block (spec/41_engine_slave.md R146): the
phases of START and one byte on the wire, what the slave's automaton stands at once it has sampled each of them, what the
master's program still has to do in it, and that a fair schedule keeps the slave at the master's phase or one behind. -/

namespace Sys2Proof.Machine

/-! ### The phases of START and a byte -/

/-- Where a START and the nine clocks after it stand on the wire. -/
inductive Phase where
  /-- The bus is free. -/
  | idle
  /-- SDA has fallen, SCL still High (R131). -/
  | started
  /-- SCL is Low before the clock of bit 7 - j (R70); clock 8 is the ACK's, and Low 9 follows it. -/
  | low (j : Nat)
  /-- SCL is High in that clock. -/
  | high (j : Nat)

namespace Phase

/-- The phase after a phase. -/
def next : Phase → Phase
  | .idle => .started
  | .started => .low 0
  | .low j => .high j
  | .high j => .low (j + 1)

/-- What the master drives SCL to. -/
def scl : Phase → Drive
  | .low _ => .low
  | _ => .released

/-- What the master drives SDA to while SCL is High (R114, R116). -/
def masterSda (v : Byte) : Phase → Drive
  | .started => .low
  | .high j => if j < 8 then bitDrive v (7 - j) else .released
  | _ => .released

/-- What the slave drives SDA to: Low for the ACK (R134). -/
def slaveSda : Phase → Drive
  | .low j => if j < 8 then .released else .low
  | .high j => if j < 8 then .released else .low
  | _ => .released

/-- The automaton state of a slave that has sampled the phase (R134). -/
def st : Phase → SlaveState
  | .idle => .waitStart
  | .started => .start
  | .low j => if j < 8 then .clockAvailable else .ack
  | .high j => if j < 8 then .data else .ackDone

/-- How many bits the slave still expects. -/
def count : Phase → Nat
  | .low j => 8 - j
  | .high j => 7 - j
  | _ => 8

/-- Up to the ACK's clock: what follows it ends S_GET_BYTE. -/
def inByte : Phase → Prop
  | .low j => j ≤ 8
  | .high j => j ≤ 8
  | _ => True

/-- The level of SCL in the phase, with the slave not stretching. -/
def sclLevel (p : Phase) : Level := lineLevel .released p.scl

/-- The level of SDA while SCL is High. -/
def sdaLevel (v : Byte) (p : Phase) : Level := lineLevel p.slaveSda (p.masterSda v)

/-- What S_GET_BYTE does when it samples the phase after this one (R132, R134). -/
def actions (sda : Level) : Phase → List Micro
  | .idle => startActions
  | .started => [.setSt .clockAvailable]
  | .low j => if j < 8 then [.shiftIn sda, .decCount, .setSt .data] else [.setSt .ackDone]
  | .high j => if j < 7 then [.setSt .clockAvailable] else [.setSda .low, .setSt .ack]

/-- The slave changes SDA at a sample of SCL Low alone. -/
theorem slaveSda_next {p : Phase} (h : p.next.scl = .released) : p.next.slaveSda = p.slaveSda := by
  cases p with
  | idle => rfl
  | started => cases h
  | low j => rfl
  | high j => cases h

/-- Both samples see SCL High only where SDA falls to the START. -/
theorem eq_idle_of_high {p : Phase} (hp : p.sclLevel = .high) (hn : p.next.sclLevel = .high) : p = .idle := by
  cases p with
  | idle => rfl
  | started => cases hn
  | low j => cases hp
  | high j => cases hn

/-- The same phase twice is no event of SCL that the table lists. -/
theorem row_same (st : SlaveState) (count : Nat) (sda : Level) (p : Phase) :
    automatonRow st (lineEvent p.sclLevel p.sclLevel) count sda = some [] := by
  cases p.sclLevel <;> cases st <;> rfl

/-- The row of the transition table that each next phase takes (R134). -/
theorem row_next {p : Phase} (hi : p ≠ .idle) (hp : p.next.inByte) (sda : Level) :
    automatonRow p.st (lineEvent p.sclLevel p.next.sclLevel) p.count sda = some (p.actions sda) := by
  cases p with
  | idle => exact absurd rfl hi
  | started => rfl
  | low j =>
    have e : lineEvent (Phase.low j).sclLevel (Phase.high j).sclLevel = .rising := rfl
    simp only [st, actions, next, e]
    split_ifs <;> rfl
  | high j =>
    have hj : j < 8 := hp
    have e : lineEvent (Phase.high j).sclLevel (Phase.low (j + 1)).sclLevel = .falling := rfl
    simp only [st, actions, next, e, count, if_pos hj]
    by_cases h7 : j < 7
    · simp only [automatonRow, if_pos h7, if_neg (show ¬ 7 - j = 0 by omega)]
    · simp only [automatonRow, if_neg h7, if_pos (show 7 - j = 0 by omega)]

end Phase

/-! ### The slave -/

/-- What S_GET_BYTE works on: the automaton, its SDA output and RXDATA. -/
structure SlaveView where
  auto : Automaton
  sda : Drive
  rxData : RxData

def State.view (s : State) : SlaveView := ⟨s.auto, s.out.sda, s.rxData⟩

/-- A step of S_GET_BYTE between two samples. -/
def Micro.prompt : Micro → Bool
  | .delay => true
  | .setSda _ => true
  | .releaseStretch => true
  | .setPrev _ => true
  | .setSt _ => true
  | .setCount _ => true
  | .setShreg _ => true
  | .setFirst _ => true
  | .shiftIn _ => true
  | .decCount => true
  | .rxByteFromShreg => true
  | .rxFirstFromFirst => true
  | .setStAfterByte => true
  | _ => false

theorem Micro.prompt_unsampled {m : Micro} (h : m.prompt = true) : m.samples = false := by
  cases m <;> simp [Micro.prompt, Micro.samples] at h ⊢

/-- What such a step makes of it, with B2B 0 (R135). -/
def SlaveView.after (x : SlaveView) : Micro → SlaveView
  | .setSda v => { x with sda := v }
  | .setPrev l => { x with auto := { x.auto with prev := l } }
  | .setSt st => { x with auto := { x.auto with st := st } }
  | .setCount n => { x with auto := { x.auto with count := n } }
  | .setShreg v => { x with auto := { x.auto with shreg := v } }
  | .setFirst b => { x with auto := { x.auto with first := b } }
  | .shiftIn l => { x with auto := { x.auto with shreg := setBit x.auto.shreg (x.auto.count - 1) l } }
  | .decCount => { x with auto := { x.auto with count := x.auto.count - 1 } }
  | .rxByteFromShreg => { x with rxData := { x.rxData with byte := x.auto.shreg } }
  | .rxFirstFromFirst => { x with rxData := { x.rxData with first := x.auto.first } }
  | .setStAfterByte => { x with auto := { x.auto with st := .waitStart } }
  | _ => x

/-- A prompt step does what it does to the view, and goes on with what is left. -/
theorem runMicro_prompt {m : Micro} {s : State} (hm : m.prompt = true) (hb : s.ctrl.b2b = false)
    (hscl : s.out.scl = .released) :
    ∃ t, runMicro m s = .next t ∧ t.view = s.view.after m ∧ t.out.scl = .released ∧ t.seq.todo = s.seq.todo := by
  cases m <;> try cases hm
  case releaseStretch => exact ⟨s, by simp [runMicro, hscl], rfl, hscl, rfl⟩
  case setStAfterByte => exact ⟨_, rfl, by simp [State.view, SlaveView.after, hb], hscl, rfl⟩
  all_goals exact ⟨_, rfl, rfl, hscl, rfl⟩

/-- The slave has sampled the phase and done what follows from it. -/
structure SettledAt (v : Byte) (p : Phase) (x : SlaveView) : Prop where
  inByte : p.inByte
  sda : x.sda = p.slaveSda
  st : x.auto.st = p.st
  prevScl : x.auto.prev.scl = p.sclLevel
  prevSda : p.scl = .released → x.auto.prev.sda = p.sdaLevel v
  first : p ≠ .idle → x.auto.first = true
  count : p ≠ .idle → x.auto.count = p.count
  /-- The bits received so far, most-significant bit first. -/
  bits : p ≠ .idle → ∀ k, k < 8 → p.count ≤ k → x.auto.shreg.getLsbD k = v.getLsbD k

section Sample
variable {v : Byte} {p : Phase} {x : SlaveView} {cur : Levels} (h : SettledAt v p x)
include h

/-- A second sample of a phase changes `prev` alone. -/
theorem SettledAt.getByteNext_same (hscl : cur.scl = p.sclLevel) (hsda : p.scl = .released → cur.sda = p.sdaLevel v) :
    getByteNext x.auto cur = getLoop := by
  have same : ¬ (x.auto.prev.scl = .high ∧ cur.scl = .high ∧ x.auto.prev.sda ≠ cur.sda) := by
    rintro ⟨hp, -, hne⟩
    have : p.scl = .released := by
      rw [h.prevScl, Phase.sclLevel] at hp
      cases hs : p.scl with
      | low => rw [hs] at hp; cases hp
      | released => rfl
    exact hne ((h.prevSda this).trans (hsda this).symm)
  rw [getByteNext_of_row same (actions := []) (by rw [h.prevScl, hscl]; exact p.row_same _ _ _), List.nil_append]

theorem SettledAt.same (hscl : cur.scl = p.sclLevel) (hsda : p.scl = .released → cur.sda = p.sdaLevel v) :
    SettledAt v p (x.after (.setPrev cur)) :=
  { h with prevScl := hscl, prevSda := hsda }

/-- The sample of the next phase, up to the ACK's clock, takes that phase's actions. -/
theorem SettledAt.getByteNext_next (hp : p.next.inByte) (hscl : cur.scl = p.next.sclLevel)
    (hsda : p.next.scl = .released → cur.sda = p.next.sdaLevel v) :
    getByteNext x.auto cur = p.actions cur.sda ++ getLoop := by
  by_cases hi : p = .idle
  · subst hi
    have start : isStart x.auto.prev cur = true := (isStart_iff _ _).2 ⟨⟨h.prevSda rfl, hsda rfl⟩, h.prevScl, hscl⟩
    rw [getByteNext, if_pos start]
    rfl
  · refine getByteNext_of_row ?_ ?_
    · rintro ⟨hh, hh', -⟩
      exact hi (Phase.eq_idle_of_high (h.prevScl ▸ hh) (hscl ▸ hh'))
    · rw [h.st, h.prevScl, hscl, h.count hi]
      exact Phase.row_next hi hp cur.sda

/-- After those actions the slave stands at the next phase. -/
theorem SettledAt.next (hp : p.next.inByte) (hscl : cur.scl = p.next.sclLevel)
    (hsda : p.next.scl = .released → cur.sda = p.next.sdaLevel v) :
    SettledAt v p.next ((p.actions cur.sda).foldl SlaveView.after (x.after (.setPrev cur))) := by
  cases p with
  | idle => exact ⟨hp, h.sda, rfl, hscl, hsda, fun _ => rfl, fun _ => rfl, fun _ k hk hc => absurd hc (Nat.not_le.2 hk)⟩
  | started =>
    exact ⟨hp, h.sda, rfl, hscl, hsda, fun _ => h.first (by simp), fun _ => h.count (by simp), fun _ => h.bits (by simp)⟩
  | low j =>
    have count : x.auto.count = 8 - j := h.count (by simp)
    have bits : ∀ k, k < 8 → 8 - j ≤ k → x.auto.shreg.getLsbD k = v.getLsbD k := h.bits (by simp)
    by_cases hj : j < 8
    · have sda : cur.sda = lineLevel .released (bitDrive v (7 - j)) := by
        simpa [Phase.next, Phase.sdaLevel, Phase.slaveSda, Phase.masterSda, hj] using hsda rfl
      simp only [Phase.actions, if_pos hj, List.foldl_cons, List.foldl_nil, SlaveView.after]
      refine ⟨hp, h.sda, ?_, hscl, hsda, fun _ => h.first (by simp), fun _ => ?_, fun _ k hk hc => ?_⟩
      · simp [Phase.next, Phase.st, hj]
      · simp only [Phase.next, Phase.count, count]; omega
      · simp only [Phase.next, Phase.count] at hc
        rw [setBit_getLsbD _ _ _ _ hk, count, show 8 - j - 1 = 7 - j by omega]
        split_ifs with hkj
        · rw [hkj, sda, bitDrive]
          cases v.getLsbD (7 - j) <;> rfl
        · exact bits k hk (by omega)
    · simp only [Phase.actions, if_neg hj, List.foldl_cons, List.foldl_nil, SlaveView.after]
      refine ⟨hp, h.sda, ?_, hscl, hsda, fun _ => h.first (by simp), fun _ => ?_, fun _ k hk hc => bits k hk (by omega)⟩
      · simp [Phase.next, Phase.st, hj]
      · simp only [Phase.next, Phase.count, count]; omega
  | high j =>
    have hj : j < 8 := hp
    have count : x.auto.count = 7 - j := h.count (by simp)
    have bits : ∀ k, k < 8 → 7 - j ≤ k → x.auto.shreg.getLsbD k = v.getLsbD k := h.bits (by simp)
    have next : (Phase.high j).next.count = 7 - j := show 8 - (j + 1) = 7 - j by omega
    by_cases h7 : j < 7
    · simp only [Phase.actions, if_pos h7, List.foldl_cons, List.foldl_nil, SlaveView.after]
      refine ⟨hp, ?_, ?_, hscl, hsda, fun _ => h.first (by simp), fun _ => ?_, fun _ => ?_⟩
      · simpa [Phase.next, Phase.slaveSda, hj, show j + 1 < 8 by omega] using h.sda
      · simp [Phase.next, Phase.st, h7]
      · rw [next]; exact count
      · rw [next]; exact bits
    · simp only [Phase.actions, if_neg h7, List.foldl_cons, List.foldl_nil, SlaveView.after]
      refine ⟨hp, ?_, ?_, hscl, hsda, fun _ => h.first (by simp), fun _ => ?_, fun _ => ?_⟩
      · simp [Phase.next, Phase.slaveSda, show ¬ j + 1 < 8 by omega]
      · simp [Phase.next, Phase.st, show ¬ j + 1 < 8 by omega]
      · rw [next]; exact count
      · rw [next]; exact bits

end Sample

/-- S_GET_BYTE has the byte and its ACK: all that is left is to finish. -/
structure Completed (v : Byte) (x : SlaveView) : Prop where
  rxData : x.rxData = ⟨v, true⟩
  st : x.auto.st = .waitStart

/-- The slave runs S_GET_BYTE and has sampled the phase, and at most n of its steps are left once it samples the end of the
ACK's clock. -/
inductive SlaveAt (v : Byte) : Nat → Phase → State → Prop
  /-- What follows from the phase, and then the next sample. -/
  | sampling {ms : List Micro} {p : Phase} {b : State} (ht : b.seq.todo = ms ++ [.getSample])
      (hm : ms.all Micro.prompt = true) (hl : ms.length ≤ 6) (h : SettledAt v p (ms.foldl SlaveView.after b.view)) :
      SlaveAt v (ms.length + 11) p b
  /-- Byte completion (R135). -/
  | completing {ms : List Micro} {b : State} (ht : b.seq.todo = ms ++ [.applyStretch, .finish .ok])
      (hm : ms.all Micro.prompt = true) (hl : ms.length ≤ 8) (h : Completed v (ms.foldl SlaveView.after b.view)) :
      SlaveAt v (ms.length + 2) (.low 9) b
  | finishing {b : State} (ht : b.seq.todo = [.finish .ok]) (h : Completed v b.view) : SlaveAt v 1 (.low 9) b
  | finished {b : State} (ht : b.seq.todo = []) (hb : b.status.busy = false) (hr : b.status.result = .ok)
      (h : Completed v b.view) : SlaveAt v 0 (.low 9) b

/-- The block's side of a slave that does not stretch. -/
structure Unstretched (b : State) : Prop where
  b2b : b.ctrl.b2b = false
  scl : b.out.scl = .released

/-- The master's outputs in a phase. -/
structure Shows (v : Byte) (q : Phase) (o : Drives) : Prop where
  scl : o.scl = q.scl
  sda : q.scl = .released → o.sda = q.masterSda v

/-- The slave holds SDA Low and changes it no more before its next sample. -/
structure HoldsAck (b : State) : Prop where
  sda : b.out.sda = .low
  settled : b.sdaPending = false

/-- A step between two samples goes on holding it. -/
theorem HoldsAck.step {b t : State} {m : Micro} {rest : List Micro} (h : HoldsAck b) (ht : b.seq.todo = m :: rest)
    (hs : m.samples = false) (hout : t.view = b.view.after m) (hrest : t.seq.todo = rest) : HoldsAck t := by
  have settled := h.settled
  have hsda : t.out.sda = (b.view.after m).sda := congrArg SlaveView.sda hout
  rw [State.sdaPending, ht, List.takeWhile_cons_of_pos (by simp [hs]), List.any_cons, Bool.or_eq_false_iff, h.sda] at settled
  have kept : t.out.sda = .low := by
    rw [hsda]
    cases m
    case setSda w => simpa [Micro.movesSda, SlaveView.after] using settled.1
    all_goals exact h.sda
  exact ⟨kept, by rw [State.sdaPending, hrest, kept]; exact settled.2⟩

/-- The block, its peer driving `o` at its next sample. -/
def State.against (s : State) (o : Drives) : State := { s with env := { s.env with peer := [o] } }

section SlaveTurn
variable {v : Byte} {n : Nat} {p q : Phase} {b : State} {o : Drives}

/-- A step of a joined slave between two samples. -/
theorem stepAgainst_prompt {m : Micro} {rest : List Micro} (hb : Unstretched b) (ht : b.seq.todo = m :: rest)
    (hm : m.prompt = true) :
    ∃ t, stepAgainst o b = .next t ∧ t.view = b.view.after m ∧ t.seq.todo = rest ∧ Unstretched t := by
  obtain ⟨t, hr, hv, hscl, htodo⟩ := runMicro_prompt
    (s := (b.against o).jump rest) hm hb.b2b hb.scl
  obtain ⟨hctrl, -⟩ := runMicro_sameFixedPart hr
  exact ⟨t, (stepAgainst_cons ht).trans hr, hv, htodo, by rw [hctrl]; exact hb.b2b, hscl⟩

/-- A joined slave samples what the master drives (R130). -/
theorem stepAgainst_getSample (ht : b.seq.todo = [.getSample]) :
    ∃ t, stepAgainst o b = .next t ∧ t.view = b.view ∧ t.out = b.out ∧ t.ctrl = b.ctrl ∧
      t.seq.todo = .setPrev (levelsOf b.out o) :: getByteNext b.auto (levelsOf b.out o) :=
  ⟨_, stepAgainst_cons ht, rfl, rfl, rfl, rfl⟩

theorem Phase.prompt_actions (p : Phase) (sda : Level) : (p.actions sda).all Micro.prompt = true := by
  cases p with
  | idle => rfl
  | started => rfl
  | low j => unfold Phase.actions; dsimp only; split_ifs <;> rfl
  | high j => unfold Phase.actions; dsimp only; split_ifs <;> rfl

theorem Phase.length_actions (p : Phase) (sda : Level) : (p.actions sda).length ≤ 4 := by
  cases p with
  | idle => exact le_rfl
  | started => exact Nat.le_of_ble_eq_true rfl
  | low j => unfold Phase.actions; dsimp only; split_ifs <;> simp
  | high j => unfold Phase.actions; dsimp only; split_ifs <;> simp

/-- The end of the ACK's clock completes the byte (R135). -/
theorem SettledAt.completed (h : SettledAt v (.high 8) b.view) (cur : Levels) :
    Completed v ((.setPrev cur :: byteCompletion.take 7).foldl SlaveView.after b.view) := by
  have shreg : b.view.auto.shreg = v := BitVec.eq_of_getLsbD_eq fun k hk => h.bits (by simp) k hk (by simp [Phase.count])
  refine ⟨?_, rfl⟩
  change (⟨b.view.auto.shreg, b.view.auto.first⟩ : RxData) = ⟨v, true⟩
  rw [shreg, h.first (by simp)]

/-- The slave takes its sample: it comes to the master's phase. -/
theorem slave_samples (hb : Unstretched b) (ht : b.seq.todo = [.getSample]) (h : SettledAt v p b.view) (ho : Shows v q o)
    (hq : q.inByte ∨ q = .low 9) (hpq : q = p ∨ q = p.next) :
    ∃ t n', stepAgainst o b = .next t ∧ Unstretched t ∧ SlaveAt v n' q t ∧ (q = .low 9 → n' = 10) ∧
      (q = .high 8 → HoldsAck b → HoldsAck t) := by
  obtain ⟨t, hstep, hview, hout, hctrl, htodo⟩ := stepAgainst_getSample (o := o) ht
  have unstretched : Unstretched t := ⟨by rw [hctrl]; exact hb.b2b, by rw [hout]; exact hb.scl⟩
  have scl : (levelsOf b.out o).scl = q.sclLevel := by rw [levelsOf, hb.scl, ho.scl]; rfl
  have sda (hs : q.scl = .released) : (levelsOf b.out o).sda = q.sdaLevel v := by
    have : b.out.sda = q.slaveSda := by
      obtain rfl | rfl := hpq
      · exact h.sda
      · rw [Phase.slaveSda_next hs]; exact h.sda
    rw [levelsOf, this, ho.sda hs]
    rfl
  have auto : b.auto = b.view.auto := rfl
  obtain rfl | rfl := hpq
  · rw [auto, h.getByteNext_same scl sda] at htodo
    refine ⟨t, _, hstep, unstretched, .sampling (ms := [.setPrev (levelsOf b.out o), .delay]) htodo rfl (by simp) ?_,
      ?_, ?_⟩
    · rw [hview]; exact h.same scl sda
    · rintro rfl; exact absurd h.inByte (by simp [Phase.inByte])
    · refine fun _ hold => ⟨hout ▸ hold.sda, ?_⟩
      rw [State.sdaPending, htodo]; rfl
  obtain hq | hq := hq
  · rw [auto, h.getByteNext_next hq scl sda] at htodo
    refine ⟨t, _, hstep, unstretched, .sampling
      (ms := .setPrev (levelsOf b.out o) :: p.actions (levelsOf b.out o).sda ++ [.delay]) ?_ ?_ ?_ ?_, ?_, ?_⟩
    · rw [htodo]; simp [getLoop]
    · simpa [Micro.prompt] using p.prompt_actions _
    · have := p.length_actions (levelsOf b.out o).sda
      simp; omega
    · rw [hview, List.foldl_append]; exact h.next hq scl sda
    · intro he; rw [he] at hq; exact absurd hq (by simp [Phase.inByte])
    · intro he hold
      have hp : p = .low 8 := by cases p <;> cases he; rfl
      refine ⟨hout ▸ hold.sda, ?_⟩
      rw [State.sdaPending, htodo, hp]; rfl
  · have hp : p = .high 8 := by cases p <;> cases hq; rfl
    subst hp
    have falls : getByteNext b.auto (levelsOf b.out o) = byteCompletion := by
      refine getByteNext_of_completion ?_ h.st ⟨h.prevScl, scl⟩
      rw [scl]; rintro ⟨-, hh, -⟩; cases hh
    rw [falls] at htodo
    refine ⟨t, _, hstep, unstretched, .completing (ms := .setPrev (levelsOf b.out o) :: byteCompletion.take 7) htodo rfl
      (by simp [byteCompletion]) ?_, fun _ => rfl, fun he => by cases he⟩
    rw [hview]; exact h.completed _

/-- A turn of the slave, which stays at its phase or samples the master's. -/
theorem slave_turn (hb : Unstretched b) (hs : SlaveAt v n p b) (ho : Shows v q o) (hq : q.inByte ∨ q = .low 9)
    (hpq : q = p ∨ q = p.next) :
    ∃ t n' p', stepAgainst o b = .next t ∧ Unstretched t ∧ SlaveAt v n' p' t ∧
      (b.samplesNext = false ∧ p' = p ∨ p' = q) ∧ (q = .low 9 → n' = n - 1) ∧ (q = .high 8 → HoldsAck b → HoldsAck t) := by
  have prompt {m : Micro} {ms rest : List Micro} (ht : b.seq.todo = m :: ms ++ rest) (hm : (m :: ms).all Micro.prompt = true) :
      ∃ t, stepAgainst o b = .next t ∧ t.view = b.view.after m ∧ t.seq.todo = ms ++ rest ∧ Unstretched t ∧
        b.samplesNext = false ∧ ms.all Micro.prompt = true ∧ (HoldsAck b → HoldsAck t) := by
    obtain ⟨hm, hms⟩ := (Bool.and_eq_true _ _).mp hm
    obtain ⟨t, hstep, hview, htodo, ht'⟩ := stepAgainst_prompt (o := o) hb ht hm
    have hsm := Micro.prompt_unsampled hm
    exact ⟨t, hstep, hview, htodo, ht', by rw [State.samplesNext, ht]; exact hsm, hms,
      fun hold => hold.step ht hsm hview htodo⟩
  cases hs with
  | @sampling ms _ _ ht hm hl h =>
    cases ms with
    | nil =>
      obtain ⟨t, n', hstep, ht', hs', hn, hold⟩ := slave_samples hb ht h ho hq hpq
      exact ⟨t, n', q, hstep, ht', hs', .inr rfl, hn, hold⟩
    | cons m ms =>
      obtain ⟨t, hstep, hview, htodo, ht', hsm, hms, hold⟩ := prompt ht hm
      exact ⟨t, _, p, hstep, ht', .sampling htodo hms (by simp at hl; omega) (hview ▸ h), .inl ⟨hsm, rfl⟩,
        fun _ => by simp, fun _ => hold⟩
  | @completing ms _ ht hm hl h =>
    cases ms with
    | nil =>
      let u := b.against o
      have kept : runMicro .applyStretch (u.jump [.finish .ok]) = .next (u.jump [.finish .ok]) := by
        have hst : u.auto.st = .waitStart := h.st
        simp [runMicro, applyStretch, hst]
      refine ⟨_, 1, _, (stepAgainst_cons ht).trans kept, ⟨hb.b2b, hb.scl⟩, .finishing rfl ⟨h.rxData, h.st⟩,
        .inl ⟨?_, rfl⟩, fun _ => rfl, ?_⟩
      · rw [State.samplesNext, ht]; rfl
      · rintro rfl; obtain hpq | hpq := hpq <;> cases hpq
    | cons m ms =>
      obtain ⟨t, hstep, hview, htodo, ht', hsm, hms, hold⟩ := prompt ht hm
      exact ⟨t, _, _, hstep, ht', .completing htodo hms (by simp at hl; omega) (hview ▸ h), .inl ⟨hsm, rfl⟩,
        fun _ => by simp, fun _ => hold⟩
  | finishing ht h =>
    refine ⟨_, 0, _, stepAgainst_cons ht, ⟨hb.b2b, hb.scl⟩, .finished rfl rfl rfl ⟨h.rxData, h.st⟩,
      .inl ⟨?_, rfl⟩, fun _ => rfl, ?_⟩
    · rw [State.samplesNext, ht]; rfl
    · rintro rfl; obtain hpq | hpq := hpq <;> cases hpq
  | finished ht hb' hr h =>
    refine ⟨_, 0, _, stepAgainst_idle ht, ⟨hb.b2b, hb.scl⟩, .finished ht hb' hr ⟨h.rxData, h.st⟩,
      .inl ⟨?_, rfl⟩, fun _ => rfl, ?_⟩
    · rw [State.samplesNext, ht]
    · rintro rfl; obtain hpq | hpq := hpq <;> cases hpq

end SlaveTurn

/-! ### The master -/

/-- What is left of M_START or M_SEND_BYTE fits the phase, SDA being driven to `d` and the ACK at hand being `k`: n steps take
the bus to the goal. -/
inductive Follows (v : Byte) (goal : Phase) : Nat → Phase → Drive → Bool → List Micro → Prop
  | startEnd {d : Drive} {k : Bool} (hg : goal = .started) : Follows v goal 1 .started d k [.finish .ok]
  | sendEnd {d : Drive} (hg : goal = .low 9) : Follows v goal 1 (.low 9) d true [.finishAck]
  | delay {n : Nat} {q : Phase} {d : Drive} {k : Bool} {ms : List Micro} (h : Follows v goal n q d k ms) :
      Follows v goal (n + 1) q d k (.delay :: ms)
  | poll {n : Nat} {q : Phase} {d : Drive} {k : Bool} {ms : List Micro} (hq : q.scl = .released)
      (h : Follows v goal n q d k ms) : Follows v goal (n + 1) q d k (.pollScl 0 :: ms)
  | keepScl {n : Nat} {q : Phase} {d : Drive} {k : Bool} {ms : List Micro} (hq : q.scl = .released)
      (h : Follows v goal n q d k ms) : Follows v goal (n + 1) q d k (.setScl .released :: ms)
  | keepSda {n : Nat} {q : Phase} {d : Drive} {k : Bool} {ms : List Micro} (h : Follows v goal n q d k ms) :
      Follows v goal (n + 1) q d k (.setSda d :: ms)
  /-- The START. -/
  | start {n : Nat} {k : Bool} {ms : List Micro} (h : Follows v goal n .started .low k ms) :
      Follows v goal (n + 1) .idle .released k (.setSda .low :: ms)
  /-- SDA changes with SCL Low. -/
  | sda {n j : Nat} {d e : Drive} {k : Bool} {ms : List Micro} (h : Follows v goal n (.low j) e k ms) :
      Follows v goal (n + 1) (.low j) d k (.setSda e :: ms)
  | rise {n j : Nat} {d : Drive} {k : Bool} {ms : List Micro} (hd : d = Phase.masterSda v (.high j)) (hj : j ≤ 8)
      (h : Follows v goal n (.high j) d k ms) : Follows v goal (n + 1) (.low j) d k (.setScl .released :: ms)
  | fall {n : Nat} {q : Phase} {d : Drive} {k : Bool} {ms : List Micro} (hq : q.scl = .released) (hi : q ≠ .idle)
      (h : Follows v goal n q.next d k ms) : Follows v goal (n + 1) q d k (.setScl .low :: ms)
  | guard {n : Nat} {d : Drive} {k : Bool} {ms : List Micro}
      (h : Follows v goal n .started d k (.setScl .low :: .delay :: ms)) :
      Follows v goal (n + 1) .started d k (.clockLowGuard :: ms)
  | ack {n : Nat} {d : Drive} {k : Bool} {ms : List Micro} (h : Follows v goal n (.high 8) d true ms) :
      Follows v goal (n + 1) (.high 8) d k (.sampleAck :: ms)

theorem Follows.pos {v : Byte} {goal q : Phase} {n : Nat} {d : Drive} {k : Bool} {ms : List Micro}
    (h : Follows v goal n q d k ms) : 0 < n := by
  cases h <;> omega

theorem mStart_follows (v : Byte) : Follows v .started 8 .idle .released false (commandProgram .mStart) :=
  .keepScl rfl (.poll rfl (.delay (.keepSda (.delay (.start (.delay (.startEnd rfl)))))))

/-- One data bit of MSend (R116). -/
theorem sendBit_follows {v : Byte} {goal : Phase} {n j : Nat} {d : Drive} {k : Bool} {ms : List Micro} (hj : j < 8)
    (h : Follows v goal n (.low (j + 1)) (bitDrive v (7 - j)) k ms) :
    Follows v goal (n + 6) (.low j) d k (sendBitProc v (7 - j) ++ ms) := by
  have hd : bitDrive v (7 - j) = Phase.masterSda v (.high j) := by simp [Phase.masterSda, hj]
  exact .sda (.delay (.rise hd hj.le (.poll rfl (.delay (.fall rfl (by simp) h)))))

theorem mSendByte_follows (v : Byte) : Follows v (.low 9) 59 .started .low false (commandProgram (.mSendByte v)) := by
  have ack (d : Drive) : Follows v (.low 9) 8 (.low 8) d false (ackBitProc ++ [.finishAck]) :=
    .sda (.delay (.rise rfl le_rfl (.poll rfl (.ack (.delay (.fall rfl (by simp) (.sendEnd rfl)))))))
  have bits (d : Drive) : Follows v (.low 9) 56 (.low 0) d false
      (bitsDown.flatMap (sendBitProc v) ++ (ackBitProc ++ [.finishAck])) :=
    sendBit_follows (j := 0) (by decide) (sendBit_follows (j := 1) (by decide) (sendBit_follows (j := 2) (by decide)
      (sendBit_follows (j := 3) (by decide) (sendBit_follows (j := 4) (by decide) (sendBit_follows (j := 5) (by decide)
        (sendBit_follows (j := 6) (by decide) (sendBit_follows (j := 7) (by decide) (ack _))))))))
  exact .guard (.fall rfl (by simp) (.delay (bits .low)))

/-- The master's command, n steps before its end, on a bus in the phase. -/
inductive MasterAt (v : Byte) (goal : Phase) : Nat → Phase → State → Prop
  | running {n : Nat} {q : Phase} {a : State} (h : Follows v goal n q a.out.sda a.seq.ack a.seq.todo) : MasterAt v goal n q a
  | finished {a : State} (ht : a.seq.todo = []) (hb : a.status.busy = false) (hr : a.status.result = .ok) :
      MasterAt v goal 0 goal a

theorem Phase.next_scl {q : Phase} (hq : q.scl = .released) (hi : q ≠ .idle) : q.next.scl = .low := by
  cases q with
  | idle => exact absurd rfl hi
  | started => rfl
  | low j => cases hq
  | high j => rfl

/-- The phases of START and a byte, up to the end of the ACK's clock. -/
def Phase.listed (q : Phase) : Prop := q.inByte ∨ q = .low 9

theorem Phase.listed.inByte {q : Phase} (h : q.listed) (hs : q.scl = .released) : q.inByte := by
  rcases h with h | rfl
  · exact h
  · cases hs

theorem Phase.listed.next {q : Phase} (h : q.listed) (hs : q.scl = .released) : q.next.listed := by
  have := h.inByte hs
  cases q with
  | idle => exact .inl trivial
  | started => exact .inl (Nat.zero_le 8)
  | low j => cases hs
  | high j =>
    rcases Nat.lt_or_ge j 8 with hj | hj
    · exact .inl hj
    · obtain rfl : j = 8 := Nat.le_antisymm this hj
      exact .inr rfl

/-- The master is on a phase of the transfer. -/
structure OnBus (v : Byte) (goal : Phase) (n : Nat) (q : Phase) (a : State) : Prop where
  position : MasterAt v goal n q a
  shows : Shows v q a.out
  listed : q.listed
  mode : a.ctrl.mode = .master

/-- What a turn of the master does to the bus: the phase stays, or the next one comes with a change of the outputs. -/
structure MasterTurn (q r : Phase) (o o' : Drives) : Prop where
  phase : r = q ∨ (r = q.next ∧ o' ≠ o)
  rises : r = .high 8 → q = .high 8 ∨ (q = .low 8 ∧ o.scl = .low ∧ o'.scl = .released)

theorem MasterTurn.same (q : Phase) (o o' : Drives) : MasterTurn q q o o' := ⟨.inl rfl, fun h => .inl h⟩

theorem master_turn {v : Byte} {goal q : Phase} {n : Nat} {a : State} {o : Drives} (h : OnBus v goal n q a)
    (hscl : o.scl = .released) (hack : q = .high 8 → o.sda = .low) :
    ∃ t r, stepAgainst o a = .next t ∧ OnBus v goal (n - 1) r t ∧ MasterTurn q r a.out t.out := by
  obtain ⟨hpos, hshows, hlisted, hmode⟩ := h
  cases hpos with
  | finished ht hb hr =>
    exact ⟨_, _, stepAgainst_idle ht, ⟨.finished ht hb hr, hshows, hlisted, hmode⟩, .same _ _ _⟩
  | running hf =>
    generalize htodo : a.seq.todo = todo at hf
    generalize hsda : a.out.sda = d at hf
    generalize hk : a.seq.ack = k at hf
    have step {m : Micro} {rest : List Micro} (ht : a.seq.todo = m :: rest) := stepAgainst_cons (peer := o) ht
    cases hf with
    | startEnd hg =>
      subst hg
      exact ⟨_, _, step htodo, ⟨.finished rfl rfl rfl, hshows, hlisted, hmode⟩, .same _ _ _⟩
    | sendEnd hg =>
      subst hg
      exact ⟨_, _, step htodo, ⟨.finished rfl rfl (if_pos hk), hshows, hlisted, hmode⟩, .same _ _ _⟩
    | delay h =>
      subst hsda hk
      exact ⟨_, _, step htodo, ⟨.running h, hshows, hlisted, hmode⟩, .same _ _ _⟩
    | @poll _ _ _ _ ms hq h =>
      subst hsda hk
      have high : lineLevel a.out.scl o.scl = .high := by rw [hshows.scl, hq, hscl]; rfl
      let u := (a.against o).jump ms
      have polled : runMicro (.pollScl 0) u = .next u.drawn := by
        change Host.Outcome.next (pollNext 0 (lineLevel a.out.scl o.scl) u.drawn) = _
        rw [high]
        rfl
      exact ⟨_, _, (step htodo).trans polled, ⟨.running h, hshows, hlisted, hmode⟩, .same _ _ _⟩
    | keepScl hq h =>
      subst hsda hk
      exact ⟨_, _, step htodo, ⟨.running h, ⟨hq.symm, hshows.sda⟩, hlisted, hmode⟩, .same _ _ _⟩
    | keepSda h =>
      subst hsda hk
      exact ⟨_, _, step htodo, ⟨.running h, ⟨hshows.scl, hshows.sda⟩, hlisted, hmode⟩, .same _ _ _⟩
    | start h =>
      subst hk
      refine ⟨_, .started, step htodo, ⟨.running h, ⟨hshows.scl, fun _ => rfl⟩, .inl trivial, hmode⟩,
        .inr ⟨rfl, fun he => ?_⟩, nofun⟩
      have : Drive.low = a.out.sda := congrArg Drives.sda he
      rw [hsda] at this
      cases this
    | sda h =>
      subst hk
      exact ⟨_, _, step htodo, ⟨.running h, ⟨hshows.scl, nofun⟩, hlisted, hmode⟩, .same _ _ _⟩
    | @rise _ j _ _ _ hd hj h =>
      subst hsda hk
      refine ⟨_, .high j, step htodo, ⟨.running h, ⟨rfl, fun _ => hd⟩, .inl hj, hmode⟩,
        .inr ⟨rfl, fun he => ?_⟩, fun hr => ?_⟩
      · have : Drive.released = a.out.scl := congrArg Drives.scl he
        rw [hshows.scl] at this
        cases this
      · cases hr
        exact .inr ⟨rfl, hshows.scl, rfl⟩
    | fall hq hi h =>
      subst hsda hk
      have low := Phase.next_scl hq hi
      refine ⟨_, q.next, step htodo, ⟨.running h, ⟨low.symm, fun hs => ?_⟩, hlisted.next hq, hmode⟩,
        .inr ⟨rfl, fun he => ?_⟩, fun hr => ?_⟩
      · rw [low] at hs; cases hs
      · have : Drive.low = a.out.scl := congrArg Drives.scl he
        rw [hshows.scl, hq] at this
        cases this
      · rw [hr] at low; cases low
    | @guard _ _ _ ms h =>
      subst hsda hk
      let u := (a.against o).jump ms
      have pushed : runMicro .clockLowGuard u = .next (u.push [.setScl .low, .delay]) := congrArg _ (if_pos hshows.scl)
      exact ⟨_, _, (step htodo).trans pushed, ⟨.running h, hshows, hlisted, hmode⟩, .same _ _ _⟩
    | @ack _ _ _ ms h =>
      subst hsda
      let u := (a.against o).jump ms
      have acked : runMicro .sampleAck u = .next (u.drawn.setAck true) := by
        change Host.Outcome.next (u.drawn.setAck (lineLevel a.out.sda o.sda == .low)) = _
        rw [hack rfl]
        cases a.out.sda <;> rfl
      exact ⟨_, _, (step htodo).trans acked, ⟨.running h, hshows, hlisted, hmode⟩, .same _ _ _⟩

/-! ### Both on one bus -/

/-- Prompt steps that do not move SDA leave it. -/
theorem foldl_after_sda {ms : List Micro} {x : SlaveView} (h : ms.any (Micro.movesSda x.sda) = false) :
    (ms.foldl SlaveView.after x).sda = x.sda := by
  induction ms generalizing x with
  | nil => rfl
  | cons m ms ih =>
    rw [List.any_cons, Bool.or_eq_false_iff] at h
    have kept : (x.after m).sda = x.sda := by
      cases m
      case setSda w => simpa [Micro.movesSda, SlaveView.after] using h.1
      all_goals rfl
    rw [List.foldl_cons, ih (by rw [kept]; exact h.2), kept]

/-- A slave that has sampled the Low of the ACK's clock, and moves SDA no more before its next sample, holds it Low. -/
theorem SlaveAt.holdsAck {v : Byte} {m : Nat} {b : State} (h : SlaveAt v m (.low 8) b) (hp : b.sdaPending = false) :
    HoldsAck b := by
  cases h with
  | @sampling ms _ _ ht hm hl h =>
    refine ⟨?_, hp⟩
    have unmoved : ms.any (Micro.movesSda b.view.sda) = false := by
      have awake : ∀ m ∈ ms, (!m.samples) = true := fun m hmem => by
        rw [Micro.prompt_unsampled (List.all_eq_true.1 hm m hmem), Bool.not_false]
      rw [State.sdaPending, ht, List.takeWhile_append_of_pos awake, List.any_append, Bool.or_eq_false_iff] at hp
      exact hp.1
    exact (foldl_after_sda unmoved).symm.trans h.sda

theorem SlaveAt.left_le {v : Byte} {m : Nat} {p : Phase} {b : State} (h : SlaveAt v m p b) : m ≤ 17 := by
  cases h <;> omega

/-- A master and a slave on one bus under a fair schedule: the slave has sampled the master's phase, or, where it has not
sampled since the last change, the one before it; and through the ACK's clock it holds SDA Low. -/
structure Together (v : Byte) (goal : Phase) (n : Nat) (k : Bool) (q : Phase) (a b : State) : Prop where
  master : OnBus v goal n q a
  unstretched : Unstretched b
  slave : ∃ m p, SlaveAt v m p b ∧ (q = p ∨ k = false ∧ q = p.next)
  acks : q = .high 8 → HoldsAck b

section Together
variable {v : Byte} {goal q : Phase} {n : Nat} {k : Bool} {a b : State}

theorem Together.slaveTurn (h : Together v goal n k q a b) :
    ∃ t, stepAgainst a.out b = .next t ∧ Together v goal n (k || b.samplesNext) q a t := by
  obtain ⟨m, p, hs, hpq⟩ := h.slave
  obtain ⟨t, m', p', hstep, ht, hs', hp', -, hold⟩ :=
    slave_turn h.unstretched hs h.master.shows h.master.listed (hpq.imp_right And.right)
  refine ⟨t, hstep, h.master, ht, ⟨m', p', hs', ?_⟩, fun hq => hold hq (h.acks hq)⟩
  rcases hp' with ⟨hsamples, rfl⟩ | rfl
  · rw [hsamples, Bool.or_false]
    exact hpq
  · exact .inl rfl

theorem Together.masterTurn (h : Together v goal n k q a b) : ∃ t, stepAgainst b.out a = .next t ∧
    ((t.out ≠ a.out → k = true) → (a.out.scl = .low → t.out.scl = .released → b.sdaPending = false) →
      ∃ r, Together v goal (n - 1) (decide (t.out = a.out) && k) r t b) := by
  obtain ⟨t, r, hstep, hmaster, hturn⟩ := master_turn h.master h.unstretched.scl fun hq => (h.acks hq).sda
  obtain ⟨m, p, hs, hpq⟩ := h.slave
  have atMaster (hk : k = true) : q = p := hpq.resolve_right (by simp [hk])
  refine ⟨t, hstep, fun hsampled hpending => ⟨r, hmaster, h.unstretched, ⟨m, p, hs, ?_⟩, fun hr => ?_⟩⟩
  · rcases hturn.phase with rfl | ⟨rfl, hne⟩
    · by_cases he : t.out = a.out
      · simpa [he] using hpq
      · exact .inl (atMaster (hsampled he))
    · exact .inr ⟨by simp [hne], by rw [atMaster (hsampled hne)]⟩
  · rcases hturn.rises hr with hq | ⟨rfl, hlow, hhigh⟩
    · exact h.acks hq
    · have hne : t.out ≠ a.out := fun he => by rw [he, hlow] at hhigh; cases hhigh
      rw [← atMaster (hsampled hne)] at hs
      exact hs.holdsAck (hpending hlow hhigh)

/-- Every turn of a fair schedule keeps them together, and the master's turns bring its command to its end. -/
theorem Together.turns {ts : List JoinedTurn} (us : List JoinedTurn) (hts : ∀ t ∈ ts, t = .master ∨ t = .slave)
    (h : Together v goal n k q a b) (hf : fairSchedule k (ts ++ us) (a, b) = true) :
    ∃ a' b' l r, joinedRun ts (a, b) = .next (a', b') ∧ fairSchedule l us (a', b') = true ∧
      Together v goal (n - ts.count .master) l r a' b' := by
  induction ts generalizing n k q a b with
  | nil => exact ⟨a, b, k, q, rfl, hf, h⟩
  | cons t ts ih =>
    have later : ∀ t ∈ ts, t = .master ∨ t = .slave := fun t ht => hts t (List.mem_cons_of_mem _ ht)
    obtain rfl | rfl := hts t List.mem_cons_self
    · obtain ⟨a₁, hstep, hnext⟩ := h.masterTurn
      obtain ⟨hsampled, hpending, hf⟩ := (fairSchedule_master hstep k (ts ++ us)).1 hf
      obtain ⟨r, h₁⟩ := hnext hsampled hpending
      obtain ⟨a', b', l, r', hrun, hf', h'⟩ := ih later h₁ hf
      refine ⟨a', b', l, r', ?_, hf', ?_⟩
      · rw [joinedRun_cons (by rw [joinedStep_master, hstep]; rfl)]
        exact hrun
      · rwa [List.count_cons_self, Nat.add_comm, ← Nat.sub_sub]
    · obtain ⟨b₁, hstep, h₁⟩ := h.slaveTurn
      rw [List.cons_append, fairSchedule_slave hstep] at hf
      obtain ⟨a', b', l, r', hrun, hf', h'⟩ := ih later h₁ hf
      refine ⟨a', b', l, r', ?_, hf', ?_⟩
      · rw [joinedRun_cons (by rw [joinedStep_slave, hstep]; rfl)]
        exact hrun
      · rwa [List.count_cons_of_ne (by simp)]

/-- With no step left the master has finished, at its goal. -/
theorem Together.ended (h : Together v goal 0 k q a b) :
    q = goal ∧ a.seq.todo = [] ∧ a.status.busy = false ∧ a.status.result = .ok := by
  have position := h.master.position
  generalize hn : 0 = n at position
  cases position with
  | running hf => exact absurd hf.pos (by omega)
  | finished ht hb hr => exact ⟨rfl, ht, hb, hr⟩

/-- With the master's transfer over, the slave's turns bring S_GET_BYTE to its end. -/
theorem slave_finishes {m j : Nat} {p : Phase} (hb : Unstretched b) (hs : SlaveAt v m p b) (ho : Shows v (.low 9) a.out)
    (hp : .low 9 = p ∨ .low 9 = p.next) (hm : m ≤ j) :
    ∃ t, joinedRun (List.replicate j .slave) (a, b) = .next (a, t) ∧ t.status.busy = false ∧ t.status.result = .ok ∧
      Completed v t.view := by
  induction j generalizing b m p with
  | zero =>
    obtain rfl : m = 0 := by omega
    generalize hn : 0 = m at hs
    cases hs with
    | sampling => omega
    | completing => omega
    | finishing => omega
    | finished ht hb hr hc => exact ⟨b, rfl, hb, hr, hc⟩
  | succ j ih =>
    obtain ⟨t, m', p', hstep, ht, hs', hp', hm', -⟩ := slave_turn hb hs ho (.inr rfl) hp
    rw [List.replicate_succ, joinedRun_cons (q := (a, t)) (by rw [joinedStep_slave, hstep]; rfl)]
    refine ih ht hs' ?_ (by have := hm' rfl; omega)
    rcases hp' with ⟨-, rfl⟩ | rfl
    · exact hp
    · exact .inl rfl

end Together

/-! ### The commands -/

/-- An idle master accepts a command that fits the phase, and stands at its first position. -/
theorem acceptJoined_onBus {i : Instr} {v : Byte} {goal q : Phase} {n : Nat} {a : State} (hb : a.status.busy = false)
    (hm : a.ctrl.mode = .master) (hd : decode (encode i) = .ok i) (hi : neededMode i = some .master) (ho : Shows v q a.out)
    (hq : q.listed) (hf : Follows v goal n q a.out.sda false (commandProgram i)) :
    ∃ a', acceptJoined i a = .next a' ∧ a'.out = a.out ∧ OnBus v goal n q a' := by
  refine ⟨(((a.setQuiet 0).latchCommand (encode i)).start (commandProgram i)).setQuiet 0, ?_, rfl,
    ⟨.running hf, ho, hq, hm⟩⟩
  rw [acceptJoined_idle hb hd, exec_eq_runCommand, hi]
  exact runCommand_allowed (beq_iff_eq.2 hm)

theorem decode_encode_mSendByte (v : Byte) : decode (encode (.mSendByte v)) = .ok (.mSendByte v) := by
  rw [decode, rsvField_encode, opField_encode, immField_encode]
  rfl

/-- A command that is accepted changes no line: the schedule goes on. -/
theorem fairSchedule_command {i : Instr} {a a' b : State} (h : acceptJoined i a = .next a') (ho : a'.out = a.out) (k : Bool)
    (ts : List JoinedTurn) : fairSchedule k (.command i :: ts) (a, b) = fairSchedule k ts (a', b) := by
  have unmoved : ¬ (a.out.scl = .low ∧ a.out.scl = .released) := by rintro ⟨hl, hr⟩; rw [hl] at hr; cases hr
  simp only [fairSchedule, joinedStep_command, h, besideSlave_next, ho, ne_eq, not_true_eq_false, decide_false, unmoved,
    Bool.not_false, Bool.true_or, Bool.true_and, reduceCtorEq, Bool.false_and, Bool.or_false]

/-- The slave at the first position of S_GET_BYTE, on an idle bus. -/
theorem sGetByte_start {v : Byte} {b : State} (hm : b.ctrl.mode = .slave) (hb : b.ctrl.b2b = false)
    (ho : b.out = ⟨.released, .released⟩) (hst : b.auto.st = .waitStart) (hprev : b.auto.prev = ⟨.high, .high⟩) :
    ∃ b1, exec .sGetByte (b.setQuiet 0) = .next b1 ∧ Unstretched b1 ∧ SlaveAt v 13 .idle b1 := by
  refine ⟨_, exec_sGetByte (b.setQuiet 0) hm, ⟨hb, congrArg Drives.scl ho⟩,
    .sampling (ms := [.releaseStretch, .delay]) rfl rfl (by simp) ?_⟩
  exact ⟨trivial, congrArg Drives.sda ho, hst, congrArg Levels.scl hprev, fun _ => congrArg Levels.sda hprev,
    fun h => absurd rfl h, fun h => absurd rfl h, fun h => absurd rfl h⟩

/-- Settles O60: a fair schedule keeps the slave at the master's phase or one behind, through M_START and through
M_SEND_BYTE; then the slave's own turns end S_GET_BYTE. -/
theorem joinedRoundTrip : Obligations.JoinedRoundTrip := by
  unfold Obligations.JoinedRoundTrip
  intro a b v ha hma hmb hb2b hao hbo hst hprev
  obtain ⟨b1, hexec, hb1, hs1⟩ := sGetByte_start (v := v) hmb hb2b hbo hst hprev
  refine ⟨b1, hexec, ?_⟩
  intro starting sending hturns h8 h59 turns hf
  rw [List.forall_mem_append] at hturns
  obtain ⟨hstarting, hsending⟩ := hturns
  -- M_START
  obtain ⟨a1, haccept, hout, hbus⟩ := acceptJoined_onBus (i := .mStart) (v := v) (q := .idle) ha hma rfl rfl
    ⟨by rw [hao]; rfl, fun _ => by rw [hao]; rfl⟩ (.inl trivial) (by rw [hao]; exact mStart_follows v)
  rw [show turns = .command .mStart :: (starting ++ .command (.mSendByte v) :: sending) from rfl,
    fairSchedule_command haccept hout] at hf
  obtain ⟨a2, b2, k2, q2, hrun2, hf2, h2⟩ := Together.turns (.command (.mSendByte v) :: sending) hstarting
    ⟨hbus, hb1, ⟨13, .idle, hs1, .inl rfl⟩, nofun⟩ hf
  rw [Nat.sub_eq_zero_of_le h8] at h2
  obtain ⟨rfl, -, hidle2, -⟩ := h2.ended
  -- M_SEND_BYTE
  obtain ⟨a3, haccept3, hout3, hbus3⟩ := acceptJoined_onBus (i := .mSendByte v) hidle2 h2.master.mode
    (decode_encode_mSendByte v) rfl h2.master.shows h2.master.listed
    (by rw [h2.master.shows.sda rfl]; exact mSendByte_follows v)
  rw [fairSchedule_command haccept3 hout3] at hf2
  obtain ⟨a4, b4, k4, q4, hrun4, -, h4⟩ := Together.turns [] hsending ⟨hbus3, h2.unstretched, h2.slave, nofun⟩
    (by rwa [List.append_nil])
  rw [Nat.sub_eq_zero_of_le h59] at h4
  obtain ⟨rfl, -, hidle4, hok4⟩ := h4.ended
  -- the end of S_GET_BYTE
  obtain ⟨m, p, hs4, hp4⟩ := h4.slave
  obtain ⟨b5, hrun5, hidle5, hok5, hc⟩ := slave_finishes (j := 20) h4.unstretched hs4 h4.master.shows
    (hp4.imp_right And.right) (hs4.left_le.trans (by decide))
  refine ⟨(a4, b5), ?_, hidle4, hok4, hidle5, hok5, hc.rxData, hc.st⟩
  rw [show turns ++ List.replicate 20 .slave = .command .mStart :: (starting ++ (.command (.mSendByte v) :: (sending ++
    List.replicate 20 .slave))) by simp [turns]]
  rw [joinedRun_cons (by rw [joinedStep_command, haccept]; rfl), joinedRun_append hrun2,
    joinedRun_cons (by rw [joinedStep_command, haccept3]; rfl), joinedRun_append hrun4, hrun5]

end Sys2Proof.Machine
end

section
/-! SUPPORT and CERTIFICATE. Accesses of the host that the block ignores, stores or refuses, and a WAIT (spec/20_memory.md
R61, R63, R66, R67; spec/30_encoding.md R103). -/

namespace Sys2Proof.Machine

/-! ### The window map -/

theorem windowEntry_eq_cmd {off : Offset} (h : windowEntry off = .cmd) : off = cmdOffset := by
  unfold windowEntry at h
  split at h
  case h_4 => rfl
  case h_12 => split_ifs at h
  all_goals cases h

/-- The entries that no host write changes (R62, R67): the read-only registers and the reserved offsets. -/
def readOnlyEntries : List WindowEntry :=
  [.status, .rxData, .chksum, .frameLen, .automaton, .lines, .edidInfo, .reserved]

/-- Beyond CMD the window holds buffer bytes and read-only entries alone (R62). -/
theorem windowEntry_readOnly {off : Offset} (h : 0x010 ≤ off.toNat) (hb : bufferOffset off.toNat = false) :
    windowEntry off ∈ readOnlyEntries := by
  unfold windowEntry
  split
  case h_1 | h_2 | h_3 | h_4 => exact absurd h (by decide)
  case h_12 => simp [hb, readOnlyEntries]
  all_goals decide

theorem idleWrite_readOnly {off : Offset} (h : windowEntry off ∈ readOnlyEntries) (v : Word) (s : State) :
    idleWrite off v s = s := by
  unfold idleWrite
  split <;> rename_i he
  case h_1 | h_2 | h_3 | h_12 => rw [he] at h; simp [readOnlyEntries] at h
  all_goals rfl

/-- A buffer byte has a word of its own (R62, R63). -/
theorem Buffer.offset_aligned {b : Buffer} {i : Nat} (h : i < b.size) : (BitVec.ofNat 12 (b.addr i)).toNat % 4 = 0 := by
  obtain ⟨-, hb⟩ := windowEntry_eq_bufferByte (windowEntry_buffer h)
  exact ((bufferOffset_iff _).1 hb).1

/-! ### Admitted accesses and others -/

theorem accessAdmitted_aligned {off : Offset} (h : off.toNat % 4 = 0) : accessAdmitted off 4 = true := by
  simp [accessAdmitted, h]

theorem accessAdmitted_eq_false {off : Offset} {size : Nat} (h : off.toNat % 4 ≠ 0 ∨ size ≠ 4) :
    accessAdmitted off size = false := by
  simpa [accessAdmitted, imp_iff_not_or] using h

/-- The step of an admitted write while a command runs (R66, R67). -/
theorem step_busyWrite {s : State} {off : Offset} {v : Word} {q : Nat} {rest : List HostTurn} (hb : s.status.busy = true)
    (h : s.hostDue (.write off 4 v) q rest) (ha : off.toNat % 4 = 0) :
    step s = .next { s.afterHost q rest with
      status := { s.status with dropped := s.status.dropped || windowEntry off == .cmd } } := by
  have hb' : (s.hostTaken rest).status.busy = true := hb
  rw [step_of_hostDue h]
  simp only [hostTurn, accessAdmitted_aligned ha, hostWrite, hb', busyWrite_spec, State.afterAct, if_true]
  rw [hb]
  rfl

/-- A read of an unmarked byte is the model fault (R45). -/
theorem step_read_unmarked {s : State} {off : Offset} {a q : Nat} {rest : List HostTurn} (h : s.hostDue (.read off 4) q rest)
    (ha : off.toNat % 4 = 0) (he : windowEntry off = .bufferByte a) (hm : Memory.read s.mem a = none) :
    step s = .fault (.hostReadUnmarked a) := by
  rw [step_of_hostDue h]
  simp only [hostTurn, accessAdmitted_aligned ha, hostRead, he, State.hostTaken_mem, hm, if_true]

/-! ### The statements -/

/-- Settles O7. -/
theorem commandWriteWhileBusyIsDropped : Obligations.CommandWriteWhileBusyIsDropped := by
  intro s w q rest hb h
  have hc : (windowEntry cmdOffset == .cmd) = true := rfl
  rw [step_busyWrite hb h rfl, hc, Bool.or_true]

/-- Settles O8: a running command leaves DROPPED alone for an offset other than CMD's, and an idle block has only read-only
entries in the ranges that the statement lists. -/
theorem ignoredWrites : Obligations.IgnoredWrites := by
  intro s off v q rest h ha hc
  refine ⟨fun hb => ?_, fun hi hr => ?_⟩
  · have hne : (windowEntry off == .cmd) = false := by simpa using fun he => hc (windowEntry_eq_cmd he)
    rw [step_busyWrite hb h ha, hne, Bool.or_false]
    rfl
  · have hbuf : bufferOffset off.toNat = false := by
      rw [Bool.eq_false_iff, Ne, bufferOffset_iff]
      omega
    have hro := windowEntry_readOnly (by omega) hbuf
    have hcmd : windowEntry off ≠ .cmd := fun he => hc (windowEntry_eq_cmd he)
    rw [step_idleWrite hi h ha hcmd, idleWrite_readOnly hro]
    rfl

/-- Settles O9: a marked byte is its entry's word, an unmarked one the fault, and a write is one store. -/
theorem bufferWords : Obligations.BufferWords := by
  intro s b i q rest hi
  have he := windowEntry_buffer hi
  have ha := Buffer.offset_aligned hi
  refine ⟨fun v h hv => ?_, fun h hn => step_read_unmarked h ha he hn, fun v hidle h => ?_⟩
  · have hl : BitVec.ofNat 12 (b.addr i) ≠ 0x024 := fun h24 => by rw [h24] at he; cases he
    have marked : ∀ a, windowEntry (BitVec.ofNat 12 (b.addr i)) = .bufferByte a → Memory.read s.mem a ≠ none := by
      intro a hea
      cases he.symm.trans hea
      simp [hv]
    have word : entryWord (.bufferByte (b.addr i)) (s.hostTaken rest) = v.setWidth 32 := by
      simp [entryWord, hv, fieldAt]
    rw [step_read_word h ha hl marked, he, word]
    rfl
  · have low : v.extractLsb' 0 8 = v.setWidth 8 := (BitVec.setWidth_eq_extractLsb' (by decide)).symm
    refine ⟨Memory.write s.mem (b.addr i) (v.setWidth 8), ?_, fun a => ?_⟩
    · rw [step_idleWrite hidle h ha (by rw [he]; exact nofun), idleWrite, he]
      rfl
    · rw [low]
      exact Memory.read_write s.mem a _ _

/-- Settles O11. -/
theorem otherAccessesAreRefused : Obligations.OtherAccessesAreRefused := by
  intro s off size v q rest h
  have hadm := accessAdmitted_eq_false h
  refine ⟨fun hd => ?_, fun hd => ?_⟩
  · rw [step_of_hostDue hd]
    simp only [hostTurn, hadm, Bool.false_eq_true, if_false]
  · rw [step_of_hostDue hd]
    simp only [hostTurn, hadm, Bool.false_eq_true, if_false]

/-- Settles O16: the next poll comes after `max 1 q` controller steps. -/
theorem waitPollsUntilIdle : Obligations.WaitPollsUntilIdle := by
  intro s q rest h
  rw [step_of_hostDue h]
  constructor
  · intro hi
    simp only [hostTurn, show s.status.busy = false from hi, Bool.false_eq_true, if_false]
    rfl
  · intro hb
    refine ⟨max 1 q, le_max_left 1 q, ?_⟩
    simp only [hostTurn, show s.status.busy = true from Bool.eq_true_of_not_eq_false hb, if_true]
    rfl

end Sys2Proof.Machine
end

section
/-! SUPPORT and CERTIFICATE. What the block drives in the middle of a bit it sends: M_SEND_BYTE (spec/40_engine_master.md
R110, R113, R116) and S_SEND_TO_MASTER (spec/41_engine_slave.md R138, R142, R143). -/

namespace Sys2Proof.Machine

/-! ### Commands interrupted by the host's next act -/

/-- One more step, which takes no sample, after others. -/
theorem Runs.snoc {n : Nat} {s t u : State} {m : Micro} {rest : List Micro} (h : Runs n s t) (ht : t.seq.todo = m :: rest)
    (hd : m.samples = false) (hm : runMicro m (t.jump rest) = .next u) : Runs (n + 1) s u :=
  h.trans (.unsampled ht hd hm rfl)

/-- A command in its mode, up to the host's next act. -/
theorem exec_of_runs_due {i : Instr} {s t : State} {n : Nat} (hm : modeAllows (neededMode i) s = true)
    (hr : Runs n (s.start (commandProgram i)) t) (hq : s.env.quiet = n) : exec i s = .next (t.setQuiet 0) := by
  rw [exec_eq_runCommand, runCommand_allowed hm, runController_of_runs hr hq.ge, hq, Nat.sub_self, runController_zero]

/-- Bit j on the wire, with those before it and those after it (R70). -/
theorem bitsDown_split {j : Nat} (hj : j < 8) : bitsDown = bitsDown.take j ++ (7 - j) :: bitsDown.drop (j + 1) := by
  interval_cases j <;> rfl

theorem bitsDown_take_length {j : Nat} (hj : j < 8) : (bitsDown.take j).length = j := by
  simp [bitsDown]; omega

/-! ### M_SEND_BYTE -/

section Master
variable (s : State) (rest : List Micro) (a : Byte) (k : Bool) (ds : List Drives)

/-- Along the six steps of a data bit SDA holds the bit from the first on, and SCL is Released from the third to the fifth
(R116). -/
theorem sendBit_out (b : Byte) (i m : Nat) (x : Drive) (d : Drives) (h : d.scl = .released) (h1 : 1 ≤ m) (h6 : m ≤ 6) :
    ∃ t, Runs m (s.busPoint ⟨x, .low⟩ (d :: ds) ⟨sendBitProc b i ++ rest, a, k⟩) t ∧ t.status = s.status ∧
      t.out = ⟨bitDrive b i, if m ∈ [3, 4, 5] then .released else .low⟩ := by
  have one : Runs 1 (s.busPoint ⟨x, .low⟩ (d :: ds) ⟨sendBitProc b i ++ rest, a, k⟩)
      (s.busPoint ⟨bitDrive b i, .low⟩ (d :: ds) ⟨.delay :: (releaseSclAndWait ++ ([.delay, .setScl .low] ++ rest)), a, k⟩) :=
    .unsampled rfl rfl rfl rfl
  have two := one.snoc rfl rfl rfl
  have four := two.trans (releaseSclAndWait_runs s ([.delay, .setScl .low] ++ rest) a k ds ⟨bitDrive b i, .low⟩ d h)
  have five := four.snoc rfl rfl rfl
  interval_cases m
  · exact ⟨_, one, rfl, rfl⟩
  · exact ⟨_, two, rfl, rfl⟩
  · exact ⟨_, two.snoc rfl rfl rfl, rfl, rfl⟩
  · exact ⟨_, four, rfl, rfl⟩
  · exact ⟨_, five, rfl, rfl⟩
  · exact ⟨_, five.snoc rfl rfl rfl, rfl, rfl⟩

end Master

/-- The program of M_SEND_BYTE around bit j. -/
theorem commandProgram_mSendByte (b : Byte) {j : Nat} (hj : j < 8) : ∃ rest, commandProgram (.mSendByte b) =
    .clockLowGuard :: ((bitsDown.take j).flatMap (sendBitProc b) ++ (sendBitProc b (7 - j) ++ rest)) := by
  refine ⟨(bitsDown.drop (j + 1)).flatMap (sendBitProc b) ++ (ackBitProc ++ [.finishAck]), ?_⟩
  have bits := congrArg (List.flatMap (sendBitProc b)) (bitsDown_split hj)
  rw [List.flatMap_append, List.flatMap_cons] at bits
  show mSendProc b ++ [.finishAck] = _
  rw [mSendProc, bits]
  simp only [List.append_assoc, List.cons_append, List.nil_append]

/-- M_SEND_BYTE m steps into bit j: the guard, the bits before, and the steps of the bit itself. -/
theorem mSendByte_out {s : State} {j m : Nat} {clocks rest : List Drives} (b : Byte) (hm : s.ctrl.mode = .master)
    (hj : j < 8) (hl : clocks.length = j + 1) (hc : ∀ d ∈ clocks, d.scl = .released) (hp : s.env.peer = clocks ++ rest)
    (h1 : 1 ≤ m) (h6 : m ≤ 6) (hq : s.env.quiet = 1 + guardSteps s.out + (6 * j + m)) :
    ∃ t, exec (.mSendByte b) s = .next t ∧ t.status.busy = true ∧
      t.out = ⟨bitDrive b (7 - j), if m ∈ [3, 4, 5] then .released else .low⟩ := by
  obtain ⟨before, d, rfl⟩ := (List.eq_nil_or_concat' clocks).resolve_left (by rintro rfl; cases hl)
  have hbefore : before.length = (bitsDown.take j).length := by rw [bitsDown_take_length hj]; simpa using hl
  obtain ⟨after, program⟩ := commandProgram_mSendByte b hj
  have guarded := clockLowGuard_runs s.begun ((bitsDown.take j).flatMap (sendBitProc b) ++ (sendBitProc b (7 - j) ++ after))
    0 false (before ++ d :: rest) s.out
  obtain ⟨y, sent⟩ := sendBits_runs s.begun (sendBitProc b (7 - j) ++ after) 0 false (d :: rest) b (bitsDown.take j)
    s.out.sda before hbefore (fun e he => hc e (by simp [he]))
  obtain ⟨t, inBit, hst, hout⟩ := sendBit_out s.begun after 0 false rest b (7 - j) m y d (hc d (by simp)) h1 h6
  rw [bitsDown_take_length hj] at sent
  refine ⟨t.setQuiet 0, exec_of_runs_due (by simp [modeAllows, neededMode, hm]) ?_ hq, by simp [hst, State.begun], hout⟩
  rw [State.start_eq_busPoint, program, show s.env.peer = before ++ d :: rest by simpa using hp]
  exact guarded.trans (sent.trans inBit)

/-- Settles O24: each listed count of steps is one to six steps into bit j. -/
theorem mSendByteShowsEachBit : Obligations.MSendByteShowsEachBit := by
  intro s b j clocks rest hm hj hl hc hp g bit
  have shown (m : Nat) (h1 : 1 ≤ m) (h6 : m ≤ 6) (hq : s.env.quiet = 1 + m + g) :
      ∃ t, exec (.mSendByte b) s = .next t ∧ t.status.busy = true ∧
        t.out = ⟨bit, if m ∈ [3, 4, 5] then .released else .low⟩ :=
    mSendByte_out b hm hj hl hc hp h1 h6 (by rw [hq]; show 1 + m + (6 * j + guardSteps s.out) = _; omega)
  simp only [List.mem_cons, List.not_mem_nil, or_false]
  constructor
  · rintro (hq | hq | hq)
    · exact shown 3 (by decide) (by decide) hq
    · exact shown 4 (by decide) (by decide) hq
    · exact shown 5 (by decide) (by decide) hq
  · rintro (hq | hq | hq)
    · exact shown 1 (by decide) (by decide) hq
    · exact shown 2 (by decide) (by decide) hq
    · exact shown 6 (by decide) (by decide) hq

/-! ### S_SEND_TO_MASTER -/

/-- The awaited edge of SCL is no condition, and lets the command go on (R142). -/
theorem waitClockNext_of_event {e : Event} {previous cur : Levels} (h : lineEvent previous.scl cur.scl = e) (he : e ≠ .high)
    (rest : List Micro) : waitClockNext e previous cur rest = rest := by
  obtain ⟨h1, h2⟩ := no_condition (previous := previous) (current := cur)
    fun ⟨hp, hc, _⟩ => he (h.symm.trans ((lineEvent_eq_high_iff _ _).2 ⟨hp, hc⟩))
  simp only [waitClockNext, h1, h2, h, beq_self_eq_true, Bool.false_eq_true, if_true, if_false]

/-- The extra steps of a bit at which a stretch ends (R138). -/
def stretchSteps (o : Drives) : Nat := if o.scl = .low then 2 else 0

section Slave
variable (s : State) (rest : List Micro) (a : Byte) (k : Bool) (ds : List Drives)

theorem releaseStretchDelayed_runs (o : Drives) :
    Runs (1 + stretchSteps o) (s.busPoint o ds ⟨.releaseStretchDelayed :: rest, a, k⟩)
      (s.busPoint ⟨o.sda, .released⟩ ds ⟨rest, a, k⟩) := by
  obtain ⟨x, y⟩ := o
  cases y
  case released => exact .unsampled rfl rfl rfl rfl
  case low => exact .unsampled rfl rfl rfl (.unsampled rfl rfl rfl (.unsampled rfl rfl rfl rfl))

/-- `WaitClock(e)` at a sample that shows the edge: `prev` takes the sample (R130, R142). -/
theorem waitClock_runs {e : Event} (o d : Drives) (h : lineEvent s.auto.prev.scl (levelsOf o d).scl = e) (he : e ≠ .high) :
    Runs 3 (s.busPoint o (d :: ds) ⟨waitClock e ++ rest, a, k⟩)
      ((s.setPrev (levelsOf o d)).busPoint o ds ⟨rest, a, k⟩) := by
  have sampled : runMicro (.waitSample e) ((s.busPoint o (d :: ds) ⟨.waitSample e :: rest, a, k⟩).jump rest) =
      .next (s.busPoint o ds ⟨.setPrev (levelsOf o d) :: rest, a, k⟩) := by
    show Host.Outcome.next (State.slaveSample _ (waitClockNext e s.auto.prev (levelsOf o d) rest)) = _
    rw [waitClockNext_of_event h he]
    rfl
  exact .unsampled rfl rfl rfl (.step rfl (fun _ => List.cons_ne_nil _ _) sampled (.unsampled rfl rfl rfl rfl))

/-- A data bit up to the rising clock: SDA shows the bit and SCL is Released (R138, R143). -/
theorem sendToMasterBit_rises (b : Byte) (i : Nat) (o d : Drives) (hs : s.auto.prev.scl = .low) (h : d.scl = .released) :
    Runs (5 + stretchSteps o) (s.busPoint o (d :: ds) ⟨sendToMasterBit b i ++ rest, a, k⟩)
      ((s.setPrev ⟨lineLevel (bitDrive b i) d.sda, .high⟩).busPoint ⟨bitDrive b i, .released⟩ ds
        ⟨waitClock .falling ++ rest, a, k⟩) := by
  obtain ⟨x, y⟩ := d
  subst h
  have shown : Runs 1 (s.busPoint o (⟨x, .released⟩ :: ds) ⟨sendToMasterBit b i ++ rest, a, k⟩)
      (s.busPoint ⟨bitDrive b i, o.scl⟩ (⟨x, .released⟩ :: ds)
        ⟨.releaseStretchDelayed :: (waitClock .rising ++ (waitClock .falling ++ rest)), a, k⟩) := .unsampled rfl rfl rfl rfl
  have freed := releaseStretchDelayed_runs s (waitClock .rising ++ (waitClock .falling ++ rest)) a k (⟨x, .released⟩ :: ds)
    ⟨bitDrive b i, o.scl⟩
  have risen := waitClock_runs s (waitClock .falling ++ rest) a k ds (e := .rising) ⟨bitDrive b i, .released⟩ ⟨x, .released⟩
    ((lineEvent_eq_rising_iff _ _).2 ⟨hs, rfl⟩) (by decide)
  rw [show 5 + stretchSteps o = 1 + (1 + stretchSteps ⟨bitDrive b i, o.scl⟩ + 3) by simp only [stretchSteps]; omega]
  exact shown.trans (freed.trans risen)

/-- A data bit and the clock pulse that takes it (R143). -/
theorem sendToMasterBit_runs (b : Byte) (i : Nat) (o : Drives) (hs : s.auto.prev.scl = .low) :
    ∃ l : Levels, l.scl = .low ∧
      Runs (8 + stretchSteps o) (s.busPoint o (released :: sclLow :: ds) ⟨sendToMasterBit b i ++ rest, a, k⟩)
        ((s.setPrev l).busPoint ⟨bitDrive b i, .released⟩ ds ⟨rest, a, k⟩) := by
  refine ⟨levelsOf ⟨bitDrive b i, .released⟩ sclLow, rfl, ?_⟩
  have risen := sendToMasterBit_rises s rest a k (sclLow :: ds) b i o released hs rfl
  have fallen := waitClock_runs (s.setPrev ⟨lineLevel (bitDrive b i) released.sda, .high⟩) rest a k ds (e := .falling)
    ⟨bitDrive b i, .released⟩ sclLow rfl (by decide)
  rw [show 8 + stretchSteps o = 5 + stretchSteps o + 3 by omega]
  exact risen.trans fallen

/-- Some data bits, each with its clock pulse: a stretch ends in the first of them, or is left where there is none. -/
theorem sendToMasterBits_runs (b : Byte) (bits : List Nat) (o : Drives) (hs : s.auto.prev.scl = .low) :
    ∃ (n : Nat) (l : Levels) (o' : Drives), n + stretchSteps o' = 8 * bits.length + stretchSteps o ∧ l.scl = .low ∧
      Runs n (s.busPoint o ((List.replicate bits.length [released, sclLow]).flatten ++ ds)
        ⟨bits.flatMap (sendToMasterBit b) ++ rest, a, k⟩) ((s.setPrev l).busPoint o' ds ⟨rest, a, k⟩) := by
  induction bits generalizing s o with
  | nil => exact ⟨0, s.auto.prev, o, by simp, hs, rfl⟩
  | cons i is ih =>
    obtain ⟨l, hl, first⟩ := sendToMasterBit_runs s (is.flatMap (sendToMasterBit b) ++ rest) a k
      ((List.replicate is.length [released, sclLow]).flatten ++ ds) b i o hs
    obtain ⟨n, l', o', hn, hl', others⟩ := ih (s.setPrev l) ⟨bitDrive b i, .released⟩ hl
    refine ⟨8 + stretchSteps o + n, l', o', ?_, hl', ?_⟩
    · rw [List.length_cons, Nat.add_assoc, hn]
      simp only [stretchSteps, reduceCtorEq, if_false]
      omega
    · rw [List.flatMap_cons, List.append_assoc]
      exact first.trans others

/-- At the end of a stretch SDA shows the bit first, and SCL is released only by the fourth step (R138, R143). -/
theorem sendToMasterBit_stretched_out (b : Byte) (i m : Nat) (x : Drive) (h1 : 1 ≤ m) (h5 : m ≤ 5) :
    ∃ t, Runs m (s.busPoint ⟨x, .low⟩ ds ⟨sendToMasterBit b i ++ rest, a, k⟩) t ∧ t.status = s.status ∧ t.auto = s.auto ∧
      t.out = ⟨bitDrive b i, if m ≤ 3 then .low else .released⟩ := by
  have one : Runs 1 (s.busPoint ⟨x, .low⟩ ds ⟨sendToMasterBit b i ++ rest, a, k⟩)
      (s.busPoint ⟨bitDrive b i, .low⟩ ds
        ⟨.releaseStretchDelayed :: (waitClock .rising ++ (waitClock .falling ++ rest)), a, k⟩) := .unsampled rfl rfl rfl rfl
  have two := one.snoc rfl rfl rfl
  have three := two.snoc rfl rfl rfl
  have four := three.snoc rfl rfl rfl
  interval_cases m
  · exact ⟨_, one, rfl, rfl, rfl⟩
  · exact ⟨_, two, rfl, rfl, rfl⟩
  · exact ⟨_, three, rfl, rfl, rfl⟩
  · exact ⟨_, four, rfl, rfl, rfl⟩
  · exact ⟨_, four.snoc rfl rfl rfl, rfl, rfl, rfl⟩

end Slave

/-- The program of S_SEND_TO_MASTER around bit j. -/
theorem commandProgram_sSendToMaster (b : Byte) {j : Nat} (hj : j < 8) : ∃ rest, commandProgram (.sSendToMaster b) =
    (bitsDown.take j).flatMap (sendToMasterBit b) ++ (sendToMasterBit b (7 - j) ++ rest) := by
  refine ⟨(bitsDown.drop (j + 1)).flatMap (sendToMasterBit b) ++ ([.setSda .released] ++ waitClock .rising ++ [.latchAck]
    ++ waitClock .falling ++ [.setFirst false, .setCount 8, .setShreg 0, .sendToMasterEnd]), ?_⟩
  have bits := congrArg (List.flatMap (sendToMasterBit b)) (bitsDown_split hj)
  rw [List.flatMap_append, List.flatMap_cons] at bits
  show sendToMasterProc b = _
  rw [sendToMasterProc, bits]
  simp only [List.append_assoc]

/-- Settles O37: the bits before with their clock pulses and bit j up to its rising clock; and the steps at the end of a
stretch. -/
theorem sSendToMasterShowsEachBit : Obligations.SSendToMasterShowsEachBit := by
  constructor
  · intro s b j rest hm hs hj hq hp
    obtain ⟨after, program⟩ := commandProgram_sSendToMaster b hj
    obtain ⟨n, l, o, hn, hl, sent⟩ := sendToMasterBits_runs s.begun (sendToMasterBit b (7 - j) ++ after) 0 false
      (released :: rest) b (bitsDown.take j) s.out hs
    have risen := sendToMasterBit_rises (s.begun.setPrev l) after 0 false rest b (7 - j) o released hl rfl
    rw [bitsDown_take_length hj] at hn sent
    have hq' : s.env.quiet = n + (5 + stretchSteps o) := by
      rw [hq]; show 8 * j + 5 + stretchSteps s.out = _; omega
    have run := sent.trans risen
    rw [← hp, ← program, ← State.start_eq_busPoint s] at run
    exact ⟨_, exec_of_runs_due (by simp [modeAllows, neededMode, hm]) run hq', rfl, rfl, rfl⟩
  · intro s b hm ho bit
    obtain ⟨after, program⟩ := commandProgram_sSendToMaster b (j := 0) (by decide)
    have shown (h1 : 1 ≤ s.env.quiet) (h5 : s.env.quiet ≤ 5) :
        ∃ t, exec (.sSendToMaster b) s = .next t ∧ t.status.busy = true ∧ t.auto = s.auto ∧
          t.out = ⟨bit, if s.env.quiet ≤ 3 then .low else .released⟩ := by
      obtain ⟨t, run, hst, hauto, hout⟩ := sendToMasterBit_stretched_out s.begun after 0 false s.env.peer b 7 _ s.out.sda h1 h5
      refine ⟨t.setQuiet 0, exec_of_runs_due (by simp [modeAllows, neededMode, hm]) ?_ rfl, by simp [hst, State.begun],
        hauto, hout⟩
      rw [State.start_eq_busPoint, program, show s.out = ⟨s.out.sda, .low⟩ by rw [← ho]]
      exact run
    constructor <;> intro hq <;> simp only [List.mem_cons, List.not_mem_nil, or_false] at hq
    · obtain ⟨t, hexec, hbusy, hauto, hout⟩ := shown (by omega) (by omega)
      exact ⟨t, hexec, hbusy, by rw [hout, if_pos (by omega)], hauto⟩
    · obtain ⟨t, hexec, hbusy, hauto, hout⟩ := shown (by omega) (by omega)
      exact ⟨t, hexec, hbusy, by rw [hout, if_neg (by omega)], hauto⟩

end Sys2Proof.Machine
end

section
/-! SUPPORT and CERTIFICATE. The encoding of commands (spec/30_encoding.md R90-R98): the word of a command is the only one that
decodes to it, it selects the command's row alone, and a word that decodes to none only reports. With it the operand bound of
the transmitting commands (spec/42_codec_ddcci.md R155, R160). -/

namespace Sys2Proof.Machine

/-! ### Words and their fields -/

/-- The three fields cover a word (R90). -/
theorem word_eq_of_fields {w v : Word} (ho : opField w = opField v) (hi : immField w = immField v)
    (hr : rsvField w = rsvField v) : w = v := by
  have op := congrArg BitVec.toNat ho
  have imm := congrArg BitVec.toNat hi
  have rsv := congrArg BitVec.toNat hr
  simp only [opField, immField, rsvField, BitVec.extractLsb'_toNat, Nat.shiftRight_eq_div_pow] at op imm rsv
  exact BitVec.eq_of_toNat_eq (by omega)

/-- A word with no reserved bit is its operand above its opcode (R98). -/
theorem eq_word_iff {w : Word} {op imm : Byte} : w = imm.setWidth 32 <<< 8 ||| op.setWidth 32 ↔
    opField w = op ∧ immField w = imm ∧ rsvField w = 0 := by
  obtain ⟨fo, fi, fr⟩ := fields_of_word op imm
  constructor
  · rintro rfl
    exact ⟨fo, fi, fr⟩
  · rintro ⟨ho, hi, hr⟩
    exact word_eq_of_fields (ho.trans fo.symm) (hi.trans fi.symm) (hr.trans fr.symm)

theorem eq_opcode_iff {w : Word} {op : Byte} : w = op.setWidth 32 ↔ opField w = op ∧ immField w = 0 ∧ rsvField w = 0 := by
  simpa using eq_word_iff (w := w) (op := op) (imm := 0)

/-! ### The round trip -/

/-- A command's opcode selects its row of the map (R92). -/
theorem opcodeRow_opcode (i : Instr) : opcodeRow i.opcode (i.operand.getD 0) = .ok i := by
  cases i <;> rfl

theorem decode_encode (i : Instr) : decode (encode i) = .ok i := by
  rw [decode, rsvField_encode, opField_encode, immField_encode, if_pos rfl, opcodeRow_opcode]

/-- Settles O1: a word that decodes has the fields of its command's word, and these fix the word. -/
theorem decodeIsExactlyEncode : Obligations.DecodeIsExactlyEncode := by
  intro w i
  constructor
  · intro h
    obtain ⟨hr, ho, hi⟩ := decode_ok h
    exact eq_word_iff.2 ⟨ho.symm, hi.symm, hr⟩
  · rintro rfl
    exact decode_encode i

/-- Settles O3: each word is evaluated. -/
theorem writtenWordsDecode : Obligations.WrittenWordsDecode :=
  ⟨rfl, rfl, rfl, rfl, rfl, rfl, rfl, rfl, rfl, rfl⟩

/-! ### The rows as patterns -/

/-- The row of a command as R93 gives it: `imm8` is free where the command has an operand. -/
def commandPattern (i : Instr) : OpcodePattern :=
  match i.operand with
  | none => plainPattern (mnemonic i) (i.opcode.setWidth 32)
  | some _ => operandPattern (mnemonic i) (i.opcode.setWidth 32)

theorem commandPattern_mnemonic (i : Instr) : (commandPattern i).mnemonic = mnemonic i := by
  unfold commandPattern
  split <;> rfl

/-- Every command has its row in the table, whatever its operand. -/
theorem commandPattern_mem (i : Instr) : commandPattern i ∈ opcodePatterns := by
  cases i <;> exact List.contains_iff_mem.1 rfl

/-- One command of each row, in the table's order. -/
def rowCommands : List Instr :=
  [.mStart, .mStop, .mSendByte 0, .mRecvByte, .mAck, .mNack, .sGetByte, .sSendToMaster 0, .ddcBuild 0, .ddcRxcheck,
   .lenCheck 0, .edidFillsum, .edidValidate, .ddcWrite 0, .ddcRead, .edidRead]

theorem opcodePatterns_eq_map : opcodePatterns = rowCommands.map commandPattern := rfl

theorem opcodePatterns_nodup : opcodePatterns.Nodup := .of_map OpcodePattern.pattern (by decide)

/-- The mask of a row with an operand keeps every field but `imm8` (R93). -/
theorem fields_of_operandMask (w : Word) : opField (w &&& 0xFFFF00FF) = opField w ∧ immField (w &&& 0xFFFF00FF) = 0 ∧
    rsvField (w &&& 0xFFFF00FF) = rsvField w := by
  simp only [opField, immField, rsvField, BitVec.extractLsb'_and]
  exact ⟨BitVec.and_allOnes, BitVec.and_zero, BitVec.and_allOnes⟩

/-- Without an operand a row is one word, whose `imm8` is 0 (R93). -/
theorem plainPattern_selects_iff (name : String) (op : Byte) (w : Word) :
    (plainPattern name (op.setWidth 32)).selects w = true ↔ opField w = op ∧ immField w = 0 ∧ rsvField w = 0 := by
  have kept : w &&& 0xFFFFFFFF = w := BitVec.and_allOnes
  rw [OpcodePattern.selects, beq_iff_eq, plainPattern, kept, eq_opcode_iff]

/-- With an operand a row leaves `imm8` free (R93). -/
theorem operandPattern_selects_iff (name : String) (op : Byte) (w : Word) :
    (operandPattern name (op.setWidth 32)).selects w = true ↔ opField w = op ∧ rsvField w = 0 := by
  obtain ⟨ho, hi, hr⟩ := fields_of_operandMask w
  rw [OpcodePattern.selects, beq_iff_eq, operandPattern, eq_opcode_iff, ho, hi, hr]
  simp

/-- The words that select a command's row (R93). -/
theorem commandPattern_selects_iff (i : Instr) (w : Word) : (commandPattern i).selects w = true ↔
    opField w = i.opcode ∧ (i.operand = none → immField w = 0) ∧ rsvField w = 0 := by
  unfold commandPattern
  cases h : i.operand with
  | none => simpa using plainPattern_selects_iff (mnemonic i) i.opcode w
  | some b => simpa using operandPattern_selects_iff (mnemonic i) i.opcode w

/-- An opcode of the map with an operand its row admits decodes to a command of that row (R92, R93). -/
theorem opcodeRow_of_admitted (i : Instr) {imm : Byte} (h : i.operand = none → imm = 0) :
    ∃ j, opcodeRow i.opcode imm = .ok j ∧ commandPattern j = commandPattern i := by
  cases i with
  | mSendByte | sSendToMaster | ddcBuild | lenCheck | ddcWrite => exact ⟨_, rfl, rfl⟩
  | _ => obtain rfl := h rfl; exact ⟨_, rfl, rfl⟩

/-- A word selects a row of the table exactly when it decodes to a command of that row. -/
theorem selects_iff_decode {r : OpcodePattern} (hr : r ∈ opcodePatterns) (w : Word) :
    r.selects w = true ↔ ∃ i, decode w = .ok i ∧ commandPattern i = r := by
  constructor
  · intro h
    rw [opcodePatterns_eq_map] at hr
    obtain ⟨i, -, rfl⟩ := List.mem_map.1 hr
    obtain ⟨ho, hi, hr⟩ := (commandPattern_selects_iff i w).1 h
    rw [decode, if_pos hr, ho]
    exact opcodeRow_of_admitted i hi
  · rintro ⟨i, hd, rfl⟩
    obtain ⟨hr, ho, hi⟩ := decode_ok hd
    exact (commandPattern_selects_iff i w).2 ⟨ho.symm, fun hn => by rw [← hi, hn]; rfl, hr⟩

/-- Settles O2: a row that a word selects is its command's, and each row stands once in the table. -/
theorem oneRowOrNone : Obligations.OneRowOrNone := by
  intro w
  cases hd : decode w with
  | ok i =>
    have own : ∀ r ∈ opcodePatterns, r.selects w = (r == commandPattern i) := fun r hr => by
      rw [Bool.eq_iff_iff, selects_iff_decode hr, hd]
      simp only [Except.ok.injEq, exists_eq_left', beq_iff_eq]
      exact eq_comm
    rw [List.filter_congr own, List.filter_beq, List.count_eq_one_of_mem opcodePatterns_nodup (commandPattern_mem i)]
    simp [commandPattern_mnemonic]
  | error e =>
    have unselected : opcodePatterns.filter (·.selects w) = [] := List.filter_eq_nil_iff.2 fun r hr h => by
      obtain ⟨i, hi, -⟩ := (selects_iff_decode hr w).1 h
      rw [hd] at hi
      cases hi
    rw [unselected]
    rfl

/-! ### Illegal words -/

/-- The word of a command is none of those that R94 calls illegal: its opcode is listed with an operand or without one. -/
theorem legalWord_encode (i : Instr) : legalWord (encode i) = true := by
  have term := i.wellFormed_all
  suffices row : (operandOpcodes ++ plainOpcodes).contains i.opcode = true ∧
      (i.operand.getD 0 == 0 || operandOpcodes.contains i.opcode) = true by
    obtain ⟨-, legal, -⟩ := Laws.CommandWord.of_row row.1 row.2
    exact legal
  unfold Instr.wellFormed at term
  cases h : i.operand <;> rw [h] at term <;> simp_all

/-- A word that R94 calls illegal decodes to no command. -/
theorem decode_error_of_illegal {w : Word} (h : legalWord w = false) : ∃ e, decode w = .error e := by
  cases hd : decode w with
  | error e => exact ⟨e, rfl⟩
  | ok i =>
    rw [(decodeIsExactlyEncode w i).1 hd, legalWord_encode] at h
    cases h

/-- Settles O4. -/
theorem illegalWordOnlyReports : Obligations.IllegalWordOnlyReports := by
  intro s w q rest hi h hw
  obtain ⟨e, hd⟩ := decode_error_of_illegal hw
  rw [step_acceptCommand hi h, acceptCommand, hd]
  rfl

/-! ### The transmit length -/

/-- Over the longest payload the body of a transmitting command is the report alone (R155, R160). -/
theorem ifLengthAllowed_tooLong {n : Nat} (h : 35 < n) (body : List Micro) :
    ifLengthAllowed n body = [.finish .invalidLength] := if_pos h

/-- A command in its mode whose program only reports. -/
theorem exec_of_finish {i : Instr} {s : State} {code : Result} (hm : modeAllows (neededMode i) s = true)
    (hp : commandProgram i = [.finish code]) (hq : 1 ≤ s.env.quiet) :
    exec i s = .next (s.finishedWith code s.env.peer) := by
  refine exec_of_runs (n := 1) hm ?_ hq rfl rfl
  rw [hp]
  exact .unsampled rfl rfl rfl rfl

/-- Settles O42. -/
theorem transmitLengthBound : Obligations.TransmitLengthBound := by
  intro s n hn hq
  refine ⟨exec_of_finish rfl (ifLengthAllowed_tooLong hn _) hq, fun hm => ?_⟩
  exact exec_of_finish (by simp [modeAllows, neededMode, hm]) (ifLengthAllowed_tooLong hn _) hq

end Sys2Proof.Machine
end

section
/-! SUPPORT and CERTIFICATE. M_START, M_STOP, M_SEND_BYTE, M_ACK and M_NACK on a clock that is not stretched
(spec/40_engine_master.md R110-R120): how they end, and the outputs at the points of a START, a STOP and an ACK bit. -/

namespace Sys2Proof.Machine

/-! ### Commands of Master mode -/

theorem modeAllows_master {i : Instr} {s : State} (hi : neededMode i = some .master) (hm : s.ctrl.mode = .master) :
    modeAllows (neededMode i) s = true := by
  simp [modeAllows, hi, hm]

section Master
variable {i : Instr} {s t : State} {peer : List Drives} {n : Nat} (hi : neededMode i = some .master)
  (hm : s.ctrl.mode = .master) (hp : s.env.peer = peer)
  (hr : Runs n (s.begun.busPoint s.out peer ⟨commandProgram i, 0, false⟩) t)
include hi hm hp hr

/-- A master command whose steps end in `finish`. -/
theorem exec_master_of_runs (hq : n ≤ s.env.quiet) (ht : t.seq.todo = []) (h0 : t.env.quiet = 0) :
    exec i s = .next t := by
  refine exec_of_runs (modeAllows_master hi hm) ?_ hq ht h0
  rw [State.start_eq_busPoint, hp]
  exact hr

/-- A master command in the middle of its run, the host's next act being due. -/
theorem exec_master_out (hq : s.env.quiet = n) (hb : t.status.busy = true) :
    ∃ u, exec i s = .next u ∧ u.status.busy = true ∧ u.out = t.out := by
  refine ⟨t.setQuiet 0, exec_of_runs_due (modeAllows_master hi hm) ?_ hq, hb, rfl⟩
  rw [State.start_eq_busPoint, hp]
  exact hr

end Master

/-! ### Commands that finish -/

/-- Where SCL was Released, the guard's two steps are all it adds (R110). -/
theorem guardSteps_le (o : Drives) : guardSteps o ≤ 2 := by
  unfold guardSteps; split <;> omega

/-- `finish(code)` as the last step of a transfer (R11). -/
theorem finish_runs (s : State) (o : Drives) (ds : List Drives) (a : Byte) (k : Bool) (code : Result) :
    Runs 1 (s.begun.busPoint o ds ⟨[.finish code], a, k⟩) ((s.withOut o.sda o.scl).finishedWith code ds) :=
  .unsampled rfl rfl rfl rfl

/-- Settles O23. -/
theorem mSendByteCompletes : Obligations.MSendByteCompletes := by
  intro s b clocks ack rest hm ⟨hq, hp⟩ hl hc
  have sent := mSend_runs s.begun [.finishAck] 0 false rest b s.out ack clocks hl hc
  have ended : Runs 1 (s.begun.busPoint ⟨.released, .low⟩ rest ⟨[.finishAck], 0, ack.sda == .low⟩)
      ((s.withOut .released .low).finishedWith (if ack.sda == .low then .ok else .noack) rest) :=
    .unsampled rfl rfl rfl rfl
  simp only [beq_iff_eq] at ended
  have steps := guardSteps_le s.out
  exact exec_master_of_runs rfl hm (by simpa using hp) (sent.trans ended) (by omega) rfl rfl

/-- The commands M_ACK and M_NACK are the ACK bit, with SDA as commanded (R118, R119). -/
theorem ackCommand_program {i : Instr} {v : Drive} (h : (i, v) ∈ [(Instr.mAck, Drive.low), (.mNack, .released)]) :
    neededMode i = some .master ∧ commandProgram i = mAckBitProc v ++ [.finish .ok] := by
  simp only [List.mem_cons, Prod.mk.injEq, List.not_mem_nil, or_false] at h
  obtain ⟨rfl, rfl⟩ | ⟨rfl, rfl⟩ := h <;> exact ⟨rfl, rfl⟩

/-- Settles O26. -/
theorem mAckAndMNackComplete : Obligations.MAckAndMNackComplete := by
  intro s i d rest hi hm ⟨hq, hp⟩ hd
  obtain ⟨v, hv⟩ : ∃ v, (i, v) ∈ [(Instr.mAck, Drive.low), (.mNack, .released)] := by
    simp only [List.mem_cons, List.not_mem_nil, or_false] at hi
    rcases hi with rfl | rfl
    · exact ⟨.low, by simp⟩
    · exact ⟨.released, by simp⟩
  obtain ⟨needs, program⟩ := ackCommand_program hv
  have acked := mAckBit_runs s.begun [.finish .ok] 0 false rest v s.out d hd
  rw [← program] at acked
  have steps := guardSteps_le s.out
  exact exec_master_of_runs needs hm hp (acked.trans (finish_runs s _ rest 0 false .ok)) (by omega) rfl rfl

/-! ### START, STOP and the ACK bit on the lines -/

/-- Settles O21: the clock is released and sampled in two steps; SDA is released in the fourth and falls in the sixth. -/
theorem mStartCompletes : Obligations.MStartCompletes := by
  intro s d rest hm hp hd
  have atClock : Runs 2 (s.begun.busPoint s.out (d :: rest) ⟨commandProgram .mStart, 0, false⟩)
      (s.begun.busPoint ⟨s.out.sda, .released⟩ rest
        ⟨[.delay, .setSda .released, .delay, .setSda .low, .delay, .finish .ok], 0, false⟩) :=
    releaseSclAndWait_runs s.begun _ 0 false rest s.out d hd
  have atReleased := (atClock.snoc rfl rfl rfl).snoc rfl rfl rfl
  have atLow := (atReleased.snoc rfl rfl rfl).snoc rfl rfl rfl
  refine ⟨fun hq => ?_, fun hq => ?_, fun hq => ?_⟩
  · exact exec_master_of_runs rfl hm hp ((atLow.snoc rfl rfl rfl).trans (finish_runs s _ rest 0 false .ok)) hq rfl rfl
  · rcases List.mem_pair.1 hq with hq | hq
    · exact exec_master_out rfl hm hp atReleased hq rfl
    · exact exec_master_out rfl hm hp (atReleased.snoc rfl rfl rfl) hq rfl
  · rcases List.mem_pair.1 hq with hq | hq
    · exact exec_master_out rfl hm hp atLow hq rfl
    · exact exec_master_out rfl hm hp (atLow.snoc rfl rfl rfl) hq rfl

section Driven
variable (s : State) (rest : List Micro) (a : Byte) (k : Bool) (ds : List Drives) (v : Drive) (o : Drives)

/-- SDA takes its value with SCL Low, in the step after the guard (R110, R115, R118). -/
theorem guardedSda_runs :
    Runs (2 + guardSteps o) (s.busPoint o ds ⟨.clockLowGuard :: .setSda v :: rest, a, k⟩)
      (s.busPoint ⟨v, .low⟩ ds ⟨rest, a, k⟩) := by
  rw [show 2 + guardSteps o = 1 + guardSteps o + 1 by omega]
  exact (clockLowGuard_runs s _ a k ds o).snoc rfl rfl rfl

/-- SDA takes its value with SCL Low, and then the clock is released and sampled High (R111, R115, R118). -/
theorem guardedClock_runs (d : Drives) (h : d.scl = .released) :
    Runs (5 + guardSteps o)
      (s.busPoint o (d :: ds) ⟨.clockLowGuard :: .setSda v :: .delay :: (releaseSclAndWait ++ rest), a, k⟩)
      (s.busPoint ⟨v, .released⟩ ds ⟨rest, a, k⟩) := by
  rw [show 5 + guardSteps o = 2 + guardSteps o + 1 + 2 by omega]
  exact ((guardedSda_runs s _ a k (d :: ds) v o).snoc rfl rfl rfl).trans
    (releaseSclAndWait_runs s rest a k ds ⟨v, .low⟩ d h)

end Driven

/-- Settles O22: SDA is Low when the clock is sampled High, and rises two steps later. -/
theorem mStopCompletes : Obligations.MStopCompletes := by
  intro s d rest hm hp hd g
  have hg : g = guardSteps s.out := rfl
  have atClock : Runs (5 + g) (s.begun.busPoint s.out (d :: rest) ⟨commandProgram .mStop, 0, false⟩)
      (s.begun.busPoint ⟨.low, .released⟩ rest ⟨[.delay, .setSda .released, .delay, .finish .ok], 0, false⟩) :=
    guardedClock_runs s.begun _ 0 false rest .low s.out d hd
  have atReleased := (atClock.snoc rfl rfl rfl).snoc rfl rfl rfl
  have steps := guardSteps_le s.out
  refine ⟨fun hq => ?_, fun hq => ?_, fun hq => ?_⟩
  · exact exec_master_of_runs rfl hm hp ((atReleased.snoc rfl rfl rfl).trans (finish_runs s _ rest 0 false .ok))
      (by omega) rfl rfl
  · rcases List.mem_pair.1 hq with hq | hq
    · exact exec_master_out rfl hm hp atClock hq rfl
    · exact exec_master_out rfl hm hp (atClock.snoc rfl rfl rfl) (by omega) rfl
  · rcases List.mem_pair.1 hq with hq | hq
    · exact exec_master_out rfl hm hp atReleased (by omega) rfl
    · exact exec_master_out rfl hm hp (atReleased.snoc rfl rfl rfl) (by omega) rfl

/-- Settles O27: SDA is as commanded two steps before the clock is released and one after it is Low again. -/
theorem ackBitOnTheWire : Obligations.AckBitOnTheWire := by
  intro s i v d rest hv hm hp hd g
  have hg : g = guardSteps s.out := rfl
  obtain ⟨needs, program⟩ := ackCommand_program hv
  have atSda : Runs (2 + g) (s.begun.busPoint s.out (d :: rest) ⟨commandProgram i, 0, false⟩)
      (s.begun.busPoint ⟨v, .low⟩ (d :: rest) ⟨.delay :: (releaseSclAndWait ++
        [.delay, .setScl .low, .setSda .released, .finish .ok]), 0, false⟩) := by
    rw [program]
    exact guardedSda_runs s.begun _ 0 false (d :: rest) v s.out
  have atClock : Runs (5 + g) (s.begun.busPoint s.out (d :: rest) ⟨commandProgram i, 0, false⟩)
      (s.begun.busPoint ⟨v, .released⟩ rest ⟨[.delay, .setScl .low, .setSda .released, .finish .ok], 0, false⟩) := by
    rw [program]
    exact guardedClock_runs s.begun _ 0 false rest v s.out d hd
  have atLow := (atClock.snoc rfl rfl rfl).snoc rfl rfl rfl
  refine ⟨fun hq => ?_, fun hq => ?_, fun hq => ?_⟩
  · simp only [List.mem_cons, List.not_mem_nil, or_false] at hq
    rcases hq with hq | hq | hq
    · exact exec_master_out needs hm hp ((atSda.snoc rfl rfl rfl).snoc rfl rfl rfl) (by omega) rfl
    · exact exec_master_out needs hm hp atClock hq rfl
    · exact exec_master_out needs hm hp (atClock.snoc rfl rfl rfl) (by omega) rfl
  · simp only [List.mem_cons, List.not_mem_nil, or_false] at hq
    rcases hq with hq | hq | hq
    · exact exec_master_out needs hm hp atSda hq rfl
    · exact exec_master_out needs hm hp (atSda.snoc rfl rfl rfl) (by omega) rfl
    · exact exec_master_out needs hm hp atLow (by omega) rfl
  · exact exec_master_out needs hm hp (atLow.snoc rfl rfl rfl) (by omega) rfl

end Sys2Proof.Machine
end

section
/-! SUPPORT and CERTIFICATE. A peer that holds the clock Low (spec/40_engine_master.md R111, R112): each of its samples within
the bound is two steps more of the command, and one at the bound is the command's end. -/

namespace Sys2Proof.Machine

/-! ### Polls of SCL -/

section Polls
variable (s : State) (rest : List Micro) (a : Byte) (k : Bool) (ds : List Drives)

/-- A poll that finds SCL High ends the wait (R111). -/
theorem pollHigh_runs (i : Nat) (x : Drive) {d : Drives} (h : d.scl = .released) :
    Runs 1 (s.busPoint ⟨x, .released⟩ (d :: ds) ⟨.pollScl i :: rest, a, k⟩) (s.busPoint ⟨x, .released⟩ ds ⟨rest, a, k⟩) := by
  obtain ⟨y, z⟩ := d
  subst h
  exact .step rfl (by simp [State.busPoint]) rfl rfl

/-- What a poll goes on with where the peer holds SCL Low, whatever the block drives (R22, R111). -/
theorem runMicro_pollScl_low (i : Nat) (o : Drives) {e : Drives} (h : e.scl = .low) :
    runMicro (.pollScl i) (s.busPoint o (e :: ds) ⟨rest, a, k⟩) =
      .next (if i = s.timeout.toNat then s.busPoint o ds ⟨[.setSda .released, .finish .busTimeout], a, k⟩
        else s.busPoint o ds ⟨.delay :: .pollScl (i + 1) :: rest, a, k⟩) := by
  obtain ⟨y, z⟩ := e
  subst h
  obtain ⟨x, c⟩ := o
  cases c <;> rfl

/-- A Low sample below the bound costs two steps (R111). -/
theorem pollLow_runs {i : Nat} (hi : i < s.timeout.toNat) (o : Drives) {e : Drives} (h : e.scl = .low) :
    Runs 2 (s.busPoint o (e :: ds) ⟨.pollScl i :: rest, a, k⟩) (s.busPoint o ds ⟨.pollScl (i + 1) :: rest, a, k⟩) := by
  have polled := runMicro_pollScl_low s rest a k ds i o h
  rw [if_neg hi.ne] at polled
  exact .step rfl (by simp [State.busPoint]) polled (.unsampled rfl rfl rfl rfl)

/-- Low samples within the bound, in a row. -/
theorem pollsLow_runs {lows : List Drives} {i : Nat} (hi : i + lows.length ≤ s.timeout.toNat) (o : Drives)
    (h : ∀ e ∈ lows, e.scl = .low) :
    Runs (2 * lows.length) (s.busPoint o (lows ++ ds) ⟨.pollScl i :: rest, a, k⟩)
      (s.busPoint o ds ⟨.pollScl (i + lows.length) :: rest, a, k⟩) := by
  induction lows generalizing i with
  | nil => exact rfl
  | cons e lows ih =>
    rw [List.length_cons] at hi ⊢
    have later := ih (i := i + 1) (by omega) fun e he => h e (by simp [he])
    rw [show i + 1 + lows.length = i + (lows.length + 1) by omega] at later
    rw [show 2 * (lows.length + 1) = 2 + 2 * lows.length by omega]
    exact (pollLow_runs s rest a k (lows ++ ds) (by omega) o (h e (by simp))).trans later

/-- A Low sample at the bound is `BusTimeoutAbort()` (R112). -/
theorem pollAbort_runs (o : Drives) {e : Drives} (h : e.scl = .low) :
    Runs 3 (s.busPoint o (e :: ds) ⟨.pollScl s.timeout.toNat :: rest, a, k⟩)
      ((s.withOut .released o.scl).finishedWith .busTimeout ds) := by
  have polled := runMicro_pollScl_low s rest a k ds s.timeout.toNat o h
  rw [if_pos rfl] at polled
  exact .step rfl (by simp [State.busPoint]) polled (.unsampled rfl rfl rfl (.unsampled rfl rfl rfl rfl))

/-- Low samples within the bound before a High one: the run from the poll on is as it is without them (R111). -/
theorem runController_stretched {lows : List Drives} {d : Drives} {i q : Nat} (hi : i + lows.length ≤ s.timeout.toNat)
    (hl : ∀ e ∈ lows, e.scl = .low) (hd : d.scl = .released) (hq : 1 ≤ q) (x : Drive) :
    runController (q + 2 * lows.length) (s.busPoint ⟨x, .released⟩ (lows ++ d :: ds) ⟨.pollScl i :: rest, a, k⟩) =
      runController q (s.busPoint ⟨x, .released⟩ (d :: ds) ⟨.pollScl i :: rest, a, k⟩) := by
  have polls := (pollsLow_runs s rest a k (d :: ds) hi ⟨x, .released⟩ hl).trans (pollHigh_runs s rest a k ds _ x hd)
  calc _ = runController (q - 1) (s.busPoint ⟨x, .released⟩ ds ⟨rest, a, k⟩) := by
        rw [runController_of_runs polls (by omega)]; congr 1; omega
    _ = _ := (runController_of_runs (pollHigh_runs s rest a k ds i x hd) hq).symm

end Polls

/-! ### The first clock release of a master command -/

/-- The commands of spec/40_engine_master.md. -/
def masterCommands (b : Byte) : List Instr := [.mStart, .mStop, .mSendByte b, .mRecvByte, .mAck, .mNack]

theorem neededMode_masterCommand {i : Instr} {b : Byte} (hi : i ∈ masterCommands b) : neededMode i = some .master := by
  simp only [masterCommands, List.mem_cons, List.not_mem_nil, or_false] at hi
  rcases hi with rfl | rfl | rfl | rfl | rfl | rfl <;> rfl

/-- The clock is released after the guard, a value on SDA and a `Delay()` (R113, R115, R118). -/
theorem guardedRelease_runs (s : State) (rest : List Micro) (a : Byte) (k : Bool) (ds : List Drives) (v : Drive) (o : Drives) :
    Runs (4 + guardSteps o) (s.busPoint o ds ⟨.clockLowGuard :: .setSda v :: .delay :: (releaseSclAndWait ++ rest), a, k⟩)
      (s.busPoint ⟨v, .released⟩ ds ⟨.pollScl 0 :: rest, a, k⟩) := by
  rw [show 4 + guardSteps o = 2 + guardSteps o + 1 + 1 by omega]
  exact ((guardedSda_runs s _ a k ds v o).snoc rfl rfl rfl).snoc rfl rfl rfl

/-- A master command stands at its first poll of SCL within 7 steps, whatever the peer does. -/
theorem masterCommand_firstPoll {i : Instr} {b : Byte} (hi : i ∈ masterCommands b) (o : Drives) :
    ∃ n x rest, n ≤ 7 ∧ ∀ (s : State) (ds : List Drives), Runs n (s.busPoint o ds ⟨commandProgram i, 0, false⟩)
      (s.busPoint ⟨x, .released⟩ ds ⟨.pollScl 0 :: rest, 0, false⟩) := by
  have steps := guardSteps_le o
  have guarded {i : Instr} {v : Drive} {rest : List Micro}
      (h : commandProgram i = .clockLowGuard :: .setSda v :: .delay :: (releaseSclAndWait ++ rest)) :
      ∃ n x rest, n ≤ 7 ∧ ∀ (s : State) (ds : List Drives), Runs n (s.busPoint o ds ⟨commandProgram i, 0, false⟩)
        (s.busPoint ⟨x, .released⟩ ds ⟨.pollScl 0 :: rest, 0, false⟩) :=
    ⟨4 + guardSteps o, v, rest, by omega, fun s ds => h ▸ guardedRelease_runs s rest 0 false ds v o⟩
  simp only [masterCommands, List.mem_cons, List.not_mem_nil, or_false] at hi
  rcases hi with rfl | rfl | rfl | rfl | rfl | rfl
  · exact ⟨1, o.sda, _, by decide, fun s ds => .unsampled rfl rfl rfl rfl⟩
  · exact guarded rfl
  · exact guarded rfl
  · obtain ⟨rest, program⟩ : ∃ rest, commandProgram .mRecvByte =
      .clockLowGuard :: .setSda .released :: .clearAcc :: .delay :: (releaseSclAndWait ++ rest) := ⟨_, rfl⟩
    refine ⟨5 + guardSteps o, .released, rest, by omega, fun s ds => ?_⟩
    rw [program, show 5 + guardSteps o = 2 + guardSteps o + 1 + 1 + 1 by omega]
    exact (((guardedSda_runs s _ 0 false ds .released o).snoc rfl rfl rfl).snoc rfl rfl rfl).snoc rfl rfl rfl
  · exact guarded rfl
  · exact guarded rfl

/-! ### The statements -/

/-- Settles O28: the polls in a row at whatever poll, and a master command's steps up to its first. -/
theorem stretchingOnlyDelays : Obligations.StretchingOnlyDelays := by
  intro s lows d rest q hl hd
  constructor
  · intro todo k ht ho hk hq
    obtain ⟨x, hx⟩ : ∃ x, s.out = ⟨x, .released⟩ := ⟨s.out.sda, by rw [← ho]⟩
    have atPoll (peer : List Drives) : { s with env := { s.env with peer := peer } } =
        s.busPoint ⟨x, .released⟩ peer ⟨.pollScl k :: todo, s.seq.acc, s.seq.ack⟩ := by
      rw [← hx, ← ht]; rfl
    rw [atPoll, atPoll]
    exact runController_stretched s todo _ _ rest hk hl hd hq x
  · intro i b hi hm hk hq
    obtain ⟨n, x, todo, hn, first⟩ := masterCommand_firstPoll hi s.out
    have runs (p : Nat) (peer : List Drives) (hp : 10 ≤ p) :
        exec i { s with env := { s.env with peer := peer, quiet := p } } = runController (p - n)
          ((s.setQuiet 0).begun.busPoint ⟨x, .released⟩ peer ⟨.pollScl 0 :: todo, 0, false⟩) := by
      have allowed : modeAllows (neededMode i) { s with env := { s.env with peer := peer, quiet := p } } = true :=
        modeAllows_master (neededMode_masterCommand hi) hm
      rw [exec_eq_runCommand, runCommand_allowed allowed, ← runController_setQuiet]
      exact runController_of_runs (q := p) (first (s.setQuiet 0).begun peer) (by omega)
    rw [runs _ _ (by omega), runs _ _ hq, show q + 2 * lows.length - n = q - n + 2 * lows.length by omega]
    exact runController_stretched _ todo 0 false rest (by simpa [State.begun] using hk) hl hd (by omega) x

/-- Settles O29: the abort at the bound, after the Low samples within it. -/
theorem heldClockTimesOut : Obligations.HeldClockTimesOut := by
  constructor
  · intro s todo d rest ht ho hp hd
    have aborted := pollAbort_runs s todo s.seq.acc s.seq.ack rest s.out hd
    rw [← ht, ← hp, ho] at aborted
    exact (runController_of_runs (s := s) aborted le_rfl).trans (runController_idle _ rfl rfl)
  · intro s i b lows rest hi hm hl hn ⟨hq, hp⟩
    obtain ⟨within, last, rfl⟩ := (List.eq_nil_or_concat' lows).resolve_left (by rintro rfl; cases hn)
    obtain ⟨n, x, todo, hn', first⟩ := masterCommand_firstPoll hi s.out
    have hw : within.length = s.timeout.toNat := by simpa using hn
    have polls := pollsLow_runs s.begun todo 0 false (last :: rest) (i := 0) (lows := within)
      (by simp [State.begun, hw]) ⟨x, .released⟩ fun e he => hl e (by simp [he])
    have aborted := pollAbort_runs s.begun todo 0 false rest ⟨x, .released⟩ (hl last (by simp))
    rw [Nat.zero_add, hw] at polls
    refine exec_master_of_runs (neededMode_masterCommand hi) hm (by simpa using hp)
      ((first s.begun _).trans (polls.trans aborted)) ?_ rfl rfl
    rw [hn] at hq
    omega

end Sys2Proof.Machine
end

section
/-! SUPPORT and CERTIFICATE. DDC_WRITE, and DDC_READ of a reply that stops at its length byte (spec/42_codec_ddcci.md R156,
R158, R160, R161), on a clock that is not stretched: their steps and what the block drives at its samples. -/

namespace Sys2Proof.Machine

/-! ### The end of a transfer -/

section Stop
variable (s : State) (rest : List Micro) (a : Byte) (k : Bool) (ds : List Drives)

/-- STOP, from any outputs (R115). -/
theorem mStop_transfers_of_any (o d : Drives) (h : d.scl = .released) :
    Transfers (8 + guardSteps o) (s.busPoint o (d :: ds) ⟨mStopProc ++ rest, a, k⟩)
      (s.busPoint ⟨.released, .released⟩ ds ⟨rest, a, k⟩) stopOutputs :=
  ⟨mStop_runs s rest a k ds o d h, mStop_outputs s rest a k ds o d h⟩

/-- STOP and `finish(code)`: the command's last steps (R160, R161). -/
theorem stopFinish_transfers (o : Drives) (code : Result) :
    Transfers (8 + guardSteps o + 1) (s.begun.busPoint o (released :: ds) ⟨mStopProc ++ [.finish code], a, k⟩)
      ((s.withOut .released .released).finishedWith code ds) stopOutputs := by
  have stop := mStop_transfers_of_any s.begun [.finish code] a k ds o released rfl
  have ended : Transfers 1 (s.begun.busPoint ⟨.released, .released⟩ ds ⟨[.finish code], a, k⟩)
      ((s.withOut .released .released).finishedWith code ds) [] := .unsampled rfl rfl rfl
  have := stop.trans ended
  rwa [List.append_nil] at this

end Stop

/-! ### The bytes of DDC_WRITE -/

section Sent
variable {s : State} (rest : List Micro) (a : Byte) (k : Bool) (ds : List Drives)

/-- A byte of TXBUF sent, with the peer's ACK or NACK tested (R160). -/
theorem sendTx_transfers {j : Nat} {b : Byte} (h : Memory.read s.mem (Buffer.tx.addr j) = some b) (o : Drives) (acks : Bool) :
    Transfers (58 + guardSteps o)
      (s.busPoint o (receiverScript acks ++ ds) ⟨.sendTx j :: .stopIfNack :: rest, a, k⟩)
      (s.busPoint ⟨.released, .low⟩ ds ⟨stopIfNackNext acks rest, a, acks⟩) (sentOutputs b) := by
  have called : Transfers 1 (s.busPoint o (receiverScript acks ++ ds) ⟨.sendTx j :: .stopIfNack :: rest, a, k⟩)
      (s.busPoint o (receiverScript acks ++ ds) ⟨mSendProc b ++ .stopIfNack :: rest, a, k⟩) [] :=
    .unsampled rfl rfl (withByte_ok ((State.readByte_ok_iff _ _ _ _).2 h) _)
  have sent := mSend_transfers s (.stopIfNack :: rest) a k ds b o acks
  have tested : Transfers 1 (s.busPoint ⟨.released, .low⟩ ds ⟨.stopIfNack :: rest, a, acks⟩)
      (s.busPoint ⟨.released, .low⟩ ds ⟨stopIfNackNext acks rest, a, acks⟩) [] := .unsampled rfl rfl rfl
  have := (called.trans sent).trans tested
  rw [List.nil_append, List.append_nil] at this
  rwa [show 58 + guardSteps o = 1 + (56 + guardSteps o) + 1 by omega]

/-- The calls that send bytes j, j+1, … of TXBUF (R160). -/
def sendCalls (j n : Nat) : List Micro := (List.range' j n).flatMap fun i => [.sendTx i, .stopIfNack]

theorem ddcSendProc_eq (n : Nat) : ddcSendProc n = sendCalls 0 (4 + n) := by
  rw [ddcSendProc, List.range_eq_range', sendCalls]

theorem sendCalls_add (j m n : Nat) : sendCalls j (m + n) = sendCalls j m ++ sendCalls (j + m) n := by
  rw [sendCalls, ← List.range'_append_1, List.flatMap_append]; rfl

/-- Bytes of TXBUF sent in order to a peer that acknowledges each. -/
theorem sendCalls_transfers {bs : List Byte} {j : Nat} (h : s.holds .tx j bs) (o : Drives) :
    ∃ n o' k', n ≤ 60 * bs.length ∧ Transfers n
      (s.busPoint o ((List.replicate bs.length (receiverScript true)).flatten ++ ds) ⟨sendCalls j bs.length ++ rest, a, k⟩)
      (s.busPoint o' ds ⟨rest, a, k'⟩) (bs.flatMap sentOutputs) := by
  induction bs generalizing j o k with
  | nil => exact ⟨0, o, k, le_rfl, rfl, rfl⟩
  | cons b bs ih =>
    obtain ⟨hb, hbs⟩ := State.holds_cons_iff.1 h
    obtain ⟨n, o', k', hn, later⟩ := ih true hbs ⟨.released, .low⟩
    have first := sendTx_transfers (sendCalls (j + 1) bs.length ++ rest) a k
      ((List.replicate bs.length (receiverScript true)).flatten ++ ds) hb o true
    have steps := guardSteps_le o
    refine ⟨58 + guardSteps o + n, o', k', by rw [List.length_cons]; omega, ?_⟩
    simpa [sendCalls, List.range'_succ, List.replicate_succ] using first.trans later

end Sent

theorem builtFrame_length (payload : List Byte) : (builtFrame payload).length = 4 + payload.length := by
  simp [builtFrame]; omega

/-- `DDCBuild(n)` takes no sample (R155). -/
theorem ddcBuild_transfers {s : State} {payload : List Byte} (h : s.holds .tx 3 payload) (rest : List Micro) (a : Byte)
    (k : Bool) (o : Drives) (ds : List Drives) :
    Transfers 7 (s.busPoint o ds ⟨ddcBuildProc payload.length ++ rest, a, k⟩)
      ((s.built payload).busPoint o ds ⟨rest, xorBytes 0 (frameBody payload), k⟩) [] := by
  have framed : Transfers 3 _ _ [] := ⟨framed_runs s payload.length rest a k o ds, rfl⟩
  have sum : Transfers 1 _ _ [] := .of_one rfl rfl (txsum_runs (.storeAcc .tx (3 + payload.length) :: .chksumFromAcc ::
    .setFrameLen payload.length :: rest) a k o ds (State.txsum_ok (frameBody_length payload) (State.framed_holds h)))
  refine ⟨ddcBuild_runs h rest a k o ds, ?_⟩
  rw [show 7 = 3 + 1 + 3 from rfl, outputsAtSamples_trans (framed.trans sum).1, (framed.trans sum).2]
  rfl

/-- The frame built and the START (R160). -/
theorem buildStart_transfers {s : State} {payload : List Byte} (h : s.holds .tx 3 payload) (rest : List Micro) (a : Byte)
    (k : Bool) (o : Drives) (ds : List Drives) :
    Transfers 14 (s.busPoint o (released :: ds) ⟨ddcBuildProc payload.length ++ (mStartProc ++ rest), a, k⟩)
      ((s.built payload).busPoint ⟨.low, .released⟩ ds ⟨rest, xorBytes 0 (frameBody payload), k⟩) [⟨o.sda, .released⟩] :=
  (ddcBuild_transfers h (mStartProc ++ rest) a k o (released :: ds)).trans
    (mStart_transfers (s.built payload) rest _ k ds o released rfl)

/-- DDC_WRITE up to its STOP or to a byte that is not acknowledged: the frame is built, START, and the bytes before are on SDA
(R160). -/
theorem ddcWrite_transfers {s : State} {payload sent after : List Byte} (hl : payload.length ≤ 35)
    (h : s.holds .tx 3 payload) (hf : builtFrame payload = sent ++ after) (o : Drives) (ds : List Drives) :
    ∃ n o' k, n ≤ 14 + 60 * sent.length ∧ Transfers n
      (s.begun.busPoint o (quietClocks 1 ++ (List.replicate sent.length (receiverScript true)).flatten ++ ds)
        ⟨commandProgram (.ddcWrite (BitVec.ofNat 8 payload.length)), 0, false⟩)
      ((s.built payload).begun.busPoint o' ds
        ⟨sendCalls sent.length after.length ++ (mStopProc ++ [.finish .ok]), xorBytes 0 (frameBody payload), k⟩)
      ([⟨o.sda, .released⟩] ++ sent.flatMap sentOutputs) := by
  have program := commandProgram_ddcWrite (n := BitVec.ofNat 8 payload.length) (by rw [toNat_ofNat_of_le hl]; exact hl)
  have frameLength : 4 + payload.length = sent.length + after.length := by
    rw [← List.length_append, ← hf, builtFrame_length]
  rw [toNat_ofNat_of_le hl, ddcSendProc_eq, frameLength, sendCalls_add, Nat.zero_add] at program
  simp only [List.append_assoc] at program
  have held : (s.built payload).holds .tx 0 sent := (State.holds_append.1 (hf ▸ State.built_holds h)).1
  obtain ⟨n, o', k, hn, bytes⟩ := sendCalls_transfers (s := s.begun.built payload) (sendCalls sent.length after.length ++
    (mStopProc ++ [.finish .ok])) (xorBytes 0 (frameBody payload)) false ds (held.congr rfl) ⟨.low, .released⟩
  refine ⟨14 + n, o', k, by omega, ?_⟩
  rw [program]
  exact (buildStart_transfers (s := s.begun) h _ 0 false o _).trans bytes

/-! ### DDC_WRITE -/

/-- `DDCBuild(n)` writes TXBUF, CHKSUM and FRAMELEN (R155). -/
theorem State.built_eq (s : State) (payload : List Byte) : s.built payload = { s with
    mem := (s.built payload).mem
    chksum := xorBytes 0 (frameBody payload)
    frameLen := BitVec.ofNat 6 payload.length } := by
  simp [State.built, State.framed, State.storeByte]

/-- DDC_WRITE whose run builds the frame and ends with `code`: what it leaves and what it drives. The run is asked for in every
state, since `State.drives` takes it from the acceptance on, with no step left before the host's next act. -/
theorem ddcWrite_finishes {s : State} {payload : List Byte} {code : Result} {script rest outs : List Drives}
    (hm : s.ctrl.mode = .master) (hp : s.holds .tx 3 payload)
    (hs : s.undisturbed 4000 script rest)
    (h : ∀ u : State, u.holds .tx 3 payload → ∃ n, n ≤ 4000 ∧ Transfers n
      (u.begun.busPoint s.out (script ++ rest) ⟨commandProgram (.ddcWrite (BitVec.ofNat 8 payload.length)), 0, false⟩)
      (((u.built payload).withOut .released .released).finishedWith code rest) outs) :
    (∃ m, exec (.ddcWrite (BitVec.ofNat 8 payload.length)) s = .next (({ s with
        mem := m
        chksum := xorBytes 0 (frameBody payload)
        frameLen := BitVec.ofNat 6 payload.length }.withOut .released .released).finishedWith code rest) ∧
      State.holds { s with mem := m } .tx 0 (builtFrame payload) ∧
      sameOutside s { s with mem := m } .tx 0 (4 + payload.length)) ∧
    s.drives (.ddcWrite (BitVec.ofNat 8 payload.length)) 4000 outs := by
  obtain ⟨hq, hpeer⟩ := hs
  constructor
  · obtain ⟨n, hn, run, -⟩ := h s hp
    rw [State.built_eq] at run
    refine ⟨(s.built payload).mem, ?_, (State.built_holds hp).congr rfl, fun a ha => s.built_sameOutside payload a ha⟩
    exact exec_master_of_runs rfl hm hpeer run (by omega) rfl rfl
  · obtain ⟨n, hn, run⟩ := h (s.setQuiet 0) (hp.congr rfl)
    rw [← hpeer] at run
    exact drives_of_transfers (modeAllows_master rfl hm) run hn rfl

/-- Settles O46. -/
theorem ddcWriteSendsTheFrame : Obligations.DdcWriteSendsTheFrame := by
  intro s payload rest hm hl hp hs
  have frameLength := builtFrame_length payload
  refine ddcWrite_finishes hm hp hs fun u held => ?_
  obtain ⟨n, o, k, hn, bytes⟩ := ddcWrite_transfers hl held (List.append_nil _).symm s.out (released :: rest)
  have stop := stopFinish_transfers (u.built payload) (xorBytes 0 (frameBody payload)) k rest o .ok
  have steps := guardSteps_le o
  rw [frameLength] at hn bytes
  exact ⟨n + (8 + guardSteps o + 1), by omega, by simpa [quietClocks] using bytes.trans stop⟩

/-- Settles O47. -/
theorem ddcWriteStopsAtANack : Obligations.DdcWriteStopsAtANack := by
  intro s payload j rest hm hl hp hj hs
  have frameLength := builtFrame_length payload
  obtain ⟨sent, b, after, split, rfl⟩ : ∃ sent b after, builtFrame payload = sent ++ b :: after ∧ sent.length = j := by
    refine ⟨(builtFrame payload).take j, (builtFrame payload)[j], (builtFrame payload).drop (j + 1), ?_,
      List.length_take_of_le (by omega)⟩
    rw [← List.drop_eq_getElem_cons, List.take_append_drop]
  refine ddcWrite_finishes hm hp hs fun u held => ?_
  obtain ⟨n, o, k, hn, bytes⟩ := ddcWrite_transfers hl held split s.out (receiverScript false ++ released :: rest)
  obtain ⟨-, unsent⟩ := State.holds_append.1 (split ▸ State.built_holds held)
  obtain ⟨byte, -⟩ := State.holds_cons_iff.1 unsent
  rw [Nat.zero_add] at byte
  have nacked := sendTx_transfers (s := (u.built payload).begun) (sendCalls (sent.length + 1) after.length ++
    (mStopProc ++ [.finish .ok])) (xorBytes 0 (frameBody payload)) k (released :: rest) byte o false
  have stop : Transfers 9 _ _ _ :=
    stopFinish_transfers (u.built payload) (xorBytes 0 (frameBody payload)) false rest ⟨.released, .low⟩ .noack
  have shown : (builtFrame payload).take (sent.length + 1) = sent ++ [b] := by simp [split, List.take_append]
  have steps := guardSteps_le o
  refine ⟨n + (58 + guardSteps o) + 9, by omega, ?_⟩
  rw [shown]
  simpa [quietClocks] using (bytes.trans nacked).trans stop

/-! ### DDC_READ that stops at its length byte -/

/-- A length byte outside 0x83..0xA3 is Null or Invalid (R152). -/
theorem classify_stops {l : Byte} (h : ¬ (0x83 ≤ l.toNat ∧ l.toNat ≤ 0xA3)) :
    classify l = if l = 0x80 then .null else .invalid := by
  show classify l = if l = nullLen then .null else .invalid
  unfold classify
  by_cases hn : l = nullLen
  · rw [if_pos hn, if_pos hn]
  · rw [if_neg hn, if_neg, if_neg hn]
    rintro ⟨h7, h3, h35⟩
    have high : 128 ≤ l.toNat := by
      have := BitVec.msb_eq_decide l
      rw [BitVec.msb_eq_getLsbD_last, h7] at this
      simpa using this.symm
    have low : lengthBits l = l.toNat % 128 := by simp [lengthBits, BitVec.extractLsb'_toNat]
    have := l.isLt
    simp only [lenMin, lenMax, low] at h3 h35
    omega

/-- What DDC_READ reports of a length byte that is not Valid (R156, R158). -/
theorem readLengthNext_stops {l : Byte} (h : ¬ (0x83 ≤ l.toNat ∧ l.toNat ≤ 0xA3)) :
    readLengthNext (classify l) = mAckBitProc .released ++ (mStopProc ++
      [.setFrameLen 0, .finish (if l = 0x80 then .nullMessage else .invalidLength)]) := by
  rw [classify_stops h]
  split <;> rfl

/-- FRAMELEN is written and the command ends (R161). -/
theorem report_transfers (s : State) (o : Drives) (ds : List Drives) (a : Byte) (k : Bool) (n : Nat) (code : Result) :
    Transfers 2 (s.begun.busPoint o ds ⟨[.setFrameLen n, .finish code], a, k⟩)
      (({ s with frameLen := BitVec.ofNat 6 n }.withOut o.sda o.scl).finishedWith code ds) [] :=
  ⟨.unsampled rfl rfl rfl (.unsampled rfl rfl rfl rfl), rfl⟩

/-- DDC_READ that NACKs its length byte and reports `code`, from its first position to its end (R161). -/
theorem ddcRead_stops_transfers (s : State) (o : Drives) (source : Byte) {l : Byte} {code : Result}
    (h : readLengthNext (classify l) = mAckBitProc .released ++ (mStopProc ++ [.setFrameLen 0, .finish code]))
    (ds : List Drives) :
    Transfers 197 (s.begun.busPoint o (readScript [source, l] ++ quietClocks 1 ++ ds) ⟨commandProgram .ddcRead, 0, false⟩)
      (({ s.storeAll .rx 0 [source, l] with frameLen := 0 }.withOut .released .released).finishedWith code ds)
      ([⟨o.sda, .released⟩] ++ sentOutputs 0x6F ++ receivedOutputs .low ++ receivedOutputs .released ++ stopOutputs) := by
  have head := readHead_transfers s.begun 0 false (released :: released :: ds) o source l
  rw [h] at head
  have nack := mAckBit_transfers (s.begun.storeAll .rx 0 [source, l]) (mStopProc ++ [.setFrameLen 0, .finish code]) l true
    (released :: ds) .released .released released rfl
  have stop := mStop_transfers (s.begun.storeAll .rx 0 [source, l]) [.setFrameLen 0, .finish code] l true ds .released
    released rfl
  have ended := report_transfers (s.storeAll .rx 0 [source, l]) ⟨.released, .released⟩ ds l true 0 code
  have script : readScript [source, l] ++ quietClocks 1 ++ ds =
      quietClocks 1 ++ receiverScript true ++ (byteScript source ++ (senderScript l ++ released :: released :: ds)) := by
    simp [readScript, bytesScript, byteScript, quietClocks]
  rw [script]
  simpa [receivedOutputs] using ((head.trans nack).trans stop).trans ended

/-- Settles O49. -/
theorem ddcReadStopsAtTheLength : Obligations.DdcReadStopsAtTheLength := by
  intro s source l rest hm h ⟨hq, hp⟩
  obtain ⟨held, outside⟩ := State.storeAll_spec s .rx 0 [source, l]
  constructor
  · obtain ⟨run, -⟩ := ddcRead_stops_transfers s s.out source (readLengthNext_stops h) rest
    exact ⟨(s.storeAll .rx 0 [source, l]).mem, exec_master_of_runs rfl hm hp run (by omega) rfl rfl, held.congr rfl,
      fun a ha => outside a ha⟩
  · have run := ddcRead_stops_transfers (s.setQuiet 0) s.out source (readLengthNext_stops h) rest
    rw [← hp] at run
    exact drives_of_transfers (modeAllows_master rfl hm) run (by omega) rfl

end Sys2Proof.Machine
end

section
/-! SUPPORT and CERTIFICATE. The commands of Master mode and the slave automaton (spec/40_engine_master.md R122): none of their
steps uses the automaton variables, and none goes on with a step that does. -/

namespace Sys2Proof.Machine

/-! ### Steps that do not use the automaton -/

/-- The step neither reads nor writes the automaton variables. -/
def Micro.ignoresAutomaton : Micro → Bool
  | .getSample => false
  | .waitSample _ => false
  | .setPrev _ => false
  | .latchAck => false
  | .setSt _ => false
  | .setCount _ => false
  | .setShreg _ => false
  | .setFirst _ => false
  | .shiftIn _ => false
  | .decCount => false
  | .rxByteFromShreg => false
  | .rxFirstFromFirst => false
  | .setStAfterByte => false
  | .applyStretch => false
  | .sendToMasterEnd => false
  | _ => true

/-- No step of the program uses the automaton variables. -/
def ignoresAutomaton (ms : List Micro) : Prop := ms.all Micro.ignoresAutomaton = true

theorem ignoresAutomaton_cons {m : Micro} {ms : List Micro} :
    ignoresAutomaton (m :: ms) ↔ m.ignoresAutomaton = true ∧ ignoresAutomaton ms := by
  simp only [ignoresAutomaton, List.all_cons, Bool.and_eq_true]

theorem ignoresAutomaton_append {ms ns : List Micro} :
    ignoresAutomaton (ms ++ ns) ↔ ignoresAutomaton ms ∧ ignoresAutomaton ns := by
  simp only [ignoresAutomaton, List.all_append, Bool.and_eq_true]

theorem readLengthNext_ignoresAutomaton (c : LengthClass) : ignoresAutomaton (readLengthNext c) := by
  cases c with
  | null => rfl
  | invalid => rfl
  | valid n =>
    have payload : ignoresAutomaton ((List.range n).flatMap readPayloadByte) := all_flatMap_of_forall fun _ _ => rfl
    simp only [readLengthNext, ignoresAutomaton_append]
    exact ⟨⟨⟨⟨⟨⟨rfl, payload⟩, rfl⟩, rfl⟩, rfl⟩, rfl⟩, rfl⟩

theorem rxcheckNext_ignoresAutomaton (c : LengthClass) : ignoresAutomaton (rxcheckNext c) := by
  cases c <;> rfl

theorem stopIfNackNext_ignoresAutomaton (acked : Bool) {rest : List Micro} (h : ignoresAutomaton rest) :
    ignoresAutomaton (stopIfNackNext acked rest) := by
  cases acked
  · rfl
  · exact h

theorem edidWhileNext_ignoresAutomaton (c : Option Nat) : ignoresAutomaton (edidWhileNext c) := by
  unfold edidWhileNext; split <;> rfl

theorem edidMatchNext_ignoresAutomaton (matched : Bool) (c : Nat) : ignoresAutomaton (edidMatchNext matched c) := by
  unfold edidMatchNext; split_ifs <;> rfl

theorem edidAckNext_ignoresAutomaton (c : Option Nat) : ignoresAutomaton (edidAckNext c) := by
  unfold edidAckNext; split <;> rfl

theorem edidPassEndNext_ignoresAutomaton (validated pass : Bool) : ignoresAutomaton (edidPassEndNext validated pass) := by
  unfold edidPassEndNext; split_ifs <;> rfl

/-- A step that does not use the automaton goes on with none that does. -/
theorem runMicro_ignoresAutomaton {m : Micro} {s t : State} (hm : m.ignoresAutomaton = true)
    (hs : ignoresAutomaton s.seq.todo) (h : runMicro m s = .next t) : ignoresAutomaton t.seq.todo := by
  have front {ms : List Micro} (hf : ignoresAutomaton ms) : ignoresAutomaton (s.push ms).seq.todo :=
    ignoresAutomaton_append.2 ⟨hf, hs⟩
  cases m <;> cases hm <;> simp only [runMicro] at h
  -- tests of the lines, and samples
  case clockLowGuard => cases h; split_ifs <;> [exact front rfl; exact hs]
  case releaseStretch => cases h; split_ifs <;> exact hs
  case releaseStretchDelayed => cases h; split_ifs <;> [exact front rfl; exact hs]
  case pollScl k =>
    cases h
    have drawn : ignoresAutomaton s.drawn.seq.todo := by rwa [State.drawn_seq]
    unfold pollNext
    split
    · exact drawn
    · split_ifs
      · rfl
      · exact ignoresAutomaton_append.2 ⟨rfl, drawn⟩
  case sampleAck => cases h; simpa using hs
  case sampleBit => cases h; simpa using hs
  -- programs that the buffers, the length byte or the EDID variables choose
  case sendTx => obtain ⟨v, -, rfl⟩ := withByte_next h; exact front rfl
  case rxcheckLength => obtain ⟨v, -, rfl⟩ := withByte_next h; exact rxcheckNext_ignoresAutomaton _
  case readLength => cases h; exact readLengthNext_ignoresAutomaton _
  case stopIfNack => cases h; exact stopIfNackNext_ignoresAutomaton _ hs
  case edidWhile => cases h; exact edidWhileNext_ignoresAutomaton _
  case edidMatch =>
    split_ifs at h
    · cases h; exact edidMatchNext_ignoresAutomaton false (s.edid.cursor.getD 0)
    · obtain ⟨b, -, rfl⟩ := withTest_next h; exact edidMatchNext_ignoresAutomaton b _
  case edidAckByte => cases h; exact front (edidAckNext_ignoresAutomaton _)
  case edidPassEnd => cases h; exact edidPassEndNext_ignoresAutomaton _ _
  -- ends
  case finish => cases h; rfl
  case finishAck => cases h; rfl
  case rxVerdict => obtain ⟨v, -, rfl⟩ := withByte_next h; rfl
  case edidVerdict => obtain ⟨b, -, rfl⟩ := withTest_next h; unfold edidVerdict; split_ifs <;> rfl
  -- sums
  case txsum => obtain ⟨v, -, rfl⟩ := withByte_next h; exact hs
  case rxsum => obtain ⟨v, -, rfl⟩ := withByte_next h; exact hs
  case edidsum => obtain ⟨v, -, rfl⟩ := withByte_next h; exact hs
  case edidTotal => obtain ⟨v, -, rfl⟩ := withByte_next h; exact hs
  -- every other step goes on with what was left
  all_goals cases h; exact hs

/-! ### The same steps with other automaton variables -/

@[simp] theorem State.withAuto_readBytes (s : State) (a : Automaton) (b : Buffer) (i n : Nat) :
    (s.withAuto a).readBytes b i n = s.readBytes b i n :=
  State.readBytes_congr (s := s) (t := s.withAuto a) rfl b i n

theorem State.withAuto_drawn (s : State) (a : Automaton) : (s.withAuto a).drawn = s.drawn.withAuto a := by
  cases hp : s.env.peer with
  | nil => rw [s.drawn_peer_nil hp, (s.withAuto a).drawn_peer_nil hp]; rfl
  | cons d ds => rw [s.drawn_peer_cons hp, (s.withAuto a).drawn_peer_cons hp]; rfl

theorem State.withAuto_ite (p : Prop) [Decidable p] (t u : State) (a : Automaton) :
    (if p then t else u).withAuto a = if p then t.withAuto a else u.withAuto a :=
  apply_ite (State.withAuto · a) p t u

/-- An outcome with the automaton variables `a`. -/
def outcomeWithAuto (a : Automaton) (o : Outcome) : Outcome :=
  match o with
  | .next t => .next (t.withAuto a)
  | .fault f => .fault f
  | .refused r => .refused r

section WithAuto
variable (a : Automaton)

theorem outcomeWithAuto_next (t : State) : outcomeWithAuto a (.next t) = .next (t.withAuto a) := rfl

theorem outcomeWithAuto_withByte (r : Except Fault Byte) (k : Byte → State) :
    outcomeWithAuto a (withByte r k) = withByte r fun v => (k v).withAuto a := by
  cases r <;> rfl

theorem outcomeWithAuto_withTest (r : Except Fault Bool) (k : Bool → State) :
    outcomeWithAuto a (withTest r k) = withTest r fun b => (k b).withAuto a := by
  cases r <;> rfl

theorem pollNext_withAuto (k : Nat) (l : Level) (s : State) : pollNext k l (s.withAuto a) = (pollNext k l s).withAuto a := by
  cases l with
  | high => rfl
  | low => rw [pollNext, pollNext, State.withAuto_ite]; rfl

theorem edidVerdict_withAuto (h : Bool) (s : State) : edidVerdict h (s.withAuto a) = (edidVerdict h s).withAuto a := by
  unfold edidVerdict; rw [State.withAuto_ite, State.withAuto_ite]; rfl

/-- A step that does not use the automaton does the same beside other automaton variables. -/
theorem runMicro_withAuto {m : Micro} (hm : m.ignoresAutomaton = true) (s : State) :
    runMicro m (s.withAuto a) = outcomeWithAuto a (runMicro m s) := by
  cases m <;> cases hm <;> simp only [runMicro]
  -- tests of the lines, and samples
  case clockLowGuard => rw [outcomeWithAuto_next, State.withAuto_ite]; rfl
  case releaseStretch => rw [outcomeWithAuto_next, State.withAuto_ite]; rfl
  case releaseStretchDelayed => rw [outcomeWithAuto_next, State.withAuto_ite]; rfl
  case pollScl => rw [State.withAuto_drawn, pollNext_withAuto]; rfl
  case sampleAck => rw [State.withAuto_drawn]; rfl
  case sampleBit => rw [State.withAuto_drawn]; rfl
  -- reads of the buffers
  case txsum => simp only [outcomeWithAuto_withByte, State.txsum, State.withAuto_readBytes]; rfl
  case rxsum => simp only [outcomeWithAuto_withByte, State.rxsum, State.withAuto_readBytes]; rfl
  case edidsum => simp only [outcomeWithAuto_withByte, State.edidsum, State.withAuto_readBytes]; rfl
  case edidTotal => simp only [outcomeWithAuto_withByte, State.edidTotal, State.withAuto_readBytes]; rfl
  case sendTx => rw [outcomeWithAuto_withByte]; rfl
  case rxcheckLength => rw [outcomeWithAuto_withByte]; rfl
  case rxVerdict => rw [outcomeWithAuto_withByte]; rfl
  case edidVerdict =>
    simp only [outcomeWithAuto_withTest, State.edidHeaderAtStart, State.withAuto_readBytes, edidVerdict_withAuto]
  case edidMatch =>
    simp only [State.headerAt, State.withAuto_readBytes]
    show (if s.edid.validated = true then _ else _) = _
    split
    · rfl
    · rw [outcomeWithAuto_withTest]; rfl
  all_goals rfl

theorem controllerStep_withAuto {s : State} (hs : ignoresAutomaton s.seq.todo) :
    controllerStep (s.withAuto a) = outcomeWithAuto a (controllerStep s) := by
  cases ht : s.seq.todo with
  | nil => rw [controllerStep_idle ht, controllerStep_idle (s := s.withAuto a) ht]; rfl
  | cons m rest =>
    rw [controllerStep_cons ht, controllerStep_cons (s := s.withAuto a) ht]
    exact runMicro_withAuto a (ignoresAutomaton_cons.1 (ht ▸ hs)).1 (s.jump rest)

theorem controllerStep_ignoresAutomaton {s t : State} (hs : ignoresAutomaton s.seq.todo) (h : controllerStep s = .next t) :
    ignoresAutomaton t.seq.todo := by
  cases ht : s.seq.todo with
  | nil => rw [controllerStep_idle ht] at h; cases h; exact hs
  | cons m rest =>
    rw [controllerStep_cons ht] at h
    obtain ⟨hm, hrest⟩ := ignoresAutomaton_cons.1 (ht ▸ hs)
    exact runMicro_ignoresAutomaton hm hrest h

/-- A run whose position does not use the automaton is the same beside other automaton variables. -/
theorem runController_withAuto {n : Nat} {s : State} (hs : ignoresAutomaton s.seq.todo) :
    runController n (s.withAuto a) = outcomeWithAuto a (runController n s) := by
  have sameSeq : (s.withAuto a).seq = s.seq := rfl
  have sameDraw : (s.withAuto a).needsDraw = s.needsDraw := rfl
  induction n generalizing s with
  | zero => rfl
  | succ n ih =>
    by_cases ht : s.seq.todo = []
    · simp only [runController, sameSeq, ht, if_true]; rfl
    · cases hd : s.needsDraw with
      | true => simp only [runController, sameSeq, sameDraw, ht, hd, if_true, if_false]; rfl
      | false =>
        rw [runController_succ n ht hd, runController_succ (s := s.withAuto a) n ht (sameDraw.trans hd),
          controllerStep_withAuto a hs]
        cases hc : controllerStep s with
        | next t => exact ih (controllerStep_ignoresAutomaton hs hc) rfl rfl
        | fault f => rfl
        | refused r => rfl

end WithAuto

/-! ### The commands -/

/-- The programs of the commands that need Master mode do not use the automaton. -/
theorem commandProgram_ignoresAutomaton {i : Instr} (hi : neededMode i = some .master) :
    ignoresAutomaton (commandProgram i) := by
  cases i <;> cases hi
  case ddcWrite n =>
    have bytes (k : Nat) : ignoresAutomaton (ddcSendProc k) := all_flatMap_of_forall fun _ _ => rfl
    simp only [commandProgram, ifLengthAllowed]
    split_ifs
    · rfl
    · simp only [ignoresAutomaton_append]
      exact ⟨⟨⟨⟨rfl, rfl⟩, bytes _⟩, rfl⟩, rfl⟩
  case ddcRead =>
    simp only [commandProgram, ignoresAutomaton_append]
    exact ⟨⟨⟨⟨⟨⟨⟨rfl, rfl⟩, rfl⟩, rfl⟩, rfl⟩, rfl⟩, rfl⟩, rfl⟩
  all_goals rfl

/-- Settles O30: the mode check reads CTRL alone, and no step of the run uses the automaton. -/
theorem masterCommandsIgnoreTheAutomaton : Obligations.MasterCommandsIgnoreTheAutomaton := by
  intro i s a hi
  have same : exec i (s.withAuto a) = outcomeWithAuto a (exec i s) := by
    rw [exec_eq_runCommand, exec_eq_runCommand]
    cases hm : modeAllows (neededMode i) s with
    | false => rw [runCommand_wrongMode hm, runCommand_wrongMode (s := s.withAuto a) hm]; rfl
    | true =>
      rw [runCommand_allowed hm, runCommand_allowed (s := s.withAuto a) hm]
      exact runController_withAuto a (s := s.start (commandProgram i)) (commandProgram_ignoresAutomaton hi)
  rw [same]
  cases exec i s <;> rfl

end Sys2Proof.Machine
end

section
/-! SUPPORT and CERTIFICATE. S_GET_BYTE over the samples of a bus master's byte (spec/41_engine_slave.md R130-R141): the
conditions that restart or stop it, the bits it shifts in, the ACK, and an idle bus on which it waits. -/

namespace Sys2Proof.Machine

/-! ### What a START and a STOP choose -/

section Conditions
variable {a : Automaton} {cur : Levels}

theorem not_isStart_of_isStop {previous : Levels} (h : isStop previous cur = true) : isStart previous cur = false := by
  obtain ⟨⟨low, -⟩, -⟩ := (isStop_iff _ _).1 h
  rw [Bool.eq_false_iff, Ne, isStart_iff, low]
  rintro ⟨⟨high, -⟩, -⟩
  cases high

/-- A START restarts the automaton, whatever its state (R132). -/
theorem getByteNext_of_start (h : isStart a.prev cur = true) : getByteNext a cur = startActions ++ getLoop := if_pos h

/-- A STOP outside WaitStart discards the bits received so far (R133). -/
theorem getByteNext_of_stop (h : isStop a.prev cur = true) (hst : a.st ≠ .waitStart) :
    getByteNext a cur = stopActions ++ getLoop := by
  simp [getByteNext, not_isStart_of_isStop h, h, hst]

/-- In WaitStart a STOP has no actions (R133). -/
theorem getByteNext_of_stop_waitStart (h : isStop a.prev cur = true) (hst : a.st = .waitStart) :
    getByteNext a cur = getLoop := by
  simp [getByteNext, not_isStart_of_isStop h, hst, automatonRow]

end Conditions

/-! ### One pass of the loop -/

section Loop
variable (s : State) (peer : List Drives)

/-- A held SCL is released first (R138, R140). -/
theorem releaseStretch_runs (todo : List Micro) :
    Runs 1 (s.runningAt (.releaseStretch :: todo) peer) ((s.withOut s.out.sda .released).runningAt todo peer) := by
  obtain ⟨⟨sda, scl⟩, _⟩ := s
  cases scl <;> exact .unsampled rfl rfl rfl rfl

/-- `prev` takes the sample, and what the sample chose comes next (R130, R140). -/
theorem getLoop_runs (d : Drives) :
    Runs 3 (s.runningAt getLoop (d :: peer))
      ((s.setPrev (levelsOf s.out d)).runningAt (getByteNext s.auto (levelsOf s.out d)) peer) :=
  .unsampled rfl rfl rfl (.step rfl (fun _ => List.cons_ne_nil _ _) rfl (.unsampled rfl rfl rfl rfl))

/-- A sample pair that sees SCL Low takes a row of the transition table (R134). -/
theorem getLoop_runs_row {n : Nat} {t : State} {d : Drives} {actions : List Micro}
    (hlow : s.auto.prev.scl = .low ∨ (levelsOf s.out d).scl = .low)
    (hrow : automatonRow s.auto.st (lineEvent s.auto.prev.scl (levelsOf s.out d).scl) s.auto.count
      (levelsOf s.out d).sda = some actions)
    (hr : Runs n ((s.setPrev (levelsOf s.out d)).runningAt (actions ++ getLoop) peer) t) :
    Runs (3 + n) (s.runningAt getLoop (d :: peer)) t := by
  have pass := getLoop_runs s peer d
  rw [getByteNext_of_row (fun ⟨hp, hc, _⟩ => by simp [hp, hc] at hlow) hrow] at pass
  exact pass.trans hr

/-- Two samples of an idle bus are no event that the table lists. -/
theorem getByteNext_idle {a : Automaton} (h : a.prev = ⟨.high, .high⟩) : getByteNext a ⟨.high, .high⟩ = getLoop :=
  getByteNext_of_row (actions := []) (by simp [h])
    (by rw [h]; exact automatonRow_unlisted _ _ (fun e => by cases e) (fun e => by cases e))

end Loop

/-! ### S_GET_BYTE from its first position -/

section Exec
variable {s t : State} {n : Nat} (hm : s.ctrl.mode = .slave)
  (hr : Runs n (s.runningAt (.releaseStretch :: getLoop) s.env.peer) t)
include hm hr

/-- S_GET_BYTE whose steps end in `finish`. -/
theorem exec_sGetByte_finishes (hq : n ≤ s.env.quiet) (ht : t.seq.todo = []) (h0 : t.env.quiet = 0) :
    exec .sGetByte s = .next t := by
  rw [exec_sGetByte s hm, runController_of_runs hr hq, runController_idle _ ht h0]

/-- S_GET_BYTE in the middle of its run, the host's next act being due. -/
theorem exec_sGetByte_due (hq : s.env.quiet = n) : exec .sGetByte s = .next (t.setQuiet 0) := by
  rw [exec_sGetByte s hm, runController_of_runs hr hq.ge, hq, Nat.sub_self, runController_zero]

end Exec

/-! ### START and STOP -/

section Bus
variable (s : State) (peer : List Drives)

/-- A START from an idle bus, sampled with SCL released (R132). -/
theorem sGetByte_start_runs (hp : s.auto.prev = ⟨.high, .high⟩) :
    Runs 8 (s.runningAt (.releaseStretch :: getLoop) (sdaLow :: peer))
      (((s.withOut s.out.sda .released).withAuto ⟨.start, 8, 0, true, ⟨.low, .high⟩⟩).runningAt getLoop peer) := by
  have cur : levelsOf (s.withOut s.out.sda .released).out sdaLow = ⟨.low, .high⟩ := by
    show levelsOf ⟨s.out.sda, .released⟩ sdaLow = _
    cases s.out.sda <;> rfl
  have start : isStart s.auto.prev ⟨.low, .high⟩ = true := by rw [hp]; rfl
  have pass := getLoop_runs (s.withOut s.out.sda .released) peer sdaLow
  rw [cur, show (s.withOut s.out.sda .released).auto = s.auto from rfl, getByteNext_of_start start] at pass
  refine ((releaseStretch_runs s (sdaLow :: peer) getLoop).trans pass).trans (n := 4) ?_
  exact .unsampled rfl rfl rfl (.unsampled rfl rfl rfl (.unsampled rfl rfl rfl (.unsampled rfl rfl rfl rfl)))

/-- A first sample with both lines High, `next` being what it chose beside the automaton (R130, R138). -/
theorem sGetByte_stop_runs (ho : s.out.sda = .released) {next : List Micro}
    (hn : getByteNext s.auto ⟨.high, .high⟩ = next) :
    Runs 4 (s.runningAt (.releaseStretch :: getLoop) (released :: peer))
      (((s.withOut .released .released).setPrev ⟨.high, .high⟩).runningAt next peer) := by
  have pass := getLoop_runs (s.withOut s.out.sda .released) peer released
  rw [ho] at pass
  subst hn
  have freed := releaseStretch_runs s (released :: peer) getLoop
  rw [ho] at freed
  exact freed.trans pass

end Bus

/-- Settles O34: the START, the STOP outside WaitStart and the STOP in it, each with its actions. -/
theorem conditionsInSGetByte : Obligations.ConditionsInSGetByte := by
  intro s rest hm
  have stop : isStop ⟨.low, .high⟩ ⟨.high, .high⟩ = true := rfl
  refine ⟨?start, ?stop, ?stopInWaitStart⟩
  case start =>
    intro hp hpeer hq
    exact exec_sGetByte_due hm (hpeer ▸ sGetByte_start_runs s rest hp) hq
  case stop =>
    intro hp ho hpeer hst hq
    have sampled := sGetByte_stop_runs s rest ho (getByteNext_of_stop (hp ▸ stop) hst)
    rw [← hpeer] at sampled
    exact exec_sGetByte_due hm (sampled.trans (n := 5) (.unsampled rfl rfl rfl (.unsampled rfl rfl rfl
      (.unsampled rfl rfl rfl (.unsampled rfl rfl rfl (.unsampled rfl rfl rfl rfl)))))) hq
  case stopInWaitStart =>
    intro hp ho hpeer hst hq
    have sampled := sGetByte_stop_runs s rest ho (getByteNext_of_stop_waitStart (hp ▸ stop) hst)
    rw [← hpeer] at sampled
    exact exec_sGetByte_due hm sampled hq

/-! ### The bits of a byte -/

/-- `s` before the clock pulse of a bit, SCL being Low and n bits still to come, `v` holding those received; with none to come
the block drives its ACK (R134). -/
def State.receiving (s : State) (v : Byte) (first : Bool) (sda : Level) : Nat → State
  | 0 => (s.withOut .low .released).withAuto ⟨.ack, 0, v, first, ⟨sda, .low⟩⟩
  | n + 1 => (s.withOut .released .released).withAuto ⟨.clockAvailable, n + 1, v, first, ⟨sda, .low⟩⟩

/-- `s` after S_GET_BYTE received `v`: the automaton and SCL are left as B2B and STRETCH say (R135, R137). -/
def State.byteReceived (s : State) (v : Byte) (first : Bool) (peer : List Drives) : State :=
  ({ s with
    rxData := ⟨v, first⟩
    auto := ⟨if s.ctrl.b2b then .clockAvailable else .waitStart, 8, 0, false, ⟨.low, .low⟩⟩ }.withOut .released
      (if s.ctrl.b2b ∧ s.ctrl.stretch then .low else .released)).finishedWith .ok peer

section Bits
variable (s : State) (peer : List Drives) (b v : Byte) (first : Bool) (sda : Level)

/-- A clock pulse shifts the bit on SDA in (R134). -/
theorem masterBit_runs (n : Nat) :
    ∃ m sda', m ≤ 14 ∧ Runs m ((s.receiving v first sda (n + 1)).runningAt getLoop (masterBit b n ++ peer))
      ((s.receiving (setBit v n (lineLevel .released (bitDrive b n))) first sda' n).runningAt getLoop peer) := by
  have low : Runs 3 ((s.receiving v first sda (n + 1)).runningAt getLoop (masterBit b n ++ peer))
      ((s.receiving v first (lineLevel .released (bitDrive b n)) (n + 1)).runningAt getLoop
        (⟨bitDrive b n, .released⟩ :: ⟨bitDrive b n, .low⟩ :: peer)) :=
    getLoop_runs_row (n := 0) (s.receiving v first sda (n + 1)) _ (.inl rfl) rfl rfl
  have rises : Runs 6 ((s.receiving v first (lineLevel .released (bitDrive b n)) (n + 1)).runningAt getLoop
        (⟨bitDrive b n, .released⟩ :: ⟨bitDrive b n, .low⟩ :: peer))
      (((s.withOut .released .released).withAuto ⟨.data, n, setBit v n (lineLevel .released (bitDrive b n)), first,
        ⟨lineLevel .released (bitDrive b n), .high⟩⟩).runningAt getLoop (⟨bitDrive b n, .low⟩ :: peer)) :=
    getLoop_runs_row (n := 3) (s.receiving v first _ (n + 1)) _ (.inl rfl) rfl
      (.unsampled rfl rfl rfl (.unsampled rfl rfl rfl (.unsampled rfl rfl rfl rfl)))
  cases n with
  | zero =>
    exact ⟨14, lineLevel .released (bitDrive b 0), le_rfl, (low.trans rises).trans (n := 5)
      (getLoop_runs_row (n := 2) _ _ (.inr rfl) rfl (.unsampled rfl rfl rfl (.unsampled rfl rfl rfl rfl)))⟩
  | succ n =>
    exact ⟨13, lineLevel .released (bitDrive b (n + 1)), by decide, (low.trans rises).trans (n := 4)
      (getLoop_runs_row (n := 1) _ _ (.inr rfl) rfl (.unsampled rfl rfl rfl rfl))⟩

/-- The bits still to come, most-significant first, complete the byte (R70, R134). -/
theorem masterBits_runs {n : Nat} (hv : ∀ k, k < 8 → n ≤ k → v.getLsbD k = b.getLsbD k) :
    ∃ m sda', m ≤ 14 * n ∧ Runs m
      ((s.receiving v first sda n).runningAt getLoop ((List.range n).reverse.flatMap (masterBit b) ++ peer))
      ((s.receiving b first sda' 0).runningAt getLoop peer) := by
  induction n generalizing v sda with
  | zero =>
    obtain rfl : v = b := BitVec.eq_of_getLsbD_eq fun k hk => hv k hk (Nat.zero_le k)
    exact ⟨0, sda, le_rfl, rfl⟩
  | succ n ih =>
    have level : decide (lineLevel .released (bitDrive b n) = .high) = b.getLsbD n := by
      unfold bitDrive; cases b.getLsbD n <;> rfl
    obtain ⟨m, sda', hm, bit⟩ := masterBit_runs s ((List.range n).reverse.flatMap (masterBit b) ++ peer) b v first sda n
    obtain ⟨m', sda'', hm', others⟩ := ih (setBit v n (lineLevel .released (bitDrive b n))) sda' fun k hk hn => by
      rw [setBit_getLsbD _ _ _ _ hk]
      split_ifs with h
      · rw [level, h]
      · exact hv k hk (by omega)
    refine ⟨m + m', sda'', by omega, ?_⟩
    rw [List.range_succ, List.reverse_append, List.reverse_singleton, List.singleton_append, List.flatMap_cons,
      List.append_assoc]
    exact bit.trans others

/-- The block's ACK on the ninth clock pulse, and byte completion at its end (R134, R135). -/
theorem masterNinth_runs :
    Runs 19 ((s.receiving v first sda 0).runningAt getLoop (masterNinth .released ++ peer))
      (s.byteReceived v first peer) := by
  have low : Runs 3 ((s.receiving v first sda 0).runningAt getLoop (masterNinth .released ++ peer))
      ((s.receiving v first .low 0).runningAt getLoop (released :: sclLow :: peer)) :=
    getLoop_runs_row (n := 0) (s.receiving v first sda 0) _ (.inl rfl) rfl rfl
  have rises : Runs 4 ((s.receiving v first .low 0).runningAt getLoop (released :: sclLow :: peer))
      (((s.withOut .low .released).withAuto ⟨.ackDone, 0, v, first, ⟨.low, .high⟩⟩).runningAt getLoop (sclLow :: peer)) :=
    getLoop_runs_row (n := 1) (s.receiving v first .low 0) _ (.inl rfl) rfl (.unsampled rfl rfl rfl rfl)
  have falls : Runs 3
      (((s.withOut .low .released).withAuto ⟨.ackDone, 0, v, first, ⟨.low, .high⟩⟩).runningAt getLoop (sclLow :: peer))
      (((s.withOut .low .released).withAuto ⟨.ackDone, 0, v, first, ⟨.low, .low⟩⟩).runningAt byteCompletion peer) :=
    getLoop_runs ((s.withOut .low .released).withAuto ⟨.ackDone, 0, v, first, ⟨.low, .high⟩⟩) peer sclLow
  exact ((low.trans rises).trans falls).trans (byteCompletion_runs _ peer)

/-- A whole byte and its ACK (R134, R135). -/
theorem masterByte_runs :
    ∃ m ≤ 131, Runs m ((s.receiving v first sda 8).runningAt getLoop (masterByte b ++ peer))
      (s.byteReceived b first peer) := by
  obtain ⟨m, sda', hm, bits⟩ := masterBits_runs s (masterNinth .released ++ peer) b v first sda (n := 8)
    fun k hk hn => absurd hk (by omega)
  refine ⟨m + 19, by omega, ?_⟩
  rw [masterByte, List.append_assoc]
  exact bits.trans (masterNinth_runs s peer b first sda')

end Bits

/-- Settles O32: the START, its falling clock, and the byte. -/
theorem sGetByteAfterStart : Obligations.SGetByteAfterStart := by
  intro s b rest hm hp ho ⟨hq, hpeer⟩
  have started := sGetByte_start_runs s (⟨.low, .low⟩ :: (masterByte b ++ rest)) hp
  rw [ho] at started
  have falls : Runs 4
      (((s.withOut .released .released).withAuto ⟨.start, 8, 0, true, ⟨.low, .high⟩⟩).runningAt getLoop
        (⟨.low, .low⟩ :: (masterByte b ++ rest)))
      ((s.receiving 0 true .low 8).runningAt getLoop (masterByte b ++ rest)) :=
    getLoop_runs_row (n := 1) _ _ (.inr rfl) rfl (.unsampled rfl rfl rfl rfl)
  obtain ⟨m, hle, byte⟩ := masterByte_runs s rest b 0 true .low
  have run := (started.trans falls).trans byte
  rw [show sdaLow :: ⟨.low, .low⟩ :: (masterByte b ++ rest) = s.env.peer by rw [hpeer]; rfl] at run
  exact exec_sGetByte_finishes hm run (by omega) rfl rfl

/-- Settles O33: the held SCL is released, and the byte goes on from ClockAvailable. -/
theorem sGetByteBackToBack : Obligations.SGetByteBackToBack := by
  intro s b rest hm hst hcount hscl ho ⟨hq, hpeer⟩
  have auto : s.auto = ⟨.clockAvailable, 8, s.auto.shreg, s.auto.first, ⟨s.auto.prev.sda, .low⟩⟩ := by
    rw [← hst, ← hcount, ← hscl]
  have ready : s.withOut s.out.sda .released = s.receiving s.auto.shreg s.auto.first s.auto.prev.sda 8 := by
    rw [State.receiving, ← auto, ho]
    rfl
  obtain ⟨m, hle, byte⟩ := masterByte_runs s rest b s.auto.shreg s.auto.first s.auto.prev.sda
  have freed := releaseStretch_runs s (masterByte b ++ rest) getLoop
  rw [ready] at freed
  exact exec_sGetByte_finishes hm (hpeer ▸ freed.trans byte) (by omega) rfl rfl

/-! ### An idle bus -/

/-- What S_GET_BYTE keeps while it waits. -/
structure WaitsAs (s t : State) : Prop where
  busy : t.status.busy = true
  auto : t.auto = s.auto
  rxData : t.rxData = s.rxData
  mem : t.mem = s.mem

section Idle
variable (s : State) (peer : List Drives) (hp : s.auto.prev = ⟨.high, .high⟩) (ho : s.out = ⟨.released, .released⟩)
include hp ho

/-- A sample of an idle bus brings the loop back to its beginning (R141). -/
theorem getLoop_runs_idle : Runs 3 (s.runningAt getLoop (released :: peer)) (s.runningAt getLoop peer) := by
  have pass := getLoop_runs s peer released
  rw [ho, show levelsOf ⟨.released, .released⟩ released = ⟨.high, .high⟩ from rfl, getByteNext_idle hp,
    show s.setPrev ⟨.high, .high⟩ = s by rw [← hp]; rfl] at pass
  exact pass

/-- Along the n samples that are listed the loop only waits, wherever the host's next act falls (R245). -/
theorem getLoop_waits (n : Nat) {q : Nat} (hq : q ≤ 3 * n + 1) :
    ∃ t, runController q (s.runningAt getLoop (quietClocks n ++ peer)) = .next t ∧ WaitsAs s t := by
  have delayed (ds : List Drives) : Runs 1 (s.runningAt getLoop ds) (s.runningAt [.getSample] ds) := .unsampled rfl rfl rfl rfl
  induction n generalizing q with
  | zero =>
    interval_cases q
    · exact ⟨_, rfl, rfl, rfl, rfl, rfl⟩
    · exact ⟨_, runController_of_runs (delayed _) le_rfl, rfl, rfl, rfl, rfl⟩
  | succ n ih =>
    have sampled (ds : List Drives) : Runs 1 (s.runningAt [.getSample] (released :: ds))
        (s.runningAt (.setPrev (levelsOf s.out released) :: getByteNext s.auto (levelsOf s.out released)) ds) :=
      .step rfl (fun _ => List.cons_ne_nil _ _) rfl rfl
    rcases Nat.lt_or_ge q 3 with h3 | h3
    · interval_cases q
      · exact ⟨_, rfl, rfl, rfl, rfl, rfl⟩
      · exact ⟨_, runController_of_runs (delayed _) le_rfl, rfl, rfl, rfl, rfl⟩
      · exact ⟨_, runController_of_runs ((delayed _).trans (sampled _)) le_rfl, rfl, rfl, rfl, rfl⟩
    · rw [show quietClocks (n + 1) ++ peer = released :: (quietClocks n ++ peer) from rfl,
        runController_of_runs (getLoop_runs_idle s _ hp ho) h3]
      exact ih (by omega)

end Idle

/-- Settles O39: SCL is released in the first step, and then the loop waits. -/
theorem sGetByteWaitsOnAnIdleBus : Obligations.SGetByteWaitsOnAnIdleBus := by
  intro s n rest hm hp ho hpeer hq
  rw [exec_sGetByte s hm, hpeer]
  cases hs : s.env.quiet with
  | zero => exact ⟨_, rfl, rfl, rfl, rfl, rfl⟩
  | succ q =>
    obtain ⟨t, run, waits⟩ := getLoop_waits (s.withOut s.out.sda .released) rest hp (by rw [ho]; rfl) n (q := q) (by omega)
    refine ⟨t, ?_, waits.busy, waits.auto, waits.rxData, waits.mem⟩
    rw [runController_of_runs (releaseStretch_runs s _ getLoop) (by omega)]
    exact run

end Sys2Proof.Machine
end

section
/-! SUPPORT and CERTIFICATE. S_SEND_TO_MASTER at each of its samples (spec/41_engine_slave.md R142-R144, R243): the START or
STOP that ends it, the clock event that lets it go on, and the ninth bit by which it completes. -/

namespace Sys2Proof.Machine

/-! ### What a sample of `WaitClock` chooses -/

section Chosen
variable {e : Event} {previous cur : Levels} (rest : List Micro)

theorem waitClockNext_of_start (h : isStart previous cur = true) :
    waitClockNext e previous cur rest = [.setSda .released] ++ startActions ++ [.finish .unexpectedStart] := if_pos h

theorem waitClockNext_of_stop (h : isStop previous cur = true) :
    waitClockNext e previous cur rest = stopActions ++ [.finish .unexpectedStop] := by
  simp [waitClockNext, not_isStart_of_isStop h, h]

/-- A sample that shows neither a condition nor the awaited event leaves the command waiting (R142). -/
theorem waitClockNext_waits (h1 : isStart previous cur = false) (h2 : isStop previous cur = false)
    (he : lineEvent previous.scl cur.scl ≠ e) : waitClockNext e previous cur rest = waitClock e ++ rest := by
  simp [waitClockNext, h1, h2, he]

end Chosen

/-! ### At whatever sample -/

section Waiting
variable {s : State} {e : Event} {todo : List Micro} {d : Drives} {rest : List Drives}
  (ht : s.seq.todo = .waitSample e :: todo) (hp : s.env.peer = d :: rest)
include ht hp

/-- The sample, and `prev` takes it (R130); what the sample chose comes next. -/
theorem waitSample_runs {next : List Micro} (hn : waitClockNext e s.auto.prev (levelsOf s.out d) todo = next) :
    Runs 2 s ((s.setPrev (levelsOf s.out d)).busPoint s.out rest { s.seq with todo := next }) := by
  have levels : (s.jump todo).levels = levelsOf s.out d := by
    show levelsOf s.out s.peerDrive = _
    rw [State.peerDrive, hp]
  have sampled : runMicro (.waitSample e) (s.jump todo) =
      .next (s.busPoint s.out rest { s.seq with todo := .setPrev (levelsOf s.out d) :: next }) := by
    show Host.Outcome.next (State.slaveSample _ (waitClockNext e s.auto.prev (s.jump todo).levels todo)) = _
    rw [State.slaveSample, levels, hn, State.drawn_peer_cons (s.jump todo) hp]
    rfl
  exact .step ht (fun _ => by simp [hp]) sampled (.unsampled rfl rfl rfl rfl)

/-- A START ends the command (R142). -/
theorem waitSample_runs_start (h : s.auto.prev = ⟨.high, .high⟩) (hc : levelsOf s.out d = ⟨.low, .high⟩) :
    Runs 8 s (((s.withOut .released s.out.scl).withAuto ⟨.start, 8, 0, true, ⟨.low, .high⟩⟩).finishedWith
      .unexpectedStart rest) := by
  have start : isStart s.auto.prev (levelsOf s.out d) = true := by rw [h, hc]; rfl
  have sampled := waitSample_runs ht hp (waitClockNext_of_start todo start)
  rw [hc] at sampled
  exact sampled.trans (n := 6) (.unsampled rfl rfl rfl (.unsampled rfl rfl rfl (.unsampled rfl rfl rfl
    (.unsampled rfl rfl rfl (.unsampled rfl rfl rfl (.unsampled rfl rfl rfl rfl))))))

/-- A STOP ends the command, in WaitStart too (R142). -/
theorem waitSample_runs_stop (h : s.auto.prev = ⟨.low, .high⟩) (hc : levelsOf s.out d = ⟨.high, .high⟩) :
    Runs 8 s (((s.withOut .released s.out.scl).withAuto ⟨.waitStart, 8, 0, false, ⟨.high, .high⟩⟩).finishedWith
      .unexpectedStop rest) := by
  have stop : isStop s.auto.prev (levelsOf s.out d) = true := by rw [h, hc]; rfl
  have sampled := waitSample_runs ht hp (waitClockNext_of_stop todo stop)
  rw [hc] at sampled
  exact sampled.trans (n := 6) (.unsampled rfl rfl rfl (.unsampled rfl rfl rfl (.unsampled rfl rfl rfl
    (.unsampled rfl rfl rfl (.unsampled rfl rfl rfl (.unsampled rfl rfl rfl rfl))))))

/-- Any other sample changes `prev` alone, and the command waits for its next one (R142). -/
theorem waitSample_runs_again (h1 : isStart s.auto.prev (levelsOf s.out d) = false)
    (h2 : isStop s.auto.prev (levelsOf s.out d) = false) (he : lineEvent s.auto.prev.scl (levelsOf s.out d).scl ≠ e) :
    Runs 3 s ((s.setPrev (levelsOf s.out d)).busPoint s.out rest s.seq) := by
  have seq : s.seq = { s.seq with todo := .waitSample e :: todo } := by rw [← ht]
  rw [seq]
  exact (waitSample_runs ht hp (waitClockNext_waits todo h1 h2 he)).snoc rfl rfl rfl

end Waiting

/-- A START, both lines spelt out (R131). -/
theorem isStart_eq_true_iff (previous cur : Levels) :
    isStart previous cur = true ↔ previous = ⟨.high, .high⟩ ∧ cur = ⟨.low, .high⟩ := by
  obtain ⟨_, _⟩ := previous
  obtain ⟨_, _⟩ := cur
  rw [isStart_iff, Levels.mk.injEq, Levels.mk.injEq]
  tauto

/-- A STOP, both lines spelt out (R131). -/
theorem isStop_eq_true_iff (previous cur : Levels) :
    isStop previous cur = true ↔ previous = ⟨.low, .high⟩ ∧ cur = ⟨.high, .high⟩ := by
  obtain ⟨_, _⟩ := previous
  obtain ⟨_, _⟩ := cur
  rw [isStop_iff, Levels.mk.injEq, Levels.mk.injEq]
  tauto

/-- The clock events that S_SEND_TO_MASTER waits for. -/
theorem lineEvent_eq_iff_of_mem {e : Event} (he : e ∈ [Event.rising, .falling]) (previous cur : Level) :
    lineEvent previous cur = e ↔
      e = .rising ∧ previous = .low ∧ cur = .high ∨ e = .falling ∧ previous = .high ∧ cur = .low := by
  rcases List.mem_pair.1 he with rfl | rfl <;> simp

/-! ### The first sample -/

/-- S_SEND_TO_MASTER up to its first sample, with SCL not held: SDA shows bit 7 (R143). -/
theorem sSendToMaster_firstSample (s : State) (b : Byte) (ho : s.out.scl = .released) :
    ∃ todo, Runs 3 (s.start (commandProgram (.sSendToMaster b)))
      (s.begun.busPoint ⟨bitDrive b 7, .released⟩ s.env.peer ⟨.waitSample .rising :: todo, 0, false⟩) := by
  obtain ⟨after, program⟩ := commandProgram_sSendToMaster b (j := 0) (by decide)
  have shown : Runs 1 (s.begun.busPoint s.out s.env.peer ⟨sendToMasterBit b 7 ++ after, 0, false⟩)
      (s.begun.busPoint ⟨bitDrive b 7, .released⟩ s.env.peer
        ⟨.releaseStretchDelayed :: (waitClock .rising ++ (waitClock .falling ++ after)), 0, false⟩) :=
    .unsampled rfl rfl rfl (by rw [← ho]; rfl)
  refine ⟨waitClock .falling ++ after, ?_⟩
  rw [State.start_eq_busPoint, program]
  exact (shown.snoc rfl rfl rfl).snoc rfl rfl rfl

/-- Settles O38: what each sample chooses, and the first sample, which sees bit 7 on SDA. -/
theorem unexpectedConditions : Obligations.UnexpectedConditions := by
  constructor
  · intro s e todo d rest n p cur starts stops happens ht he hp
    have event : lineEvent p.scl cur.scl = e ↔ happens := lineEvent_eq_iff_of_mem he _ _
    refine ⟨?starts, ?stops, ?happens, ?waits⟩
    case starts =>
      rintro ⟨h, hc⟩ hn
      rw [runController_of_runs (waitSample_runs_start ht hp h hc) hn]
      exact runController_idle _ rfl rfl
    case stops =>
      rintro ⟨h, hc⟩ hn
      rw [runController_of_runs (waitSample_runs_stop ht hp h hc) hn]
      exact runController_idle _ rfl rfl
    case happens =>
      intro h
      have high : e ≠ .high := by rintro rfl; simp at he
      exact runController_of_runs (waitSample_runs ht hp (waitClockNext_of_event (event.2 h) high todo))
        (Nat.le_add_left 2 n)
    case waits =>
      intro h1 h2 h3
      have noStart : isStart p cur = false := Bool.eq_false_iff.2 fun h => h1 ((isStart_eq_true_iff _ _).1 h)
      have noStop : isStop p cur = false := Bool.eq_false_iff.2 fun h => h2 ((isStop_eq_true_iff _ _).1 h)
      exact runController_of_runs (waitSample_runs_again ht hp noStart noStop fun h => h3 (event.1 h))
        (Nat.le_add_left 3 n)
  · intro s b d rest hm ho hscl ⟨hq, hp⟩ hd
    obtain ⟨todo, first⟩ := sSendToMaster_firstSample s b ho
    have allowed : modeAllows (neededMode (.sSendToMaster b)) s = true := by simp [modeAllows, neededMode, hm]
    have prev {l : Level} (h : s.auto.prev.sda = l) : s.auto.prev = ⟨l, .high⟩ := by rw [← h, ← hscl]
    constructor
    · intro hsda hlow
      have cur : levelsOf ⟨bitDrive b 7, .released⟩ d = ⟨.low, .high⟩ := by
        rcases hlow with h | h
        · rw [bitDrive, h, levelsOf, hd]; rfl
        · rw [levelsOf, h, hd]; cases bitDrive b 7 <;> rfl
      have ended := waitSample_runs_start
        (s := s.begun.busPoint ⟨bitDrive b 7, .released⟩ s.env.peer ⟨.waitSample .rising :: todo, 0, false⟩) rfl hp
        (prev hsda) cur
      exact exec_of_runs allowed (first.trans ended) (by omega) rfl rfl
    · intro hsda hbit hfree
      have cur : levelsOf ⟨bitDrive b 7, .released⟩ d = ⟨.high, .high⟩ := by
        rw [bitDrive, hbit, levelsOf, hfree, hd]; rfl
      have ended := waitSample_runs_stop
        (s := s.begun.busPoint ⟨bitDrive b 7, .released⟩ s.env.peer ⟨.waitSample .rising :: todo, 0, false⟩) rfl hp
        (prev hsda) cur
      exact exec_of_runs allowed (first.trans ended) (by omega) rfl rfl

/-! ### The ninth bit -/

/-- What S_SEND_TO_MASTER does after its ninth clock pulse (R143). -/
def sendToMasterEnding : List Micro := [.setFirst false, .setCount 8, .setShreg 0, .sendToMasterEnd]

/-- The program of S_SEND_TO_MASTER around its ninth clock pulse. -/
theorem commandProgram_sSendToMaster_ninth (b : Byte) : commandProgram (.sSendToMaster b) =
    bitsDown.flatMap (sendToMasterBit b) ++
      (.setSda .released :: (waitClock .rising ++ (.latchAck :: (waitClock .falling ++ sendToMasterEnding)))) := by
  show sendToMasterProc b = _
  simp only [sendToMasterProc, sendToMasterEnding, List.append_assoc, List.cons_append, List.nil_append]

section Ninth
variable (s : State) (peer : List Drives) (k : Bool) (ninth : Drive)

/-- The command waits while the master holds SCL Low (R142). -/
theorem waitClock_runs_low (rest : List Micro) (hs : s.auto.prev.scl = .low) :
    Runs 4 (s.busPoint ⟨.released, .released⟩ (⟨ninth, .low⟩ :: peer) ⟨waitClock .rising ++ rest, 0, k⟩)
      ((s.setPrev ⟨lineLevel .released ninth, .low⟩).busPoint ⟨.released, .released⟩ peer
        ⟨.waitSample .rising :: rest, 0, k⟩) := by
  obtain ⟨noStart, noStop⟩ := no_condition (previous := s.auto.prev)
    (current := levelsOf ⟨.released, .released⟩ ⟨ninth, .low⟩) (by simp [hs])
  have again := waitSample_runs_again
    (s := s.busPoint ⟨.released, .released⟩ (⟨ninth, .low⟩ :: peer) ⟨.waitSample .rising :: rest, 0, k⟩)
    rfl rfl noStart noStop (by show lineEvent s.auto.prev.scl .low ≠ _; rw [hs]; decide)
  exact .unsampled rfl rfl rfl again

/-- The ninth clock pulse (R143): the ACK at hand is the level of SDA on it. -/
theorem masterNinth_runs_waitClock (rest : List Micro) (hs : s.auto.prev.scl = .low) :
    Runs 10 (s.busPoint ⟨.released, .released⟩ (masterNinth ninth ++ peer)
        ⟨waitClock .rising ++ (.latchAck :: (waitClock .falling ++ rest)), 0, k⟩)
      ((s.setPrev ⟨lineLevel .released ninth, .low⟩).busPoint ⟨.released, .released⟩ peer
        ⟨rest, 0, lineLevel .released ninth == .low⟩) := by
  have low := waitClock_runs_low s (⟨ninth, .released⟩ :: ⟨ninth, .low⟩ :: peer) k ninth
    (.latchAck :: (waitClock .falling ++ rest)) hs
  have rises := waitSample_runs
    (s := (s.setPrev ⟨lineLevel .released ninth, .low⟩).busPoint ⟨.released, .released⟩
      (⟨ninth, .released⟩ :: ⟨ninth, .low⟩ :: peer) ⟨.waitSample .rising :: .latchAck :: (waitClock .falling ++ rest), 0, k⟩)
    (d := ⟨ninth, .released⟩) rfl rfl (waitClockNext_of_event (e := .rising) rfl (by decide) _)
  have falls := waitClock_runs (s.setPrev ⟨lineLevel .released ninth, .high⟩) rest 0
    (lineLevel .released ninth == .low) peer (e := .falling) ⟨.released, .released⟩ ⟨ninth, .low⟩ rfl (by decide)
  exact ((low.trans rises).snoc rfl rfl rfl).trans falls

/-- `ApplyStretch()` in ClockAvailable (R137). -/
theorem applyStretch_of_clockAvailable {t : State} (h : t.auto.st = .clockAvailable) :
    applyStretch t = t.setScl (if t.ctrl.stretch then .low else t.out.scl) := by
  rw [applyStretch, h]
  cases t.ctrl.stretch <;> rfl

/-- The master's ACK leaves the command OK in ClockAvailable, SCL as STRETCH says (R137, R144). -/
theorem sendToMasterEnd_runs_acked (l : Levels) :
    Runs 7 ((s.begun.setPrev l).busPoint ⟨.released, .released⟩ peer
        ⟨sendToMasterEnding, 0, true⟩)
      (((s.withOut .released (if s.ctrl.stretch then .low else .released)).withAuto
        ⟨.clockAvailable, 8, 0, false, l⟩).finishedWith .ok peer) :=
  .unsampled rfl rfl rfl (.unsampled rfl rfl rfl (.unsampled rfl rfl rfl (.unsampled rfl rfl rfl (.unsampled rfl rfl rfl
    (.unsampled rfl rfl (congrArg Host.Outcome.next (applyStretch_of_clockAvailable rfl)) (.unsampled rfl rfl rfl rfl))))))

/-- The master's NACK leaves it NOACK in WaitStart (R144). -/
theorem sendToMasterEnd_runs_nacked (l : Levels) :
    Runs 6 ((s.begun.setPrev l).busPoint ⟨.released, .released⟩ peer
        ⟨sendToMasterEnding, 0, false⟩)
      (((s.withOut .released .released).withAuto ⟨.waitStart, 8, 0, false, l⟩).finishedWith .noack peer) :=
  .unsampled rfl rfl rfl (.unsampled rfl rfl rfl (.unsampled rfl rfl rfl (.unsampled rfl rfl rfl (.unsampled rfl rfl rfl
    (.unsampled rfl rfl rfl rfl)))))

end Ninth

/-- The eight data bits: a stretch ends in the first, and SCL is Released from then on (R138, R143). -/
theorem sendToMasterByte_runs (s : State) (b : Byte) (rest : List Micro) (a : Byte) (k : Bool) (ds : List Drives)
    (o : Drives) (hs : s.auto.prev.scl = .low) :
    ∃ (n : Nat) (l : Levels) (x : Drive), n ≤ 66 ∧ l.scl = .low ∧
      Runs n (s.busPoint o ((List.replicate 8 [released, sclLow]).flatten ++ ds)
        ⟨bitsDown.flatMap (sendToMasterBit b) ++ rest, a, k⟩) ((s.setPrev l).busPoint ⟨x, .released⟩ ds ⟨rest, a, k⟩) := by
  obtain ⟨n, l, o', hn, hl, bits⟩ := sendToMasterBits_runs s (sendToMasterBit b 0 ++ rest) a k (released :: sclLow :: ds)
    b [7, 6, 5, 4, 3, 2, 1] o hs
  obtain ⟨l', hl', last⟩ := sendToMasterBit_runs (s.setPrev l) rest a k ds b 0 o' hl
  have steps : stretchSteps o ≤ 2 := by unfold stretchSteps; split <;> omega
  have program : bitsDown.flatMap (sendToMasterBit b) ++ rest =
      [7, 6, 5, 4, 3, 2, 1].flatMap (sendToMasterBit b) ++ (sendToMasterBit b 0 ++ rest) := by
    simp [bitsDown]
  refine ⟨n + (8 + stretchSteps o'), l', bitDrive b 0, ?_, hl', ?_⟩
  · simp only [List.length_cons, List.length_nil] at hn
    omega
  · rw [program]
    exact bits.trans last

/-- Settles O36: the eight data bits, SDA released, the ninth clock pulse, and the end that its bit chooses. -/
theorem sSendToMasterCompletes : Obligations.SSendToMasterCompletes := by
  intro s b ninth rest hm hs ⟨hq, hp⟩
  have allowed : modeAllows (neededMode (.sSendToMaster b)) s = true := by simp [modeAllows, neededMode, hm]
  obtain ⟨n, l, x, hn, hl, bits⟩ := sendToMasterByte_runs s.begun b
    (.setSda .released :: (waitClock .rising ++ (.latchAck :: (waitClock .falling ++ sendToMasterEnding)))) 0 false
    (masterNinth ninth ++ rest) s.out hs
  have pulse := masterNinth_runs_waitClock (s.begun.setPrev l) rest false ninth sendToMasterEnding hl
  have run := (bits.snoc rfl rfl rfl).trans pulse
  have script : s.env.peer = (List.replicate 8 [released, sclLow]).flatten ++ (masterNinth ninth ++ rest) := by
    rw [hp, masterReads, List.append_assoc]
  rw [← commandProgram_sSendToMaster_ninth, ← script, ← State.start_eq_busPoint] at run
  cases ninth with
  | low => exact exec_of_runs allowed (run.trans (sendToMasterEnd_runs_acked s rest ⟨.low, .low⟩)) (by omega) rfl rfl
  | released => exact exec_of_runs allowed (run.trans (sendToMasterEnd_runs_nacked s rest ⟨.high, .low⟩)) (by omega) rfl rfl

end Sys2Proof.Machine
end

section
/-! SUPPORT and CERTIFICATE. LEN_CHECK and DDC_RXCHECK (spec/42_codec_ddcci.md R152, R154, R156, R157): the pure commands that
turn on the class of a length byte. -/

namespace Sys2Proof.Machine

/-! ### A length byte's class, and its report -/

/-- A length byte in 0x83..0xA3 carries its payload length above bit 7 (R152). -/
theorem classify_eq_valid {l : Byte} (h : 0x83 ≤ l.toNat ∧ l.toNat ≤ 0xA3) : classify l = .valid (l.toNat - 0x80) := by
  obtain ⟨n, hn⟩ : ∃ n, l.toNat = 0x80 + n := ⟨l.toNat - 0x80, by omega⟩
  have lo : 3 ≤ n := by omega
  have hi : n ≤ 35 := by omega
  have hl : l = 0x80 ||| BitVec.ofNat 8 n := BitVec.eq_of_toNat_eq (by rw [hn]; interval_cases n <;> rfl)
  rw [hn, Nat.add_sub_cancel_left, hl]
  exact classify_txLengthByte lo hi

/-- A pure command at its report: FRAMELEN, then the code (R152, R156). -/
theorem report_runs (s : State) (n : Nat) (code : Result) :
    Runs 2 (s.begun.busPoint s.out s.env.peer ⟨[.setFrameLen n, .finish code], 0, false⟩)
      ({ s with frameLen := BitVec.ofNat 6 n }.finishedWith code s.env.peer) :=
  (report_transfers s s.out s.env.peer 0 false n code).1

/-! ### LEN_CHECK -/

/-- LEN_CHECK of a length byte whose class reports `n` and `code` (R152). -/
theorem exec_lenCheck {s : State} {l : Byte} {n : Nat} {code : Result} (hq : 2 ≤ s.env.quiet)
    (h : lenCheckProc (classify l) = [.setFrameLen n, .finish code]) :
    exec (.lenCheck l) s = .next ({ s with frameLen := BitVec.ofNat 6 n }.finishedWith code s.env.peer) := by
  refine exec_of_runs (n := 2) rfl ?_ hq rfl rfl
  rw [commandProgram, h, State.start_eq_busPoint]
  exact report_runs s n code

/-- Settles O40: Null first, then the range of the Valid bytes. -/
theorem lenCheckClassifies : Obligations.LenCheckClassifies := by
  intro s l hq
  by_cases valid : 0x83 ≤ l.toNat ∧ l.toNat ≤ 0xA3
  · have notNull : l ≠ 0x80 := by rintro rfl; exact absurd valid (by decide)
    rw [if_neg notNull, if_pos valid]
    exact exec_lenCheck hq (by rw [classify_eq_valid valid]; rfl)
  · have stops := classify_stops valid
    rw [if_neg valid]
    by_cases null : l = 0x80
    · rw [if_pos null] at stops ⊢
      exact exec_lenCheck hq (by rw [stops]; rfl)
    · rw [if_neg null] at stops ⊢
      exact exec_lenCheck hq (by rw [stops]; rfl)

/-! ### DDC_RXCHECK -/

/-- Settles O44: the checks after the length byte are those of DDC_READ (R157, R161). -/
theorem ddcRxcheckChecksTheFrame : Obligations.DdcRxcheckChecksTheFrame := by
  intro s payload c h3 h35 hq held x
  have first := ddcRxcheck_valid_runs h3 h35 (State.holds_cons_iff.1 held).1
  obtain ⟨verdict, -⟩ := rxVerdict_transfers s.begun 0 false s.env.peer (n := payload.length)
    (frame := (0x80 ||| BitVec.ofNat 8 payload.length) :: payload) (by simp; omega) (held.congr rfl) s.out
  exact exec_of_runs rfl (first.trans verdict) hq rfl rfl

/-- What DDC_RXCHECK reports of a length byte that is not Valid (R156, R157). -/
theorem rxcheckNext_stops {l : Byte} (h : ¬ (0x83 ≤ l.toNat ∧ l.toNat ≤ 0xA3)) :
    rxcheckNext (classify l) = [.setFrameLen 0, .finish (if l = 0x80 then .nullMessage else .invalidLength)] := by
  rw [classify_stops h]
  split <;> rfl

/-- Settles O45: the length byte is the one byte read. -/
theorem ddcRxcheckStopsAtTheLength : Obligations.DdcRxcheckStopsAtTheLength := by
  intro s l held h hq
  have read := (State.readByte_ok_iff s _ _ _).2 (State.holds_cons_iff.1 held).1
  have first : Runs 1 (s.start (commandProgram .ddcRxcheck)) (s.begun.busPoint s.out s.env.peer
      ⟨[.setFrameLen 0, .finish (if l = 0x80 then .nullMessage else .invalidLength)], 0, false⟩) := by
    rw [← rxcheckNext_stops h]
    exact .unsampled rfl rfl (withByte_ok read _) rfl
  exact exec_of_runs rfl (first.trans (report_runs s 0 _)) hq rfl rfl

end Sys2Proof.Machine
end

section
/-! SUPPORT and CERTIFICATE. EDID_READ (spec/43_codec_edid.md R179-R182) on a clock that is not stretched, pass by pass up to a
header or to an address byte that is not acknowledged, and the reads that end there (spec/42_codec_ddcci.md R161). -/

namespace Sys2Proof.Machine

/-! ### The address byte of a read -/

section Address
variable (s : State) (rest : List Micro) (a : Byte) (k : Bool) (ds : List Drives) (b : Byte) (o : Drives)

/-- An address byte sent, and the peer's ACK or NACK tested (R161, R180). -/
theorem address_transfers (acks : Bool) :
    Transfers (57 + guardSteps o) (s.busPoint o (receiverScript acks ++ ds) ⟨mSendProc b ++ .stopIfNack :: rest, a, k⟩)
      (s.busPoint ⟨.released, .low⟩ ds ⟨stopIfNackNext acks rest, a, acks⟩) (sentOutputs b) := by
  have sent := mSend_transfers s (.stopIfNack :: rest) a k ds b o acks
  have tested : Transfers 1 (s.busPoint ⟨.released, .low⟩ ds ⟨.stopIfNack :: rest, a, acks⟩)
      (s.busPoint ⟨.released, .low⟩ ds ⟨stopIfNackNext acks rest, a, acks⟩) [] := .unsampled rfl rfl rfl
  have := sent.trans tested
  rwa [List.append_nil, show 56 + guardSteps o + 1 = 57 + guardSteps o by omega] at this

/-- No device acknowledges the address byte: STOP and NOACK (R161 (d), R180 (f)). -/
theorem noDevice_transfers :
    Transfers (66 + guardSteps o)
      (s.begun.busPoint o (receiverScript false ++ released :: ds) ⟨mSendProc b ++ .stopIfNack :: rest, a, k⟩)
      ((s.withOut .released .released).finishedWith .noack ds) (sentOutputs b ++ stopOutputs) := by
  have stop : Transfers 9 _ _ _ := stopFinish_transfers s a false ds ⟨.released, .low⟩ .noack
  rw [show 66 + guardSteps o = 57 + guardSteps o + 9 by omega]
  exact (address_transfers s.begun rest a k (released :: ds) b o false).trans stop

end Address

/-! ### A pass of EDID_READ before the header -/

/-- `s` in a pass of EDID_READ that has received `bs` and found no header in it: the bytes stand at EDIDBUF[0], and the cursor is
at the last of them (R180). -/
def State.inPass (s : State) (pass : Bool) (bs : List Byte) : State :=
  { s.storeAll .edid 0 bs with
    edid := ⟨if bs = [] then none else some (bs.length - 1), false, false, pass⟩ }

section Pass
variable (s : State) (pass : Bool) (bs : List Byte)

theorem State.nextIndex_inPass : nextIndex (s.inPass pass bs).edid.cursor = bs.length := by
  cases bs <;> rfl

/-- One byte more is stored behind the others, and the cursor moves to it. -/
theorem State.inPass_snoc (b : Byte) :
    s.inPass pass (bs ++ [b]) =
      { (s.inPass pass bs).storeByte .edid bs.length b with edid := ⟨some bs.length, false, false, pass⟩ } := by
  rw [inPass, State.storeAll_append, Nat.zero_add]
  simp only [List.append_eq_nil_iff, List.cons_ne_self, and_false, if_false, List.length_append, List.length_cons,
    List.length_nil, Nat.zero_add, Nat.add_sub_cancel]
  rfl

theorem State.inPass_holds : (s.inPass pass bs).holds .edid 0 bs :=
  (State.storeAll_spec s .edid 0 bs).1.congr rfl

/-- The header ends at the last byte received iff it is a suffix of the bytes received (R179). -/
theorem State.headerAt_inPass {c : Nat} (hc : bs.length = c + 1) :
    (s.inPass pass bs).headerAt c = .ok (decide (edidHeader <:+ bs)) := by
  have suffix : decide (edidHeader <:+ bs) = (bs.drop (c - 7) == edidHeader) := by
    rw [Bool.eq_iff_iff, decide_eq_true_iff, List.suffix_iff_eq_drop, beq_iff_eq, eq_comm, hc]
    rfl
  rw [suffix]
  rcases Nat.lt_or_ge c 7 with early | late
  · rw [State.headerAt_early early, eq_comm, Except.ok.injEq, beq_eq_false_iff_ne]
    intro h
    have := congrArg List.length h
    simp [edidHeader] at this
    omega
  · have held : (s.inPass pass bs).holds .edid 0 (bs.take (c - 7) ++ bs.drop (c - 7)) := by
      rw [List.take_append_drop]
      exact s.inPass_holds pass bs
    obtain ⟨-, last⟩ := State.holds_append.1 held
    rw [List.length_take_of_le (by omega), Nat.zero_add] at last
    exact State.headerAt_ok late (by rw [List.length_drop]; omega) last

end Pass

section PassSteps
variable (s : State) (pass : Bool) (a : Byte) (k : Bool) (ds : List Drives)

/-- The address call of a pass and the loop behind it (R180). -/
def edidAddressCall : List Micro := mSendProc edidR ++ [.stopIfNack, .edidWhile]

/-- A pass starts: its variables are set, and START (R180). -/
theorem edidPassStart_transfers (o : Drives) :
    Transfers 10 (s.busPoint o (released :: ds) ⟨edidPassProc, a, k⟩)
      ((s.inPass s.edid.pass []).busPoint ⟨.low, .released⟩ ds ⟨edidAddressCall, a, k⟩) [⟨o.sda, .released⟩] := by
  have program : edidPassProc = .setCursor none :: .setValidated false :: .setResynced false ::
      (mStartProc ++ edidAddressCall) := by
    simp [edidPassProc, edidAddressCall]
  have reset : Transfers 3 (s.busPoint o (released :: ds) ⟨edidPassProc, a, k⟩)
      ((s.inPass s.edid.pass []).busPoint o (released :: ds) ⟨mStartProc ++ edidAddressCall, a, k⟩) [] := by
    rw [program]
    exact ⟨.unsampled rfl rfl rfl (.unsampled rfl rfl rfl (.unsampled rfl rfl rfl rfl)), rfl⟩
  exact reset.trans (mStart_transfers (s.inPass s.edid.pass []) edidAddressCall a k ds o released rfl)

/-- The address byte 0xA1 acknowledged, after START (R180). -/
theorem edidAddress_transfers :
    Transfers 59 (s.busPoint ⟨.low, .released⟩ (receiverScript true ++ ds) ⟨edidAddressCall, a, k⟩)
      (s.busPoint ⟨.released, .low⟩ ds ⟨[.edidWhile], a, true⟩) (sentOutputs 0xA1) :=
  address_transfers s [.edidWhile] a k ds edidR ⟨.low, .released⟩ true

/-- The test of the loop goes on with a byte or with the end of the pass (R180). -/
theorem edidWhile_transfers {s : State} {ms : List Micro} (h : edidWhileNext s.edid.cursor = ms) (o : Drives) :
    Transfers 1 (s.busPoint o ds ⟨[.edidWhile], a, k⟩) (s.busPoint o ds ⟨ms, a, k⟩) [] := by
  rw [← h]
  exact .unsampled rfl rfl rfl

/-- One byte more is received and stored, up to the test for the header (R180). -/
theorem edidStore_transfers {bs : List Byte} (hl : bs.length < 128) (b : Byte) :
    Transfers 54 ((s.inPass pass bs).busPoint ⟨.released, .low⟩ (senderScript b ++ ds) ⟨[.edidWhile], a, k⟩)
      ((s.inPass pass (bs ++ [b])).busPoint ⟨.released, .low⟩ ds ⟨[.edidMatch], b, k⟩) (List.replicate 16 released) := by
  have index := s.nextIndex_inPass pass bs
  have goesOn : edidWhileNext (s.inPass pass bs).edid.cursor = mRecvProc ++ [.edidStore, .edidAdvance, .edidMatch] := by
    refine if_neg fun h => ?_
    rw [h] at index
    exact absurd index.symm (Nat.ne_of_lt hl)
  have looped := edidWhile_transfers a k (senderScript b ++ ds) goesOn ⟨.released, .low⟩
  have received := mRecv_transfers (s.inPass pass bs) [.edidStore, .edidAdvance, .edidMatch] a k ds b .released
  have stored : Transfers 2 ((s.inPass pass bs).busPoint ⟨.released, .low⟩ ds ⟨[.edidStore, .edidAdvance, .edidMatch], b, k⟩)
      ((s.inPass pass (bs ++ [b])).busPoint ⟨.released, .low⟩ ds ⟨[.edidMatch], b, k⟩) [] := by
    rw [State.inPass_snoc, ← index]
    exact ⟨.unsampled rfl rfl rfl (.unsampled rfl rfl rfl rfl), rfl⟩
  have := (looped.trans received).trans stored
  rwa [List.nil_append, List.append_nil] at this

/-- The test for the header at the last byte received (R179, R180). -/
theorem edidMatch_transfers {bs : List Byte} {c : Nat} (hc : bs.length = c + 1) (o : Drives) :
    Transfers 1 ((s.inPass pass bs).busPoint o ds ⟨[.edidMatch], a, k⟩)
      ((s.inPass pass bs).busPoint o ds ⟨edidMatchNext (decide (edidHeader <:+ bs)) c, a, k⟩) [] := by
  have cursor : (s.inPass pass bs).edid.cursor = some c := by
    have : bs ≠ [] := by rintro rfl; cases hc
    simp [State.inPass, this, hc]
  exact .unsampled rfl rfl (runMicro_edidMatch (s := (s.inPass pass bs).busPoint o ds ⟨[.edidMatch], a, k⟩) (rest := [])
    rfl cursor (s.headerAt_inPass pass bs hc))

/-- One byte more without the header: it is ACKed, or NACKed where it is the last of the pass (R180). -/
theorem edidByte_transfers {bs : List Byte} (hl : bs.length < 128) {b : Byte} (hb : ¬ edidHeader <:+ bs ++ [b]) :
    Transfers 64 ((s.inPass pass bs).busPoint ⟨.released, .low⟩ (byteScript b ++ ds) ⟨[.edidWhile], a, k⟩)
      ((s.inPass pass (bs ++ [b])).busPoint ⟨.released, .low⟩ ds ⟨[.edidWhile], b, k⟩)
      (receivedOutputs (if bs.length = 127 then .released else .low)) := by
  have script : byteScript b ++ ds = senderScript b ++ released :: ds := by simp [byteScript, quietClocks]
  have stored := edidStore_transfers s pass a k (released :: ds) hl b
  have tested := edidMatch_transfers s pass b k (released :: ds) (bs := bs ++ [b]) (c := bs.length) (by simp)
    ⟨.released, .low⟩
  rw [decide_eq_false hb] at tested
  have cursor : (s.inPass pass (bs ++ [b])).edid.cursor = some bs.length := by rw [State.inPass_snoc]
  have answer : edidAckNext (s.inPass pass (bs ++ [b])).edid.cursor =
      mAckBitProc (if bs.length = 127 then .released else .low) := by
    rw [cursor, edidAckNext, apply_ite mAckBitProc]
    simp only [Option.some.injEq]
  have called : Transfers 1 ((s.inPass pass (bs ++ [b])).busPoint ⟨.released, .low⟩ (released :: ds)
      ⟨[.edidAckByte, .edidWhile], b, k⟩) ((s.inPass pass (bs ++ [b])).busPoint ⟨.released, .low⟩ (released :: ds)
      ⟨mAckBitProc (if bs.length = 127 then .released else .low) ++ [.edidWhile], b, k⟩) [] := by
    rw [← answer]
    exact .unsampled rfl rfl rfl
  have acked := mAckBit_transfers (s.inPass pass (bs ++ [b])) [.edidWhile] b k ds
    (if bs.length = 127 then .released else .low) .released released rfl
  rw [script]
  simpa [receivedOutputs] using ((stored.trans tested).trans called).trans acked

/-- Bytes in which the header never ends, each ACKed (R180). -/
theorem edidBytes_transfers {bs more : List Byte} (hl : bs.length + more.length < 128)
    (hn : ¬ edidHeader <:+: bs ++ more) : ∃ a', Transfers (64 * more.length)
      ((s.inPass pass bs).busPoint ⟨.released, .low⟩ (bytesScript more ++ ds) ⟨[.edidWhile], a, k⟩)
      ((s.inPass pass (bs ++ more)).busPoint ⟨.released, .low⟩ ds ⟨[.edidWhile], a', k⟩)
      (List.replicate more.length (receivedOutputs .low)).flatten := by
  induction more generalizing a bs with
  | nil => exact ⟨a, by rw [List.append_nil]; exact ⟨rfl, rfl⟩⟩
  | cons b more ih =>
    rw [List.length_cons] at hl
    have split : bs ++ b :: more = bs ++ [b] ++ more := by simp
    rw [split] at hn ⊢
    have first := edidByte_transfers s pass a k (bytesScript more ++ ds) (bs := bs) (by omega) (b := b)
      fun h => hn (h.isInfix.trans ⟨[], more, rfl⟩)
    rw [if_neg (by omega)] at first
    obtain ⟨a', later⟩ := ih b (bs := bs ++ [b]) (by simp; omega) hn
    refine ⟨a', ?_⟩
    rw [List.length_cons, show 64 * (more.length + 1) = 64 + 64 * more.length by omega]
    simpa [bytesScript, List.replicate_succ] using first.trans later

end PassSteps

/-! ### A pass that fails -/

/-- The header is nowhere in the bytes of a failed pass (R182). -/
theorem noHeaderIn.header_absent {bs : List Byte} (h : noHeaderIn bs) : ¬ edidHeader <:+: bs := by
  rintro ⟨before, after, rfl⟩
  obtain ⟨hl, none⟩ := h
  refine none before.length ?_ (by simp [edidHeader])
  simp [edidHeader] at hl
  omega

section FailedPass
variable (s : State) (a : Byte) (k : Bool) (ds : List Drives)

/-- All 128 bytes of a pass without the header: every byte ACKed but the last, which is NACKed (R180, R182). -/
theorem edidAllBytes_transfers (pass : Bool) {bs : List Byte} (h : noHeaderIn bs) : ∃ a', Transfers 8192
    ((s.inPass pass []).busPoint ⟨.released, .low⟩ (bytesScript bs ++ ds) ⟨[.edidWhile], a, k⟩)
    ((s.inPass pass bs).busPoint ⟨.released, .low⟩ ds ⟨[.edidWhile], a', k⟩) (receivedLastNacked 128) := by
  have absent := h.header_absent
  obtain ⟨hl, -⟩ := h
  obtain ⟨front, last, rfl⟩ := (List.eq_nil_or_concat' bs).resolve_left (by rintro rfl; cases hl)
  have hf : front.length = 127 := by simpa using hl
  obtain ⟨a', bytes⟩ := edidBytes_transfers s pass a k (byteScript last ++ ds) (bs := []) (more := front)
    (by simp [hf]) fun h => absent (h.trans ⟨[], [last], rfl⟩)
  have ended := edidByte_transfers s pass a' k ds (bs := front) (by omega) fun h => absent h.isInfix
  rw [if_pos hf] at ended
  rw [hf] at bytes
  refine ⟨last, ?_⟩
  simpa [bytesScript, receivedLastNacked] using bytes.trans ended

/-- A first pass that fails, from its START to that of the second: address, 128 bytes, STOP (R182). -/
theorem failedPass_transfers {bs : List Byte} (h : noHeaderIn bs) : ∃ a', Transfers 8272
    ((s.inPass false []).busPoint ⟨.low, .released⟩ (receiverScript true ++ (bytesScript bs ++ released :: released :: ds))
      ⟨edidAddressCall, a, k⟩)
    (((s.storeAll .edid 0 bs).inPass true []).busPoint ⟨.low, .released⟩ ds ⟨edidAddressCall, a', true⟩)
    (sentOutputs 0xA1 ++ receivedLastNacked 128 ++ stopOutputs ++ [released]) := by
  have address := edidAddress_transfers (s.inPass false []) a k (bytesScript bs ++ released :: released :: ds)
  obtain ⟨a', bytes⟩ := edidAllBytes_transfers s a true (released :: released :: ds) false h
  have atEnd : edidWhileNext (s.inPass false bs).edid.cursor = mStopProc ++ [.edidPassEnd] := by
    obtain ⟨hl, -⟩ := h
    have : bs ≠ [] := by rintro rfl; cases hl
    simp [edidWhileNext, State.inPass, this, hl]
  have looped := edidWhile_transfers a' true (released :: released :: ds) atEnd ⟨.released, .low⟩
  have stop := mStop_transfers (s.inPass false bs) [.edidPassEnd] a' true (released :: ds) .released released rfl
  have retries : Transfers 2 ((s.inPass false bs).busPoint ⟨.released, .released⟩ (released :: ds) ⟨[.edidPassEnd], a', true⟩)
      ((s.inPass true bs).busPoint ⟨.released, .released⟩ (released :: ds) ⟨edidPassProc, a', true⟩) [] :=
    ⟨.unsampled rfl rfl rfl (.unsampled rfl rfl rfl rfl), rfl⟩
  have restart := edidPassStart_transfers (s.inPass true bs) a' true ds ⟨.released, .released⟩
  refine ⟨a', ?_⟩
  have whole := ((((address.trans bytes).trans looped).trans stop).trans retries).trans restart
  rw [List.append_nil, List.append_nil] at whole
  exact whole

end FailedPass

/-! ### EDID_READ up to the address byte of its last pass -/

section Reads
variable (s : State) (ds : List Drives)

/-- EDID_READ up to the START of the pass at hand, after at most one that failed (R180, R182). -/
theorem edidRead_transfers (o : Drives) {failed : List (List Byte)} (h : atMostOneFailed failed) : ∃ a k,
    Transfers (failed.length * 8272 + 11) (s.busPoint o (failedScript failed ++ released :: ds) ⟨commandProgram .edidRead, 0, false⟩)
      (((s.storeAll .edid 0 failed.flatten).inPass (!failed.isEmpty) []).busPoint ⟨.low, .released⟩ ds
        ⟨edidAddressCall, a, k⟩)
      ([⟨o.sda, .released⟩] ++ failedOutputs failed) := by
  have start (ds : List Drives) : Transfers 11 (s.busPoint o (released :: ds) ⟨commandProgram .edidRead, 0, false⟩)
      ((s.inPass false []).busPoint ⟨.low, .released⟩ ds ⟨edidAddressCall, 0, false⟩) [⟨o.sda, .released⟩] := by
    have first : Transfers 1 (s.busPoint o (released :: ds) ⟨commandProgram .edidRead, 0, false⟩)
        (State.busPoint { s with edid := { s.edid with pass := false } } o (released :: ds) ⟨edidPassProc, 0, false⟩) [] :=
      .unsampled rfl rfl rfl
    exact first.trans (edidPassStart_transfers { s with edid := { s.edid with pass := false } } 0 false ds o)
  obtain ⟨atMostOne, each⟩ := h
  match failed with
  | [] => exact ⟨0, false, start ds⟩
  | [bs] =>
    obtain ⟨a, pass⟩ := failedPass_transfers s 0 false ds (each bs (by simp))
    refine ⟨a, true, ?_⟩
    rw [show [bs].length * 8272 + 11 = 11 + 8272 by simp]
    simpa [failedScript, failedOutputs, readScript, quietClocks] using (start _).trans pass

end Reads

/-! ### Resynchronisation -/

/-- `s` after a resynchronisation on the bytes `bs`: the header at EDIDBUF[0..7], and the cursor at its end (R181). -/
def State.resyncedOn (s : State) (pass : Bool) (bs : List Byte) : State :=
  { (s.storeAll .edid 0 bs).storeAll .edid 0 edidHeader with edid := ⟨some 7, true, true, pass⟩ }

/-- Where the header first ends at the end of the stream, it is nowhere in the bytes before its last (R181). -/
theorem header_absent_of_garbage {garbage : List Byte}
    (h : ∀ j, j < garbage.length → ((garbage ++ edidHeader).drop j).take 8 ≠ edidHeader) :
    ¬ edidHeader <:+: garbage ++ edidHeader.dropLast := by
  rintro ⟨before, after, split⟩
  have stream : garbage ++ edidHeader = before ++ (edidHeader ++ (after ++ [0])) := by
    rw [show edidHeader = edidHeader.dropLast ++ [0] from rfl, ← List.append_assoc, ← split]
    simp [edidHeader]
  have hl := congrArg List.length split
  refine h before.length ?_ (by rw [stream]; simp [edidHeader])
  simp [edidHeader] at hl
  omega

section Resync
variable (s : State) (pass : Bool) (a : Byte) (k : Bool) (ds : List Drives)

/-- The last byte of the header is NACKed, and the read restarts with the canonical header in place (R181). -/
theorem resyncProc_transfers (bs : List Byte) :
    Transfers 19 ((s.inPass pass bs).busPoint ⟨.released, .low⟩ (released :: released :: ds) ⟨edidResyncProc, a, k⟩)
      ((s.resyncedOn pass bs).busPoint ⟨.low, .released⟩ ds ⟨edidAddressCall, a, k⟩) [released, released] := by
  have program : edidResyncProc = .storeAll .edid 0 edidHeader :: .setCursor (some 7) :: .setValidated true ::
      .setResynced true :: (mAckBitProc .released ++ (mStartProc ++ edidAddressCall)) := by
    simp [edidResyncProc, edidAddressCall, storeHeaderProc]
  have stored : Transfers 4 ((s.inPass pass bs).busPoint ⟨.released, .low⟩ (released :: released :: ds) ⟨edidResyncProc, a, k⟩)
      ((s.resyncedOn pass bs).busPoint ⟨.released, .low⟩ (released :: released :: ds)
        ⟨mAckBitProc .released ++ (mStartProc ++ edidAddressCall), a, k⟩) [] := by
    rw [program]
    exact ⟨.unsampled rfl rfl rfl (.unsampled rfl rfl rfl (.unsampled rfl rfl rfl (.unsampled rfl rfl rfl rfl))), rfl⟩
  have nack := mAckBit_transfers (s.resyncedOn pass bs) (mStartProc ++ edidAddressCall) a k (released :: ds) .released
    .released released rfl
  have start := mStart_transfers (s.resyncedOn pass bs) edidAddressCall a k ds ⟨.released, .low⟩ released rfl
  exact (stored.trans nack).trans start

/-- A pass in which the header first ends behind `garbage`, from its address byte to the START of the restart: every byte ACKed
but the header's last (R181). -/
theorem resync_transfers {garbage : List Byte} (h1 : 1 ≤ garbage.length) (h120 : garbage.length ≤ 120)
    (hg : ∀ j, j < garbage.length → ((garbage ++ edidHeader).drop j).take 8 ≠ edidHeader) :
    Transfers (64 * garbage.length + 581)
      ((s.inPass pass []).busPoint ⟨.low, .released⟩
        (receiverScript true ++ (bytesScript (garbage ++ edidHeader) ++ released :: ds)) ⟨edidAddressCall, a, k⟩)
      ((s.resyncedOn pass (garbage ++ edidHeader)).busPoint ⟨.low, .released⟩ ds ⟨edidAddressCall, 0, true⟩)
      (sentOutputs 0xA1 ++ receivedLastNacked (garbage.length + 8) ++ [released]) := by
  have split : garbage ++ edidHeader = garbage ++ edidHeader.dropLast ++ [0] := by simp [edidHeader]
  have hl : (garbage ++ edidHeader.dropLast).length = garbage.length + 7 := by simp [edidHeader]
  have script : bytesScript (garbage ++ edidHeader) ++ released :: ds =
      bytesScript (garbage ++ edidHeader.dropLast) ++ (senderScript 0 ++ released :: released :: ds) := by
    rw [split]
    simp [bytesScript, byteScript, quietClocks]
  have address := edidAddress_transfers (s.inPass pass []) a k (bytesScript (garbage ++ edidHeader) ++ released :: ds)
  rw [script] at address ⊢
  obtain ⟨a', bytes⟩ := edidBytes_transfers s pass a true (senderScript 0 ++ released :: released :: ds) (bs := [])
    (more := garbage ++ edidHeader.dropLast) (by rw [hl, List.length_nil]; omega) (header_absent_of_garbage hg)
  rw [List.nil_append] at bytes
  have last := edidStore_transfers s pass a' true (released :: released :: ds) (bs := garbage ++ edidHeader.dropLast)
    (by omega) 0
  rw [← split] at last
  have found := edidMatch_transfers s pass 0 true (released :: released :: ds) (bs := garbage ++ edidHeader)
    (c := garbage.length + 7) (by simp [edidHeader]) ⟨.released, .low⟩
  have resyncs : edidMatchNext (decide (edidHeader <:+ garbage ++ edidHeader)) (garbage.length + 7) = edidResyncProc := by
    rw [decide_eq_true (List.suffix_append _ _), edidMatchNext, if_pos rfl, if_neg (by omega)]
  rw [resyncs] at found
  have restart := resyncProc_transfers s pass 0 true ds (garbage ++ edidHeader)
  rw [hl] at bytes
  have driven : receivedLastNacked (garbage.length + 8) ++ [released] =
      (List.replicate (garbage.length + 7) (receivedOutputs .low)).flatten ++
        (List.replicate 16 released ++ [released, released]) := by
    rw [receivedLastNacked, List.append_assoc]
    rfl
  rw [List.append_assoc, driven, show 64 * garbage.length + 581 = 59 + 64 * (garbage.length + 7) + 54 + 1 + 19 by omega]
  simpa only [List.append_assoc, List.nil_append] using (((address.trans bytes).trans last).trans found).trans restart

end Resync

/-! ### What the stores of a read leave in the buffer -/

/-- A run of stores over the front of what a buffer holds. -/
theorem State.holds.storeAll {s : State} {b : Buffer} {i : Nat} {xs : List Byte} (h : s.holds b i xs) (ys : List Byte) :
    (s.storeAll b i ys).holds b i (ys ++ xs.drop ys.length) := by
  obtain ⟨stored, outside⟩ := s.storeAll_spec b i ys
  refine State.holds_append.2 ⟨stored, fun k v hk => ?_⟩
  rw [outside _ fun j hj => by simp; omega, Nat.add_assoc]
  exact h _ v (by rwa [List.getElem?_drop] at hk)

/-- A run of stores inside the range changes nothing outside it. -/
theorem sameOutside.storeAll {s t : State} {b : Buffer} {i n : Nat} (h : sameOutside s t b i n) {bs : List Byte}
    (hl : bs.length ≤ n) : sameOutside s (t.storeAll b i bs) b i n := fun a ha =>
  ((t.storeAll_spec b i bs).2 a fun k hk => ha k (hk.trans_le hl)).trans (h a ha)

/-! ### Reads that no device answers -/

/-- A master command whose run ends with `code` in every state, with what it drives. The run is asked for in every state, since
`State.drives` takes it from the acceptance on, with no step left before the host's next act. -/
theorem exec_and_drives {i : Instr} {s : State} {q : Nat} {code : Result} {script rest outs : List Drives} (f : State → State)
    (hi : neededMode i = some .master) (hm : s.ctrl.mode = .master) (hs : s.undisturbed q script rest)
    (h : ∀ u : State, ∃ n, n ≤ q ∧ Transfers n (u.begun.busPoint s.out (script ++ rest) ⟨commandProgram i, 0, false⟩)
      ((f u).finishedWith code rest) outs) :
    exec i s = .next ((f s).finishedWith code rest) ∧ s.drives i q outs := by
  obtain ⟨hq, hp⟩ := hs
  obtain ⟨n, hn, run, -⟩ := h s
  obtain ⟨n', hn', run'⟩ := h (s.setQuiet 0)
  rw [← hp] at run'
  exact ⟨exec_master_of_runs hi hm hp run (hn.trans hq) rfl rfl, drives_of_transfers (modeAllows_master hi hm) run' hn' rfl⟩

section NoDevice
variable {s : State} {rest : List Drives} (hm : s.ctrl.mode = .master)
include hm

theorem ddcRead_noDevice (hs : s.undisturbed 100 (quietClocks 1 ++ receiverScript false ++ quietClocks 1) rest) :
    exec .ddcRead s = .next ((s.withOut .released .released).finishedWith .noack rest) ∧
      s.drives .ddcRead 100 ([⟨s.out.sda, .released⟩] ++ sentOutputs 0x6F ++ stopOutputs) := by
  refine exec_and_drives (fun u => u.withOut .released .released) rfl hm hs fun u => ⟨7 + 68, by decide, ?_⟩
  obtain ⟨todo, program⟩ : ∃ todo, commandProgram .ddcRead = mStartProc ++ (mSendProc ddcDestR ++ .stopIfNack :: todo) :=
    ⟨_, by simp only [commandProgram, List.append_assoc, List.cons_append]; rfl⟩
  have start := mStart_transfers u.begun (mSendProc ddcDestR ++ .stopIfNack :: todo) 0 false
    (receiverScript false ++ released :: rest) s.out released rfl
  have nacked : Transfers 68 _ _ (sentOutputs 0x6F ++ stopOutputs) :=
    noDevice_transfers u todo 0 false rest ddcDestR ⟨.low, .released⟩
  rw [program]
  simpa [quietClocks] using start.trans nacked

/-- EDID_READ whose address byte is not acknowledged at the START of its first pass, or of its second. -/
theorem edidRead_noDevice {q : Nat} {failed : List (List Byte)} (hf : atMostOneFailed failed)
    (hq : failed.length * 8272 + 79 ≤ q)
    (hs : s.undisturbed q (failedScript failed ++ quietClocks 1 ++ receiverScript false ++ quietClocks 1) rest) :
    exec .edidRead s = .next (({ s.storeAll .edid 0 failed.flatten with edid := ⟨none, false, false, !failed.isEmpty⟩ }.withOut
        .released .released).finishedWith .noack rest) ∧
      s.drives .edidRead q ([⟨s.out.sda, .released⟩] ++ failedOutputs failed ++ sentOutputs 0xA1 ++ stopOutputs) := by
  refine exec_and_drives (fun u => ((u.storeAll .edid 0 failed.flatten).inPass (!failed.isEmpty) []).withOut .released
    .released) rfl hm hs fun u => ?_
  obtain ⟨a, k, reached⟩ := edidRead_transfers u.begun (receiverScript false ++ released :: rest) s.out hf
  have nacked : Transfers 68 _ _ (sentOutputs 0xA1 ++ stopOutputs) :=
    noDevice_transfers ((u.storeAll .edid 0 failed.flatten).inPass (!failed.isEmpty) []) [.edidWhile] a k rest edidR
      ⟨.low, .released⟩
  exact ⟨failed.length * 8272 + 11 + 68, by omega, by simpa [quietClocks] using reached.trans nacked⟩

/-- EDID_READ whose address byte is not acknowledged at the restart of a resynchronisation. -/
theorem edidRead_noDevice_resync {failed : List (List Byte)} {garbage : List Byte} (hf : atMostOneFailed failed)
    (h1 : 1 ≤ garbage.length) (h120 : garbage.length ≤ 120)
    (hg : ∀ j, j < garbage.length → ((garbage ++ edidHeader).drop j).take 8 ≠ edidHeader)
    (hs : s.undisturbed 40000 (failedScript failed ++ readScript (garbage ++ edidHeader) ++ quietClocks 1 ++
      receiverScript false ++ quietClocks 1) rest) :
    exec .edidRead s = .next ((((s.storeAll .edid 0 failed.flatten).resyncedOn (!failed.isEmpty)
        (garbage ++ edidHeader)).withOut .released .released).finishedWith .noack rest) ∧
      s.drives .edidRead 40000 ([⟨s.out.sda, .released⟩] ++ failedOutputs failed ++ sentOutputs 0xA1 ++
        receivedLastNacked (garbage.length + 8) ++ [released] ++ sentOutputs 0xA1 ++ stopOutputs) := by
  refine exec_and_drives (fun u => ((u.storeAll .edid 0 failed.flatten).resyncedOn (!failed.isEmpty)
    (garbage ++ edidHeader)).withOut .released .released) rfl hm hs fun u => ?_
  obtain ⟨a, k, reached⟩ := edidRead_transfers u.begun (receiverScript true ++ (bytesScript (garbage ++ edidHeader) ++
    released :: (receiverScript false ++ released :: rest))) s.out hf
  have resynced := resync_transfers (u.begun.storeAll .edid 0 failed.flatten) (!failed.isEmpty) a k
    (receiverScript false ++ released :: rest) h1 h120 hg
  have nacked : Transfers 68 _ _ (sentOutputs 0xA1 ++ stopOutputs) :=
    noDevice_transfers ((u.storeAll .edid 0 failed.flatten).resyncedOn (!failed.isEmpty) (garbage ++ edidHeader)) [.edidWhile]
      0 true rest edidR ⟨.low, .released⟩
  have atMostOne := hf.1
  refine ⟨failed.length * 8272 + 11 + (64 * garbage.length + 581) + 68, by omega, ?_⟩
  simpa [readScript, quietClocks] using (reached.trans resynced).trans nacked

end NoDevice

/-- The bytes of the passes that failed. -/
theorem atMostOneFailed.flatten_length {failed : List (List Byte)} (h : atMostOneFailed failed) :
    failed.flatten.length = if failed.isEmpty then 0 else 128 := by
  obtain ⟨atMostOne, each⟩ := h
  match failed with
  | [] => rfl
  | [bs] => simpa using (each bs (by simp)).1

/-- A first pass that fails is at most one. -/
theorem noHeaderIn.atMostOneFailed {bs : List Byte} (h : noHeaderIn bs) : atMostOneFailed [bs] :=
  ⟨le_rfl, by simpa using h⟩

/-- What EDIDBUF holds after a resynchronisation: the header, then what the pass and a failed one before it left (R181). -/
theorem State.resyncedOn_holds (s : State) (pass : Bool) (failed : List Byte) {garbage : List Byte} :
    ((s.storeAll .edid 0 failed).resyncedOn pass (garbage ++ edidHeader)).holds .edid 0
      (edidHeader ++ (garbage ++ edidHeader).drop 8 ++ failed.drop (garbage.length + 8)) := by
  have held := ((s.storeAll_spec .edid 0 failed).1.storeAll (garbage ++ edidHeader)).storeAll edidHeader
  rw [List.drop_append_of_le_length (by simp [edidHeader]), ← List.append_assoc, List.length_append] at held
  exact held.congr rfl

/-- Settles O50. -/
theorem readsWithNoDevice : Obligations.ReadsWithNoDevice := by
  refine ⟨fun s rest hm hs => ?_, fun s one rest hm hone hs => ?_, fun s failed garbage rest hm hf h1 h120 hg hs => ?_⟩
  · obtain ⟨ddcEnd, ddcDriven⟩ := ddcRead_noDevice hm hs
    obtain ⟨edidEnd, edidDriven⟩ := edidRead_noDevice (failed := []) hm ⟨by decide, by simp⟩ (by decide) hs
    exact ⟨ddcEnd, edidEnd, ddcDriven, edidDriven⟩
  · obtain ⟨ended, driven⟩ := edidRead_noDevice hm hone.atMostOneFailed (by simp) hs
    obtain ⟨held, outside⟩ := s.storeAll_spec .edid 0 one
    rw [hone.1] at outside
    rw [List.flatten_singleton] at ended
    exact ⟨⟨(s.storeAll .edid 0 one).mem, ended, held.congr rfl, fun a ha => outside a ha⟩, driven⟩
  · obtain ⟨ended, driven⟩ := edidRead_noDevice_resync hm hf h1 h120 hg hs
    have stale := hf.flatten_length
    have header : edidHeader.length = 8 := rfl
    have found : (garbage ++ edidHeader).length = garbage.length + 8 := List.length_append
    refine ⟨⟨((s.storeAll .edid 0 failed.flatten).resyncedOn (!failed.isEmpty) (garbage ++ edidHeader)).mem, ended,
      (s.resyncedOn_holds (!failed.isEmpty) failed.flatten).congr rfl, fun a ha => ?_⟩, driven⟩
    have outside := (((sameOutside.refl s .edid 0 (if failed.isEmpty then garbage.length + 8 else 128)).storeAll
      (bs := failed.flatten) (by split_ifs at stale ⊢ <;> omega)).storeAll (bs := garbage ++ edidHeader)
        (by rw [found]; split_ifs <;> omega)).storeAll (bs := edidHeader) (by rw [header]; split_ifs <;> omega)
    exact outside a ha

end Sys2Proof.Machine
end

section
/-! SUPPORT and CERTIFICATE. EDID_FILLSUM and EDID_VALIDATE (spec/43_codec_edid.md R176-R178), and EDID_READ (R179-R182) to the
end of its last pass: a record whose header comes first, one that resynchronises, and one without the header. -/

namespace Sys2Proof.Machine

/-! ### EDID_FILLSUM and EDID_VALIDATE -/

/-- Settles O51: the run's one store is that of byte 127. -/
theorem edidFillsumWritesTheChecksum : Obligations.EdidFillsumWritesTheChecksum := by
  intro s bs hl h hq c
  exact ⟨(s.storeByte .edid 127 (edidChecksum bs)).mem, exec_edidFillsum hl h hq, fun a => Memory.read_write s.mem a _ c⟩

/-- The byte that holds a sum modulo 256 is 0 iff the sum is (R178). -/
theorem ofNat_mod_ne_zero_iff (n : Nat) : BitVec.ofNat 8 (n % 256) ≠ 0 ↔ n % 256 ≠ 0 := by
  rw [ne_eq, ← BitVec.toNat_inj]
  simp

/-- EDID_VALIDATE's tests of the first bytes `x` and the sum `n`: each of the three ways out ends the command (R178). -/
theorem edidVerdict_eq_finish {s : State} {n : Nat} (h : s.seq.acc = BitVec.ofNat 8 (n % 256)) (x : List Byte) :
    edidVerdict (x == edidHeader) s =
      s.finish (if x ≠ edidHeader then .headerNotFound else if n % 256 ≠ 0 then .invalidChecksum else .ok) := by
  by_cases header : x = edidHeader
  · simp only [edidVerdict, h, header, ofNat_mod_ne_zero_iff, apply_ite s.finish, beq_self_eq_true, Bool.not_true,
      Bool.false_eq_true, ne_eq, not_true, if_false]
  · rw [edidVerdict, beq_eq_false_iff_ne.2 header, if_pos header]
    rfl

/-- Settles O52: the total, CHKSUM, and the two tests. -/
theorem edidValidateChecks : Obligations.EdidValidateChecks := by
  intro s bs hl held hq sum
  have total : s.begun.edidTotal = .ok (BitVec.ofNat 8 sum) := State.edidTotal_ok hl (held.congr rfl)
  have header : s.edidHeaderAtStart = .ok (bs.take 8 == edidHeader) := by
    rw [← List.take_append_drop 8 bs] at held
    exact State.edidHeaderAtStart_ok (by rw [List.length_take]; omega) (State.holds_append.1 held).1
  have summed := edidTotal_runs [.chksumFromAcc, .edidVerdict] 0 false s.out s.env.peer total
  have stored := summed.snoc (u := State.busPoint { s.begun with chksum := BitVec.ofNat 8 sum } s.out s.env.peer
    ⟨[.edidVerdict], BitVec.ofNat 8 sum, false⟩) rfl rfl rfl
  have verdict := runMicro_edidVerdict (s := s) (t := State.busPoint { s.begun with chksum := BitVec.ofNat 8 sum } s.out
    s.env.peer ⟨[], BitVec.ofNat 8 sum, false⟩) rfl header
  rw [edidVerdict_eq_finish rfl] at verdict
  exact exec_of_runs rfl (stored.snoc rfl rfl verdict) hq rfl rfl

/-! ### EDID_READ behind the header -/

/-- `s` in a pass of EDID_READ that has the header in EDIDBUF[0..7], received there or put there, and has received `bs` behind
it (R180, R181). -/
def State.inRecord (s : State) (resynced pass : Bool) (bs : List Byte) : State :=
  { s.storeAll .edid 0 (edidHeader ++ bs) with edid := ⟨some (7 + bs.length), true, resynced, pass⟩ }

theorem State.inRecord_nil (s : State) (resynced pass : Bool) :
    s.inRecord resynced pass [] = { s.storeAll .edid 0 edidHeader with edid := ⟨some 7, true, resynced, pass⟩ } := by
  rw [inRecord, List.append_nil]
  rfl

/-- One byte more is stored behind the others, and the cursor moves to it. -/
theorem State.inRecord_snoc (s : State) (resynced pass : Bool) (bs : List Byte) (b : Byte) :
    s.inRecord resynced pass (bs ++ [b]) = { (s.inRecord resynced pass bs).storeByte .edid (7 + bs.length + 1) b with
      edid := ⟨some (7 + bs.length + 1), true, resynced, pass⟩ } := by
  have index : 0 + (edidHeader ++ bs).length = 7 + bs.length + 1 := by simp [edidHeader]; omega
  rw [inRecord, ← List.append_assoc, State.storeAll_append, index, List.length_append, ← Nat.add_assoc]
  rfl

/-- A pass that has received n + 1 bytes has its cursor at byte n (R180). -/
theorem State.inPass_of_length (s : State) (pass : Bool) {bs : List Byte} {n : Nat} (hl : bs.length = n + 1) :
    s.inPass pass bs = { s.storeAll .edid 0 bs with edid := ⟨some n, false, false, pass⟩ } := by
  have : bs ≠ [] := by rintro rfl; cases hl
  rw [inPass, if_neg this, hl, Nat.add_sub_cancel]

/-- Bytes ACKed, then a run whose last byte is NACKed. -/
theorem receivedLastNacked_add (m : Nat) {n : Nat} (hn : 1 ≤ n) :
    receivedLastNacked (m + n) = (List.replicate m (receivedOutputs .low)).flatten ++ receivedLastNacked n := by
  rw [receivedLastNacked, Nat.add_sub_assoc hn, List.replicate_add, List.flatten_append, List.append_assoc]
  rfl

section Steps
variable (s : State) (resynced pass : Bool) (a : Byte) (k : Bool) (ds : List Drives)

/-- The ACK bit of the byte at the cursor: a NACK where it is EDIDBUF[127] (R180). -/
theorem edidAckByte_transfers {s : State} {c : Nat} (hc : s.edid.cursor = some c) :
    Transfers 9 (s.busPoint ⟨.released, .low⟩ (released :: ds) ⟨[.edidAckByte, .edidWhile], a, k⟩)
      (s.busPoint ⟨.released, .low⟩ ds ⟨[.edidWhile], a, k⟩) [⟨if c = 127 then .released else .low, .released⟩] := by
  have answer : edidAckNext s.edid.cursor = mAckBitProc (if c = 127 then .released else .low) := by
    rw [hc, edidAckNext, apply_ite mAckBitProc]
    simp only [Option.some.injEq]
  have called : Transfers 1 (s.busPoint ⟨.released, .low⟩ (released :: ds) ⟨[.edidAckByte, .edidWhile], a, k⟩)
      (s.busPoint ⟨.released, .low⟩ (released :: ds)
        ⟨mAckBitProc (if c = 127 then .released else .low) ++ [Micro.edidWhile], a, k⟩) [] := by
    rw [← answer]
    exact .unsampled rfl rfl rfl
  exact called.trans (mAckBit_transfers s [.edidWhile] a k ds _ .released released rfl)

/-- One byte more behind the header: stored, and ACKed or, the last of the buffer, NACKed. No header is looked for (R180). -/
theorem recordByte_transfers {bs : List Byte} (hl : bs.length < 120) (b : Byte) :
    Transfers 64 ((s.inRecord resynced pass bs).busPoint ⟨.released, .low⟩ (byteScript b ++ ds) ⟨[.edidWhile], a, k⟩)
      ((s.inRecord resynced pass (bs ++ [b])).busPoint ⟨.released, .low⟩ ds ⟨[.edidWhile], b, k⟩)
      (receivedOutputs (if bs.length = 119 then .released else .low)) := by
  have goesOn : edidWhileNext (s.inRecord resynced pass bs).edid.cursor = mRecvProc ++ [Micro.edidStore, .edidAdvance, .edidMatch] :=
    if_neg fun h => by
      have : 7 + bs.length = 127 := Option.some.inj h
      omega
  have looped := edidWhile_transfers a k (senderScript b ++ released :: ds) goesOn ⟨.released, .low⟩
  have received := mRecv_transfers (s.inRecord resynced pass bs) [.edidStore, .edidAdvance, .edidMatch] a k (released :: ds) b
    .released
  have stored : Transfers 3
      ((s.inRecord resynced pass bs).busPoint ⟨.released, .low⟩ (released :: ds) ⟨[.edidStore, .edidAdvance, .edidMatch], b, k⟩)
      ((s.inRecord resynced pass (bs ++ [b])).busPoint ⟨.released, .low⟩ (released :: ds) ⟨[.edidAckByte, .edidWhile], b, k⟩)
      [] := by
    rw [State.inRecord_snoc]
    exact ⟨.unsampled rfl rfl rfl (.unsampled rfl rfl rfl (.unsampled rfl rfl (runMicro_edidMatch_validated rfl) rfl)), rfl⟩
  have acked := edidAckByte_transfers b k ds (s := s.inRecord resynced pass (bs ++ [b])) (c := 7 + bs.length + 1)
    (by rw [State.inRecord_snoc])
  have script : byteScript b ++ ds = senderScript b ++ released :: ds := by simp [byteScript, quietClocks]
  have last : 7 + bs.length + 1 = 127 ↔ bs.length = 119 := by omega
  simp only [last] at acked
  rw [script]
  simpa only [receivedOutputs, List.nil_append, List.append_nil] using ((looped.trans received).trans stored).trans acked

/-- The bytes behind the header up to the end of the buffer, each ACKed but the last, which is NACKed (R180). -/
theorem recordBytes_transfers {bs more : List Byte} (hl : bs.length + more.length = 120) (hb : bs.length < 120) :
    ∃ a', Transfers (64 * more.length)
      ((s.inRecord resynced pass bs).busPoint ⟨.released, .low⟩ (bytesScript more ++ ds) ⟨[.edidWhile], a, k⟩)
      ((s.inRecord resynced pass (bs ++ more)).busPoint ⟨.released, .low⟩ ds ⟨[.edidWhile], a', k⟩)
      (receivedLastNacked more.length) := by
  induction more generalizing a bs with
  | nil => exact absurd hl hb.ne
  | cons b more ih =>
    rw [List.length_cons] at hl
    have first := recordByte_transfers s resynced pass a k (bytesScript more ++ ds) hb b
    have script : bytesScript (b :: more) ++ ds = byteScript b ++ (bytesScript more ++ ds) := List.append_assoc ..
    rw [script]
    by_cases last : bs.length = 119
    · obtain rfl : more = [] := List.length_eq_zero_iff.1 (by omega)
      rw [if_pos last] at first
      exact ⟨b, first⟩
    · rw [if_neg last] at first
      obtain ⟨a', later⟩ := ih b (bs := bs ++ [b]) (by simp; omega) (by simp; omega)
      refine ⟨a', ?_⟩
      rw [List.append_assoc] at later
      rw [List.length_cons, Nat.add_comm more.length 1, receivedLastNacked_add 1 (by omega), Nat.mul_add]
      exact first.trans later

/-- At the end of the buffer the loop ends: STOP, and the result of the tests after the pass (R180, R182). -/
theorem passEnd_transfers {s : State} {code : Result} (hc : s.edid.cursor = some 127)
    (he : edidPassEndNext s.edid.validated s.edid.pass = [.finish code]) :
    Transfers 11 (s.busPoint ⟨.released, .low⟩ (released :: ds) ⟨[.edidWhile], a, k⟩)
      ((s.withOut .released .released).finishedWith code ds) stopOutputs := by
  have atEnd : edidWhileNext s.edid.cursor = mStopProc ++ [Micro.edidPassEnd] := if_pos hc
  have looped := edidWhile_transfers a k (released :: ds) atEnd ⟨.released, .low⟩
  have stop := mStop_transfers s [.edidPassEnd] a k ds .released released rfl
  have tested : Transfers 1 (s.busPoint ⟨.released, .released⟩ ds ⟨[.edidPassEnd], a, k⟩)
      (s.busPoint ⟨.released, .released⟩ ds ⟨[.finish code], a, k⟩) [] := by
    rw [← he]
    exact .unsampled rfl rfl rfl
  have ended : Transfers 1 (s.busPoint ⟨.released, .released⟩ ds ⟨[.finish code], a, k⟩)
      ((s.withOut .released .released).finishedWith code ds) [] := .unsampled rfl rfl rfl
  simpa only [List.nil_append, List.append_nil] using ((looped.trans stop).trans tested).trans ended

/-- The 120 bytes behind the header, STOP, and OK (R180 (a), R181). -/
theorem record_transfers {body : List Byte} (hl : body.length = 120) :
    Transfers 7691
      ((s.inRecord resynced pass []).busPoint ⟨.released, .low⟩ (bytesScript body ++ released :: ds) ⟨[.edidWhile], a, k⟩)
      ((State.withOut { s.storeAll .edid 0 (edidHeader ++ body) with edid := ⟨some 127, true, resynced, pass⟩ } .released
        .released).finishedWith .ok ds) (receivedLastNacked 120 ++ stopOutputs) := by
  obtain ⟨a', bytes⟩ := recordBytes_transfers s resynced pass a k (released :: ds) (bs := []) (more := body)
    (by rw [hl]; rfl) (by decide)
  have full : s.inRecord resynced pass body =
      { s.storeAll .edid 0 (edidHeader ++ body) with edid := ⟨some 127, true, resynced, pass⟩ } := by
    rw [State.inRecord, hl]
  rw [hl, List.nil_append, full] at bytes
  exact bytes.trans (passEnd_transfers a' k ds rfl rfl)

end Steps

/-! ### The last pass of EDID_READ -/

section LastPass
variable (s : State) (pass : Bool) (a : Byte) (k : Bool) (ds : List Drives)

/-- The header comes first: its eight bytes are ACKed, and the pass is validated without a resynchronisation (R180 (a)). -/
theorem headerFirst_transfers :
    Transfers 513
      ((s.inPass pass []).busPoint ⟨.released, .low⟩ (bytesScript edidHeader ++ ds) ⟨[.edidWhile], a, k⟩)
      ((s.inRecord false pass []).busPoint ⟨.released, .low⟩ ds ⟨[.edidWhile], 0, k⟩)
      (List.replicate 8 (receivedOutputs .low)).flatten := by
  have short : ¬ edidHeader <:+: edidHeader.dropLast := fun h => absurd h.length_le (by decide)
  obtain ⟨a', bytes⟩ := edidBytes_transfers s pass a k (senderScript 0 ++ released :: ds) (bs := [])
    (more := edidHeader.dropLast) (by decide) short
  have last := edidStore_transfers s pass a' k (released :: ds) (bs := edidHeader.dropLast) (by decide) 0
  have found := edidMatch_transfers s pass 0 k (released :: ds) (bs := edidHeader) (c := 7) rfl ⟨.released, .low⟩
  rw [decide_eq_true List.suffix_rfl] at found
  have validated : Transfers 1
      ((s.inPass pass edidHeader).busPoint ⟨.released, .low⟩ (released :: ds) ⟨edidMatchNext true 7, 0, k⟩)
      ((s.inRecord false pass []).busPoint ⟨.released, .low⟩ (released :: ds) ⟨[.edidAckByte, .edidWhile], 0, k⟩) [] := by
    rw [State.inRecord_nil, State.inPass_of_length s pass (n := 7) rfl]
    exact .unsampled rfl rfl rfl
  have acked := edidAckByte_transfers 0 k ds (s := s.inRecord false pass []) (c := 7) rfl
  have script : bytesScript edidHeader ++ ds = bytesScript edidHeader.dropLast ++ (senderScript 0 ++ released :: ds) := by
    simp [bytesScript, byteScript, quietClocks, edidHeader]
  rw [script]
  exact (((bytes.trans last).trans found).trans validated).trans acked

/-- A last pass whose record begins with the header (R180 (a)). -/
theorem headerFirstPass_transfers {body : List Byte} (hl : body.length = 120) :
    Transfers 8263 ((s.inPass pass []).busPoint ⟨.low, .released⟩
        (receiverScript true ++ (bytesScript (edidHeader ++ body) ++ released :: ds)) ⟨edidAddressCall, a, k⟩)
      ((State.withOut { s.storeAll .edid 0 (edidHeader ++ body) with edid := ⟨some 127, true, false, pass⟩ } .released
        .released).finishedWith .ok ds) (sentOutputs 0xA1 ++ receivedLastNacked 128 ++ stopOutputs) := by
  have script : bytesScript (edidHeader ++ body) ++ released :: ds =
      bytesScript edidHeader ++ (bytesScript body ++ released :: ds) := by simp [bytesScript]
  rw [script]
  have address := edidAddress_transfers (s.inPass pass []) a k (bytesScript edidHeader ++ (bytesScript body ++ released :: ds))
  have header := headerFirst_transfers s pass a true (bytesScript body ++ released :: ds)
  have record := record_transfers s false pass 0 true ds hl
  rw [receivedLastNacked_add 8 (n := 120) (by decide)]
  simpa only [List.append_assoc] using (address.trans header).trans record

/-- A last pass that resynchronises where the header first ends behind `garbage` (R181). -/
theorem resyncPass_transfers {garbage body : List Byte} (h1 : 1 ≤ garbage.length) (h120 : garbage.length ≤ 120)
    (hg : ∀ j, j < garbage.length → ((garbage ++ edidHeader).drop j).take 8 ≠ edidHeader) (hl : body.length = 120) :
    Transfers (64 * garbage.length + 8331) ((s.inPass pass []).busPoint ⟨.low, .released⟩
        (receiverScript true ++ (bytesScript (garbage ++ edidHeader) ++ released ::
          (receiverScript true ++ (bytesScript body ++ released :: ds)))) ⟨edidAddressCall, a, k⟩)
      ((State.withOut { (s.storeAll .edid 0 (garbage ++ edidHeader)).storeAll .edid 0 (edidHeader ++ body) with
        edid := ⟨some 127, true, true, pass⟩ } .released .released).finishedWith .ok ds)
      (sentOutputs 0xA1 ++ receivedLastNacked (garbage.length + 8) ++ [released] ++ sentOutputs 0xA1 ++
        receivedLastNacked 120 ++ stopOutputs) := by
  have resynced := resync_transfers s pass a k (receiverScript true ++ (bytesScript body ++ released :: ds)) h1 h120 hg
  have address := edidAddress_transfers (s.resyncedOn pass (garbage ++ edidHeader)) 0 true (bytesScript body ++ released :: ds)
  have record := record_transfers (s.storeAll .edid 0 (garbage ++ edidHeader)) true pass 0 true ds hl
  rw [State.inRecord_nil] at record
  simpa only [List.append_assoc] using (resynced.trans address).trans record

/-- A second pass without the header (R180 (d), R182). -/
theorem headerlessPass_transfers {bs : List Byte} (h : noHeaderIn bs) :
    Transfers 8262 ((s.inPass true []).busPoint ⟨.low, .released⟩
        (receiverScript true ++ (bytesScript bs ++ released :: ds)) ⟨edidAddressCall, a, k⟩)
      ((State.withOut { s.storeAll .edid 0 bs with edid := ⟨some 127, false, false, true⟩ } .released .released).finishedWith
        .headerNotFound ds) (sentOutputs 0xA1 ++ receivedLastNacked 128 ++ stopOutputs) := by
  have address := edidAddress_transfers (s.inPass true []) a k (bytesScript bs ++ released :: ds)
  obtain ⟨a', bytes⟩ := edidAllBytes_transfers s a true (released :: ds) true h
  rw [s.inPass_of_length true (n := 127) h.1] at bytes
  exact (address.trans bytes).trans (passEnd_transfers a' true ds rfl rfl)

end LastPass

/-! ### EDID_READ to its end -/

/-- EDID_READ by what its last pass does from the address byte on: after at most one pass that failed, the last pass leaves the
128 bytes `record`, the variables `e` and the result. `earlier` is what it stored before them. -/
theorem edidRead_completes {s : State} {failed : List (List Byte)} {earlier record : List Byte} {e : EdidVars} {code : Result}
    {n : Nat} {script ds rest outs : List Drives} (hm : s.ctrl.mode = .master) (hf : atMostOneFailed failed)
    (hs : s.undisturbed 40000 script rest) (hp : script ++ rest = failedScript failed ++ released :: ds) (hn : n ≤ 30000)
    (he : earlier.length ≤ 128) (hr : record.length = 128)
    (h : ∀ (u : State) (a : Byte) (k : Bool), Transfers n
      ((u.inPass (!failed.isEmpty) []).busPoint ⟨.low, .released⟩ ds ⟨edidAddressCall, a, k⟩)
      ((State.withOut { (u.storeAll .edid 0 earlier).storeAll .edid 0 record with edid := e } .released .released).finishedWith
        code rest) outs) :
    (∃ m, exec .edidRead s = .next (({ s with mem := m, edid := e }.withOut .released .released).finishedWith code rest) ∧
      State.holds { s with mem := m } .edid 0 record ∧ sameOutside s { s with mem := m } .edid 0 128) ∧
    s.drives .edidRead 40000 ([⟨s.out.sda, .released⟩] ++ failedOutputs failed ++ outs) := by
  obtain ⟨ended, driven⟩ := exec_and_drives (i := .edidRead) (code := code)
    (outs := [⟨s.out.sda, .released⟩] ++ failedOutputs failed ++ outs)
    (fun u => State.withOut { ((u.storeAll .edid 0 failed.flatten).storeAll .edid 0 earlier).storeAll .edid 0 record with
      edid := e } .released .released) rfl hm hs fun u => by
    obtain ⟨a, k, reached⟩ := edidRead_transfers u.begun ds s.out hf
    have atMostOne := hf.1
    rw [hp]
    exact ⟨failed.length * 8272 + 11 + n, by omega, reached.trans (h (u.begun.storeAll .edid 0 failed.flatten) a k)⟩
  have failedLength : failed.flatten.length ≤ 128 := by
    rw [hf.flatten_length]
    split <;> omega
  have outside := (((sameOutside.refl s .edid 0 128).storeAll failedLength).storeAll he).storeAll hr.le
  obtain ⟨held, -⟩ := ((s.storeAll .edid 0 failed.flatten).storeAll .edid 0 earlier).storeAll_spec .edid 0 record
  exact ⟨⟨_, ended, held.congr rfl, fun a ha => outside a ha⟩, driven⟩

/-- Settles O54: the record is the header and the 120 bytes behind it. -/
theorem edidReadHeaderAtStart : Obligations.EdidReadHeaderAtStart := by
  intro s failed bs rest hm hf hl hh hs
  obtain ⟨body, rfl⟩ : ∃ body, bs = edidHeader ++ body := ⟨bs.drop 8, by rw [← hh, List.take_append_drop]⟩
  have body_length : body.length = 120 := by simpa [edidHeader] using hl
  obtain ⟨completes, driven⟩ := edidRead_completes (earlier := []) hm hf hs (by simp [readScript, quietClocks]) (by decide)
    (Nat.zero_le _) hl fun u a k => headerFirstPass_transfers u (!failed.isEmpty) a k rest body_length
  exact ⟨completes, by simpa only [List.append_assoc] using driven⟩

/-- Settles O55: the 128 bytes of the restarted read lie over those the pass stored before it. -/
theorem edidReadResynchronises : Obligations.EdidReadResynchronises := by
  intro s failed garbage body rest hm hf h1 h120 hl hg hs
  obtain ⟨completes, driven⟩ := edidRead_completes (earlier := garbage ++ edidHeader) hm hf hs
    (by simp [readScript, quietClocks]) (by omega) (by simp [edidHeader]; omega) (by simp [edidHeader, hl])
    fun u a k => resyncPass_transfers u (!failed.isEmpty) a k rest h1 h120 hg hl
  exact ⟨completes, by simpa only [List.append_assoc] using driven⟩

/-- Settles O56: the second pass is the last, and its 128 bytes lie over the first's. -/
theorem edidReadFailsAfterTwoPasses : Obligations.EdidReadFailsAfterTwoPasses := by
  intro s one two rest hm hone htwo hs
  obtain ⟨completes, driven⟩ := edidRead_completes (earlier := []) hm hone.atMostOneFailed hs
    (by simp [readScript, quietClocks]) (by decide) (Nat.zero_le _) htwo.1
    fun u a k => headerlessPass_transfers u a k rest htwo
  exact ⟨completes, by simpa only [List.append_assoc] using driven⟩

end Sys2Proof.Machine
end

section
/-! SUPPORT and CERTIFICATE. The mode check (spec/60_exceptions.md R203): MODE_ERROR is the result of the check alone, since no
step that a command goes on with can report it. -/

namespace Sys2Proof.Machine

/-! ### Steps that do not report MODE_ERROR -/

/-- The step is not `finish(MODE_ERROR)`. -/
def Micro.sparesModeError : Micro → Bool
  | .finish r => r != .modeError
  | _ => true

/-- No step of the program is `finish(MODE_ERROR)`. -/
def sparesModeError (ms : List Micro) : Prop := ms.all Micro.sparesModeError = true

theorem sparesModeError_cons {m : Micro} {ms : List Micro} :
    sparesModeError (m :: ms) ↔ m.sparesModeError = true ∧ sparesModeError ms := by
  simp only [sparesModeError, List.all_cons, Bool.and_eq_true]

theorem sparesModeError_append {ms ns : List Micro} :
    sparesModeError (ms ++ ns) ↔ sparesModeError ms ∧ sparesModeError ns := by
  simp only [sparesModeError, List.all_append, Bool.and_eq_true]

/-! ### What the commands go on with -/

theorem automatonRow_sparesModeError {st : SlaveState} {clock : Event} {count : Nat} {sda : Level} {actions : List Micro}
    (h : automatonRow st clock count sda = some actions) : sparesModeError actions := by
  unfold automatonRow at h
  split at h
  case h_4 => split_ifs at h <;> (cases h; rfl)
  case h_6 => cases h
  all_goals cases h; rfl

theorem getByteNext_sparesModeError (a : Automaton) (cur : Levels) : sparesModeError (getByteNext a cur) := by
  unfold getByteNext
  split
  · rfl
  split
  · rfl
  split
  · next hr => exact sparesModeError_append.2 ⟨automatonRow_sparesModeError hr, rfl⟩
  · rfl

theorem waitClockNext_sparesModeError (e : Event) (previous cur : Levels) {rest : List Micro} (h : sparesModeError rest) :
    sparesModeError (waitClockNext e previous cur rest) := by
  unfold waitClockNext
  split_ifs
  · rfl
  · rfl
  · exact h
  · exact sparesModeError_append.2 ⟨rfl, h⟩

theorem sendToMasterEndNext_sparesModeError (acked : Bool) : sparesModeError (sendToMasterEndNext acked) := by
  cases acked <;> rfl

theorem stopIfNackNext_sparesModeError (acked : Bool) {rest : List Micro} (h : sparesModeError rest) :
    sparesModeError (stopIfNackNext acked rest) := by
  cases acked
  · rfl
  · exact h

theorem rxcheckNext_sparesModeError (c : LengthClass) : sparesModeError (rxcheckNext c) := by
  cases c <;> rfl

theorem readLengthNext_sparesModeError (c : LengthClass) : sparesModeError (readLengthNext c) := by
  cases c with
  | null => rfl
  | invalid => rfl
  | valid n =>
    have payload : sparesModeError ((List.range n).flatMap readPayloadByte) := all_flatMap_of_forall fun _ _ => rfl
    simp only [readLengthNext, sparesModeError_append]
    exact ⟨⟨⟨⟨⟨⟨rfl, payload⟩, rfl⟩, rfl⟩, rfl⟩, rfl⟩, rfl⟩

theorem edidWhileNext_sparesModeError (c : Option Nat) : sparesModeError (edidWhileNext c) := by
  unfold edidWhileNext; split <;> rfl

theorem edidMatchNext_sparesModeError (matched : Bool) (c : Nat) : sparesModeError (edidMatchNext matched c) := by
  unfold edidMatchNext; split_ifs <;> rfl

theorem edidAckNext_sparesModeError (c : Option Nat) : sparesModeError (edidAckNext c) := by
  unfold edidAckNext; split <;> rfl

theorem edidPassEndNext_sparesModeError (validated pass : Bool) : sparesModeError (edidPassEndNext validated pass) := by
  unfold edidPassEndNext; split_ifs <;> rfl

theorem commandProgram_sparesModeError (i : Instr) : sparesModeError (commandProgram i) := by
  cases i
  case ddcBuild n => simp only [commandProgram, ifLengthAllowed]; split_ifs <;> rfl
  case lenCheck l => simp only [commandProgram, lenCheckProc]; split <;> rfl
  case ddcWrite n =>
    have bytes (k : Nat) : sparesModeError (ddcSendProc k) := all_flatMap_of_forall fun _ _ => rfl
    simp only [commandProgram, ifLengthAllowed]
    split_ifs
    · rfl
    · simp only [sparesModeError_append]
      exact ⟨⟨⟨⟨rfl, rfl⟩, bytes _⟩, rfl⟩, rfl⟩
  case ddcRead =>
    simp only [commandProgram, sparesModeError_append]
    exact ⟨⟨⟨⟨⟨⟨⟨rfl, rfl⟩, rfl⟩, rfl⟩, rfl⟩, rfl⟩, rfl⟩, rfl⟩
  all_goals rfl

/-! ### States that do not report MODE_ERROR -/

/-- Idle, the state shows another result than MODE_ERROR; and no step that is left reports it. -/
structure State.SparesModeError (s : State) : Prop where
  result : s.status.busy = false → s.status.result ≠ .modeError
  position : sparesModeError s.seq.todo

section Kept
variable {s t : State}

theorem State.SparesModeError.goesOn (h : s.SparesModeError) (hs : t.status = s.status) (ht : sparesModeError t.seq.todo) :
    t.SparesModeError := ⟨by rw [hs]; exact h.result, ht⟩

theorem State.SparesModeError.plain (h : s.SparesModeError) (hs : t.status = s.status) (ht : t.seq.todo = s.seq.todo) :
    t.SparesModeError := h.goesOn hs (ht ▸ h.position)

theorem State.SparesModeError.push (h : s.SparesModeError) {ms : List Micro} (hm : sparesModeError ms) :
    (s.push ms).SparesModeError := h.goesOn rfl (sparesModeError_append.2 ⟨hm, h.position⟩)

theorem State.SparesModeError.drawn (h : s.SparesModeError) : s.drawn.SparesModeError := h.plain (by simp) (by simp)

theorem State.SparesModeError.slaveSample (h : s.SparesModeError) {next : List Micro} (hn : sparesModeError next) :
    (s.slaveSample next).SparesModeError := h.drawn.goesOn rfl (sparesModeError_cons.2 ⟨rfl, hn⟩)

theorem State.finish_sparesModeError {r : Result} (hr : r ≠ .modeError) : (s.finish r).SparesModeError := ⟨fun _ => hr, rfl⟩

/-- A poll at the bound aborts with BUS_TIMEOUT (spec/40_engine_master.md R112). -/
theorem pollNext_sparesModeError (h : s.SparesModeError) (k : Nat) (scl : Level) : (pollNext k scl s).SparesModeError := by
  unfold pollNext
  split
  · exact h
  · split_ifs
    · exact h.goesOn rfl rfl
    · exact h.push rfl

theorem edidVerdict_sparesModeError (b : Bool) : (edidVerdict b s).SparesModeError := by
  unfold edidVerdict; split_ifs <;> exact State.finish_sparesModeError (by decide)

/-- A step other than `finish(MODE_ERROR)` neither reports MODE_ERROR nor goes on with a step that does. -/
theorem runMicro_sparesModeError {m : Micro} (hm : m.sparesModeError = true) (hs : s.SparesModeError)
    (h : runMicro m s = .next t) : t.SparesModeError := by
  cases m <;> simp only [runMicro] at h
  -- tests of the lines, and samples
  case clockLowGuard => cases h; split_ifs <;> [exact hs.push rfl; exact hs]
  case releaseStretch => cases h; split_ifs <;> exact hs.plain rfl rfl
  case releaseStretchDelayed => cases h; split_ifs <;> [exact hs.push rfl; exact hs]
  case applyStretch => cases h; unfold applyStretch; split_ifs <;> exact hs.plain rfl rfl
  case pollScl k => cases h; exact pollNext_sparesModeError hs.drawn k _
  case sampleAck => cases h; exact hs.drawn.plain rfl rfl
  case sampleBit => cases h; exact hs.drawn.plain rfl rfl
  case getSample => cases h; exact hs.slaveSample (getByteNext_sparesModeError _ _)
  case waitSample => cases h; exact hs.slaveSample (waitClockNext_sparesModeError _ _ _ hs.position)
  -- programs that the ACK, the buffers, the length byte or the EDID variables choose
  case sendToMasterEnd => cases h; exact hs.goesOn rfl (sendToMasterEndNext_sparesModeError _)
  case sendTx => obtain ⟨v, -, rfl⟩ := withByte_next h; exact hs.push rfl
  case stopIfNack => cases h; exact hs.goesOn rfl (stopIfNackNext_sparesModeError _ hs.position)
  case rxcheckLength => obtain ⟨v, -, rfl⟩ := withByte_next h; exact hs.goesOn rfl (rxcheckNext_sparesModeError _)
  case readLength => cases h; exact hs.goesOn rfl (readLengthNext_sparesModeError _)
  case edidWhile => cases h; exact hs.goesOn rfl (edidWhileNext_sparesModeError _)
  case edidMatch =>
    have next (b : Bool) (c : Nat) : (s.jump (edidMatchNext b c)).SparesModeError :=
      hs.goesOn rfl (edidMatchNext_sparesModeError b c)
    split_ifs at h
    · cases h; exact next _ _
    · obtain ⟨b, -, rfl⟩ := withTest_next h; exact next _ _
  case edidAckByte => cases h; exact hs.push (edidAckNext_sparesModeError _)
  case edidPassEnd => cases h; exact hs.goesOn rfl (edidPassEndNext_sparesModeError _ _)
  -- ends
  case finish r => cases h; exact State.finish_sparesModeError (bne_iff_ne.1 hm)
  case finishAck => cases h; exact State.finish_sparesModeError (by split <;> decide)
  case rxVerdict => obtain ⟨v, -, rfl⟩ := withByte_next h; exact State.finish_sparesModeError (by split <;> decide)
  case edidVerdict => obtain ⟨b, -, rfl⟩ := withTest_next h; exact edidVerdict_sparesModeError b
  -- sums
  case txsum => obtain ⟨v, -, rfl⟩ := withByte_next h; exact hs.plain rfl rfl
  case rxsum => obtain ⟨v, -, rfl⟩ := withByte_next h; exact hs.plain rfl rfl
  case edidsum => obtain ⟨v, -, rfl⟩ := withByte_next h; exact hs.plain rfl rfl
  case edidTotal => obtain ⟨v, -, rfl⟩ := withByte_next h; exact hs.plain rfl rfl
  -- every other step goes on with what was left
  all_goals cases h; exact hs.plain rfl rfl

theorem controllerStep_sparesModeError (hs : s.SparesModeError) (h : controllerStep s = .next t) : t.SparesModeError := by
  cases ht : s.seq.todo with
  | nil => rw [controllerStep_idle ht] at h; cases h; exact hs
  | cons m rest =>
    rw [controllerStep_cons ht] at h
    obtain ⟨hm, hrest⟩ := sparesModeError_cons.1 (ht ▸ hs.position)
    exact runMicro_sparesModeError hm (hs.goesOn (t := s.jump rest) rfl hrest) h

theorem runController_sparesModeError {n : Nat} (hs : s.SparesModeError) (h : runController n s = .next t) :
    t.SparesModeError :=
  runController_keeps (fun _ _ h => h.plain rfl rfl) (fun _ _ h _ hc => controllerStep_sparesModeError h hc) hs h

end Kept

/-! ### The mode check -/

/-- A command in the mode it needs is busy from its first position on, and finishes by its own steps. -/
theorem exec_sparesModeError {i : Instr} {s t : State} (hm : modeAllows (neededMode i) s = true) (h : exec i s = .next t) :
    t.SparesModeError := by
  rw [exec_eq_runCommand, runCommand_allowed hm] at h
  have started : (s.start (commandProgram i)).SparesModeError :=
    ⟨fun hb => absurd hb (by simp), commandProgram_sparesModeError i⟩
  exact runController_sparesModeError started h

theorem exec_wrongMode {i : Instr} {s : State}
    (h : neededMode i = some (if s.ctrl.mode = .master then .slave else .master)) :
    exec i s = .next (s.finish .modeError) := by
  have refused : modeAllows (neededMode i) s = false := by
    rw [h]; cases hm : s.ctrl.mode <;> simp [modeAllows, hm]
  rw [exec_eq_runCommand, runCommand_wrongMode refused]

/-- Settles O19: the check itself is the only source of MODE_ERROR. -/
theorem modeCheck : Obligations.ModeCheck := by
  intro i s
  refine ⟨exec_wrongMode, fun t need run idle => (exec_sparesModeError ?_ run).result idle⟩
  rcases need with h | h <;> simp [modeAllows, h]

end Sys2Proof.Machine
end
